-- ==== Sys2Proof/Word.lean ====
section
/-! DEFINITION. The word types of RL-CORE: 64-bit registers and command words, 16-bit symbols and table entries, bytes. -/

namespace Sys2Proof

/-- A host register, a command word or a token word: 64 bits (10_state.md, 30_encoding.md R100). -/
abbrev Word := BitVec 64

/-- An element of SEQ, DSEQ or a cost table: 16 bits (20_memory.md R70). -/
abbrev Half := BitVec 16

/-- An element of OBUF or IBUF: 8 bits (20_memory.md R70). -/
abbrev Byte := BitVec 8

/-- A natural shown zero-extended in a 64-bit register (10_state.md R43, R44). -/
abbrev toWord (n : Nat) : Word := BitVec.ofNat 64 n

end Sys2Proof
end

