-- ==== Sys2Proof/Syntax.lean ====
section
/-! DEFINITION. The 26 commands of RL-CORE, one constructor per row of spec/opcode_table.json (30_encoding.md R107). -/

namespace Sys2Proof

/-- The coding direction that INIT selects (40_control.md R131): imm[0] = 0 encode, 1 decode. -/
inductive Direction where
  | encode
  | decode
  deriving DecidableEq, Repr

/-- A command with its immediate operands. The operands are the naturals 30_encoding.md R101 gives: `sym`, `idx` and `byte`
immediates below 2^32; TABLE below 16 and INDEX below 2^28 for `csel` (R105). Wide operands are in the latched ARGs (R102). -/
inductive Instr where
  | nop
  | init (m : Direction)
  | stmPush (sym : Nat)
  | stmQuery (idx : Nat)
  | stmRead (idx : Nat)
  | psuParse
  | psuToken (idx : Nat)
  | psuSetcost (table : Nat) (index : Nat)
  | psuGetcost (table : Nat) (index : Nat)
  | psuExpand
  | psuDread (idx : Nat)
  | rcEncode
  | rcFinish
  | rcOutbyte (idx : Nat)
  | rcInbyte (byte : Nat)
  | rcDstart
  | rcFetch
  | rcDecode
  | ppmEncode (sym : Nat)
  | ppmDecode
  | ppmHasesc (sym : Nat)
  | ppmNumden
  | ppmCdf (sym : Nat)
  | ppmIcdf
  | ppmEscape
  | ppmUpdate (sym : Nat)
  deriving DecidableEq, Repr

end Sys2Proof
end

