-- ==== Sys2Proof/WellFormed.lean ====
section
/-! DEFINITION. Which terms of `Instr` are commands: every operand fits the bits its encoding gives it (30_encoding.md R101, R105). -/

namespace Sys2Proof

/-- A `sym`, `idx` or `byte` immediate is a natural below 2^32 (30_encoding.md R101). -/
def Instr.immFits (imm : Nat) : Bool := decide (imm < 2 ^ 32)

/-- A `csel` immediate: TABLE has 4 bits and INDEX 28 (30_encoding.md R105). -/
def Instr.cselFits (table index : Nat) : Bool := decide (table < 2 ^ 4) && decide (index < 2 ^ 28)

/-- Every operand of the command fits its field. Range checks the spec makes at execution (a symbol below A, an index below a length) are not well-formedness. -/
def Instr.wellFormed : Instr → Bool
  | .nop => true
  | .init _ => true
  | .stmPush sym => immFits sym
  | .stmQuery idx => immFits idx
  | .stmRead idx => immFits idx
  | .psuParse => true
  | .psuToken idx => immFits idx
  | .psuSetcost table index => cselFits table index
  | .psuGetcost table index => cselFits table index
  | .psuExpand => true
  | .psuDread idx => immFits idx
  | .rcEncode => true
  | .rcFinish => true
  | .rcOutbyte idx => immFits idx
  | .rcInbyte byte => immFits byte
  | .rcDstart => true
  | .rcFetch => true
  | .rcDecode => true
  | .ppmEncode sym => immFits sym
  | .ppmDecode => true
  | .ppmHasesc sym => immFits sym
  | .ppmNumden => true
  | .ppmCdf sym => immFits sym
  | .ppmIcdf => true
  | .ppmEscape => true
  | .ppmUpdate sym => immFits sym

end Sys2Proof
end

