-- ==== Sys2Proof/Decode.lean ====
section
/-! DEFINITION. Command words to commands and back (30_encoding.md R100 to R108), and the token words (R104). -/

namespace Sys2Proof

/-- `v[hi:lo]`: the field from bit hi down to bit lo, read as an unsigned integer (00_scope.md R9). -/
def bitField (v : Word) (hi lo : Nat) : Nat := v.toNat / 2 ^ lo % 2 ^ (hi + 1 - lo)

/-- How an opcode uses IMM (30_encoding.md R101). `unused` is the spec's kind `none`. -/
inductive ImmKind where
  | unused
  | sym
  | idx
  | byte
  | mode
  | csel
  deriving DecidableEq, Repr

/-- The rows of the opcode table (30_encoding.md R107). -/
inductive Opcode where
  | nop | init
  | stmPush | stmQuery | stmRead
  | psuParse | psuToken | psuSetcost | psuGetcost | psuExpand | psuDread
  | rcEncode | rcFinish | rcOutbyte | rcInbyte | rcDstart | rcFetch | rcDecode
  | ppmEncode | ppmDecode | ppmHasesc | ppmNumden | ppmCdf | ppmIcdf | ppmEscape | ppmUpdate
  deriving DecidableEq, Repr

/-- Why a word is no command: each is ILLEGAL_CMD (30_encoding.md R103). -/
inductive Reject where
  /-- OP is not in the table of R107. -/
  | unknownOpcode
  /-- RSV is not 0. -/
  | reservedNotZero
  /-- The opcode's kind is `none` and IMM is not 0. -/
  | immediateNotZero
  /-- The opcode is INIT and imm[31:1] is not 0. -/
  | modeBitsNotZero
  deriving DecidableEq, Repr

/-- What decoding a word gives. -/
inductive Decoded where
  | command (i : Instr)
  | rejected (r : Reject)
  deriving DecidableEq, Repr

namespace Opcode

/-- The OP column of 30_encoding.md R107. -/
def code : Opcode → Nat
  | .nop => 0x00
  | .init => 0x01
  | .stmPush => 0x10
  | .stmQuery => 0x11
  | .stmRead => 0x12
  | .psuParse => 0x20
  | .psuToken => 0x21
  | .psuSetcost => 0x22
  | .psuGetcost => 0x23
  | .psuExpand => 0x24
  | .psuDread => 0x25
  | .rcEncode => 0x30
  | .rcFinish => 0x31
  | .rcOutbyte => 0x32
  | .rcInbyte => 0x33
  | .rcDstart => 0x34
  | .rcFetch => 0x35
  | .rcDecode => 0x36
  | .ppmEncode => 0x40
  | .ppmDecode => 0x41
  | .ppmHasesc => 0x42
  | .ppmNumden => 0x43
  | .ppmCdf => 0x44
  | .ppmIcdf => 0x45
  | .ppmEscape => 0x46
  | .ppmUpdate => 0x47

/-- Every row of the table, in its order. -/
def all : List Opcode :=
  [.nop, .init, .stmPush, .stmQuery, .stmRead, .psuParse, .psuToken, .psuSetcost, .psuGetcost, .psuExpand, .psuDread,
   .rcEncode, .rcFinish, .rcOutbyte, .rcInbyte, .rcDstart, .rcFetch, .rcDecode,
   .ppmEncode, .ppmDecode, .ppmHasesc, .ppmNumden, .ppmCdf, .ppmIcdf, .ppmEscape, .ppmUpdate]

/-- The opcode with a given OP value, if the table has one. -/
def ofCode (op : Nat) : Option Opcode := all.find? (fun o => o.code == op)

/-- The "IMM kind" column of 30_encoding.md R107. -/
def kind : Opcode → ImmKind
  | .nop => .unused
  | .init => .mode
  | .stmPush => .sym
  | .stmQuery => .idx
  | .stmRead => .idx
  | .psuParse => .unused
  | .psuToken => .idx
  | .psuSetcost => .csel
  | .psuGetcost => .csel
  | .psuExpand => .unused
  | .psuDread => .idx
  | .rcEncode => .unused
  | .rcFinish => .unused
  | .rcOutbyte => .idx
  | .rcInbyte => .byte
  | .rcDstart => .unused
  | .rcFetch => .unused
  | .rcDecode => .unused
  | .ppmEncode => .sym
  | .ppmDecode => .unused
  | .ppmHasesc => .sym
  | .ppmNumden => .unused
  | .ppmCdf => .sym
  | .ppmIcdf => .unused
  | .ppmEscape => .unused
  | .ppmUpdate => .sym

end Opcode

/-- The direction imm[0] selects (30_encoding.md R101, kind `mode`). -/
def Direction.ofBit (b : Nat) : Direction := if b % 2 = 0 then .encode else .decode

/-- imm[0] of a direction. -/
def Direction.bit : Direction → Nat
  | .encode => 0
  | .decode => 1

/-- TABLE = imm[31:28] (30_encoding.md R105). -/
def cselTable (imm : Nat) : Nat := imm / 2 ^ 28

/-- INDEX = imm[27:0] (30_encoding.md R105). -/
def cselIndex (imm : Nat) : Nat := imm % 2 ^ 28

/-- The immediate that holds TABLE and INDEX (30_encoding.md R105). -/
def cselImm (table index : Nat) : Nat := table * 2 ^ 28 + index

/-- The command of an opcode and its immediate. -/
def Opcode.build (o : Opcode) (imm : Nat) : Instr :=
  match o with
  | .nop => .nop
  | .init => .init (Direction.ofBit imm)
  | .stmPush => .stmPush imm
  | .stmQuery => .stmQuery imm
  | .stmRead => .stmRead imm
  | .psuParse => .psuParse
  | .psuToken => .psuToken imm
  | .psuSetcost => .psuSetcost (cselTable imm) (cselIndex imm)
  | .psuGetcost => .psuGetcost (cselTable imm) (cselIndex imm)
  | .psuExpand => .psuExpand
  | .psuDread => .psuDread imm
  | .rcEncode => .rcEncode
  | .rcFinish => .rcFinish
  | .rcOutbyte => .rcOutbyte imm
  | .rcInbyte => .rcInbyte imm
  | .rcDstart => .rcDstart
  | .rcFetch => .rcFetch
  | .rcDecode => .rcDecode
  | .ppmEncode => .ppmEncode imm
  | .ppmDecode => .ppmDecode
  | .ppmHasesc => .ppmHasesc imm
  | .ppmNumden => .ppmNumden
  | .ppmCdf => .ppmCdf imm
  | .ppmIcdf => .ppmIcdf
  | .ppmEscape => .ppmEscape
  | .ppmUpdate => .ppmUpdate imm

/-- OP = w[7:0] (30_encoding.md R100). -/
def opOf (w : Word) : Nat := bitField w 7 0

/-- IMM = w[39:8] (30_encoding.md R100). -/
def immOf (w : Word) : Nat := bitField w 39 8

/-- RSV = w[63:40] (30_encoding.md R100). -/
def rsvOf (w : Word) : Nat := bitField w 63 40

/-- Decoding a command word, check by check as 30_encoding.md R103 lists them. Total: every word is a command or is rejected by name (R106). -/
def decode (w : Word) : Decoded :=
  match Opcode.ofCode (opOf w) with
  | none => .rejected .unknownOpcode
  | some o =>
    if rsvOf w ≠ 0 then .rejected .reservedNotZero
    else if o.kind = .unused ∧ immOf w ≠ 0 then .rejected .immediateNotZero
    else if o.kind = .mode ∧ bitField w 39 9 ≠ 0 then .rejected .modeBitsNotZero
    else .command (o.build (immOf w))

/-- The opcode of a command (30_encoding.md R107). -/
def Instr.opcode : Instr → Opcode
  | .nop => .nop
  | .init _ => .init
  | .stmPush _ => .stmPush
  | .stmQuery _ => .stmQuery
  | .stmRead _ => .stmRead
  | .psuParse => .psuParse
  | .psuToken _ => .psuToken
  | .psuSetcost _ _ => .psuSetcost
  | .psuGetcost _ _ => .psuGetcost
  | .psuExpand => .psuExpand
  | .psuDread _ => .psuDread
  | .rcEncode => .rcEncode
  | .rcFinish => .rcFinish
  | .rcOutbyte _ => .rcOutbyte
  | .rcInbyte _ => .rcInbyte
  | .rcDstart => .rcDstart
  | .rcFetch => .rcFetch
  | .rcDecode => .rcDecode
  | .ppmEncode _ => .ppmEncode
  | .ppmDecode => .ppmDecode
  | .ppmHasesc _ => .ppmHasesc
  | .ppmNumden => .ppmNumden
  | .ppmCdf _ => .ppmCdf
  | .ppmIcdf => .ppmIcdf
  | .ppmEscape => .ppmEscape
  | .ppmUpdate _ => .ppmUpdate

/-- The immediate of a command; 0 where the opcode uses none (30_encoding.md R101, R105). -/
def Instr.imm : Instr → Nat
  | .nop => 0
  | .init m => m.bit
  | .stmPush sym => sym
  | .stmQuery idx => idx
  | .stmRead idx => idx
  | .psuParse => 0
  | .psuToken idx => idx
  | .psuSetcost table index => cselImm table index
  | .psuGetcost table index => cselImm table index
  | .psuExpand => 0
  | .psuDread idx => idx
  | .rcEncode => 0
  | .rcFinish => 0
  | .rcOutbyte idx => idx
  | .rcInbyte byte => byte
  | .rcDstart => 0
  | .rcFetch => 0
  | .rcDecode => 0
  | .ppmEncode sym => sym
  | .ppmDecode => 0
  | .ppmHasesc sym => sym
  | .ppmNumden => 0
  | .ppmCdf sym => sym
  | .ppmIcdf => 0
  | .ppmEscape => 0
  | .ppmUpdate sym => sym

/-- The command word of a well-formed command: OP in [7:0], IMM in [39:8], RSV = 0 (30_encoding.md R100). -/
def encode (i : Instr) : Word := toWord (i.opcode.code + i.imm * 2 ^ 8)

/-- The host's name for the decoder on a table row's bits: bit 0 of w is bit 0 of the command word, and the bits at nbits and above are 0. -/
def decodeTableWord (nbits w : Nat) : Option Instr :=
  match decode (toWord (w % 2 ^ nbits)) with
  | .command i => some i
  | .rejected _ => none

end Sys2Proof
end

