-- ==== Sys2Proof/Config.lean ====
section
/-! DEFINITION. What an implementation fixes: the parameters of an RL-CORE instance (00_scope.md R6, R7), and the free values the spec leaves open. -/

namespace Sys2Proof

/-- The parameters of one instance, each within its legal range (00_scope.md R6), with the constraint of R7.
An illegal instance cannot be written down: "a model refuses to be built for it" (R7).
The defaults are the spec's; CTX_CAP and REG_BASE are OPEN there (DESIGN CHOICE 0, unsafe, log 1). -/
structure Params where
  /-- N_BYTES: width of low, range and data in bytes. -/
  nBytes : Nat := 8
  /-- A_MAX: largest alphabet size. -/
  aMax : Nat := 65536
  /-- W_MAX: largest window width. -/
  wMax : Nat := 2 ^ 24
  /-- MAXLEN_MAX: largest maximum match length. -/
  maxlenMax : Nat := 65535
  /-- SEQ_CAP: capacity of SEQ, DSEQ and the PPM history, in symbols. -/
  seqCap : Nat := 2 ^ 20
  /-- OBUF_CAP: capacity of the output byte buffer. -/
  obufCap : Nat := 2 ^ 22
  /-- IBUF_CAP: capacity of the input byte buffer. -/
  ibufCap : Nat := 2 ^ 22
  /-- K_MAX: largest context order. -/
  kMax : Nat := 8
  /-- CTX_CAP: largest number of non-empty context tables, 0 meaning unbounded. -/
  ctxCap : Nat := 0
  /-- REG_BASE: where the platform puts the register window (20_memory.md R78). -/
  regBase : Nat := 0
  nBytes_legal : 3 ≤ nBytes ∧ nBytes ≤ 8 := by decide
  aMax_legal : 1 ≤ aMax ∧ aMax ≤ 65536 := by decide
  wMax_legal : 1 ≤ wMax ∧ wMax ≤ 2 ^ 24 := by decide
  maxlenMax_legal : 1 ≤ maxlenMax ∧ maxlenMax ≤ 65535 := by decide
  seqCap_legal : 1 ≤ seqCap ∧ seqCap ≤ 2 ^ 24 := by decide
  obufCap_legal : nBytes ≤ obufCap ∧ obufCap ≤ 2 ^ 40 := by decide
  ibufCap_legal : nBytes ≤ ibufCap ∧ ibufCap ≤ 2 ^ 40 := by decide
  kMax_legal : kMax ≤ 15 := by decide
  ctxCap_legal : ctxCap ≤ 2 ^ 40 := by decide
  total_legal : 2 * seqCap + aMax ≤ 2 ^ (8 * nBytes - 16) := by decide
  deriving DecidableEq, Repr

namespace Params

/-- B, the width of the range coder's registers in bits (00_scope.md R6). -/
def bits (p : Params) : Nat := 8 * p.nBytes

/-- 2^B: the range-coder registers are naturals below it. -/
def modulus (p : Params) : Nat := 2 ^ p.bits

/-- FLOOR = 2^(B-8) - 1, the renormalization floor (00_scope.md R6). -/
def floor (p : Params) : Nat := 2 ^ (p.bits - 8) - 1

/-- TOTAL_MAX = 2^(B-16), the largest legal total frequency (00_scope.md R6). -/
def totalMax (p : Params) : Nat := 2 ^ (p.bits - 16)

end Params

/-- FREE VALUE: what the n-th drawn register read returns (70_reset_and_hazards.md R342: "any value of the register's width, under no law"). Log 3. -/
opaque Config.freeRead : Nat → Word

end Sys2Proof
end

