-- ==== Sys2Proof/Machine/State.lean ====
section
/-! DEFINITION. The state of RL-CORE as plain data, its reset value, and the reasons a step can stop. -/

namespace Sys2Proof.Machine

/-- The architectural fault codes (60_exceptions.md R301). Recording one is a next state, not a stop of the machine (R300, R303). -/
inductive FaultCode where
  | illegalCmd
  | badConfig
  | noSession
  | mode
  | sequence
  | badSymbol
  | rangeArg
  | seqFull
  | rcBadTriple
  | rcOutFull
  | rcInUnderrun
  | rcInFull
  | rcDesync
  | carryOverflow
  | badToken
  | ctxFull
  | cmdOverrun
  deriving DecidableEq, Repr

/-- The escape methods (44_frequency_model.md R243). -/
inductive Method where
  | A
  | B
  | C
  | D
  deriving DecidableEq, Repr

/-- The parser's cost functions (42_parser.md R173). -/
inductive CostMode where
  | count
  | tables
  deriving DecidableEq, Repr

/-- The two agents (00_scope.md R8). -/
inductive Agent where
  | host
  | core
  deriving DecidableEq, Repr

/-- What the outside world can do to RL-CORE (70_reset_and_hazards.md R351): an access of `bytes` bytes at an address of the host's address space, or the `rst` input (R330). -/
inductive Access where
  | read (addr : Nat) (bytes : Nat)
  | write (addr : Nat) (bytes : Nat) (v : Word)
  | rst
  deriving DecidableEq, Repr

/-- The pending-command latch (10_state.md R51): the accepted word and the ARG values latched with it. Valid while BUSY = 1. -/
structure Latch where
  word : Word
  arg0 : Word
  arg1 : Word
  arg2 : Word
  deriving DecidableEq, Repr

/-- The stored bits of the CFG registers (10_state.md R36 to R41). -/
structure CfgRegs where
  alpha : BitVec 17
  window : BitVec 25
  minlen : BitVec 16
  maxlen : BitVec 16
  cost : BitVec 1
  order : BitVec 4
  method : BitVec 2
  deriving DecidableEq, Repr

/-- ACFG, the active configuration that INIT latches (10_state.md R42). -/
structure ActiveCfg where
  alpha : Nat
  window : Nat
  minlen : Nat
  maxlen : Nat
  costMode : CostMode
  order : Nat
  method : Method
  deriving DecidableEq, Repr

/-- A finite map held as a list of keys and values; an unlisted key has the default value. Canonical form: `Store.wf` in Machine/Store.lean. -/
abbrev Store (κ α : Type) := List (κ × α)

/-- A cost table: index to 16-bit entry, 0 where unlisted (20_memory.md R70, R76). -/
abbrev CostTable := Store Nat Half

/-- The count vector of one context: symbol to count, 0 where unlisted (10_state.md R48). -/
abbrev Counts := Store Nat Nat

/-- The address spaces (20_memory.md R70). A space with a length counter is the list of its elements, so that SEQ_LEN, TOK_COUNT, DSEQ_LEN, OUT_LEN and IN_LEN (10_state.md R43) are its lengths (log 5). -/
structure Memory where
  seq : List Half
  tok : List Word
  dseq : List Half
  obuf : List Byte
  ibuf : List Byte
  litcost : CostTable
  lencost : CostTable
  distcost : CostTable
  deriving DecidableEq, Repr

/-- The range coder's registers, B-bit naturals (10_state.md R44), and IN_PTR (R43). -/
structure Coder where
  low : Nat
  range : Nat
  data : Nat
  inPtr : Nat
  deriving DecidableEq, Repr

/-- The frequency model's state (10_state.md R48): CTX, keyed by the context's symbols w, oldest first (the order k of a key (k, w) is the length of w); HIST; h = PPM_HLEN; ESC. -/
structure Model where
  ctx : Store (List Nat) Counts
  hist : List Nat
  hlen : Nat
  esc : Nat
  deriving DecidableEq, Repr

/-- The outside world: the accesses still to come, the agents of the coming turns, the values reads returned (newest first), and how many free values reads have used. The model's own fields, not the spec's (logs 2 and 3). -/
structure Env where
  todo : List Access
  sched : List Agent
  got : List Word
  draws : Nat
  deriving DecidableEq, Repr

/-- The state of the machine. `inst` holds the instance's parameters: constants that no step changes (00_scope.md R6). -/
structure State where
  inst : Params
  busy : Bool
  done : Bool
  fault : Option FaultCode
  session : Bool
  mode : Direction
  rcFinished : Bool
  rcDecReady : Bool
  doneIE : Bool
  faultIE : Bool
  faultCmd : Word
  faultInfo : Word
  latch : Latch
  arg0 : Word
  arg1 : Word
  arg2 : Word
  res0 : Word
  res1 : Word
  res2 : Word
  cfg : CfgRegs
  acfg : ActiveCfg
  mem : Memory
  rc : Coder
  ppm : Model
  env : Env
  deriving DecidableEq, Repr

/-- Why the machine stops with a fault. No architectural fault is one of these: those are recorded and the machine goes on (60_exceptions.md R303). -/
inductive Fault where
  /-- Raised by a range-coder step whose sub-range has width r = 0, so that "the least e >= 0 with r * 2^(8e) >= FLOOR" (43_range_coder.md R207, R211) does not exist and the renormalization loop would never end.
  By R205 it happens in no state a run reaches. Safe: the model stops (log 7). -/
  | renormNeverEnds
  deriving DecidableEq, Repr

/-- Why the machine has no meaning for what comes next. -/
inductive Refusal where
  /-- Raised by `exec` for a command that has no meaning yet. Safe. -/
  | notModelled (mnemonic : String)
  /-- Raised by a host access that is not 64 bits wide: "Accesses of any other width or alignment have no meaning in this spec, and a model refuses them" (10_state.md R46). Safe. -/
  | narrowAccess
  /-- Raised by a host access at an offset that is not 8-byte aligned (10_state.md R46). Safe. -/
  | misalignedAccess
  /-- Raised by a host access outside the 4 KiB register window, which is no access to RL-CORE (20_memory.md R78). Safe (log 11). -/
  | outsideWindow
  deriving DecidableEq, Repr

/-- The reset values of the CFG registers (10_state.md R36 to R41). -/
def CfgRegs.reset : CfgRegs :=
  { alpha := 256#17, window := 32768#25, minlen := 3#16, maxlen := 258#16, cost := 0#1, order := 0#4, method := 0#2 }

/-- The reset value of ACFG (10_state.md R42). -/
def ActiveCfg.reset : ActiveCfg :=
  { alpha := 256, window := 32768, minlen := 3, maxlen := 258, costMode := .count, order := 0, method := .A }

/-- The address spaces after reset: every length 0 and every cost-table entry 0 (20_memory.md R76). -/
def Memory.reset : Memory :=
  { seq := [], tok := [], dseq := [], obuf := [], ibuf := [], litcost := [], lencost := [], distcost := [] }

/-- The range coder after reset and after INIT: low = 0, range = 2^B - 1, data = 0, IN_PTR = 0 (10_state.md R43, R44). -/
def Coder.reset (p : Params) : Coder := { low := 0, range := p.modulus - 1, data := 0, inPtr := 0 }

/-- The frequency model after reset and after INIT: CTX empty, HIST empty, h = 0, ESC = 0 (10_state.md R48). -/
def Model.reset : Model := { ctx := [], hist := [], hlen := 0, esc := 0 }

/-- The outside world with nothing to do (log 2). -/
def Env.idle : Env := { todo := [], sched := [], got := [], draws := 0 }

/-- Reset of an instance (70_reset_and_hazards.md R330), in a given outside world, which the reset does not touch. The latch is invalid because BUSY = 0; its contents are a DESIGN CHOICE (log 4). -/
def State.resetOf (p : Params) (env : Env) : State :=
  { inst := p
    busy := false, done := false, fault := none, session := false, mode := .encode, rcFinished := false, rcDecReady := false
    doneIE := false, faultIE := false, faultCmd := 0#64, faultInfo := 0#64
    latch := { word := 0#64, arg0 := 0#64, arg1 := 0#64, arg2 := 0#64 }
    arg0 := 0#64, arg1 := 0#64, arg2 := 0#64, res0 := 0#64, res1 := 0#64, res2 := 0#64
    cfg := CfgRegs.reset, acfg := ActiveCfg.reset
    mem := Memory.reset, rc := Coder.reset p, ppm := Model.reset
    env := env }

/-- The default instance right after reset (00_scope.md R6, 70_reset_and_hazards.md R330). -/
def State.reset : State := State.resetOf {} Env.idle

end Sys2Proof.Machine
end

