-- ==== Sys2Proof/Machine/Store.lean ====
section
/-! DEFINITION. Sparse finite maps in one canonical form: the cost tables, the count vectors and CTX. -/

namespace Sys2Proof.Machine

namespace Store

variable {κ α : Type} [DecidableEq κ] [DecidableEq α]

/-- The value of a key; the default where no entry lists it. -/
def get (t : Store κ α) (dflt : α) (k : κ) : α :=
  match t with
  | [] => dflt
  | (k', v) :: rest => if k' = k then v else get rest dflt k

/-- Store a value under a key, keeping the canonical form: entries in rising key order, and none that holds the default. -/
def put (lt : κ → κ → Bool) (t : Store κ α) (dflt : α) (k : κ) (v : α) : Store κ α :=
  match t with
  | [] => if v = dflt then [] else [(k, v)]
  | (k', v') :: rest =>
    if k = k' then if v = dflt then rest else (k, v) :: rest
    else if lt k k' then if v = dflt then (k', v') :: rest else (k, v) :: (k', v') :: rest
    else (k', v') :: put lt rest dflt k v

/-- The canonical form: keys strictly rising (each key below every later one), no entry equal to the default. -/
def wf (lt : κ → κ → Bool) (t : Store κ α) (dflt : α) : Bool :=
  match t with
  | [] => true
  | (k, v) :: rest => !decide (v = dflt) && rest.all (fun e => lt k e.1) && wf lt rest dflt

end Store

/-- The order of natural keys. -/
def natLt (a b : Nat) : Bool := decide (a < b)

/-- Lexicographic order of lists of symbols. -/
def lexLt : List Nat → List Nat → Bool
  | _, [] => false
  | [], _ :: _ => true
  | a :: as, b :: bs => decide (a < b) || (decide (a = b) && lexLt as bs)

/-- The order of context keys: by order k first, then by the symbols. -/
def keyLt (a b : List Nat) : Bool :=
  decide (a.length < b.length) || (decide (a.length = b.length) && lexLt a b)

/-- An entry of a cost table (20_memory.md R70). -/
def CostTable.at (t : CostTable) (i : Nat) : Half := Store.get t 0#16 i

/-- Store an entry of a cost table. -/
def CostTable.set (t : CostTable) (i : Nat) (v : Half) : CostTable := Store.put natLt t 0#16 i v

/-- A cost table in canonical form. -/
def CostTable.wf (t : CostTable) : Bool := Store.wf natLt t 0#16

/-- c(s) of a count vector (10_state.md R48). -/
def Counts.at (t : Counts) (s : Nat) : Nat := Store.get t 0 s

/-- Add 1 to c(s) (44_frequency_model.md R249). -/
def Counts.inc (t : Counts) (s : Nat) : Counts := Store.put natLt t 0 s (Counts.at t s + 1)

/-- A count vector in canonical form. -/
def Counts.wf (t : Counts) : Bool := Store.wf natLt t 0

/-- The count vector of a context key; every count is 0 for a key CTX lacks (10_state.md R48). -/
def Model.table (m : Model) (key : List Nat) : Counts := Store.get m.ctx [] key

/-- CTX in canonical form: keys strictly rising, no empty table, each table canonical. -/
def Model.ctxWf (m : Model) : Bool := Store.wf keyLt m.ctx [] && m.ctx.all (fun e => Counts.wf e.2)

/-- The canonical form of the address spaces. The listed spaces are plain sequences, with no entry to leave out; the cost tables are sparse. -/
def Memory.wf (m : Memory) : Bool := CostTable.wf m.litcost && CostTable.wf m.lencost && CostTable.wf m.distcost

end Sys2Proof.Machine
end

