-- ==== Sys2Proof/Machine/Flags.lean ====
section
/-! DEFINITION. STATUS and its fields, the fault codes as numbers, INTEN and the irq output (10_state.md R24 to R31, 60_exceptions.md R301, R310). RL-CORE has no other flags (10_state.md R47). -/

namespace Sys2Proof.Machine

/-- The code column of 60_exceptions.md R301. -/
def FaultCode.code : FaultCode → Nat
  | .illegalCmd => 0x01
  | .badConfig => 0x02
  | .noSession => 0x03
  | .mode => 0x04
  | .sequence => 0x05
  | .badSymbol => 0x06
  | .rangeArg => 0x07
  | .seqFull => 0x08
  | .rcBadTriple => 0x09
  | .rcOutFull => 0x0A
  | .rcInUnderrun => 0x0B
  | .rcInFull => 0x0C
  | .rcDesync => 0x0D
  | .carryOverflow => 0x0E
  | .badToken => 0x0F
  | .ctxFull => 0x10
  | .cmdOverrun => 0x11

/-- STATUS.FAULT_CODE: the recorded code, 0 if none (10_state.md R27). -/
def faultCodeOf : Option FaultCode → Nat
  | none => 0
  | some f => f.code

/-- The STATUS word (10_state.md R24): BUSY 0, DONE 1, FAULT 2, SESSION 3, MODE 4, RC_FINISHED 5, RC_DEC_READY 6, FAULT_CODE [15:8], ESC [23:16]; every other bit reads 0. -/
def State.statusWord (s : State) : Word :=
  toWord (s.busy.toNat + 2 * s.done.toNat + 4 * s.fault.isSome.toNat + 8 * s.session.toNat + 16 * s.mode.bit
    + 32 * s.rcFinished.toNat + 64 * s.rcDecReady.toNat + 2 ^ 8 * faultCodeOf s.fault + 2 ^ 16 * (s.ppm.esc % 2 ^ 8))

/-- The INTEN word: DONE_IE bit 0, FAULT_IE bit 1, other bits 0 (10_state.md R31). -/
def State.intenWord (s : State) : Word := toWord (s.doneIE.toNat + 2 * s.faultIE.toNat)

/-- irq = (DONE and DONE_IE) or (FAULT and FAULT_IE) (60_exceptions.md R310). -/
def State.irq (s : State) : Bool := (s.done && s.doneIE) || (s.fault.isSome && s.faultIE)

/-- A write to STATUS: a 1 in bit 1 clears DONE; nothing else is writable (10_state.md R26). -/
def State.writeStatus (s : State) (v : Word) : State := { s with done := s.done && !v.getLsbD 1 }

/-- A write to INTEN (10_state.md R31). -/
def State.writeInten (s : State) (v : Word) : State := { s with doneIE := v.getLsbD 0, faultIE := v.getLsbD 1 }

end Sys2Proof.Machine
end

