-- ==== Sys2Proof/Machine/Operands.lean ====
section
/-! DEFINITION. Where a command's operands come from (30_encoding.md R101, R102, R104, R105), and the plain arithmetic of the spec's notation (00_scope.md R10, R11). -/

namespace Sys2Proof.Machine

/-- The range-coder triple (cum, freq, total) of a command: ARG0, ARG1, ARG2 as latched (30_encoding.md R102). -/
structure Triple where
  cum : Nat
  freq : Nat
  total : Nat
  deriving DecidableEq, Repr

/-- ARG0 as latched, a 64-bit natural (30_encoding.md R102). -/
def State.opArg0 (s : State) : Nat := s.latch.arg0.toNat

/-- ARG1 as latched. -/
def State.opArg1 (s : State) : Nat := s.latch.arg1.toNat

/-- ARG2 as latched. -/
def State.opArg2 (s : State) : Nat := s.latch.arg2.toNat

/-- The triple ARG0 = cum, ARG1 = freq, ARG2 = total (30_encoding.md R102). -/
def State.opTriple (s : State) : Triple := { cum := s.opArg0, freq := s.opArg1, total := s.opArg2 }

/-- The cost tables a csel immediate selects (30_encoding.md R105). -/
inductive CostSel where
  | lit
  | len
  | dist
  deriving DecidableEq, Repr

/-- TABLE: 0 = LITCOST, 1 = LENCOST, 2 = DISTCOST; any other value selects none (30_encoding.md R105). -/
def costSel : Nat → Option CostSel
  | 0 => some .lit
  | 1 => some .len
  | 2 => some .dist
  | _ => none

/-- The length of a cost table (20_memory.md R70). -/
def costLen (p : Params) : CostSel → Nat
  | .lit => p.aMax
  | .len => p.maxlenMax + 1
  | .dist => 32

/-- The cost table a selector names. -/
def Memory.costTable (m : Memory) : CostSel → CostTable
  | .lit => m.litcost
  | .len => m.lencost
  | .dist => m.distcost

/-- MemWrite to a cost table (20_memory.md R71). -/
def Memory.setCost (m : Memory) (sel : CostSel) (i : Nat) (v : Half) : Memory :=
  match sel with
  | .lit => { m with litcost := CostTable.set m.litcost i v }
  | .len => { m with lencost := CostTable.set m.lencost i v }
  | .dist => { m with distcost := CostTable.set m.distcost i v }

/-- A token: Literal(symbol) or Match(length, distance) (00_scope.md glossary). -/
inductive Token where
  | literal (sym : Nat)
  | backref (len : Nat) (dist : Nat)
  deriving DecidableEq, Repr

/-- The token word: a Literal s is s, a Match (L, d) is 2^63 + d * 2^16 + L (30_encoding.md R104). -/
def Token.word : Token → Word
  | .literal sym => toWord sym
  | .backref len dist => toWord (2 ^ 63 + dist * 2 ^ 16 + len)

/-- How many symbols a token stands for (42_parser.md R184). -/
def Token.length : Token → Nat
  | .literal _ => 1
  | .backref len _ => len

/-- KIND, bit 63 of a token word (30_encoding.md R104). -/
def tokKind (t : Word) : Nat := bitField t 63 63

/-- Bits [62:48] of a token word, 0 in both kinds (30_encoding.md R104). -/
def tokRsv (t : Word) : Nat := bitField t 62 48

/-- Bits [47:16] of a token word: the distance of a Match, 0 in a Literal (30_encoding.md R104). -/
def tokDist (t : Word) : Nat := bitField t 47 16

/-- Bits [15:0] of a token word: the symbol of a Literal, the length of a Match (30_encoding.md R104). -/
def tokLow (t : Word) : Nat := bitField t 15 0

/-- bitlen(x): 0 for 0, floor(log2 x) + 1 otherwise (00_scope.md R10). -/
def bitlen (x : Nat) : Nat := if x = 0 then 0 else Nat.log2 x + 1

/-- idiv(a, T) = floor(a * 2^B / T) (00_scope.md R11). -/
def idiv (p : Params) (a t : Nat) : Nat := a * p.modulus / t

/-- mulhi(x, y) = floor(x * y / 2^B) (00_scope.md R11). -/
def mulhi (p : Params) (x y : Nat) : Nat := x * y / p.modulus

/-- The sum of f(t) over t < n. -/
def sumBelow (f : Nat → Nat) : Nat → Nat
  | 0 => 0
  | n + 1 => sumBelow f n + f n

/-- MemRead of a space held as the list of its elements. The spec defines it below the length only (20_memory.md R71), and every command checks that first (log 6). -/
def readAt {w : Nat} (space : List (BitVec w)) (i : Nat) : BitVec w := space.getD i 0#w

end Sys2Proof.Machine
end

