-- ==== Sys2Proof/Machine/Ops.lean ====
section
/-! DEFINITION. The shared operations of all commands: how a command ends, how a fault is recorded (60_exceptions.md R303), the preconditions (30_encoding.md R107, 60_exceptions.md R307), and the result registers. -/

namespace Sys2Proof.Machine

/-- How the work of a command ends: it completes, or it raises a fault with its information value, or it is stuck. The state of a raise holds what the command did before it (60_exceptions.md R305). -/
inductive CmdResult (α : Type) where
  | ok (a : α)
  | raise (f : FaultCode) (info : Nat) (s : State)
  | stuck (r : Fault)

/-- Go on with a result, unless the work has ended. -/
def CmdResult.andThen {α β : Type} (x : CmdResult α) (f : α → CmdResult β) : CmdResult β :=
  match x with
  | .ok a => f a
  | .raise c info s => .raise c info s
  | .stuck r => .stuck r

/-- A check: where it fails, raise the fault and end the command (00_scope.md R12). -/
def require {α : Type} (cond : Bool) (f : FaultCode) (info : Nat) (s : State) (rest : CmdResult α) : CmdResult α :=
  match cond with
  | true => rest
  | false => .raise f info s

/-- Write the fault registers, unless a fault is recorded already: "Only the first fault since reset is recorded" (60_exceptions.md R303). -/
def State.recordFault (s : State) (f : FaultCode) (w : Word) (info : Nat) : State :=
  match s.fault with
  | none => { s with fault := some f, faultCmd := w, faultInfo := toWord info }
  | some _ => s

/-- TAKING A FAULT raised by a check of the command in flight (60_exceptions.md R303): record it, end the command, BUSY to 0; DONE stays.
Nothing is saved or transferred beside that, and there is no return from it (R300, R309): only reset clears it (R308). -/
def State.takeFault (s : State) (f : FaultCode) (info : Nat) : State :=
  { s.recordFault f s.latch.word info with busy := false }

/-- A completion without a fault (10_state.md R25, R26): BUSY to 0; DONE to 1 if no fault is recorded, and left as it is otherwise (60_exceptions.md R306). -/
def State.complete (s : State) : State :=
  { s with busy := false, done := if s.fault.isNone then true else s.done }

/-- The outcome of a command: the one place where a command ends. -/
def finish : CmdResult State → Host.Outcome State Fault Refusal
  | .ok s => .next s.complete
  | .raise f info s => .next (s.takeFault f info)
  | .stuck r => .fault r

/-- The "needs" column of 30_encoding.md R107. -/
inductive Needs where
  | nothing
  | session
  | encode
  | decode
  deriving DecidableEq, Repr

/-- The "needs" column of 30_encoding.md R107, opcode by opcode. -/
def needsOf : Opcode → Needs
  | .nop => .nothing
  | .init => .nothing
  | .stmPush => .session
  | .stmQuery => .session
  | .stmRead => .session
  | .psuParse => .session
  | .psuToken => .session
  | .psuSetcost => .nothing
  | .psuGetcost => .nothing
  | .psuExpand => .session
  | .psuDread => .session
  | .rcEncode => .encode
  | .rcFinish => .encode
  | .rcOutbyte => .session
  | .rcInbyte => .decode
  | .rcDstart => .decode
  | .rcFetch => .decode
  | .rcDecode => .decode
  | .ppmEncode => .encode
  | .ppmDecode => .decode
  | .ppmHasesc => .session
  | .ppmNumden => .session
  | .ppmCdf => .session
  | .ppmIcdf => .session
  | .ppmEscape => .session
  | .ppmUpdate => .session

/-- A command that needs a session: NO_SESSION otherwise (60_exceptions.md R301, R307). -/
def requireSession {α : Type} (s : State) (rest : CmdResult α) : CmdResult α :=
  require s.session .noSession 0 s rest

/-- A command of one direction: MODE otherwise (60_exceptions.md R301, R307). -/
def requireMode {α : Type} (m : Direction) (s : State) (rest : CmdResult α) : CmdResult α :=
  require (decide (s.mode = m)) .mode 0 s rest

/-- The checks of an opcode's "needs": NO_SESSION, then MODE (60_exceptions.md R307, item 4). -/
def withNeeds {α : Type} (o : Opcode) (s : State) (rest : CmdResult α) : CmdResult α :=
  match needsOf o with
  | .nothing => rest
  | .session => requireSession s rest
  | .encode => requireSession s (requireMode .encode s rest)
  | .decode => requireSession s (requireMode .decode s rest)

/-- RES0 <- v (10_state.md R35). -/
def State.setRes0 (s : State) (v : Word) : State := { s with res0 := v }

/-- RES1 <- v (10_state.md R35). -/
def State.setRes1 (s : State) (v : Word) : State := { s with res1 := v }

/-- RES2 <- v (10_state.md R35). -/
def State.setRes2 (s : State) (v : Word) : State := { s with res2 := v }

/-- Reset by `rst` or by CTRL.SRST (70_reset_and_hazards.md R330): the same instance, in the same outside world; a command in flight is abandoned. -/
def State.resetNow (s : State) : State := State.resetOf s.inst s.env

/-- Acceptance of a command word (10_state.md R32): the latch takes it with the current ARGs, BUSY to 1, DONE to 0. -/
def State.accept (s : State) (w : Word) : State :=
  { s with latch := { word := w, arg0 := s.arg0, arg1 := s.arg1, arg2 := s.arg2 }, busy := true, done := false }

end Sys2Proof.Machine
end

