-- ==== Sys2Proof/Machine/RangeCoder.lean ====
section
/-! DEFINITION. The range coder: triples, the encode and decode steps, the flush, and RC_ENCODE, RC_FINISH, RC_OUTBYTE, RC_INBYTE, RC_DSTART, RC_FETCH, RC_DECODE (43_range_coder.md). -/

namespace Sys2Proof.Machine

/-- The checks of a triple, in order: total, freq, cum + freq (43_range_coder.md R201). -/
def requireTriple {α : Type} (t : Triple) (s : State) (rest : CmdResult α) : CmdResult α :=
  require (decide (1 ≤ t.total ∧ t.total ≤ s.inst.totalMax)) .rcBadTriple 1 s <|
  require (decide (1 ≤ t.freq)) .rcBadTriple 2 s <|
  require (decide (t.cum + t.freq ≤ t.total)) .rcBadTriple 3 s rest

/-- a = mulhi(range, idiv(x, T)): how far into the interval a cumulative value x of T lies (43_range_coder.md R202). With x = c it is the offset a, with x = f the width r. -/
def scaled (p : Params) (range x total : Nat) : Nat := mulhi p range (idiv p x total)

/-- The least e >= 0 with r * 2^(8e) >= floor, if one is at most `rounds` (43_range_coder.md R207). -/
def leastShift (floor : Nat) : Nat → Nat → Option Nat
  | rounds, r =>
    if floor ≤ r then some 0
    else match rounds with
      | 0 => none
      | k + 1 => (leastShift floor k (r * 2 ^ 8)).map (· + 1)

/-- How many bytes the renormalization after a step of width r moves (43_range_coder.md R205, R207). N_BYTES - 1 is enough for every r >= 1. -/
def renormCount (p : Params) (r : Nat) : Option Nat := leastShift p.floor p.nBytes r

/-- Add 1 to the last byte that is not 0xFF and set the bytes after it to 0x00; `none` if every byte is 0xFF (43_range_coder.md R203). -/
def carryInto : List Byte → Option (List Byte)
  | [] => none
  | b :: rest =>
    match carryInto rest with
    | some rest' => some (b :: rest')
    | none => if b = 0xFF#8 then none else some ((b + 1#8) :: List.replicate rest.length 0x00#8)

/-- add_carry(v) (43_range_coder.md R203): `none` where CARRY_OVERFLOW is raised, before any byte is changed. -/
def addCarry (s : State) (v : Nat) : Option State :=
  let sum := s.rc.low + v
  if sum < s.inst.modulus then some { s with rc := { s.rc with low := sum } }
  else match carryInto s.mem.obuf with
    | none => none
    | some obuf => some { s with rc := { s.rc with low := sum % s.inst.modulus }, mem := { s.mem with obuf := obuf } }

/-- The top byte of a B-bit natural, bits [B-1:B-8]. -/
def topByte (p : Params) (x : Nat) : Byte := BitVec.ofNat 8 (x / 2 ^ (p.bits - 8))

/-- One round of the encoder's renormalization: shift the top byte of low out (43_range_coder.md R204). -/
def emitByte (s : State) : State :=
  { s with
    mem := { s.mem with obuf := s.mem.obuf ++ [topByte s.inst s.rc.low] }
    rc := { s.rc with low := s.rc.low * 2 ^ 8 % s.inst.modulus, range := s.rc.range * 2 ^ 8 } }

/-- The encoder's renormalization, e rounds (43_range_coder.md R204, R207: "emits exactly e bytes"). -/
def emitBytes : Nat → State → State
  | 0, s => s
  | e + 1, s => emitBytes e (emitByte s)

/-- enc_step(c, f, T) (43_range_coder.md R207), with the skip rule (R208). Every check comes before any change. -/
def encStep (t : Triple) (s : State) : CmdResult State :=
  requireTriple t s <|
  if t.freq = t.total then .ok s
  else
    let a := scaled s.inst s.rc.range t.cum t.total
    let r := scaled s.inst s.rc.range t.freq t.total
    match renormCount s.inst r with
    | none => .stuck .renormNeverEnds
    | some e =>
      match addCarry s a with
      | none => .raise .carryOverflow 0 s
      | some s' =>
        require (decide (s.mem.obuf.length + e ≤ s.inst.obufCap)) .rcOutFull s.mem.obuf.length s <|
        .ok (emitBytes e { s' with rc := { s'.rc with range := r } })

/-- The N_BYTES bytes of low, most significant first (43_range_coder.md R209, 20_memory.md R73). -/
def lowBytes (p : Params) (low : Nat) : List Byte :=
  (List.range p.nBytes).map (fun k => BitVec.ofNat 8 (low / 2 ^ (p.bits - 8 * (k + 1))))

/-- enc_finish (43_range_coder.md R209). -/
def encFinish (s : State) : CmdResult State :=
  match addCarry s (s.rc.range / 2) with
  | none => .raise .carryOverflow 0 s
  | some s' =>
    require (decide (s.mem.obuf.length + s.inst.nBytes ≤ s.inst.obufCap)) .rcOutFull s.mem.obuf.length s <|
    .ok { s' with mem := { s'.mem with obuf := s'.mem.obuf ++ lowBytes s.inst s'.rc.low }, rcFinished := true }

/-- v = (data - low) mod 2^B, the position of the input window inside the current interval (43_range_coder.md R211). -/
def windowPos (s : State) : Nat := (s.rc.data + (s.inst.modulus - s.rc.low % s.inst.modulus)) % s.inst.modulus

/-- Binary descent for the largest x below T with scaled(x) <= v: bit by bit from the top (43_range_coder.md R211; log 9). -/
def fetchBits (p : Params) (range total v : Nat) : Nat → Nat → Nat
  | 0, x => x
  | k + 1, x =>
    let y := x + 2 ^ k
    if y < total ∧ scaled p range y total ≤ v then fetchBits p range total v k y else fetchBits p range total v k x

/-- dec_fetch(T): the largest x in [0, T-1] with mulhi(range, idiv(x, T)) <= v (43_range_coder.md R211). The largest such x has at most B - 16 bits, because T <= TOTAL_MAX. -/
def decFetch (total : Nat) (s : State) : Nat := fetchBits s.inst s.rc.range total (windowPos s) s.inst.bits 0

/-- One round of the decoder's renormalization (43_range_coder.md R211). -/
def takeByte (s : State) : State :=
  { s with rc :=
    { low := s.rc.low * 2 ^ 8 % s.inst.modulus
      range := s.rc.range * 2 ^ 8
      data := s.rc.data * 2 ^ 8 % s.inst.modulus + (readAt s.mem.ibuf s.rc.inPtr).toNat
      inPtr := s.rc.inPtr + 1 } }

/-- The decoder's renormalization, e rounds (43_range_coder.md R211). -/
def takeBytes : Nat → State → State
  | 0, s => s
  | e + 1, s => takeBytes e (takeByte s)

/-- dec_step(c, f, T) (43_range_coder.md R211), with the skip rule (R208). Every check comes before any change. -/
def decStep (t : Triple) (s : State) : CmdResult State :=
  requireTriple t s <|
  if t.freq = t.total then .ok s
  else
    let a := scaled s.inst s.rc.range t.cum t.total
    let r := scaled s.inst s.rc.range t.freq t.total
    let v := windowPos s
    require (decide (a ≤ v ∧ v < a + r)) .rcDesync v s <|
    match renormCount s.inst r with
    | none => .stuck .renormNeverEnds
    | some e =>
      require (decide (s.rc.inPtr + e ≤ s.mem.ibuf.length)) .rcInUnderrun s.rc.inPtr s <|
      .ok (takeBytes e { s with rc := { s.rc with low := (s.rc.low + a) % s.inst.modulus, range := r } })

/-- The phase check of the encoder's commands: RC_FINISHED = 0 (43_range_coder.md R210, R212). -/
def requireNotFinished {α : Type} (s : State) (rest : CmdResult α) : CmdResult α :=
  require (!s.rcFinished) .sequence 0 s rest

/-- The phase check of the decoder's commands: RC_DEC_READY = 1 (43_range_coder.md R216, R217). -/
def requireStarted {α : Type} (s : State) (rest : CmdResult α) : CmdResult α :=
  require s.rcDecReady .sequence 0 s rest

/-- RC_ENCODE (43_range_coder.md R210). -/
def execRcEncode (s : State) : Host.Outcome State Fault Refusal :=
  finish (withNeeds .rcEncode s (requireNotFinished s (encStep s.opTriple s)))

/-- RC_FINISH (43_range_coder.md R212). -/
def execRcFinish (s : State) : Host.Outcome State Fault Refusal :=
  finish (withNeeds .rcFinish s (requireNotFinished s (encFinish s)))

/-- RC_OUTBYTE (43_range_coder.md R213). -/
def execRcOutbyte (idx : Nat) (s : State) : Host.Outcome State Fault Refusal :=
  finish <|
    withNeeds .rcOutbyte s <|
    require (decide (idx < s.mem.obuf.length)) .rangeArg idx s <|
    .ok (s.setRes0 (toWord (readAt s.mem.obuf idx).toNat))

/-- RC_INBYTE (43_range_coder.md R214). -/
def execRcInbyte (byte : Nat) (s : State) : Host.Outcome State Fault Refusal :=
  finish <|
    withNeeds .rcInbyte s <|
    require (decide (byte ≤ 0xFF)) .rangeArg byte s <|
    require (decide (s.mem.ibuf.length < s.inst.ibufCap)) .rcInFull s.mem.ibuf.length s <|
    .ok { s with mem := { s.mem with ibuf := s.mem.ibuf ++ [BitVec.ofNat 8 byte] } }

/-- Bytes as a big-endian natural (43_range_coder.md R206, R215). -/
def bigEndian (bytes : List Byte) : Nat := bytes.foldl (fun acc b => acc * 2 ^ 8 + b.toNat) 0

/-- RC_DSTART (43_range_coder.md R215). -/
def execRcDstart (s : State) : Host.Outcome State Fault Refusal :=
  finish <|
    withNeeds .rcDstart s <|
    require (!s.rcDecReady) .sequence 0 s <|
    require (decide (s.inst.nBytes ≤ s.mem.ibuf.length)) .rcInUnderrun s.rc.inPtr s <|
    .ok { s with
      rc := { s.rc with data := bigEndian (s.mem.ibuf.take s.inst.nBytes), inPtr := s.inst.nBytes }
      rcDecReady := true }

/-- RC_FETCH (43_range_coder.md R216). -/
def execRcFetch (s : State) : Host.Outcome State Fault Refusal :=
  finish <|
    withNeeds .rcFetch s <|
    requireStarted s <|
    require (decide (1 ≤ s.opArg2 ∧ s.opArg2 ≤ s.inst.totalMax)) .rcBadTriple 1 s <|
    .ok (s.setRes0 (toWord (decFetch s.opArg2 s)))

/-- RC_DECODE (43_range_coder.md R217). -/
def execRcDecode (s : State) : Host.Outcome State Fault Refusal :=
  finish (withNeeds .rcDecode s (requireStarted s (decStep s.opTriple s)))

end Sys2Proof.Machine
end

