-- ==== Sys2Proof/Machine/FrequencyModel.lean ====
section
/-! DEFINITION. The adaptive frequency model: levels, weights, masses, the update, and the PPM commands (44_frequency_model.md). -/

namespace Sys2Proof.Machine

/-- A level of the escape chain: a context order, or BASE (44_frequency_model.md R241). -/
inductive Level where
  | order (k : Nat)
  | base
  deriving DecidableEq, Repr

/-- kmax = min(K, h) (44_frequency_model.md R241). -/
def kmax (s : State) : Nat := min s.acfg.order s.ppm.hlen

/-- How many order levels are left before BASE: kmax + 1 - ESC. With k + 1 left the level is order k; with 0 left it is BASE (44_frequency_model.md R241). -/
def ordersLeft (s : State) : Nat := kmax s + 1 - s.ppm.esc

/-- The level with a given number of order levels left. -/
def levelAt : Nat → Level
  | 0 => .base
  | k + 1 => .order k

/-- The current level (44_frequency_model.md R241). ESC never exceeds kmax + 1 (R254); above it the model reads BASE (log 8). -/
def level (s : State) : Level := levelAt (ordersLeft s)

/-- The last k elements of a list. -/
def lastN (k : Nat) (l : List Nat) : List Nat := l.drop (l.length - k)

/-- The context key of order k: the last k symbols of HIST, oldest first (44_frequency_model.md R242). -/
def ctxKey (m : Model) (k : Nat) : List Nat := lastN k m.hist

/-- c(s) at order level k (44_frequency_model.md R242). -/
def countAt (m : Model) (k sym : Nat) : Nat := Counts.at (m.table (ctxKey m k)) sym

/-- w(s) of a count, by method (44_frequency_model.md R244). -/
def weightOf (m : Method) (c : Nat) : Nat :=
  match m with
  | .A => c
  | .B => if 2 ≤ c then c - 1 else 0
  | .C => c
  | .D => if 1 ≤ c then 2 * c - 1 else 0

/-- d at order level k: the number of symbols s < A with c(s) >= 1 (44_frequency_model.md R242). -/
def distinct (s : State) (k : Nat) : Nat := sumBelow (fun sym => if 1 ≤ countAt s.ppm k sym then 1 else 0) s.acfg.alpha

/-- The weight of a symbol below A at a level: R244 at an order; at BASE 1 for the symbols of U, whose order-0 weight is 0, and 0 for the others (44_frequency_model.md R244, R246). -/
def weight (s : State) (lv : Level) (sym : Nat) : Nat :=
  match lv with
  | .order k => weightOf s.acfg.method (countAt s.ppm k sym)
  | .base => if weightOf s.acfg.method (countAt s.ppm 0 sym) = 0 then 1 else 0

/-- S, the sum of the weights over all s < A; |U| at BASE (44_frequency_model.md R244, R246). -/
def massS (s : State) (lv : Level) : Nat := sumBelow (weight s lv) s.acfg.alpha

/-- E, the escape mass, the numerator; 0 at BASE (44_frequency_model.md R244, R246). -/
def massE (s : State) (lv : Level) : Nat :=
  match lv with
  | .base => 0
  | .order k =>
    match s.acfg.method with
    | .A => if 1 ≤ k then 1 else s.acfg.alpha - distinct s k
    | .B => max (distinct s k) 1
    | .C => max (distinct s k) 1
    | .D => max (distinct s k) 1

/-- D = S + E, the denominator (44_frequency_model.md R244). -/
def massD (s : State) (lv : Level) : Nat := massS s lv + massE s lv

/-- PDF(s) = w(s) (44_frequency_model.md R248). -/
def pdf (s : State) (lv : Level) (sym : Nat) : Nat := weight s lv sym

/-- CDF(s): the sum of w(t) over t < s; rank_U(s) at BASE (44_frequency_model.md R246, R248). -/
def cdf (s : State) (lv : Level) (sym : Nat) : Nat := sumBelow (weight s lv) sym

/-- Walk up from symbol `sym` over `left` symbols to the one whose sub-range holds t, t counted from CDF(sym). -/
def symbolFrom (w : Nat → Nat) : Nat → Nat → Nat → Nat
  | 0, sym, _ => sym
  | left + 1, sym, t => if t < w sym then sym else symbolFrom w left (sym + 1) (t - w sym)

/-- ICDF(t): the unique s with CDF(s) <= t < CDF(s) + PDF(s), defined for t < S (44_frequency_model.md R248). At BASE: the element of U with rank t. -/
def icdf (s : State) (lv : Level) (t : Nat) : Nat := symbolFrom (weight s lv) s.acfg.alpha 0 t

/-- has_to_escape(s) (44_frequency_model.md R247). -/
def hasToEscape (s : State) (sym : Nat) : Bool :=
  match level s with
  | .base => false
  | .order k => decide (weight s (.order k) sym = 0)

/-- The orders k <= kmax whose context table has no nonzero count (44_frequency_model.md R249, Capacity). -/
def newOrders (s : State) : List Nat := (List.range (kmax s + 1)).filter (fun k => s.ppm.table (ctxKey s.ppm k) = [])

/-- The number of non-empty context tables: the entries of CTX, whose canonical form lists no empty one (10_state.md R48). -/
def tableCount (m : Model) : Nat := m.ctx.length

/-- Whether an update would exceed CTX_CAP (44_frequency_model.md R249). -/
def ctxOverflows (s : State) : Bool :=
  decide (s.inst.ctxCap ≠ 0 ∧ s.inst.ctxCap < tableCount s.ppm + (newOrders s).length)

/-- h has room: SEQ_FULL where h = SEQ_CAP (44_frequency_model.md R249). -/
def requireHistRoom {α : Type} (s : State) (rest : CmdResult α) : CmdResult α :=
  require (decide (s.ppm.hlen < s.inst.seqCap)) .seqFull 0 s rest

/-- CTX has room: CTX_FULL with the smallest new order otherwise (44_frequency_model.md R249). -/
def requireCtxRoom {α : Type} (s : State) (rest : CmdResult α) : CmdResult α :=
  require (!ctxOverflows s) .ctxFull ((newOrders s).headD 0) s rest

/-- CTX[(k, last k symbols of HIST)][s] += 1 (44_frequency_model.md R249). -/
def Model.bump (m : Model) (sym k : Nat) : Model :=
  { m with ctx := Store.put keyLt m.ctx [] (ctxKey m k) (Counts.inc (m.table (ctxKey m k)) sym) }

/-- The counts of every order 0 .. kmax (44_frequency_model.md R249). -/
def Model.bumpAll (m : Model) (sym top : Nat) : Model := (List.range (top + 1)).foldl (fun m k => m.bump sym k) m

/-- upd(s) without its checks: the counts, then HIST, h and ESC (44_frequency_model.md R249). -/
def updateModel (s : State) (sym : Nat) : State :=
  { s with ppm :=
    { ctx := (s.ppm.bumpAll sym (kmax s)).ctx
      hist := lastN (min (s.ppm.hlen + 1) s.acfg.order) (s.ppm.hist ++ [sym])
      hlen := s.ppm.hlen + 1
      esc := 0 } }

/-- upd(s) with its capacity checks, SEQ_FULL first (44_frequency_model.md R249). -/
def update (s : State) (sym : Nat) : CmdResult State :=
  requireHistRoom s (requireCtxRoom s (.ok (updateModel s sym)))

/-- ESC <- ESC + 1, "descend a level" (44_frequency_model.md R254). -/
def escapeOnce (s : State) : State := { s with ppm := { s.ppm with esc := s.ppm.esc + 1 } }

/-- A symbol operand is below A: BAD_SYMBOL otherwise (30_encoding.md R101). -/
def requireSymbol {α : Type} (sym : Nat) (s : State) (rest : CmdResult α) : CmdResult α :=
  require (decide (sym < s.acfg.alpha)) .badSymbol sym s rest

/-- The encode loop with `n` order levels left (44_frequency_model.md R260). Each step reads the level's quantities as they are when it runs. -/
def encodeLoop (sym : Nat) : Nat → State → CmdResult State
  | 0, s => encStep { cum := cdf s .base sym, freq := 1, total := massS s .base } s
  | k + 1, s =>
    if weight s (.order k) sym = 0 then
      (encStep { cum := massS s (.order k), freq := massE s (.order k), total := massD s (.order k) } s).andThen
        fun s => encodeLoop sym k (escapeOnce s)
    else encStep { cum := cdf s (.order k) sym, freq := pdf s (.order k) sym, total := massD s (.order k) } s

/-- How many symbols below A have a positive weight. -/
def admitted (s : State) (lv : Level) : Nat := sumBelow (fun sym => if 0 < weight s lv sym then 1 else 0) s.acfg.alpha

/-- The decode loop with `n` order levels left (44_frequency_model.md R261). It gives the decoded symbol and the state after the coder steps and escapes. -/
def decodeLoop : Nat → State → CmdResult (Nat × State)
  | 0, s =>
    let u := massS s .base
    if u = 0 then .raise .rcDesync (windowPos s) s
    else if u = 1 then .ok (icdf s .base 0, s)
    else
      let t := decFetch u s
      (decStep { cum := t, freq := 1, total := u } s).andThen fun s' => .ok (icdf s .base t, s')
  | k + 1, s =>
    let lv := Level.order k
    if massE s lv = massD s lv then decodeLoop k (escapeOnce s)
    else if massE s lv = 0 ∧ admitted s lv = 1 then .ok (icdf s lv 0, s)
    else
      let t := decFetch (massD s lv) s
      if massS s lv ≤ t then
        (decStep { cum := massS s lv, freq := massE s lv, total := massD s lv } s).andThen
          fun s => decodeLoop k (escapeOnce s)
      else
        let sym := icdf s lv t
        (decStep { cum := cdf s lv sym, freq := pdf s lv sym, total := massD s lv } s).andThen fun s' => .ok (sym, s')

/-- PPM_HASESC (44_frequency_model.md R250). -/
def execPpmHasesc (sym : Nat) (s : State) : Host.Outcome State Fault Refusal :=
  finish <|
    withNeeds .ppmHasesc s <|
    requireSymbol sym s <|
    .ok (s.setRes0 (if hasToEscape s sym then 1#64 else 0#64))

/-- RES2 of PPM_NUMDEN: the order of the level, all ones at BASE (44_frequency_model.md R251). -/
def levelWord : Level → Word
  | .order k => toWord k
  | .base => toWord (2 ^ 64 - 1)

/-- PPM_NUMDEN (44_frequency_model.md R251). -/
def execPpmNumden (s : State) : Host.Outcome State Fault Refusal :=
  finish <|
    withNeeds .ppmNumden s <|
    .ok (((s.setRes0 (toWord (massE s (level s)))).setRes1 (toWord (massD s (level s)))).setRes2 (levelWord (level s)))

/-- PPM_CDF (44_frequency_model.md R252). -/
def execPpmCdf (sym : Nat) (s : State) : Host.Outcome State Fault Refusal :=
  finish <|
    withNeeds .ppmCdf s <|
    requireSymbol sym s <|
    .ok ((s.setRes0 (toWord (cdf s (level s) sym))).setRes1 (toWord (pdf s (level s) sym)))

/-- PPM_ICDF (44_frequency_model.md R253). -/
def execPpmIcdf (s : State) : Host.Outcome State Fault Refusal :=
  finish <|
    withNeeds .ppmIcdf s <|
    require (decide (s.opArg0 < massS s (level s))) .rangeArg s.opArg0 s <|
    .ok (s.setRes0 (toWord (icdf s (level s) s.opArg0)))

/-- PPM_ESCAPE (44_frequency_model.md R254). -/
def execPpmEscape (s : State) : Host.Outcome State Fault Refusal :=
  finish <|
    withNeeds .ppmEscape s <|
    require (decide (level s ≠ .base)) .sequence 0 s <|
    .ok (escapeOnce s)

/-- PPM_UPDATE (44_frequency_model.md R255). -/
def execPpmUpdate (sym : Nat) (s : State) : Host.Outcome State Fault Refusal :=
  finish (withNeeds .ppmUpdate s (requireSymbol sym s (update s sym)))

/-- The phase check of the composite commands: ESC = 0 (44_frequency_model.md R260, R261). -/
def requireNoEscape {α : Type} (s : State) (rest : CmdResult α) : CmdResult α :=
  require (decide (s.ppm.esc = 0)) .sequence 0 s rest

/-- PPM_ENCODE (44_frequency_model.md R260). RES0 is the number of escapes: ESC as the loop leaves it, since ESC = 0 before it. -/
def execPpmEncode (sym : Nat) (s : State) : Host.Outcome State Fault Refusal :=
  finish <|
    withNeeds .ppmEncode s <|
    requireNotFinished s <|
    requireNoEscape s <|
    requireSymbol sym s <|
    requireHistRoom s <|
    requireCtxRoom s <|
    (encodeLoop sym (ordersLeft s) s).andThen fun s' =>
    .ok ((updateModel s' sym).setRes0 (toWord s'.ppm.esc))

/-- PPM_DECODE (44_frequency_model.md R261). RES1 is the number of escapes: ESC as the loop leaves it, since ESC = 0 before it. -/
def execPpmDecode (s : State) : Host.Outcome State Fault Refusal :=
  finish <|
    withNeeds .ppmDecode s <|
    requireStarted s <|
    requireNoEscape s <|
    requireHistRoom s <|
    (decodeLoop (ordersLeft s) s).andThen fun r =>
    requireCtxRoom r.2 <|
    .ok (((updateModel r.2 r.1).setRes0 (toWord r.1)).setRes1 (toWord r.2.ppm.esc))

end Sys2Proof.Machine
end

