-- ==== Sys2Proof/Machine/Control.lean ====
section
/-! DEFINITION. The global commands NOP and INIT (40_control.md). -/

namespace Sys2Proof.Machine

/-- NOP: `skip` (40_control.md R130). -/
def execNop (s : State) : Host.Outcome State Fault Refusal :=
  finish (withNeeds .nop s (.ok s))

/-- METHOD: 0 = A, 1 = B, 2 = C, 3 = D (10_state.md R41). -/
def methodOf (m : BitVec 2) : Method :=
  match m.toNat with
  | 0 => .A
  | 1 => .B
  | 2 => .C
  | _ => .D

/-- COSTMODE: 0 = count tokens, 1 = tables (10_state.md R40). -/
def costModeOf (c : BitVec 1) : CostMode := if c = 0#1 then .count else .tables

/-- The checks of INIT in their order; FAULT_INFO is the offset of the first illegal CFG register (40_control.md R131). -/
def requireConfig {α : Type} (s : State) (rest : CmdResult α) : CmdResult α :=
  let a := s.cfg.alpha.toNat
  let w := s.cfg.window.toNat
  let mn := s.cfg.minlen.toNat
  let mx := s.cfg.maxlen.toNat
  require (decide (1 ≤ a ∧ a ≤ s.inst.aMax)) .badConfig 0x080 s <|
  require (decide (1 ≤ w ∧ w ≤ s.inst.wMax)) .badConfig 0x088 s <|
  require (decide (1 ≤ mn ∧ mn ≤ mx)) .badConfig 0x090 s <|
  require (decide (mx ≤ s.inst.maxlenMax)) .badConfig 0x098 s <|
  require (decide (s.cfg.order.toNat ≤ s.inst.kMax)) .badConfig 0x0A8 s rest

/-- ACFG as INIT copies it from the CFG registers (40_control.md R131). -/
def CfgRegs.active (c : CfgRegs) : ActiveCfg :=
  { alpha := c.alpha.toNat, window := c.window.toNat, minlen := c.minlen.toNat, maxlen := c.maxlen.toNat
    costMode := costModeOf c.cost, order := c.order.toNat, method := methodOf c.method }

/-- The five counted spaces emptied; the cost tables stay (40_control.md R131, 20_memory.md R76). -/
def Memory.emptyStreams (m : Memory) : Memory := { m with seq := [], tok := [], dseq := [], obuf := [], ibuf := [] }

/-- The state a new session starts in (40_control.md R131). ARG, RES, INTEN, the CFG registers and the cost tables are not changed. -/
def State.startSession (s : State) (m : Direction) : State :=
  { s with
    acfg := s.cfg.active, mem := s.mem.emptyStreams, rc := Coder.reset s.inst, ppm := Model.reset
    rcFinished := false, rcDecReady := false, mode := m, session := true }

/-- INIT (40_control.md R131). -/
def execInit (m : Direction) (s : State) : Host.Outcome State Fault Refusal :=
  finish (withNeeds .init s (requireConfig s (.ok (s.startSession m))))

end Sys2Proof.Machine
end

