-- ==== Sys2Proof/Machine/HostPort.lean ====
section
/-! DEFINITION. The host's side: the register window (10_state.md), reads and writes of a register, the CMD write, and the reads that return a free value while a command is in flight (70_reset_and_hazards.md R342). -/

namespace Sys2Proof.Machine

/-- The registers of the map in 10_state.md, section 2. -/
inductive Reg where
  | id | ctrl | status | inten | cmd | faultCmd | faultInfo
  | arg0 | arg1 | arg2 | res0 | res1 | res2
  | cfgAlpha | cfgWindow | cfgMinlen | cfgMaxlen | cfgCost | cfgPpm
  | seqLen | tokCount | dseqLen | outLen | inLen | inPtr | rcLow | rcRange | rcData | ppmHlen
  | paramN | paramSeqCap | paramObufCap | paramIbufCap | paramAMax | paramWMax | paramMaxlenMax | paramKMax | paramCtxCap
  deriving DecidableEq, Repr

/-- The register map: offset and register (10_state.md, section 2). -/
def regMap : List (Nat × Reg) :=
  [(0x000, .id), (0x008, .ctrl), (0x010, .status), (0x018, .inten), (0x020, .cmd), (0x028, .faultCmd), (0x030, .faultInfo)] ++
  [(0x040, .arg0), (0x048, .arg1), (0x050, .arg2), (0x060, .res0), (0x068, .res1), (0x070, .res2)] ++
  [(0x080, .cfgAlpha), (0x088, .cfgWindow), (0x090, .cfgMinlen), (0x098, .cfgMaxlen), (0x0A0, .cfgCost), (0x0A8, .cfgPpm)] ++
  [(0x100, .seqLen), (0x108, .tokCount), (0x110, .dseqLen), (0x118, .outLen), (0x120, .inLen), (0x128, .inPtr)] ++
  [(0x130, .rcLow), (0x138, .rcRange), (0x140, .rcData), (0x148, .ppmHlen)] ++
  [(0x180, .paramN), (0x188, .paramSeqCap), (0x190, .paramObufCap), (0x198, .paramIbufCap), (0x1A0, .paramAMax)] ++
  [(0x1A8, .paramWMax), (0x1B0, .paramMaxlenMax), (0x1B8, .paramKMax), (0x1C0, .paramCtxCap)]

/-- The register at an offset, if the map lists it (10_state.md R46). -/
def regAt (off : Nat) : Option Reg := (regMap.find? (fun e => e.1 == off)).map (fun e => e.2)

/-- The CFG_PPM word: ORDER [3:0], METHOD [9:8], other bits 0 (10_state.md R41). -/
def CfgRegs.ppmWord (c : CfgRegs) : Word := toWord (c.order.toNat + 2 ^ 8 * c.method.toNat)

/-- The exact value of a register as a 64-bit read shows it (10_state.md R22 to R45). -/
def regValue (s : State) : Reg → Word
  | .id => 0x4C5A373700000007#64
  | .ctrl => 0#64
  | .status => s.statusWord
  | .inten => s.intenWord
  | .cmd => 0#64
  | .faultCmd => s.faultCmd
  | .faultInfo => s.faultInfo
  | .arg0 => s.arg0
  | .arg1 => s.arg1
  | .arg2 => s.arg2
  | .res0 => s.res0
  | .res1 => s.res1
  | .res2 => s.res2
  | .cfgAlpha => toWord s.cfg.alpha.toNat
  | .cfgWindow => toWord s.cfg.window.toNat
  | .cfgMinlen => toWord s.cfg.minlen.toNat
  | .cfgMaxlen => toWord s.cfg.maxlen.toNat
  | .cfgCost => toWord s.cfg.cost.toNat
  | .cfgPpm => s.cfg.ppmWord
  | .seqLen => toWord s.mem.seq.length
  | .tokCount => toWord s.mem.tok.length
  | .dseqLen => toWord s.mem.dseq.length
  | .outLen => toWord s.mem.obuf.length
  | .inLen => toWord s.mem.ibuf.length
  | .inPtr => toWord s.rc.inPtr
  | .rcLow => toWord s.rc.low
  | .rcRange => toWord s.rc.range
  | .rcData => toWord s.rc.data
  | .ppmHlen => toWord s.ppm.hlen
  | .paramN => toWord s.inst.nBytes
  | .paramSeqCap => toWord s.inst.seqCap
  | .paramObufCap => toWord s.inst.obufCap
  | .paramIbufCap => toWord s.inst.ibufCap
  | .paramAMax => toWord s.inst.aMax
  | .paramWMax => toWord s.inst.wMax
  | .paramMaxlenMax => toWord s.inst.maxlenMax
  | .paramKMax => toWord s.inst.kMax
  | .paramCtxCap => toWord s.inst.ctxCap

/-- A CMD write (10_state.md R32): dropped while FAULT = 1, an overrun while BUSY = 1 (60_exceptions.md R306: FAULT_CMD the written word, FAULT_INFO the word in flight, which is not aborted), accepted otherwise. -/
def writeCmd (s : State) (w : Word) : State :=
  if s.fault.isSome then s
  else if s.busy then s.recordFault .cmdOverrun w s.latch.word.toNat
  else s.accept w

/-- A write to CTRL: a 1 in bit 0 resets (10_state.md R23). -/
def writeCtrl (s : State) (v : Word) : State := if v.getLsbD 0 then s.resetNow else s

/-- A write to a register; writes to read-only registers are ignored, and RW registers store only their legal bits (10_state.md, section 2). -/
def regWrite (s : State) (r : Reg) (v : Word) : State :=
  match r with
  | .id => s
  | .ctrl => writeCtrl s v
  | .status => s.writeStatus v
  | .inten => s.writeInten v
  | .cmd => writeCmd s v
  | .faultCmd => s
  | .faultInfo => s
  | .arg0 => { s with arg0 := v }
  | .arg1 => { s with arg1 := v }
  | .arg2 => { s with arg2 := v }
  | .res0 => s
  | .res1 => s
  | .res2 => s
  | .cfgAlpha => { s with cfg := { s.cfg with alpha := v.extractLsb' 0 17 } }
  | .cfgWindow => { s with cfg := { s.cfg with window := v.extractLsb' 0 25 } }
  | .cfgMinlen => { s with cfg := { s.cfg with minlen := v.extractLsb' 0 16 } }
  | .cfgMaxlen => { s with cfg := { s.cfg with maxlen := v.extractLsb' 0 16 } }
  | .cfgCost => { s with cfg := { s.cfg with cost := v.extractLsb' 0 1 } }
  | .cfgPpm => { s with cfg := { s.cfg with order := v.extractLsb' 0 4, method := v.extractLsb' 8 2 } }
  | .seqLen => s
  | .tokCount => s
  | .dseqLen => s
  | .outLen => s
  | .inLen => s
  | .inPtr => s
  | .rcLow => s
  | .rcRange => s
  | .rcData => s
  | .ppmHlen => s
  | .paramN => s
  | .paramSeqCap => s
  | .paramObufCap => s
  | .paramIbufCap => s
  | .paramAMax => s
  | .paramWMax => s
  | .paramMaxlenMax => s
  | .paramKMax => s
  | .paramCtxCap => s

/-- The RES, counter and RC registers a command may write (30_encoding.md R107 "RES written"; 10_state.md R43; the commands' rules). -/
def writtenRegs : Opcode → List Reg
  | .nop => []
  | .init => [.seqLen, .tokCount, .dseqLen, .outLen, .inLen, .inPtr, .rcLow, .rcRange, .rcData, .ppmHlen]
  | .stmPush => [.seqLen]
  | .stmQuery => [.res0, .res1, .res2]
  | .stmRead => [.res0]
  | .psuParse => [.res0, .res1, .tokCount]
  | .psuToken => [.res0]
  | .psuSetcost => []
  | .psuGetcost => [.res0]
  | .psuExpand => [.dseqLen]
  | .psuDread => [.res0]
  | .rcEncode => [.outLen, .rcLow, .rcRange]
  | .rcFinish => [.outLen, .rcLow]
  | .rcOutbyte => [.res0]
  | .rcInbyte => [.inLen]
  | .rcDstart => [.inPtr, .rcData]
  | .rcFetch => [.res0]
  | .rcDecode => [.inPtr, .rcLow, .rcRange, .rcData]
  | .ppmEncode => [.res0, .outLen, .rcLow, .rcRange, .ppmHlen]
  | .ppmDecode => [.res0, .res1, .inPtr, .rcLow, .rcRange, .rcData, .ppmHlen]
  | .ppmHasesc => [.res0]
  | .ppmNumden => [.res0, .res1, .res2]
  | .ppmCdf => [.res0, .res1]
  | .ppmIcdf => [.res0]
  | .ppmEscape => []
  | .ppmUpdate => [.ppmHlen]

/-- Whether a command may change ESC (10_state.md R30). -/
def writesEsc : Opcode → Bool
  | .init => true
  | .ppmEncode => true
  | .ppmDecode => true
  | .ppmEscape => true
  | .ppmUpdate => true
  | .nop => false
  | .stmPush => false
  | .stmQuery => false
  | .stmRead => false
  | .psuParse => false
  | .psuToken => false
  | .psuSetcost => false
  | .psuGetcost => false
  | .psuExpand => false
  | .psuDread => false
  | .rcEncode => false
  | .rcFinish => false
  | .rcOutbyte => false
  | .rcInbyte => false
  | .rcDstart => false
  | .rcFetch => false
  | .rcDecode => false
  | .ppmHasesc => false
  | .ppmNumden => false
  | .ppmCdf => false
  | .ppmIcdf => false

/-- The opcode of the word in flight, if it is a command. -/
def inFlight (s : State) : Option Opcode :=
  match decode s.latch.word with
  | .command i => some i.opcode
  | .rejected _ => none

/-- STATUS.FAULT and STATUS.FAULT_CODE, bits 2 and [15:8] (10_state.md R24). -/
def statusFaultMask : Word := 0xFF04#64

/-- STATUS.ESC, bits [23:16] (10_state.md R24). -/
def statusEscMask : Word := 0xFF0000#64

/-- The bits of a register that the word in flight may write (70_reset_and_hazards.md R342): the RES, counter and RC registers of its rule, STATUS.ESC, and the fault registers.
The fault registers are open while FAULT = 0 only, since "Only the first fault since reset is recorded" (60_exceptions.md R303); STATUS.FAULT and FAULT_CODE count among them (log 3). -/
def openBits (s : State) (r : Reg) : Word :=
  match r with
  | .faultCmd => if s.fault.isNone then BitVec.allOnes 64 else 0#64
  | .faultInfo => if s.fault.isNone then BitVec.allOnes 64 else 0#64
  | .status =>
    (if s.fault.isNone then statusFaultMask else 0#64) |||
    (match inFlight s with
      | some o => if writesEsc o then statusEscMask else 0#64
      | none => 0#64)
  | _ =>
    match inFlight s with
    | some o => if r ∈ writtenRegs o then BitVec.allOnes 64 else 0#64
    | none => 0#64

/-- The bits of a read that are a free value: none while BUSY = 0 (70_reset_and_hazards.md R341, R342). -/
def drawnBits (s : State) (r : Reg) : Word := if s.busy then openBits s r else 0#64

/-- The value the host's read of a register returns: exact, but for the drawn bits (70_reset_and_hazards.md R342). -/
def regRead (s : State) (r : Reg) : Word :=
  (regValue s r &&& ~~~(drawnBits s r)) ||| (Config.freeRead s.env.draws &&& drawnBits s r)

/-- Hand a value to the host. -/
def State.deliver (s : State) (v : Word) : State := { s with env := { s.env with got := v :: s.env.got } }

/-- Use up one free value if any bit of the read was drawn, so that each read draws afresh (93_implementation_defined.md I1). -/
def State.useDraw (s : State) (mask : Word) : State :=
  { s with env := { s.env with draws := if mask = 0#64 then s.env.draws else s.env.draws + 1 } }

/-- An aligned 64-bit read at an offset: the register, or 0 where the map lists none (10_state.md R46). It changes nothing of RL-CORE (20_memory.md R75). -/
def hostRead (s : State) (off : Nat) : State :=
  match regAt off with
  | none => s.deliver 0#64
  | some r => (s.useDraw (drawnBits s r)).deliver (regRead s r)

/-- An aligned 64-bit write at an offset; ignored where the map lists no register (10_state.md R46). -/
def hostWrite (s : State) (off : Nat) (v : Word) : State :=
  match regAt off with
  | none => s
  | some r => regWrite s r v

/-- The offset of an access in the 4 KiB window, or why it has no meaning (10_state.md R46, 20_memory.md R74, R78; log 11). -/
def windowOffset (p : Params) (addr bytes : Nat) : Except Refusal Nat :=
  if addr < p.regBase ∨ p.regBase + 4096 ≤ addr then .error .outsideWindow
  else if bytes ≠ 8 then .error .narrowAccess
  else if (addr - p.regBase) % 8 ≠ 0 then .error .misalignedAccess
  else .ok (addr - p.regBase)

/-- One access of the outside world (70_reset_and_hazards.md R351). -/
def performAccess (s : State) : Access → Host.Outcome State Fault Refusal
  | .rst => .next s.resetNow
  | .read addr bytes =>
    match windowOffset s.inst addr bytes with
    | .error r => .refused r
    | .ok off => .next (hostRead s off)
  | .write addr bytes v =>
    match windowOffset s.inst addr bytes with
    | .error r => .refused r
    | .ok off => .next (hostWrite s off v)

/-- A turn of the host: its next access, or nothing if it has none. -/
def hostTurn (s : State) : Host.Outcome State Fault Refusal :=
  match s.env.todo with
  | [] => .next s
  | a :: rest => performAccess { s with env := { s.env with todo := rest } } a

end Sys2Proof.Machine
end

