-- ==== Sys2Proof/Machine/Matcher.lean ====
section
/-! DEFINITION. The suffix-tree matcher: the match record of a position (41_matcher.md R141) and STM_PUSH, STM_QUERY, STM_READ. The tree itself is not architectural and is omitted (10_state.md R50, log 13). -/

namespace Sys2Proof.Machine

/-- The length of the longest common beginning of two lists. -/
def commonLen : List Half → List Half → Nat
  | a :: as, b :: bs => if a = b then commonLen as bs + 1 else 0
  | _, _ => 0

/-- lo(j) = max(0, j - W), the first in-window source (41_matcher.md R141). -/
def matchLo (w j : Nat) : Nat := j - w

/-- cand(j) = the sources s with lo(j) <= s < j, ascending (41_matcher.md R141). -/
def candidates (w j : Nat) : List Nat := (List.range j).filter (fun s => matchLo w j ≤ s)

/-- lcp(s, j): the largest l with 0 <= l <= n - j and SEQ[s + t] = SEQ[j + t] for every t < l (41_matcher.md R141). For s < j the list from s is the longer one, so the list from j bounds l by n - j. -/
def lcp (seq : List Half) (s j : Nat) : Nat := commonLen (seq.drop s) (seq.drop j)

/-- The largest element of a list, 0 for the empty list. -/
def maxOf (l : List Nat) : Nat := l.foldl max 0

/-- L(j) (41_matcher.md R141). -/
def matchLen (seq : List Half) (w j : Nat) : Nat := maxOf ((candidates w j).map (fun s => lcp seq s j))

/-- src(j): the most recent source that attains L(j), 0 if L(j) = 0 (41_matcher.md R141). -/
def matchSrc (seq : List Half) (w j : Nat) : Nat :=
  if matchLen seq w j = 0 then 0
  else maxOf ((candidates w j).filter (fun s => lcp seq s j = matchLen seq w j))

/-- STM_PUSH (41_matcher.md R145). -/
def execStmPush (sym : Nat) (s : State) : Host.Outcome State Fault Refusal :=
  finish <|
    withNeeds .stmPush s <|
    require (decide (sym < s.acfg.alpha)) .badSymbol sym s <|
    require (decide (s.mem.seq.length < s.inst.seqCap)) .seqFull 0 s <|
    .ok { s with mem := { s.mem with seq := s.mem.seq ++ [BitVec.ofNat 16 sym] } }

/-- STM_QUERY (41_matcher.md R146). -/
def execStmQuery (idx : Nat) (s : State) : Host.Outcome State Fault Refusal :=
  let len := matchLen s.mem.seq s.acfg.window idx
  let src := matchSrc s.mem.seq s.acfg.window idx
  finish <|
    withNeeds .stmQuery s <|
    require (decide (idx < s.mem.seq.length)) .rangeArg idx s <|
    .ok (((s.setRes0 (toWord len)).setRes1 (toWord src)).setRes2 (toWord (if 0 < len then idx - src else 0)))

/-- STM_READ (41_matcher.md R147). -/
def execStmRead (idx : Nat) (s : State) : Host.Outcome State Fault Refusal :=
  finish <|
    withNeeds .stmRead s <|
    require (decide (idx < s.mem.seq.length)) .rangeArg idx s <|
    .ok (s.setRes0 (toWord (readAt s.mem.seq idx).toNat))

end Sys2Proof.Machine
end

