-- ==== Sys2Proof/Machine/Parser.lean ====
section
/-! DEFINITION. The parse segmenter: usable matches, costs, the dynamic program, and PSU_PARSE, PSU_TOKEN, PSU_SETCOST, PSU_GETCOST, PSU_EXPAND, PSU_DREAD (42_parser.md). -/

namespace Sys2Proof.Machine

/-- Lc(i) = min(L(i), MAXLEN) (42_parser.md R171). -/
def clippedLen (s : State) (i : Nat) : Nat := min (matchLen s.mem.seq s.acfg.window i) s.acfg.maxlen

/-- usable(i) (42_parser.md R171). -/
def usableMatch (s : State) (i : Nat) : Bool := decide (s.acfg.minlen ≤ clippedLen s i)

/-- dist(i) = i - src(i) (42_parser.md R171). -/
def matchDist (s : State) (i : Nat) : Nat := i - matchSrc s.mem.seq s.acfg.window i

/-- litCost(i) (42_parser.md R173). -/
def litCost (s : State) (i : Nat) : Nat :=
  match s.acfg.costMode with
  | .count => 1
  | .tables => (CostTable.at s.mem.litcost (readAt s.mem.seq i).toNat).toNat

/-- matchCost(l, d) (42_parser.md R173). -/
def matchCost (s : State) (l d : Nat) : Nat :=
  match s.acfg.costMode with
  | .count => 1
  | .tables => (CostTable.at s.mem.lencost l).toNat + (CostTable.at s.mem.distcost (bitlen (d - 1))).toNat

/-- What the dynamic program holds for a position: cost[j], `none` for INF, and pred[j], a token and the position it starts from (42_parser.md R177). -/
structure ParseCell where
  cost : Option Nat
  pred : Option (Token × Nat)
  deriving DecidableEq, Repr

/-- cost[0] = 0; every other position INF with no predecessor (42_parser.md R177). -/
def parseStart (n : Nat) : List ParseCell := { cost := some 0, pred := none } :: List.replicate n { cost := none, pred := none }

/-- cost[j] as stored. -/
def costAt (cells : List ParseCell) (j : Nat) : Option Nat := (cells[j]?).bind (fun c => c.cost)

/-- A proposal for position j replaces the stored value only when it is strictly smaller (42_parser.md R177). -/
def propose (cells : List ParseCell) (j c : Nat) (t : Token) (start : Nat) : List ParseCell :=
  match costAt cells j with
  | none => cells.set j { cost := some c, pred := some (t, start) }
  | some c' => if c < c' then cells.set j { cost := some c, pred := some (t, start) } else cells

/-- One iteration of the forward pass: the literal proposal first, then the match proposal (42_parser.md R177). cost[i] is finite when it is read. -/
def parseStep (s : State) (cells : List ParseCell) (i : Nat) : List ParseCell :=
  let ci := (costAt cells i).getD 0
  let cells := propose cells (i + 1) (ci + litCost s i) (.literal (readAt s.mem.seq i).toNat) i
  if usableMatch s i then
    let l := clippedLen s i
    let d := matchDist s i
    propose cells (i + l) (ci + matchCost s l d) (.backref l d) i
  else cells

/-- The forward pass over i = 0 .. n - 1, ascending (42_parser.md R177). -/
def parseCells (s : State) : List ParseCell :=
  (List.range s.mem.seq.length).foldl (parseStep s) (parseStart s.mem.seq.length)

/-- The backtrack from position j, putting each token in front of those after it (42_parser.md R177). Each token starts before it ends, so n rounds are enough. -/
def backtrack (cells : List ParseCell) : Nat → Nat → List Token → List Token
  | 0, _, toks => toks
  | rounds + 1, j, toks =>
    if j = 0 then toks
    else match (cells[j]?).bind (fun c => c.pred) with
      | none => toks
      | some (t, start) => backtrack cells rounds start (t :: toks)

/-- The tokens of the parse, in order (42_parser.md R177). -/
def parseTokens (s : State) : List Token := backtrack (parseCells s) s.mem.seq.length s.mem.seq.length []

/-- cost[n] (42_parser.md R177). -/
def parseCost (s : State) : Nat := (costAt (parseCells s) s.mem.seq.length).getD 0

/-- PSU_PARSE (42_parser.md R178): TOK is replaced entirely. -/
def execPsuParse (s : State) : Host.Outcome State Fault Refusal :=
  let toks := parseTokens s
  finish <|
    withNeeds .psuParse s <|
    .ok (({ s with mem := { s.mem with tok := toks.map Token.word } }.setRes0 (toWord (parseCost s))).setRes1 (toWord toks.length))

/-- PSU_TOKEN (42_parser.md R179). -/
def execPsuToken (idx : Nat) (s : State) : Host.Outcome State Fault Refusal :=
  finish <|
    withNeeds .psuToken s <|
    require (decide (idx < s.mem.tok.length)) .rangeArg idx s <|
    .ok (s.setRes0 (readAt s.mem.tok idx))

/-- The checks of a csel immediate: TABLE, then INDEX (42_parser.md R180, R181). -/
def withCostEntry {α : Type} (table index : Nat) (s : State) (rest : CostSel → CmdResult α) : CmdResult α :=
  match costSel table with
  | none => .raise .rangeArg (cselImm table index) s
  | some sel => require (decide (index < costLen s.inst sel)) .rangeArg (cselImm table index) s (rest sel)

/-- PSU_SETCOST (42_parser.md R180). -/
def execPsuSetcost (table index : Nat) (s : State) : Host.Outcome State Fault Refusal :=
  finish <|
    withNeeds .psuSetcost s <|
    withCostEntry table index s fun sel =>
    require (decide (s.opArg0 ≤ 0xFFFF)) .rangeArg s.opArg0 s <|
    .ok { s with mem := s.mem.setCost sel index (BitVec.ofNat 16 s.opArg0) }

/-- PSU_GETCOST (42_parser.md R181). -/
def execPsuGetcost (table index : Nat) (s : State) : Host.Outcome State Fault Refusal :=
  finish <|
    withNeeds .psuGetcost s <|
    withCostEntry table index s fun sel =>
    .ok (s.setRes0 (toWord (CostTable.at (s.mem.costTable sel) index).toNat))

/-- The copy of a Match: l symbols, one at a time, each from d back of the end (42_parser.md R182). -/
def expandCopy (d : Nat) : Nat → List Half → List Half
  | 0, dseq => dseq
  | l + 1, dseq => expandCopy d l (dseq ++ [readAt dseq (dseq.length - d)])

/-- Whether PSU_EXPAND can expand a token word over a decoded sequence of m symbols: checks 2 to 4 (42_parser.md R182). -/
def tokenExpandable (acfg : ActiveCfg) (m : Nat) (t : Word) : Bool :=
  decide (tokRsv t = 0) &&
    if tokKind t = 0 then decide (tokDist t = 0 ∧ tokLow t < acfg.alpha)
    else decide (1 ≤ tokLow t ∧ tokLow t ≤ acfg.maxlen ∧ 1 ≤ tokDist t ∧ tokDist t ≤ acfg.window ∧ tokDist t ≤ m)

/-- How many symbols a token word appends (42_parser.md R182, check 5). -/
def tokGrowth (t : Word) : Nat := if tokKind t = 0 then 1 else tokLow t

/-- DSEQ after the expansion of a token word (42_parser.md R182). -/
def expandToken (t : Word) (dseq : List Half) : List Half :=
  if tokKind t = 0 then dseq ++ [BitVec.ofNat 16 (tokLow t)]
  else expandCopy (tokDist t) (tokLow t) dseq

/-- PSU_EXPAND (42_parser.md R182). -/
def execPsuExpand (s : State) : Host.Outcome State Fault Refusal :=
  let t := s.latch.arg0
  finish <|
    withNeeds .psuExpand s <|
    require (tokenExpandable s.acfg s.mem.dseq.length t) .badToken t.toNat s <|
    require (decide (s.mem.dseq.length + tokGrowth t ≤ s.inst.seqCap)) .seqFull 0 s <|
    .ok { s with mem := { s.mem with dseq := expandToken t s.mem.dseq } }

/-- PSU_DREAD (42_parser.md R183). -/
def execPsuDread (idx : Nat) (s : State) : Host.Outcome State Fault Refusal :=
  finish <|
    withNeeds .psuDread s <|
    require (decide (idx < s.mem.dseq.length)) .rangeArg idx s <|
    .ok (s.setRes0 (toWord (readAt s.mem.dseq idx).toNat))

end Sys2Proof.Machine
end

