-- ==== Sys2Proof/Machine/Dispatch.lean ====
section
/-! DEFINITION. The meaning of every command: one arm per constructor of `Instr`. -/

namespace Sys2Proof.Machine

def exec (i : Instr) (s : State) : Host.Outcome State Fault Refusal :=
  match i with
  | .nop => Sys2Proof.Machine.execNop s
  | .init m => Sys2Proof.Machine.execInit m s
  | .stmPush sym => Sys2Proof.Machine.execStmPush sym s
  | .stmQuery idx => Sys2Proof.Machine.execStmQuery idx s
  | .stmRead idx => Sys2Proof.Machine.execStmRead idx s
  | .psuParse => Sys2Proof.Machine.execPsuParse s
  | .psuToken idx => Sys2Proof.Machine.execPsuToken idx s
  | .psuSetcost table index => Sys2Proof.Machine.execPsuSetcost table index s
  | .psuGetcost table index => Sys2Proof.Machine.execPsuGetcost table index s
  | .psuExpand => Sys2Proof.Machine.execPsuExpand s
  | .psuDread idx => Sys2Proof.Machine.execPsuDread idx s
  | .rcEncode => Sys2Proof.Machine.execRcEncode s
  | .rcFinish => Sys2Proof.Machine.execRcFinish s
  | .rcOutbyte idx => Sys2Proof.Machine.execRcOutbyte idx s
  | .rcInbyte byte => Sys2Proof.Machine.execRcInbyte byte s
  | .rcDstart => Sys2Proof.Machine.execRcDstart s
  | .rcFetch => Sys2Proof.Machine.execRcFetch s
  | .rcDecode => Sys2Proof.Machine.execRcDecode s
  | .ppmEncode sym => Sys2Proof.Machine.execPpmEncode sym s
  | .ppmDecode => Sys2Proof.Machine.execPpmDecode s
  | .ppmHasesc sym => Sys2Proof.Machine.execPpmHasesc sym s
  | .ppmNumden => Sys2Proof.Machine.execPpmNumden s
  | .ppmCdf sym => Sys2Proof.Machine.execPpmCdf sym s
  | .ppmIcdf => Sys2Proof.Machine.execPpmIcdf s
  | .ppmEscape => Sys2Proof.Machine.execPpmEscape s
  | .ppmUpdate sym => Sys2Proof.Machine.execPpmUpdate sym s

end Sys2Proof.Machine
end

