-- ==== Sys2Proof/Machine/Schedule.lean ====
section
/-! DEFINITION. Whose turn it is, a turn of the core, and placing a command where the core's next turn runs it (00_scope.md R8, 20_memory.md R80; logs 2 and 10). -/

namespace Sys2Proof.Machine

/-- The agent that moves next: as the schedule says; with no turn scheduled, the core while a command is in flight and the host otherwise (log 2). -/
def State.nextAgent (s : State) : Agent :=
  match s.env.sched with
  | a :: _ => a
  | [] => if s.busy then .core else .host

/-- The state with the scheduled turn taken off. -/
def State.takeTurn (s : State) : State := { s with env := { s.env with sched := s.env.sched.tail } }

/-- A word that is no command raises ILLEGAL_CMD with the word as its information (30_encoding.md R103, 60_exceptions.md R304). -/
def illegalCommand (s : State) : Host.Outcome State Fault Refusal :=
  finish (.raise .illegalCmd s.latch.word.toNat s)

/-- A turn of the core: the command in flight as one atomic event (20_memory.md R80); an idle core keeps its state (60_exceptions.md R317). -/
def coreTurn (s : State) : Host.Outcome State Fault Refusal :=
  if s.busy then
    match decode s.latch.word with
    | .command i => exec i s
    | .rejected _ => illegalCommand s
  else .next s

/-- A command in flight whose word is given, with the core to move next (log 10): accepted as 10_state.md R32 says. -/
def placeCommand (s : State) (w : Word) : State :=
  { s.accept w with env := { s.env with sched := .core :: s.env.sched } }

end Sys2Proof.Machine
end

