-- ==== Sys2Proof/Machine/Step.lean ====
section
/-! DEFINITION. One step of the machine: a turn of the host or of the core sequencer (00_scope.md R8). -/

namespace Sys2Proof.Machine

/-- One step: the agent whose turn it is moves. -/
def step (s : State) : Host.Outcome State Fault Refusal :=
  match s.nextAgent with
  | .core => coreTurn s.takeTurn
  | .host => hostTurn s.takeTurn

/-- s with the command of a table row's bits in flight and the core to move next, so that the very next step runs it (log 10). -/
def State.withFetchWord (s : State) (nbits w : Nat) : State := placeCommand s (toWord (w % 2 ^ nbits))

end Sys2Proof.Machine
end

