-- ==== Sys2Proof/Safety.lean ====
section
/-! DEFINITION. The terms claims are stated in: the invariants of the machine, runs of commands that complete without a fault, the coder steps of a symbol, and the paths a parse chooses among. -/

namespace Sys2Proof.Machine

/-- The sum of the counts of a table. -/
def Counts.total (t : Counts) : Nat := (t.map (fun e => e.2)).sum

/-- ACFG is legal (40_control.md R131). Before the first INIT it holds the CFG reset values (10_state.md R42), which a small instance's A_MAX, W_MAX or MAXLEN_MAX may not reach. -/
structure ConfigOk (s : State) : Prop where
  alpha_pos : 1 ≤ s.acfg.alpha
  alpha_le : s.acfg.alpha ≤ 65536
  window_pos : 1 ≤ s.acfg.window
  window_le : s.acfg.window ≤ 2 ^ 24
  minlen_pos : 1 ≤ s.acfg.minlen
  minlen_le : s.acfg.minlen ≤ s.acfg.maxlen
  maxlen_le : s.acfg.maxlen ≤ 65535
  order_le : s.acfg.order ≤ s.inst.kMax
  alpha_max : s.session = true → s.acfg.alpha ≤ s.inst.aMax
  window_max : s.session = true → s.acfg.window ≤ s.inst.wMax
  maxlen_max : s.session = true → s.acfg.maxlen ≤ s.inst.maxlenMax

/-- The address spaces: canonical, within their capacities (20_memory.md R70), and holding symbols of the alphabet (R72). -/
structure SpacesOk (s : State) : Prop where
  wf : s.mem.wf = true
  seq_cap : s.mem.seq.length ≤ s.inst.seqCap
  tok_le : s.mem.tok.length ≤ s.mem.seq.length
  dseq_cap : s.mem.dseq.length ≤ s.inst.seqCap
  obuf_cap : s.mem.obuf.length ≤ s.inst.obufCap
  ibuf_cap : s.mem.ibuf.length ≤ s.inst.ibufCap
  seq_syms : ∀ x ∈ s.mem.seq, x.toNat < s.acfg.alpha
  dseq_syms : ∀ x ∈ s.mem.dseq, x.toNat < s.acfg.alpha
  cost_index : ∀ sel, ∀ e ∈ s.mem.costTable sel, e.1 < costLen s.inst sel

/-- The STATUS fields agree with one another and with the fault registers (10_state.md R26 to R29, R33). -/
structure StatusOk (s : State) : Prop where
  busy_not_done : s.busy = true → s.done = false
  fault_not_done : s.fault.isSome = true → s.done = false
  no_fault_cmd : s.fault = none → s.faultCmd = 0#64
  no_fault_info : s.fault = none → s.faultInfo = 0#64
  decode_session : s.mode = .decode → s.session = true
  finished_encode : s.rcFinished = true → s.session = true ∧ s.mode = .encode
  ready_decode : s.rcDecReady = true → s.session = true ∧ s.mode = .decode

/-- The range coder's registers between commands (10_state.md R43, R44). -/
structure CoderOk (s : State) : Prop where
  low_lt : s.rc.low < s.inst.modulus
  data_lt : s.rc.data < s.inst.modulus
  range_lt : s.rc.range < s.inst.modulus
  floor_le : s.inst.floor ≤ s.rc.range
  ptr_le : s.rc.inPtr ≤ s.mem.ibuf.length

/-- V of 43_range_coder.md R206: the bytes of OBUF read as a big-endian natural, times 2^B, plus low. -/
def codeValue (s : State) : Nat := bigEndian s.mem.obuf * s.inst.modulus + s.rc.low

/-- The nested-interval invariant of the encoder (43_range_coder.md R206); in decode mode OUT_LEN = 0 (R213). -/
structure IntervalOk (s : State) : Prop where
  nested : s.mode = .encode → codeValue s + s.rc.range ≤ 2 ^ (8 * s.mem.obuf.length) * s.inst.modulus
  no_output : s.mode = .decode → s.mem.obuf = []

/-- The frequency model's state (10_state.md R48, 44_frequency_model.md R241, R245, R249). -/
structure ModelOk (s : State) : Prop where
  esc_le : s.ppm.esc ≤ kmax s + 1
  hlen_le : s.ppm.hlen ≤ s.inst.seqCap
  hist_len : s.ppm.hist.length = min s.ppm.hlen s.acfg.order
  hist_syms : ∀ x ∈ s.ppm.hist, x < s.acfg.alpha
  ctx_wf : s.ppm.ctxWf = true
  ctx_cap : s.inst.ctxCap ≠ 0 → tableCount s.ppm ≤ s.inst.ctxCap
  key_len : ∀ e ∈ s.ppm.ctx, e.1.length ≤ kmax s
  key_syms : ∀ e ∈ s.ppm.ctx, ∀ x ∈ e.1, x < s.acfg.alpha
  table_syms : ∀ e ∈ s.ppm.ctx, ∀ c ∈ e.2, c.1 < s.acfg.alpha
  table_total : ∀ e ∈ s.ppm.ctx, Counts.total e.2 ≤ s.ppm.hlen

/-- The invariant of the machine. -/
structure State.Inv (s : State) : Prop where
  config : ConfigOk s
  spaces : SpacesOk s
  status : StatusOk s
  coder : CoderOk s
  interval : IntervalOk s
  model : ModelOk s

/-- The OP values of the table in 30_encoding.md R107. -/
def listedOp (op : Nat) : Prop :=
  op ≤ 0x01 ∨ (0x10 ≤ op ∧ op ≤ 0x12) ∨ (0x20 ≤ op ∧ op ≤ 0x25) ∨ (0x30 ≤ op ∧ op ≤ 0x36) ∨ (0x40 ≤ op ∧ op ≤ 0x47)

/-- The OP values whose IMM kind is `none` (30_encoding.md R107). -/
def unusedImmOps : List Nat := [0x00, 0x20, 0x24, 0x30, 0x31, 0x34, 0x35, 0x36, 0x41, 0x43, 0x45, 0x46]

/-- A word that one of the checks of 30_encoding.md R103 rejects. -/
def illegalWord (w : Word) : Prop :=
  ¬ listedOp (bitField w 7 0) ∨ bitField w 63 40 ≠ 0 ∨
  (bitField w 7 0 ∈ unusedImmOps ∧ bitField w 39 8 ≠ 0) ∨
  (bitField w 7 0 = 0x01 ∧ bitField w 39 9 ≠ 0)

/-- The registers a host may write, but for CTRL, STATUS and CMD, with the bits each stores (10_state.md R31, R34, R36 to R41). -/
def writableRegs : List (Reg × Word) :=
  [(.inten, 0x3#64), (.arg0, BitVec.allOnes 64), (.arg1, BitVec.allOnes 64), (.arg2, BitVec.allOnes 64), (.cfgAlpha, 0x1FFFF#64),
   (.cfgWindow, 0x1FFFFFF#64), (.cfgMinlen, 0xFFFF#64), (.cfgMaxlen, 0xFFFF#64), (.cfgCost, 0x1#64), (.cfgPpm, 0x30F#64)]

/-- The read-only registers, but for STATUS (10_state.md, section 2). -/
def readOnlyRegs : List Reg :=
  [.id, .faultCmd, .faultInfo, .res0, .res1, .res2, .seqLen, .tokCount, .dseqLen, .outLen, .inLen, .inPtr, .rcLow, .rcRange, .rcData,
   .ppmHlen, .paramN, .paramSeqCap, .paramObufCap, .paramIbufCap, .paramAMax, .paramWMax, .paramMaxlenMax, .paramKMax, .paramCtxCap]

/-- The registers whose reset value does not depend on the instance, with that value (10_state.md, section 2). -/
def resetValues : List (Reg × Word) :=
  [(.id, 0x4C5A373700000007#64), (.ctrl, 0#64), (.status, 0#64), (.inten, 0#64), (.cmd, 0#64), (.faultCmd, 0#64), (.faultInfo, 0#64),
   (.arg0, 0#64), (.arg1, 0#64), (.arg2, 0#64), (.res0, 0#64), (.res1, 0#64), (.res2, 0#64), (.cfgAlpha, 256#64), (.cfgWindow, 32768#64),
   (.cfgMinlen, 3#64), (.cfgMaxlen, 258#64), (.cfgCost, 0#64), (.cfgPpm, 0#64), (.seqLen, 0#64), (.tokCount, 0#64), (.dseqLen, 0#64),
   (.outLen, 0#64), (.inLen, 0#64), (.inPtr, 0#64), (.rcLow, 0#64), (.rcData, 0#64), (.ppmHlen, 0#64)]

/-- The offsets the register map of 10_state.md, section 2 lists. -/
def listedOffsets : List Nat :=
  [0x000, 0x008, 0x010, 0x018, 0x020, 0x028, 0x030, 0x040, 0x048, 0x050, 0x060, 0x068, 0x070, 0x080, 0x088, 0x090, 0x098, 0x0A0, 0x0A8] ++
  [0x100, 0x108, 0x110, 0x118, 0x120, 0x128, 0x130, 0x138, 0x140, 0x148, 0x180, 0x188, 0x190, 0x198, 0x1A0, 0x1A8, 0x1B0, 0x1B8, 0x1C0]

/-- The register map of 10_state.md, section 2: offset and register, row by row. -/
def registerOffsets : List (Nat × Reg) :=
  [(0x000, .id), (0x008, .ctrl), (0x010, .status), (0x018, .inten), (0x020, .cmd), (0x028, .faultCmd), (0x030, .faultInfo),
   (0x040, .arg0), (0x048, .arg1), (0x050, .arg2), (0x060, .res0), (0x068, .res1), (0x070, .res2)] ++
  [(0x080, .cfgAlpha), (0x088, .cfgWindow), (0x090, .cfgMinlen), (0x098, .cfgMaxlen), (0x0A0, .cfgCost), (0x0A8, .cfgPpm),
   (0x100, .seqLen), (0x108, .tokCount), (0x110, .dseqLen), (0x118, .outLen), (0x120, .inLen), (0x128, .inPtr)] ++
  [(0x130, .rcLow), (0x138, .rcRange), (0x140, .rcData), (0x148, .ppmHlen), (0x180, .paramN), (0x188, .paramSeqCap), (0x190, .paramObufCap),
   (0x198, .paramIbufCap), (0x1A0, .paramAMax), (0x1A8, .paramWMax), (0x1B0, .paramMaxlenMax), (0x1B8, .paramKMax), (0x1C0, .paramCtxCap)]

/-- The fault codes with their numbers, row by row (60_exceptions.md R301). -/
def faultCodes : List (FaultCode × Nat) :=
  [(.illegalCmd, 0x01), (.badConfig, 0x02), (.noSession, 0x03), (.mode, 0x04), (.sequence, 0x05), (.badSymbol, 0x06), (.rangeArg, 0x07),
   (.seqFull, 0x08), (.rcBadTriple, 0x09), (.rcOutFull, 0x0A), (.rcInUnderrun, 0x0B), (.rcInFull, 0x0C), (.rcDesync, 0x0D),
   (.carryOverflow, 0x0E), (.badToken, 0x0F), (.ctxFull, 0x10), (.cmdOverrun, 0x11)]

/-- l is the length of the longest common run of SEQ from s and from j, bounded by the data pushed so far: lcp(s, j) of 41_matcher.md R141. -/
def isLcp (seq : List Half) (s j l : Nat) : Prop :=
  l ≤ seq.length - j ∧ (∀ t < l, readAt seq (s + t) = readAt seq (j + t)) ∧
  (l < seq.length - j → readAt seq (s + l) ≠ readAt seq (j + l))

/-- A match record (L, src) of position j as 41_matcher.md R141 defines it. -/
def isMatchRecord (seq : List Half) (w j len src : Nat) : Prop :=
  (∀ s l, j - w ≤ s → s < j → isLcp seq s j l → l ≤ len) ∧
  (len = 0 → src = 0) ∧
  (0 < len → j - w ≤ src ∧ src < j ∧ isLcp seq src j len ∧ ∀ s l, src < s → s < j → isLcp seq s j l → l < len)

/-- A triple is legal (43_range_coder.md R201). -/
def Triple.legal (p : Params) (t : Triple) : Prop :=
  1 ≤ t.total ∧ t.total ≤ p.totalMax ∧ 1 ≤ t.freq ∧ t.cum + t.freq ≤ t.total

/-- A command that completes without a fault: the state after it. -/
def completes (i : Instr) (s : State) : Option State :=
  match exec i s with
  | .next t => if t.fault = none then some t else none
  | .fault _ => none
  | .refused _ => none

/-- The state with a triple latched as the command's operands (30_encoding.md R102). -/
def State.withTriple (s : State) (t : Triple) : State :=
  { s with latch := { s.latch with arg0 := toWord t.cum, arg1 := toWord t.freq, arg2 := toWord t.total } }

/-- The state with a token word latched as the command's operand (30_encoding.md R102). -/
def State.withToken (s : State) (t : Word) : State := { s with latch := { s.latch with arg0 := t } }

/-- One command for each triple, in order. -/
def runTriples (i : Instr) : List Triple → State → Option State
  | [], s => some s
  | t :: ts, s => (completes i (s.withTriple t)).bind (runTriples i ts)

/-- RC_INBYTE for each byte, in order. -/
def loadBytes : List Byte → State → Option State
  | [], s => some s
  | b :: bs, s => (completes (.rcInbyte b.toNat) s).bind (loadBytes bs)

/-- PSU_EXPAND for each token word, in order. -/
def expandAll : List Word → State → Option State
  | [], s => some s
  | t :: ts, s => (completes .psuExpand (s.withToken t)).bind (expandAll ts)

/-- PPM_ENCODE for each symbol, in order. -/
def encodeSymbols : List Nat → State → Option State
  | [], s => some s
  | x :: xs, s => (completes (.ppmEncode x) s).bind (encodeSymbols xs)

/-- m times PPM_DECODE: the RES0 values in order, and the state after them. -/
def decodeSymbols : Nat → State → Option (List Word × State)
  | 0, s => some ([], s)
  | m + 1, s =>
    (completes .ppmDecode s).bind fun t =>
    (decodeSymbols m t).bind fun r => some (t.res0 :: r.1, r.2)

/-- A decode session over a stream of bytes: INIT dec, RC_INBYTE for each byte, RC_DSTART (70_reset_and_hazards.md R334). -/
def openDecoder (bytes : List Byte) (s : State) : Option State :=
  (completes (.init .decode) s).bind fun t => (loadBytes bytes t).bind (completes .rcDstart)

/-- Encode steps, in order. -/
def encSteps : List Triple → State → CmdResult State
  | [], s => .ok s
  | t :: ts, s => (encStep t s).andThen (encSteps ts)

/-- Decode steps, in order. -/
def decSteps : List Triple → State → CmdResult State
  | [], s => .ok s
  | t :: ts, s => (decStep t s).andThen (decSteps ts)

/-- The triple of an escape at order k: (S, E, D) (44_frequency_model.md R260). -/
def escapeTriple (s : State) (k : Nat) : Triple :=
  { cum := massS s (.order k), freq := massE s (.order k), total := massD s (.order k) }

/-- The triple of a symbol at a level: (CDF(s), PDF(s), D), which is (rank_U(s), 1, |U|) at BASE for a symbol of U (44_frequency_model.md R246, R260). -/
def codeTriple (s : State) (lv : Level) (sym : Nat) : Triple :=
  { cum := cdf s lv sym, freq := pdf s lv sym, total := massD s lv }

/-- The triples that code a symbol with `n` order levels left: an escape at each order where its weight is 0, then the symbol (44_frequency_model.md R260). -/
def symbolTriples (s : State) (sym : Nat) : Nat → List Triple
  | 0 => [codeTriple s .base sym]
  | k + 1 =>
    if weight s (.order k) sym = 0 then escapeTriple s k :: symbolTriples s sym k
    else [codeTriple s (.order k) sym]

/-- The escape triples of the top j order levels: the orders kmax, kmax - 1, ... (44_frequency_model.md R241, R261). -/
def escapesFromTop (s : State) (j : Nat) : List Triple := (List.range j).map (fun i => escapeTriple s (kmax s - i))

/-- The triple a decode step takes at a level for a fetched t: the escape's if t lies in the escape zone of an order, the symbol's otherwise (44_frequency_model.md R261). -/
def fetchedTriple (s : State) (lv : Level) (t : Nat) : Triple :=
  match lv with
  | .order k => if massS s lv ≤ t then escapeTriple s k else codeTriple s lv (icdf s lv t)
  | .base => codeTriple s lv (icdf s lv t)

/-- The state with a given escape count (44_frequency_model.md R241). -/
def State.withEsc (s : State) (n : Nat) : State := { s with ppm := { s.ppm with esc := n } }

/-- k is the smallest order of the current levels whose context table has no count: the FAULT_INFO of CTX_FULL (44_frequency_model.md R249). -/
def isSmallestNewOrder (s : State) (k : Nat) : Prop :=
  k ≤ kmax s ∧ s.ppm.table (ctxKey s.ppm k) = [] ∧ ∀ k' < k, s.ppm.table (ctxKey s.ppm k') ≠ []

/-- An edge of the parse graph: the literal at position p, or the usable match there (42_parser.md R177). -/
def isEdge (s : State) (p : Nat) (t : Token) : Prop :=
  p < s.mem.seq.length ∧
  (t = .literal (readAt s.mem.seq p).toNat ∨ (usableMatch s p = true ∧ t = .backref (clippedLen s p) (matchDist s p)))

/-- A path of edges from position p to position q (42_parser.md R177, R184). -/
def isPath (s : State) : Nat → List Token → Nat → Prop
  | p, [], q => p = q
  | p, t :: ts, q => isEdge s p t ∧ isPath s (p + t.length) ts q

/-- How many symbols a list of tokens stands for. -/
def spanOf (ts : List Token) : Nat := (ts.map Token.length).sum

/-- Of two edges that start at the same position, which proposal is made first: the literal's (42_parser.md R177). -/
def Token.isLiteral : Token → Bool
  | .literal _ => true
  | .backref _ _ => false

/-- A partition of SEQ from position p on into tokens, each an edge at its position: a path of 42_parser.md R184. -/
def covers (s : State) (p : Nat) (ts : List Token) : Prop := isPath s p ts s.mem.seq.length

/-- The cost of a token at position p (42_parser.md R173). -/
def tokenCost (s : State) (p : Nat) : Token → Nat
  | .literal _ => litCost s p
  | .backref l d => matchCost s l d

/-- The sum of the token costs of a path from position p on (42_parser.md R184). -/
def pathCost (s : State) : Nat → List Token → Nat
  | _, [] => 0
  | p, t :: ts => tokenCost s p t + pathCost s (p + t.length) ts

end Sys2Proof.Machine
end

