-- ==== Sys2Proof/Certificates/Slice0/Obligations.lean ====
section
/-! DEFINITION. The statements for the provers. Each formalises a rule of spec/ or rests on the sections its docstring names. -/

open Sys2Proof Sys2Proof.Machine

/-! ### Command words (30_encoding.md) -/

/-- Decode and encode agree: no bit of an encoding is dropped (30_encoding.md R100, R101, R105, R107). -/
def Obligations.DecodeOfEncodeIsIdentity : Prop :=
  ∀ i : Instr, i.wellFormed = true → decode (encode i) = .command i

/-- Each command word has one meaning: the word of the command it decodes to is the word itself (30_encoding.md R100, R103, R109). -/
def Obligations.EncodeOfDecodeIsIdentity : Prop :=
  ∀ (w : Word) (i : Instr), decode w = .command i → encode i = w ∧ i.wellFormed = true

/-- 30_encoding.md R103, at the core's turn: a word that fails a check raises ILLEGAL_CMD with the word; every other word runs the command of its OP with imm = w[39:8]. -/
def Obligations.CommandWordsDispatchOrRaiseIllegal : Prop :=
  ∀ s : State, s.nextAgent = .core → s.busy = true →
    (illegalWord s.latch.word → step s = .next (s.takeTurn.takeFault .illegalCmd s.latch.word.toNat)) ∧
    (¬ illegalWord s.latch.word →
      ∃ i : Instr, i.opcode.code = bitField s.latch.word 7 0 ∧ i.imm = bitField s.latch.word 39 8 ∧ i.wellFormed = true ∧
        step s = exec i s.takeTurn)

/-- The words of 30_encoding.md R112 decode to the commands it names, and 0x0000010000000000 is no command. -/
def Obligations.ExampleWordsDecodeAsListed : Prop :=
  decode 0x0000000000000110#64 = .command (.stmPush 1) ∧
  decode 0x0000000000000211#64 = .command (.stmQuery 2) ∧
  decode 0x0000000000000101#64 = .command (.init .decode) ∧
  decode 0x0000001000010222#64 = .command (.psuSetcost 1 258) ∧
  decode 0x000000000000AB33#64 = .command (.rcInbyte 0xAB) ∧
  decode 0x0000000000FFFF40#64 = .command (.ppmEncode 65535) ∧
  (∀ i, decode 0x0000010000000000#64 ≠ .command i)

/-- A step runs the decoded command: at the core's turn, with a command in flight, the step is that command's meaning, with the scheduled turn taken off the schedule (20_memory.md R80, 10_state.md R51).
`withFetchWord` puts a word in flight as an accepted CMD write does (10_state.md R32; the placing is the model's choice, log 10). -/
def Obligations.StepRunsDecodedCommand : Prop :=
  (∀ (s : State) (i : Instr), s.nextAgent = .core → s.busy = true → decode s.latch.word = .command i → step s = exec i s.takeTurn) ∧
  (∀ (s : State) (w : Word) (i : Instr), decode w = .command i → step (s.withFetchWord 64 w.toNat) = exec i (s.accept w))

/-! ### The register window (10_state.md, 70_reset_and_hazards.md) -/

/-- 10_state.md R32: CMD reads 0; a write is dropped while FAULT = 1, raises CMD_OVERRUN while BUSY = 1, and is accepted otherwise: the latch takes the word with the current ARGs, BUSY is 1 and DONE is 0. -/
def Obligations.CmdWriteAcceptedDroppedOrOverrun : Prop :=
  ∀ (s : State) (w : Word),
    regAt 0x020 = some .cmd ∧ regRead s .cmd = 0#64 ∧
    (s.fault.isSome = true → performAccess s (.write (s.inst.regBase + 0x020) 8 w) = .next s) ∧
    (s.fault = none → s.busy = true →
      performAccess s (.write (s.inst.regBase + 0x020) 8 w) =
        .next { s with fault := some .cmdOverrun, faultCmd := w, faultInfo := s.latch.word }) ∧
    (s.fault = none → s.busy = false →
      performAccess s (.write (s.inst.regBase + 0x020) 8 w) =
        .next { s with latch := { word := w, arg0 := s.arg0, arg1 := s.arg1, arg2 := s.arg2 }, busy := true, done := false })

/-- 60_exceptions.md R306: after an overrun the command in flight completes by its own rule and its effects stand; BUSY is 0, DONE stays 0, and no fault of its own is recorded. -/
def Obligations.OverrunDoesNotAbortTheCommand : Prop :=
  ∀ (s : State) (w : Word) (i : Instr) (t : State), s.fault = none → s.busy = true → s.done = false → exec i s = .next t →
    exec i (writeCmd s w) =
      .next { t with fault := some .cmdOverrun, faultCmd := w, faultInfo := s.latch.word, busy := false, done := false }

/-- 70_reset_and_hazards.md R330, 10_state.md R23: `rst` and a write of 1 to CTRL.SRST lead to the same state, with every register, ACFG, the model and the cost tables at their reset values, irq 0, nothing in flight, and ID and PARAM unchanged; a write to CTRL whose bit 0 is 0 has no effect.
That the outside world (`env`) is not touched is the model's choice (log 2). -/
def Obligations.ResetGivesTheListedValues : Prop :=
  ∀ (s : State) (v : Word),
    (v.getLsbD 0 = false → performAccess s (.write (s.inst.regBase + 0x008) 8 v) = .next s) ∧
    (v.getLsbD 0 = true →
      ∃ r : State, performAccess s .rst = .next r ∧ performAccess s (.write (s.inst.regBase + 0x008) 8 v) = .next r ∧
        (∀ e ∈ resetValues, regValue r e.1 = e.2) ∧
        regValue r .rcRange = toWord (2 ^ (8 * s.inst.nBytes) - 1) ∧
        (∀ q ∈ [Reg.paramN, .paramSeqCap, .paramObufCap, .paramIbufCap, .paramAMax, .paramWMax, .paramMaxlenMax, .paramKMax, .paramCtxCap],
          regValue r q = regValue s q) ∧
        r.acfg = { alpha := 256, window := 32768, minlen := 3, maxlen := 258, costMode := .count, order := 0, method := .A } ∧
        r.ppm = { ctx := [], hist := [], hlen := 0, esc := 0 } ∧
        (∀ sel j, CostTable.at (r.mem.costTable sel) j = 0#16) ∧
        r.irq = false ∧ r.busy = false ∧ r.inst = s.inst ∧ r.env = s.env)

/-- 10_state.md R31, R34, R36 to R41: a register the host may write stores its legal bits, the other bits read 0, and no other register changes. -/
def Obligations.RegisterWritesStoreLegalBits : Prop :=
  ∀ (s : State) (v : Word) (e : Reg × Word), e ∈ writableRegs →
    regValue (regWrite s e.1 v) e.1 = v &&& e.2 ∧
    (∀ r, r ≠ e.1 → regValue (regWrite s e.1 v) r = regValue s r) ∧
    (regWrite s e.1 v).acfg = s.acfg ∧ (regWrite s e.1 v).mem = s.mem ∧ (regWrite s e.1 v).rc = s.rc ∧
    (regWrite s e.1 v).ppm = s.ppm ∧ (regWrite s e.1 v).latch = s.latch

/-- 10_state.md R46: an aligned 64-bit read of an offset the register map does not list returns 0 and a write there is ignored; so is a write to a read-only register; a write-only register reads 0; an access of any other width or alignment is refused.
An aligned 64-bit access at a listed offset reads or writes the register of that row of the map (10_state.md, section 2), and each register shows the state it is named for (R33 to R45). -/
def Obligations.WindowAccessesFollowTheMap : Prop :=
  (∀ (s : State) (off : Nat) (v : Word), off < 4096 →
    (regAt off = none ↔ off ∉ listedOffsets) ∧
    (off % 8 = 0 → regAt off = none →
      performAccess s (.read (s.inst.regBase + off) 8) = .next (s.deliver 0#64) ∧
      performAccess s (.write (s.inst.regBase + off) 8 v) = .next s) ∧
    (∀ r ∈ readOnlyRegs, regAt off = some r → performAccess s (.write (s.inst.regBase + off) 8 v) = .next s) ∧
    (∀ r ∈ [Reg.ctrl, .cmd], regAt off = some r → performAccess s (.read (s.inst.regBase + off) 8) = .next (s.deliver 0#64)) ∧
    (∀ bytes, bytes ≠ 8 ∨ off % 8 ≠ 0 →
      ∃ q, performAccess s (.read (s.inst.regBase + off) bytes) = .refused q ∧
        performAccess s (.write (s.inst.regBase + off) bytes v) = .refused q)) ∧
  (∀ (s : State) (v : Word) (e : Nat × Reg), e ∈ registerOffsets →
    performAccess s (.read (s.inst.regBase + e.1) 8) = .next ((s.useDraw (drawnBits s e.2)).deliver (regRead s e.2)) ∧
    performAccess s (.write (s.inst.regBase + e.1) 8 v) = .next (regWrite s e.2 v)) ∧
  (∀ s : State,
    [Reg.faultCmd, .faultInfo, .arg0, .arg1, .arg2, .res0, .res1, .res2].map (regValue s) =
      [s.faultCmd, s.faultInfo, s.arg0, s.arg1, s.arg2, s.res0, s.res1, s.res2] ∧
    [Reg.cfgAlpha, .cfgWindow, .cfgMinlen, .cfgMaxlen, .cfgCost, .cfgPpm].map (regValue s) =
      [s.cfg.alpha.toNat, s.cfg.window.toNat, s.cfg.minlen.toNat, s.cfg.maxlen.toNat, s.cfg.cost.toNat,
        s.cfg.order.toNat + 2 ^ 8 * s.cfg.method.toNat].map toWord ∧
    [Reg.seqLen, .tokCount, .dseqLen, .outLen, .inLen, .inPtr, .rcLow, .rcRange, .rcData, .ppmHlen].map (regValue s) =
      [s.mem.seq.length, s.mem.tok.length, s.mem.dseq.length, s.mem.obuf.length, s.mem.ibuf.length, s.rc.inPtr, s.rc.low, s.rc.range,
        s.rc.data, s.ppm.hlen].map toWord ∧
    [Reg.paramN, .paramSeqCap, .paramObufCap, .paramIbufCap, .paramAMax, .paramWMax, .paramMaxlenMax, .paramKMax, .paramCtxCap].map (regValue s) =
      [s.inst.nBytes, s.inst.seqCap, s.inst.obufCap, s.inst.ibufCap, s.inst.aMax, s.inst.wMax, s.inst.maxlenMax, s.inst.kMax,
        s.inst.ctxCap].map toWord)

/-- 20_memory.md R75: a read changes nothing but what the host holds, and while nothing is in flight a second read of the same address returns the same value. -/
def Obligations.ReadsHaveNoSideEffect : Prop :=
  ∀ (s : State) (addr bytes : Nat) (t : State), performAccess s (.read addr bytes) = .next t →
    t = { s with env := t.env } ∧ t.env.todo = s.env.todo ∧ t.env.sched = s.env.sched ∧
    (∃ v, t.env.got = v :: s.env.got ∧
      (s.busy = false → ∃ u, performAccess t (.read addr bytes) = .next u ∧ u.env.got = v :: t.env.got))

/-- 70_reset_and_hazards.md R342: with nothing in flight every read is exact; with a command in flight a RES, counter or RC register its rule may write reads as a free value, every other register but STATUS and the fault registers reads exactly, and BUSY always reads exactly.
Which STATUS bits are free with the fault registers is the model's reading (log 3). -/
def Obligations.ReadsWhileBusyAreExactOrFree : Prop :=
  ∀ (s : State) (r : Reg),
    (s.busy = false → regRead s r = regValue s r) ∧
    (∀ i, s.busy = true → decode s.latch.word = .command i →
      (r ∈ writtenRegs i.opcode → regRead s r = Config.freeRead s.env.draws) ∧
      (r ∉ writtenRegs i.opcode → r ∉ [Reg.status, .faultCmd, .faultInfo] → regRead s r = regValue s r)) ∧
    (regRead s .status).getLsbD 0 = s.busy

/-- 10_state.md R24, R26, R27, 60_exceptions.md R301: the STATUS fields at their bits; bits not listed read 0; FAULT_CODE is the number of the recorded fault, each of the codes having the number R301 lists, and 0 if none is recorded; every field resets to 0; a write changes DONE alone. -/
def Obligations.StatusHoldsItsFields : Prop :=
  (∀ s : State, s.ppm.esc < 2 ^ 8 →
    bitField (regValue s .status) 0 0 = s.busy.toNat ∧ bitField (regValue s .status) 1 1 = s.done.toNat ∧
    bitField (regValue s .status) 2 2 = s.fault.isSome.toNat ∧ bitField (regValue s .status) 3 3 = s.session.toNat ∧
    bitField (regValue s .status) 4 4 = (if s.mode = .encode then 0 else 1) ∧ bitField (regValue s .status) 5 5 = s.rcFinished.toNat ∧
    bitField (regValue s .status) 6 6 = s.rcDecReady.toNat ∧ bitField (regValue s .status) 7 7 = 0 ∧
    bitField (regValue s .status) 23 16 = s.ppm.esc ∧ bitField (regValue s .status) 63 24 = 0) ∧
  (∀ s : State,
    (s.fault = none → bitField (regValue s .status) 15 8 = 0) ∧
    (∀ e ∈ faultCodes, s.fault = some e.1 → bitField (regValue s .status) 15 8 = e.2)) ∧
  (∀ f : FaultCode, ∃ n, (f, n) ∈ faultCodes) ∧
  (∀ (p : Params) (env : Env), regValue (State.resetOf p env) .status = 0#64) ∧
  (∀ (s : State) (v : Word), regWrite s .status v = { s with done := s.done && !v.getLsbD 1 })

/-- 60_exceptions.md R310: irq = (STATUS.DONE and INTEN.DONE_IE) or (STATUS.FAULT and INTEN.FAULT_IE), in terms of the two registers as the host reads them; 0 after reset. -/
def Obligations.IrqFollowsStatusAndInten : Prop :=
  (∀ s : State, s.irq =
    (((regValue s .status).getLsbD 1 && (regValue s .inten).getLsbD 0) || ((regValue s .status).getLsbD 2 && (regValue s .inten).getLsbD 1))) ∧
  (∀ (p : Params) (env : Env), (State.resetOf p env).irq = false)

/-! ### Faults and completion (60_exceptions.md) -/

/-- 10_state.md R27, 60_exceptions.md R303, R308: a recorded fault and its registers stay until reset, whatever the step. -/
def Obligations.FaultStaysUntilReset : Prop :=
  ∀ (s t : State) (f : FaultCode), s.fault = some f → step s = .next t →
    (t.fault = some f ∧ t.faultCmd = s.faultCmd ∧ t.faultInfo = s.faultInfo) ∨ (∃ env, t = State.resetOf s.inst env)

/-- 10_state.md R25, R26, R33, 60_exceptions.md R303: a command's end clears BUSY; DONE becomes 1 if no fault is recorded then and is left as it was otherwise; a fault the command records holds the latched word in FAULT_CMD.
Taking a fault f with information n, where none is recorded, puts 1 in FAULT, the number R301 gives f in FAULT_CODE, the latched word in FAULT_CMD and n in FAULT_INFO, clears BUSY and changes nothing else; where one is recorded it only clears BUSY. -/
def Obligations.CommandEndSetsBusyDoneAndFaultCmd : Prop :=
  (∀ (i : Instr) (s t : State), exec i s = .next t →
    t.busy = false ∧ (t.fault = none → t.done = true) ∧ (t.fault.isSome = true → t.done = s.done) ∧
    (s.fault = none → t.fault.isSome = true → t.faultCmd = s.latch.word)) ∧
  (∀ (s : State) (e : FaultCode × Nat) (n : Nat), e ∈ faultCodes →
    (s.fault = none →
      s.takeFault e.1 n = { s with busy := false, fault := some e.1, faultCmd := s.latch.word, faultInfo := toWord n } ∧
      bitField (regValue (s.takeFault e.1 n) .status) 2 2 = 1 ∧ bitField (regValue (s.takeFault e.1 n) .status) 15 8 = e.2 ∧
      regValue (s.takeFault e.1 n) .faultCmd = s.latch.word ∧ regValue (s.takeFault e.1 n) .faultInfo = toWord n) ∧
    (s.fault.isSome = true → s.takeFault e.1 n = { s with busy := false }))

/-- 30_encoding.md R107, 60_exceptions.md R301, R307: without a session every command but NOP, INIT, PSU_SETCOST and PSU_GETCOST raises NO_SESSION; with one, an encode command in decode mode and a decode command in encode mode raise MODE. -/
def Obligations.NeedsAreCheckedFirst : Prop :=
  ∀ (i : Instr) (s : State),
    (i.opcode ∉ [Opcode.nop, .init, .psuSetcost, .psuGetcost] → s.session = false → exec i s = .next (s.takeFault .noSession 0)) ∧
    (i.opcode ∈ [Opcode.rcEncode, .rcFinish, .ppmEncode] → s.session = true → s.mode = .decode → exec i s = .next (s.takeFault .mode 0)) ∧
    (i.opcode ∈ [Opcode.rcInbyte, .rcDstart, .rcFetch, .rcDecode, .ppmDecode] → s.session = true → s.mode = .encode →
      exec i s = .next (s.takeFault .mode 0))

/-- 70_reset_and_hazards.md R348, 60_exceptions.md R301: no encode step after RC_FINISH, no decode step before RC_DSTART, one RC_DSTART, PPM_ENCODE and PPM_DECODE start at ESC = 0: SEQUENCE otherwise. -/
def Obligations.PhaseOrderIsEnforced : Prop :=
  ∀ (i : Instr) (s : State), s.session = true →
    (i.opcode ∈ [Opcode.rcEncode, .rcFinish, .ppmEncode] → s.mode = .encode → s.rcFinished = true →
      exec i s = .next (s.takeFault .sequence 0)) ∧
    (i.opcode ∈ [Opcode.rcFetch, .rcDecode, .ppmDecode] → s.mode = .decode → s.rcDecReady = false →
      exec i s = .next (s.takeFault .sequence 0)) ∧
    (i.opcode = .rcDstart → s.mode = .decode → s.rcDecReady = true → exec i s = .next (s.takeFault .sequence 0)) ∧
    (i.opcode = .ppmEncode → s.mode = .encode → s.rcFinished = false → s.ppm.esc ≠ 0 → exec i s = .next (s.takeFault .sequence 0)) ∧
    (i.opcode = .ppmDecode → s.mode = .decode → s.rcDecReady = true → s.ppm.esc ≠ 0 → exec i s = .next (s.takeFault .sequence 0))

/-- 60_exceptions.md R305: a command other than PPM_ENCODE and PPM_DECODE that faults changes nothing but the fault registers and BUSY; those two may besides have moved the coder and ESC, and run no update; a fault of their preconditions, CTX_FULL of PPM_ENCODE among them (44_frequency_model.md R260), changes nothing. -/
def Obligations.FaultsArePrecise : Prop :=
  ∀ (i : Instr) (s t : State) (f : FaultCode), s.fault = none → exec i s = .next t → t.fault = some f →
    (i.opcode ∉ [Opcode.ppmEncode, .ppmDecode] ∨ f ∈ [FaultCode.noSession, .mode, .sequence, .badSymbol, .seqFull] ∨
        (i.opcode = .ppmEncode ∧ f = .ctxFull) →
      t = { s with busy := false, fault := some f, faultCmd := s.latch.word, faultInfo := t.faultInfo }) ∧
    t = { s with
      busy := false, fault := some f, faultCmd := s.latch.word, faultInfo := t.faultInfo
      mem := { s.mem with obuf := t.mem.obuf }, rc := t.rc, ppm := { s.ppm with esc := t.ppm.esc } }

/-- 30_encoding.md R106: every command word has a defined outcome: with the range at or above FLOOR (the invariant of 10_state.md R44) a turn of the core with any word in flight ends the command in a next state, no word is refused, and a word that R103 rejects raises ILLEGAL_CMD. -/
def Obligations.EveryCommandWordHasAnOutcome : Prop :=
  ∀ s : State, s.inst.floor ≤ s.rc.range → s.nextAgent = .core → s.busy = true →
    ∃ t, step s = .next t ∧ t.busy = false ∧
      (illegalWord s.latch.word → t = s.takeTurn.takeFault .illegalCmd s.latch.word.toNat) ∧
      (¬ illegalWord s.latch.word → ∃ i : Instr, decode s.latch.word = .command i ∧ exec i s.takeTurn = .next t)

/-- 10_state.md R34, R42, 40_control.md R132: no command writes the ARG, CFG or INTEN registers or the parameters; only INIT changes ACFG, SESSION and MODE; only PSU_SETCOST changes the cost tables.
That the latch keeps its contents after a command's end, when the spec says only that it is invalid, and that a command leaves `env` alone are the model's choices (logs 4 and 2). -/
def Obligations.CommandsLeaveHostRegistersAlone : Prop :=
  ∀ (i : Instr) (s t : State), exec i s = .next t →
    t.inst = s.inst ∧ t.arg0 = s.arg0 ∧ t.arg1 = s.arg1 ∧ t.arg2 = s.arg2 ∧ t.cfg = s.cfg ∧ t.doneIE = s.doneIE ∧ t.faultIE = s.faultIE ∧
    t.latch = s.latch ∧ t.env = s.env ∧
    (i.opcode ≠ .init → t.acfg = s.acfg ∧ t.session = s.session ∧ t.mode = s.mode) ∧
    (i.opcode ≠ .psuSetcost → ∀ sel, t.mem.costTable sel = s.mem.costTable sel)

/-- 10_state.md R35, R43, R44, R30: a command writes no RES, counter or RC register but those its rule names, and no space, coder register or ESC beside. -/
def Obligations.CommandsWriteOnlyTheirRegisters : Prop :=
  ∀ (i : Instr) (s t : State), exec i s = .next t →
    (∀ r ∈ [Reg.res0, .res1, .res2, .seqLen, .tokCount, .dseqLen, .outLen, .inLen, .inPtr, .rcLow, .rcRange, .rcData, .ppmHlen],
      r ∉ writtenRegs i.opcode → regValue t r = regValue s r) ∧
    (i.opcode ∉ [Opcode.init, .stmPush] → t.mem.seq = s.mem.seq) ∧
    (i.opcode ∉ [Opcode.init, .psuParse] → t.mem.tok = s.mem.tok) ∧
    (i.opcode ∉ [Opcode.init, .psuExpand] → t.mem.dseq = s.mem.dseq) ∧
    (i.opcode ∉ [Opcode.init, .rcEncode, .rcFinish, .ppmEncode] → t.mem.obuf = s.mem.obuf) ∧
    (i.opcode ∉ [Opcode.init, .rcInbyte] → t.mem.ibuf = s.mem.ibuf) ∧
    (i.opcode ∉ [Opcode.init, .ppmEncode, .ppmDecode, .ppmUpdate] →
      t.ppm.ctx = s.ppm.ctx ∧ t.ppm.hist = s.ppm.hist ∧ t.ppm.hlen = s.ppm.hlen) ∧
    (writesEsc i.opcode = false → t.ppm.esc = s.ppm.esc)

/-! ### Invariants -/

/-- Every instance's reset state meets the invariant (70_reset_and_hazards.md R330, R335). -/
def Obligations.ResetMeetsTheInvariant : Prop :=
  ∀ (p : Params) (env : Env), (State.resetOf p env).Inv

/-- Every step keeps ACFG legal (10_state.md R42, 40_control.md R131). -/
def Obligations.StepKeepsConfigLegal : Prop :=
  ∀ s t : State, ConfigOk s → step s = .next t → ConfigOk t

/-- Every step keeps the address spaces canonical, within their capacities and over the alphabet (20_memory.md R70 to R72). -/
def Obligations.StepKeepsSpacesCanonical : Prop :=
  ∀ s t : State, ConfigOk s → SpacesOk s → step s = .next t → SpacesOk t

/-- Every step keeps the STATUS fields in agreement (10_state.md R26 to R29, R33, 60_exceptions.md R311). -/
def Obligations.StepKeepsStatusConsistent : Prop :=
  ∀ s t : State, StatusOk s → step s = .next t → StatusOk t

/-- Every step keeps the range coder's registers B bits wide, range at or above FLOOR, and IN_PTR <= IN_LEN (10_state.md R43, R44). -/
def Obligations.StepKeepsCoderInRange : Prop :=
  ∀ s t : State, CoderOk s → step s = .next t → CoderOk t

/-- 43_range_coder.md R206: every step keeps V + range <= 2^P in encode mode (and no output in decode mode, R213). -/
def Obligations.StepKeepsNestedInterval : Prop :=
  ∀ s t : State, StatusOk s → CoderOk s → IntervalOk s → step s = .next t → IntervalOk t

/-- Every step keeps the model: ESC within the levels, HIST the last min(h, K) symbols, CTX canonical and within CTX_CAP, every table's counts summing to at most h (10_state.md R48, 44_frequency_model.md R241, R245, R249). -/
def Obligations.StepKeepsModelConsistent : Prop :=
  ∀ s t : State, ConfigOk s → ModelOk s → step s = .next t → ModelOk t

/-- 43_range_coder.md R206: "a carry always finds a byte that is not 0xFF, so CARRY_OVERFLOW cannot occur": no command records it from a state of the invariant. -/
def Obligations.CarryOverflowNeverOccurs : Prop :=
  ∀ (i : Instr) (s t : State), s.Inv → s.fault = none → exec i s = .next t → t.fault ≠ some .carryOverflow

/-- 00_scope.md R13, 10_state.md R46: the only steps the model refuses are host accesses of another width, misaligned, or outside the window.
That an access outside the window is refused is the model's choice (log 11): the spec names width and alignment only. -/
def Obligations.OnlyBadAccessesAreRefused : Prop :=
  ∀ (s : State) (r : Refusal), step s = .refused r →
    s.nextAgent = .host ∧ ∃ addr bytes rest,
      ((∃ v, s.env.todo = .write addr bytes v :: rest) ∨ s.env.todo = .read addr bytes :: rest) ∧
      (addr < s.inst.regBase ∨ s.inst.regBase + 4096 ≤ addr ∨ bytes ≠ 8 ∨ (addr - s.inst.regBase) % 8 ≠ 0)

/-- 00_scope.md R6, 70_reset_and_hazards.md R330: no step changes the instance's parameters. -/
def Obligations.ParametersNeverChange : Prop :=
  ∀ s t : State, step s = .next t → t.inst = s.inst

/-! ### Global commands (40_control.md) -/

/-- 40_control.md R130: NOP leaves everything as it was, but for BUSY and DONE. -/
def Obligations.NopOnlyCompletes : Prop :=
  ∀ s : State, exec .nop s = .next { s with busy := false, done := if s.fault.isNone then true else s.done }

/-- 40_control.md R131: INIT starts a session with the configuration of the CFG registers when all of them are legal, and otherwise raises BAD_CONFIG with the offset of the first illegal one. -/
def Obligations.InitChecksThenStartsSession : Prop :=
  ∀ (m : Direction) (s : State),
    let a := s.cfg.alpha.toNat; let w := s.cfg.window.toNat; let mn := s.cfg.minlen.toNat; let mx := s.cfg.maxlen.toNat
    let k := s.cfg.order.toNat
    let okA := 1 ≤ a ∧ a ≤ s.inst.aMax; let okW := 1 ≤ w ∧ w ≤ s.inst.wMax; let okMin := 1 ≤ mn ∧ mn ≤ mx
    let okMax := mx ≤ s.inst.maxlenMax; let okK := k ≤ s.inst.kMax
    (¬ okA → exec (.init m) s = .next (s.takeFault .badConfig 0x080)) ∧
    (okA → ¬ okW → exec (.init m) s = .next (s.takeFault .badConfig 0x088)) ∧
    (okA → okW → ¬ okMin → exec (.init m) s = .next (s.takeFault .badConfig 0x090)) ∧
    (okA → okW → okMin → ¬ okMax → exec (.init m) s = .next (s.takeFault .badConfig 0x098)) ∧
    (okA → okW → okMin → okMax → ¬ okK → exec (.init m) s = .next (s.takeFault .badConfig 0x0A8)) ∧
    (okA → okW → okMin → okMax → okK → ∃ (cm : CostMode) (me : Method),
      (cm = .tables ↔ s.cfg.cost = 1#1) ∧
      (me = .A ↔ s.cfg.method = 0#2) ∧ (me = .B ↔ s.cfg.method = 1#2) ∧ (me = .C ↔ s.cfg.method = 2#2) ∧ (me = .D ↔ s.cfg.method = 3#2) ∧
      exec (.init m) s = .next (State.complete { s with
        acfg := { alpha := a, window := w, minlen := mn, maxlen := mx, costMode := cm, order := k, method := me }
        mem := { s.mem with seq := [], tok := [], dseq := [], obuf := [], ibuf := [] }
        rc := { low := 0, range := 2 ^ (8 * s.inst.nBytes) - 1, data := 0, inPtr := 0 }
        ppm := { ctx := [], hist := [], hlen := 0, esc := 0 }
        rcFinished := false, rcDecReady := false, mode := m, session := true }))

/-! ### Matcher (41_matcher.md) -/

/-- 41_matcher.md R145, 43_range_coder.md R214: STM_PUSH appends its symbol to SEQ and RC_INBYTE its byte to IBUF, and nothing else changes; a symbol or byte out of range and a full space raise their faults. -/
def Obligations.PushAndInbyteAppend : Prop :=
  (∀ (sym : Nat) (s : State), s.session = true →
    (s.acfg.alpha ≤ sym → exec (.stmPush sym) s = .next (s.takeFault .badSymbol sym)) ∧
    (sym < s.acfg.alpha → s.inst.seqCap ≤ s.mem.seq.length → exec (.stmPush sym) s = .next (s.takeFault .seqFull 0)) ∧
    (sym < s.acfg.alpha → s.mem.seq.length < s.inst.seqCap →
      exec (.stmPush sym) s = .next (State.complete { s with mem := { s.mem with seq := s.mem.seq ++ [BitVec.ofNat 16 sym] } }))) ∧
  (∀ (b : Nat) (s : State), s.session = true → s.mode = .decode →
    (0xFF < b → exec (.rcInbyte b) s = .next (s.takeFault .rangeArg b)) ∧
    (b ≤ 0xFF → s.inst.ibufCap ≤ s.mem.ibuf.length → exec (.rcInbyte b) s = .next (s.takeFault .rcInFull s.mem.ibuf.length)) ∧
    (b ≤ 0xFF → s.mem.ibuf.length < s.inst.ibufCap →
      exec (.rcInbyte b) s = .next (State.complete { s with mem := { s.mem with ibuf := s.mem.ibuf ++ [BitVec.ofNat 8 b] } })))

/-- 41_matcher.md R141, R146: STM_QUERY completes with the match record of R141, the longest in-window match with the most recent source, and its distance in RES0, RES1 and RES2, and changes nothing else; an index at or above SEQ_LEN raises RANGE_ARG. -/
def Obligations.QueryReportsTheMatchRecord : Prop :=
  ∀ (s : State) (j : Nat), s.session = true →
    (s.mem.seq.length ≤ j → exec (.stmQuery j) s = .next (s.takeFault .rangeArg j)) ∧
    (j < s.mem.seq.length → ∃ len src, isMatchRecord s.mem.seq s.acfg.window j len src ∧
      exec (.stmQuery j) s =
        .next (State.complete { s with
          res0 := toWord len, res1 := toWord src, res2 := if 0 < len then toWord (j - src) else 0#64 }))

/-- 41_matcher.md R142 and R143: the window law and the content law of the matcher's records. -/
def Obligations.MatchesObeyWindowAndContentLaws : Prop :=
  ∀ (seq : List Half) (w j : Nat), j < seq.length →
    (0 < matchLen seq w j → j - w ≤ matchSrc seq w j ∧ matchSrc seq w j < j ∧ 1 ≤ j - matchSrc seq w j ∧ j - matchSrc seq w j ≤ w) ∧
    (∀ l ≤ matchLen seq w j, ∀ t < l, readAt seq (matchSrc seq w j + t) = readAt seq (j + t))

/-- 41_matcher.md R147, 42_parser.md R179, R183, 43_range_coder.md R213: STM_READ, PSU_TOKEN, PSU_DREAD and RC_OUTBYTE put the indexed element in RES0 and change nothing else; an index at or above the space's length raises RANGE_ARG. -/
def Obligations.IndexedReadsReturnTheElement : Prop :=
  ∀ (s : State) (j : Nat), s.session = true →
    (∀ h : j < s.mem.seq.length, exec (.stmRead j) s = .next (State.complete { s with res0 := (s.mem.seq[j]).setWidth 64 })) ∧
    (s.mem.seq.length ≤ j → exec (.stmRead j) s = .next (s.takeFault .rangeArg j)) ∧
    (∀ h : j < s.mem.tok.length, exec (.psuToken j) s = .next (State.complete { s with res0 := s.mem.tok[j] })) ∧
    (s.mem.tok.length ≤ j → exec (.psuToken j) s = .next (s.takeFault .rangeArg j)) ∧
    (∀ h : j < s.mem.dseq.length, exec (.psuDread j) s = .next (State.complete { s with res0 := (s.mem.dseq[j]).setWidth 64 })) ∧
    (s.mem.dseq.length ≤ j → exec (.psuDread j) s = .next (s.takeFault .rangeArg j)) ∧
    (∀ h : j < s.mem.obuf.length, exec (.rcOutbyte j) s = .next (State.complete { s with res0 := (s.mem.obuf[j]).setWidth 64 })) ∧
    (s.mem.obuf.length ≤ j → exec (.rcOutbyte j) s = .next (s.takeFault .rangeArg j))

/-! ### Parser (42_parser.md) -/

/-- 42_parser.md R184: PSU_PARSE completes with tokens that cover SEQ in order, each the literal at its position or the usable match there, within the length and distance bounds; RES0 is the sum of their costs and the least cost of any such path, RES1 their number; nothing else but TOK changes.
The tie rule of R177: on equal cost the proposal made first is kept. So a token of the parse that ends at position q and starts at p costs strictly less, with the tokens before it, than any path to q whose last token starts before p, or is the literal at p where this token is the match there. -/
def Obligations.ParseIsACoverOfLeastCost : Prop :=
  ∀ s : State, s.session = true → 1 ≤ s.acfg.minlen →
    ∃ toks : List Token, covers s 0 toks ∧
      (∀ ts, covers s 0 ts → pathCost s 0 toks ≤ pathCost s 0 ts) ∧
      (∀ pre l d post, toks = pre ++ .backref l d :: post →
        s.acfg.minlen ≤ l ∧ l ≤ s.acfg.maxlen ∧ 1 ≤ d ∧ d ≤ s.acfg.window ∧ d ≤ spanOf pre ∧ l ≤ s.mem.seq.length - spanOf pre) ∧
      (∀ pre t post qs u, toks = pre ++ t :: post → isPath s 0 (qs ++ [u]) (spanOf pre + t.length) →
        (spanOf qs < spanOf pre ∨ (spanOf qs = spanOf pre ∧ u.isLiteral = true ∧ t.isLiteral = false)) →
        pathCost s 0 (pre ++ [t]) < pathCost s 0 (qs ++ [u])) ∧
      exec .psuParse s = .next (State.complete { s with
        mem := { s.mem with tok := toks.map Token.word }, res0 := toWord (pathCost s 0 toks), res1 := toWord toks.length })

/-- 42_parser.md R185, the core round-trip invariant: after PSU_PARSE with DSEQ_LEN = 0, expanding the tokens in order with PSU_EXPAND raises no fault and gives DSEQ equal to SEQ. -/
def Obligations.ParseThenExpandReproducesSeq : Prop :=
  ∀ s t : State, s.Inv → s.session = true → s.mem.dseq = [] → completes .psuParse s = some t →
    ∃ u, expandAll t.mem.tok t = some u ∧ u.mem.dseq = s.mem.seq ∧ u.mem.seq = s.mem.seq

/-- 42_parser.md R180, R181: PSU_SETCOST stores ARG0 in the selected entry alone and PSU_GETCOST reads the selected entry; a bad TABLE, INDEX or value raises RANGE_ARG with the operand that failed. No session is needed.
TABLE 0, 1, 2 is LITCOST, LENCOST, DISTCOST (30_encoding.md R105), of A_MAX, MAXLEN_MAX + 1 and 32 entries (20_memory.md R70). -/
def Obligations.CostTablesStoreAndReturnEntries : Prop :=
  ∀ (s : State) (table index : Nat),
    (costSel table = none ↔ 2 < table) ∧
    (costSel 0 = some .lit ∧ costLen s.inst .lit = s.inst.aMax ∧ s.mem.costTable .lit = s.mem.litcost) ∧
    (costSel 1 = some .len ∧ costLen s.inst .len = s.inst.maxlenMax + 1 ∧ s.mem.costTable .len = s.mem.lencost) ∧
    (costSel 2 = some .dist ∧ costLen s.inst .dist = 32 ∧ s.mem.costTable .dist = s.mem.distcost) ∧
    (2 < table →
      exec (.psuSetcost table index) s = .next (s.takeFault .rangeArg (table * 2 ^ 28 + index)) ∧
      exec (.psuGetcost table index) s = .next (s.takeFault .rangeArg (table * 2 ^ 28 + index))) ∧
    (∀ sel, costSel table = some sel → costLen s.inst sel ≤ index →
      exec (.psuSetcost table index) s = .next (s.takeFault .rangeArg (table * 2 ^ 28 + index)) ∧
      exec (.psuGetcost table index) s = .next (s.takeFault .rangeArg (table * 2 ^ 28 + index))) ∧
    (∀ sel, costSel table = some sel → index < costLen s.inst sel →
      (0xFFFF < s.latch.arg0.toNat → exec (.psuSetcost table index) s = .next (s.takeFault .rangeArg s.latch.arg0.toNat)) ∧
      exec (.psuGetcost table index) s =
        .next (State.complete { s with res0 := (CostTable.at (s.mem.costTable sel) index).setWidth 64 }) ∧
      (s.latch.arg0.toNat ≤ 0xFFFF → s.mem.wf = true →
        ∃ mem', exec (.psuSetcost table index) s = .next (State.complete { s with mem := mem' }) ∧
          mem' = { s.mem with litcost := mem'.litcost, lencost := mem'.lencost, distcost := mem'.distcost } ∧ mem'.wf = true ∧
          ∀ sel' j, (CostTable.at (mem'.costTable sel') j).toNat =
            if sel' = sel ∧ j = index then s.latch.arg0.toNat else (CostTable.at (s.mem.costTable sel') j).toNat))

/-- 42_parser.md R182: PSU_EXPAND appends a literal's symbol, or copies l symbols one at a time from d back, and changes nothing else; a token it cannot expand raises BAD_TOKEN and one that does not fit SEQ_FULL. -/
def Obligations.ExpandAppendsLiteralOrCopy : Prop :=
  ∀ s : State, s.session = true →
    let t := s.latch.arg0; let m := s.mem.dseq.length
    let d := bitField t 47 16; let l := bitField t 15 0
    let literalOk := bitField t 63 63 = 0 ∧ bitField t 62 48 = 0 ∧ d = 0 ∧ l < s.acfg.alpha
    let matchOk := bitField t 63 63 = 1 ∧ bitField t 62 48 = 0 ∧ 1 ≤ l ∧ l ≤ s.acfg.maxlen ∧ 1 ≤ d ∧ d ≤ s.acfg.window ∧ d ≤ m
    (¬ literalOk → ¬ matchOk → exec .psuExpand s = .next (s.takeFault .badToken t.toNat)) ∧
    (literalOk → s.inst.seqCap < m + 1 → exec .psuExpand s = .next (s.takeFault .seqFull 0)) ∧
    (matchOk → s.inst.seqCap < m + l → exec .psuExpand s = .next (s.takeFault .seqFull 0)) ∧
    (literalOk → m + 1 ≤ s.inst.seqCap →
      exec .psuExpand s = .next (State.complete { s with mem := { s.mem with dseq := s.mem.dseq ++ [BitVec.ofNat 16 l] } })) ∧
    (matchOk → m + l ≤ s.inst.seqCap → ∃ dseq',
      exec .psuExpand s = .next (State.complete { s with mem := { s.mem with dseq := dseq' } }) ∧
      dseq'.length = m + l ∧ (∀ k < m, readAt dseq' k = readAt s.mem.dseq k) ∧
      (∀ k < l, readAt dseq' (m + k) = readAt dseq' (m + k - d)))

/-! ### Range coder (43_range_coder.md) -/

/-- 43_range_coder.md R205, the width lemma: with range >= FLOOR and a legal triple with f < T, r >= 1 and a + r <= range, and N_BYTES - 1 bytes of renormalization are enough. -/
def Obligations.WidthLemma : Prop :=
  ∀ (p : Params) (range : Nat) (t : Triple), p.floor ≤ range → t.legal p → t.freq < t.total →
    let a := range * (t.cum * 2 ^ (8 * p.nBytes) / t.total) / 2 ^ (8 * p.nBytes)
    let r := range * (t.freq * 2 ^ (8 * p.nBytes) / t.total) / 2 ^ (8 * p.nBytes)
    1 ≤ r ∧ a + r ≤ range ∧ ∃ e ≤ p.nBytes - 1, p.floor ≤ r * 2 ^ (8 * e)

/-- 43_range_coder.md R201: RC_ENCODE and RC_DECODE check total, freq and cum + freq in that order and raise RC_BAD_TRIPLE with 1, 2 or 3; a legal triple raises it in neither. -/
def Obligations.IllegalTriplesFaultInOrder : Prop :=
  ∀ (i : Instr) (s : State), s.session = true →
    (i = .rcEncode ∧ s.mode = .encode ∧ s.rcFinished = false) ∨ (i = .rcDecode ∧ s.mode = .decode ∧ s.rcDecReady = true) →
    let c := s.latch.arg0.toNat; let f := s.latch.arg1.toNat; let total := s.latch.arg2.toNat
    let okT := 1 ≤ total ∧ total ≤ 2 ^ (8 * s.inst.nBytes - 16)
    (¬ okT → exec i s = .next (s.takeFault .rcBadTriple 1)) ∧
    (okT → f = 0 → exec i s = .next (s.takeFault .rcBadTriple 2)) ∧
    (okT → 1 ≤ f → total < c + f → exec i s = .next (s.takeFault .rcBadTriple 3)) ∧
    (okT → 1 ≤ f → c + f ≤ total → s.fault = none → ∀ t, exec i s = .next t → t.fault ≠ some .rcBadTriple)

/-- 43_range_coder.md R208, the skip rule: a step with a legal triple and f = T changes nothing in either direction. -/
def Obligations.CertainStepsAreSkipped : Prop :=
  ∀ s : State, s.session = true → s.opTriple.legal s.inst → s.latch.arg1 = s.latch.arg2 →
    (s.mode = .encode → s.rcFinished = false → exec .rcEncode s = .next s.complete) ∧
    (s.mode = .decode → s.rcDecReady = true → exec .rcDecode s = .next s.complete)

/-- 43_range_coder.md R202 to R204, R207, R210: RC_ENCODE adds the offset a to the code value and narrows the range to r, both scaled by the e bytes of the renormalization, e the least that brings r to FLOOR; OUT_LEN grows by e; nothing else changes.
A step that would pass OBUF_CAP raises RC_OUT_FULL. -/
def Obligations.EncodeNarrowsTheInterval : Prop :=
  ∀ (s : State) (e : Nat), s.Inv → s.session = true → s.mode = .encode → s.rcFinished = false →
    s.opTriple.legal s.inst → s.latch.arg1.toNat < s.latch.arg2.toNat →
    let m := 2 ^ (8 * s.inst.nBytes)
    let a := s.rc.range * (s.latch.arg0.toNat * m / s.latch.arg2.toNat) / m
    let r := s.rc.range * (s.latch.arg1.toNat * m / s.latch.arg2.toNat) / m
    s.inst.floor ≤ r * 2 ^ (8 * e) → (∀ e' < e, r * 2 ^ (8 * e') < s.inst.floor) →
    (s.inst.obufCap < s.mem.obuf.length + e → exec .rcEncode s = .next (s.takeFault .rcOutFull s.mem.obuf.length)) ∧
    (s.mem.obuf.length + e ≤ s.inst.obufCap → ∃ obuf' low',
      exec .rcEncode s = .next (State.complete { s with
        mem := { s.mem with obuf := obuf' }, rc := { s.rc with low := low', range := r * 2 ^ (8 * e) } }) ∧
      obuf'.length = s.mem.obuf.length + e ∧ low' < m ∧
      bigEndian obuf' * m + low' = (bigEndian s.mem.obuf * m + s.rc.low + a) * 2 ^ (8 * e))

/-- 43_range_coder.md R209, R212: RC_FINISH adds floor(range / 2) to the code value and appends the N_BYTES bytes of low, so that OBUF reads as that value; low keeps the sum, range stays, RC_FINISHED is 1; nothing else changes.
Without room it raises RC_OUT_FULL. -/
def Obligations.FinishFlushesTheCodeValue : Prop :=
  ∀ s : State, s.Inv → s.session = true → s.mode = .encode → s.rcFinished = false →
    let m := 2 ^ (8 * s.inst.nBytes)
    (s.inst.obufCap < s.mem.obuf.length + s.inst.nBytes → exec .rcFinish s = .next (s.takeFault .rcOutFull s.mem.obuf.length)) ∧
    (s.mem.obuf.length + s.inst.nBytes ≤ s.inst.obufCap → ∃ obuf',
      exec .rcFinish s = .next (State.complete { s with
        mem := { s.mem with obuf := obuf' }, rc := { s.rc with low := (s.rc.low + s.rc.range / 2) % m }, rcFinished := true }) ∧
      obuf'.length = s.mem.obuf.length + s.inst.nBytes ∧
      bigEndian obuf' = bigEndian s.mem.obuf * m + s.rc.low + s.rc.range / 2)

/-- 43_range_coder.md R215: RC_DSTART reads the first N_BYTES bytes of IBUF big-endian into data, sets IN_PTR to N_BYTES and RC_DEC_READY to 1, and changes nothing else; with fewer bytes it raises RC_IN_UNDERRUN. -/
def Obligations.DstartReadsBigEndian : Prop :=
  ∀ s : State, s.session = true → s.mode = .decode → s.rcDecReady = false →
    (s.mem.ibuf.length < s.inst.nBytes → exec .rcDstart s = .next (s.takeFault .rcInUnderrun s.rc.inPtr)) ∧
    (s.inst.nBytes ≤ s.mem.ibuf.length →
      exec .rcDstart s = .next (State.complete { s with
        rc := { s.rc with
          data := sumBelow (fun k => (readAt s.mem.ibuf k).toNat * 2 ^ (8 * s.inst.nBytes - 8 * (k + 1))) s.inst.nBytes
          inPtr := s.inst.nBytes }
        rcDecReady := true }))

/-- 43_range_coder.md R211, R216: RC_FETCH completes with the largest x in [0, T-1] whose scaled value is at most v, and changes nothing but RES0; an illegal total raises RC_BAD_TRIPLE. -/
def Obligations.FetchFindsTheLargestValue : Prop :=
  ∀ s : State, s.session = true → s.mode = .decode → s.rcDecReady = true → s.rc.low < s.inst.modulus →
    let total := s.latch.arg2.toNat; let m := 2 ^ (8 * s.inst.nBytes)
    let v := (s.rc.data + m - s.rc.low) % m
    let okT := 1 ≤ total ∧ total ≤ 2 ^ (8 * s.inst.nBytes - 16)
    (¬ okT → exec .rcFetch s = .next (s.takeFault .rcBadTriple 1)) ∧
    (okT → ∃ x, x < total ∧ s.rc.range * (x * m / total) / m ≤ v ∧
      (∀ y, x < y → y < total → v < s.rc.range * (y * m / total) / m) ∧
      exec .rcFetch s = .next (State.complete { s with res0 := toWord x }))

/-- 43_range_coder.md R211, R217: RC_DECODE of a legal triple with f < T whose sub-range holds the window narrows low and range and refills data from IBUF by e bytes; it raises RC_DESYNC where the window lies outside and RC_IN_UNDERRUN where a byte is missing; nothing else changes. -/
def Obligations.DecodeNarrowsAndRefills : Prop :=
  ∀ (s : State) (e : Nat), CoderOk s → s.session = true → s.mode = .decode → s.rcDecReady = true →
    s.opTriple.legal s.inst → s.latch.arg1.toNat < s.latch.arg2.toNat →
    let m := 2 ^ (8 * s.inst.nBytes)
    let v := (s.rc.data + m - s.rc.low) % m
    let a := s.rc.range * (s.latch.arg0.toNat * m / s.latch.arg2.toNat) / m
    let r := s.rc.range * (s.latch.arg1.toNat * m / s.latch.arg2.toNat) / m
    s.inst.floor ≤ r * 2 ^ (8 * e) → (∀ e' < e, r * 2 ^ (8 * e') < s.inst.floor) →
    (¬ (a ≤ v ∧ v < a + r) → exec .rcDecode s = .next (s.takeFault .rcDesync v)) ∧
    (a ≤ v → v < a + r → s.mem.ibuf.length < s.rc.inPtr + e → exec .rcDecode s = .next (s.takeFault .rcInUnderrun s.rc.inPtr)) ∧
    (a ≤ v → v < a + r → s.rc.inPtr + e ≤ s.mem.ibuf.length →
      exec .rcDecode s = .next (State.complete { s with
        rc := { low := (s.rc.low + a) * 2 ^ (8 * e) % m
                range := r * 2 ^ (8 * e)
                data := (s.rc.data * 2 ^ (8 * e) + bigEndian ((s.mem.ibuf.drop s.rc.inPtr).take e)) % m
                inPtr := s.rc.inPtr + e } }))

/-- 43_range_coder.md R218, first point, for one step: where the window lies in the sub-range of a legal triple with f < T, the fetch result lies in its bucket [c, c + f). -/
def Obligations.FetchFindsTheBucket : Prop :=
  ∀ (s : State) (t : Triple), t.legal s.inst → t.freq < t.total →
    scaled s.inst s.rc.range t.cum t.total ≤ windowPos s →
    windowPos s < scaled s.inst s.rc.range t.cum t.total + scaled s.inst s.rc.range t.freq t.total →
    t.cum ≤ decFetch t.total s ∧ decFetch t.total s < t.cum + t.freq

/-- 43_range_coder.md R218 and R219, the exactness and consumption laws: a stream of legal triples encoded and finished decodes with the same triples without a fault, each fetch lies in its bucket, and the decoder consumes exactly the bytes emitted: N_BYTES at RC_DSTART, and as many in its renormalizations as the encoder's emitted. -/
def Obligations.RangeCoderIsExact : Prop :=
  ∀ (ts : List Triple) (s s0 s1 s2 d d0 : State), d.inst.nBytes = s.inst.nBytes → (∀ t ∈ ts, t.legal s.inst) →
    completes (.init .encode) s = some s0 → runTriples .rcEncode ts s0 = some s1 → completes .rcFinish s1 = some s2 →
    openDecoder s2.mem.obuf d = some d0 →
    d0.rc.inPtr = s.inst.nBytes ∧
    (∃ d1, runTriples .rcDecode ts d0 = some d1 ∧ d1.rc.inPtr = d0.rc.inPtr + s1.mem.obuf.length ∧ d1.rc.inPtr = s2.mem.obuf.length) ∧
    (∀ pre t post d', ts = pre ++ t :: post → runTriples .rcDecode pre d0 = some d' →
      t.cum ≤ decFetch t.total d' ∧ decFetch t.total d' < t.cum + t.freq)

/-! ### Frequency model (44_frequency_model.md) -/

/-- 44_frequency_model.md R247, R250 to R252: PPM_HASESC, PPM_NUMDEN and PPM_CDF complete with the level's quantities and change nothing but the RES registers their rules name.
The level is the one of R241, from kmax = min(K, h) and ESC; the weights and the escape mass are those of R244 for each method, from the counts and the distinct-symbol count of R242, and at BASE those of R246. -/
def Obligations.ModelQueriesReportTheLevel : Prop :=
  (∀ s : State, s.session = true →
    (exec .ppmNumden s = .next (State.complete { s with
      res0 := toWord (massE s (level s)), res1 := toWord (massS s (level s) + massE s (level s))
      res2 := match level s with
        | .order k => toWord k
        | .base => BitVec.allOnes 64 })) ∧
    (∀ sym, s.acfg.alpha ≤ sym →
      exec (.ppmHasesc sym) s = .next (s.takeFault .badSymbol sym) ∧ exec (.ppmCdf sym) s = .next (s.takeFault .badSymbol sym)) ∧
    (∀ sym, sym < s.acfg.alpha →
      exec (.ppmHasesc sym) s = .next (State.complete { s with
        res0 := if level s ≠ .base ∧ weight s (level s) sym = 0 then 1#64 else 0#64 }) ∧
      exec (.ppmCdf sym) s = .next (State.complete { s with
        res0 := toWord ((List.range sym).map (weight s (level s))).sum, res1 := toWord (weight s (level s) sym) }))) ∧
  (∀ s : State,
    kmax s = min s.acfg.order s.ppm.hlen ∧
    (s.ppm.esc ≤ kmax s → level s = .order (kmax s - s.ppm.esc)) ∧ (s.ppm.esc = kmax s + 1 → level s = .base)) ∧
  (∀ (s : State) (k : Nat),
    let c := fun x => Counts.at (s.ppm.table (s.ppm.hist.drop (s.ppm.hist.length - k))) x
    let d := ((List.range s.acfg.alpha).filter (fun x => 1 ≤ c x)).length
    (∀ x, weight s (.order k) x = match s.acfg.method with
      | .A => c x
      | .B => if 2 ≤ c x then c x - 1 else 0
      | .C => c x
      | .D => if 1 ≤ c x then 2 * c x - 1 else 0) ∧
    massE s (.order k) = match s.acfg.method with
      | .A => if k = 0 then s.acfg.alpha - d else 1
      | .B => max d 1
      | .C => max d 1
      | .D => max d 1) ∧
  (∀ s : State,
    let u := (List.range s.acfg.alpha).filter (fun x => weight s (.order 0) x = 0)
    (∀ x < s.acfg.alpha, weight s .base x = if x ∈ u then 1 else 0) ∧ massS s .base = u.length ∧ massE s .base = 0) ∧
  (∀ (s : State) (lv : Level),
    massS s lv = ((List.range s.acfg.alpha).map (weight s lv)).sum ∧
    ∀ x, cdf s lv x = ((List.range x).map (weight s lv)).sum ∧ pdf s lv x = weight s lv x)

/-- 44_frequency_model.md R253, R258, the inverse law: PPM_ICDF of any t in [CDF(s), CDF(s) + PDF(s)) completes with s and changes nothing else; t >= S raises RANGE_ARG. -/
def Obligations.IcdfInvertsCdf : Prop :=
  ∀ (s : State) (sym : Nat), s.session = true →
    (massS s (level s) ≤ s.latch.arg0.toNat → exec .ppmIcdf s = .next (s.takeFault .rangeArg s.latch.arg0.toNat)) ∧
    (sym < s.acfg.alpha → cdf s (level s) sym ≤ s.latch.arg0.toNat →
      s.latch.arg0.toNat < cdf s (level s) sym + pdf s (level s) sym →
      exec .ppmIcdf s = .next (State.complete { s with res0 := toWord sym }))

/-- 44_frequency_model.md R245: at every order level 1 <= D <= 2h + A, so every total the model forms there is within TOTAL_MAX; at BASE (R246) the total |U| is at most A, within TOTAL_MAX too, and at least 1 where a symbol below A has weight there. -/
def Obligations.ModelTotalsAreLegal : Prop :=
  ∀ (s : State) (k : Nat), s.Inv → s.session = true → k ≤ kmax s →
    (1 ≤ massD s (.order k) ∧ massD s (.order k) ≤ 2 * s.ppm.hlen + s.acfg.alpha ∧ massD s (.order k) ≤ 2 ^ (8 * s.inst.nBytes - 16)) ∧
    massD s .base ≤ s.acfg.alpha ∧ massD s .base ≤ 2 ^ (8 * s.inst.nBytes - 16) ∧
    (∀ x < s.acfg.alpha, weight s .base x ≠ 0 → 1 ≤ massD s .base)

/-- 44_frequency_model.md R254, R257: PPM_ESCAPE moves to the next lower level, from order 0 to BASE, and changes ESC alone; at BASE it raises SEQUENCE. -/
def Obligations.EscapeDescendsOneLevel : Prop :=
  ∀ s : State, s.session = true →
    (level s = .base → exec .ppmEscape s = .next (s.takeFault .sequence 0)) ∧
    (∀ k, level s = .order k → ∃ t, exec .ppmEscape s = .next t ∧
      t = State.complete { s with ppm := { s.ppm with esc := s.ppm.esc + 1 } } ∧
      level t = match k with
        | 0 => .base
        | k' + 1 => .order k')

/-- 44_frequency_model.md R249, R255: PPM_UPDATE adds 1 to the symbol's count in the context of every order 0 to kmax and to no other count, appends the symbol to HIST, counts it in h and clears ESC, and changes nothing else; without room it raises SEQ_FULL, then CTX_FULL with the smallest new order. -/
def Obligations.UpdateCountsEveryOrder : Prop :=
  ∀ (s : State) (sym : Nat), ModelOk s → s.session = true →
    (s.acfg.alpha ≤ sym → exec (.ppmUpdate sym) s = .next (s.takeFault .badSymbol sym)) ∧
    (sym < s.acfg.alpha → s.inst.seqCap ≤ s.ppm.hlen → exec (.ppmUpdate sym) s = .next (s.takeFault .seqFull 0)) ∧
    (sym < s.acfg.alpha → s.ppm.hlen < s.inst.seqCap → s.inst.ctxCap ≠ 0 → s.inst.ctxCap < tableCount s.ppm + (newOrders s).length →
      ∃ k, isSmallestNewOrder s k ∧ exec (.ppmUpdate sym) s = .next (s.takeFault .ctxFull k)) ∧
    (sym < s.acfg.alpha → s.ppm.hlen < s.inst.seqCap → s.inst.ctxCap = 0 ∨ tableCount s.ppm + (newOrders s).length ≤ s.inst.ctxCap →
      ∃ ctx', exec (.ppmUpdate sym) s = .next (State.complete { s with
          ppm := { ctx := ctx'
                   hist := (s.ppm.hist ++ [sym]).drop ((s.ppm.hist ++ [sym]).length - min (s.ppm.hlen + 1) s.acfg.order)
                   hlen := s.ppm.hlen + 1
                   esc := 0 } }) ∧
        (∀ k ≤ kmax s, Counts.at (Store.get ctx' [] (ctxKey s.ppm k)) sym = Counts.at (s.ppm.table (ctxKey s.ppm k)) sym + 1) ∧
        (∀ key x, (x ≠ sym ∨ ∀ k ≤ kmax s, key ≠ ctxKey s.ppm k) →
          Counts.at (Store.get ctx' [] key) x = Counts.at (s.ppm.table key) x))

/-- 44_frequency_model.md R260: PPM_ENCODE of a symbol below A, with room in HIST, CTX and OBUF, codes an escape triple at each order where the symbol's weight is 0 and then the symbol's own triple, updates the model, and gives the number of escapes in RES0; nothing else changes.
A symbol at or above A raises BAD_SYMBOL, h at SEQ_CAP SEQ_FULL, and CTX without room CTX_FULL with the smallest new order, in that order and before any step.
A step that faults raises RC_OUT_FULL with OUT_LEN: the steps before it and their ESC increments remain, and no update runs. -/
def Obligations.PpmEncodeCodesItsTriples : Prop :=
  ∀ (s : State) (sym : Nat), s.Inv → s.session = true → s.mode = .encode → s.rcFinished = false → s.ppm.esc = 0 →
    (s.acfg.alpha ≤ sym → exec (.ppmEncode sym) s = .next (s.takeFault .badSymbol sym)) ∧
    (sym < s.acfg.alpha → s.inst.seqCap ≤ s.ppm.hlen → exec (.ppmEncode sym) s = .next (s.takeFault .seqFull 0)) ∧
    (sym < s.acfg.alpha → s.ppm.hlen < s.inst.seqCap → s.inst.ctxCap ≠ 0 → s.inst.ctxCap < tableCount s.ppm + (newOrders s).length →
      ∃ k, isSmallestNewOrder s k ∧ exec (.ppmEncode sym) s = .next (s.takeFault .ctxFull k)) ∧
    (sym < s.acfg.alpha → s.ppm.hlen < s.inst.seqCap → s.inst.ctxCap = 0 ∨ tableCount s.ppm + (newOrders s).length ≤ s.inst.ctxCap →
      (∀ pre t post s1 f n, symbolTriples s sym (kmax s + 1) = pre ++ t :: post → encSteps pre s = .ok s1 → encStep t s1 = .raise f n s1 →
        f = .rcOutFull ∧ n = s1.mem.obuf.length ∧ exec (.ppmEncode sym) s = .next ((s1.withEsc pre.length).takeFault .rcOutFull n)) ∧
      (s.mem.obuf.length + (kmax s + 2) * s.inst.nBytes ≤ s.inst.obufCap →
        ∃ (n : Nat) (s1 : State), n ≤ kmax s + 1 ∧
          (∀ m < n, weight s (.order (kmax s - m)) sym = 0) ∧ (n ≤ kmax s → weight s (.order (kmax s - n)) sym ≠ 0) ∧
          encSteps (symbolTriples s sym (kmax s + 1)) s = .ok s1 ∧
          s1 = { s with mem := { s.mem with obuf := s1.mem.obuf }, rc := s1.rc } ∧
          exec (.ppmEncode sym) s = .next (State.complete { s1 with ppm := (updateModel s sym).ppm, res0 := toWord n })))

/-- 44_frequency_model.md R261: PPM_DECODE returns the symbol whose triples the input holds: where the decode steps of a symbol's triples succeed and CTX has room, it takes exactly those steps, gives the symbol in RES0 and the number of escapes in RES1, and updates the model; nothing else changes.
h at SEQ_CAP raises SEQ_FULL before any step. After the steps, CTX without room raises CTX_FULL with the smallest new order; after an escape at every order, an empty U raises RC_DESYNC with v; after j escapes, a step for the fetched value that faults raises its RC_DESYNC or RC_IN_UNDERRUN. In each case the steps taken and their ESC increments remain, and no update runs. -/
def Obligations.PpmDecodeReturnsTheCodedSymbol : Prop :=
  ∀ s : State, s.Inv → s.session = true → s.mode = .decode → s.rcDecReady = true → s.ppm.esc = 0 →
    (s.inst.seqCap ≤ s.ppm.hlen → exec .ppmDecode s = .next (s.takeFault .seqFull 0)) ∧
    (s.ppm.hlen < s.inst.seqCap →
      (∀ s1, decSteps (escapesFromTop s (kmax s + 1)) s = .ok s1 → massS s .base = 0 →
        exec .ppmDecode s = .next ((s1.withEsc (kmax s + 1)).takeFault .rcDesync (windowPos s1))) ∧
      (∀ j s1 f n, j ≤ kmax s + 1 → decSteps (escapesFromTop s j) s = .ok s1 →
        let lv := if j = kmax s + 1 then Level.base else Level.order (kmax s - j)
        massE s lv ≠ massD s lv → ¬ (massE s lv = 0 ∧ ((List.range s.acfg.alpha).filter (fun x => 0 < weight s lv x)).length = 1) →
        decStep (fetchedTriple s lv (decFetch (massD s lv) s1)) s1 = .raise f n s1 →
        f ∈ [FaultCode.rcDesync, .rcInUnderrun] ∧ exec .ppmDecode s = .next ((s1.withEsc j).takeFault f n)) ∧
      (∀ sym s1, sym < s.acfg.alpha → decSteps (symbolTriples s sym (kmax s + 1)) s = .ok s1 →
        ∃ n : Nat, n ≤ kmax s + 1 ∧
          (∀ m < n, weight s (.order (kmax s - m)) sym = 0) ∧ (n ≤ kmax s → weight s (.order (kmax s - n)) sym ≠ 0) ∧
          s1 = { s with rc := s1.rc } ∧
          (s.inst.ctxCap ≠ 0 → s.inst.ctxCap < tableCount s.ppm + (newOrders s).length →
            ∃ k, isSmallestNewOrder s k ∧ exec .ppmDecode s = .next ((s1.withEsc n).takeFault .ctxFull k)) ∧
          (s.inst.ctxCap = 0 ∨ tableCount s.ppm + (newOrders s).length ≤ s.inst.ctxCap →
            exec .ppmDecode s = .next (State.complete { s1 with
              ppm := (updateModel s sym).ppm, res0 := toWord sym, res1 := toWord n }))))

/-- 44_frequency_model.md R262, the round-trip law of the entropy path: symbols encoded and finished in one session are decoded in order, without a fault, in a session with equal N_BYTES, alphabet, order and method on an instance with at least the same room for h and CTX; before every symbol the two models are equal; at the end every emitted byte is consumed.
R262 does not state the premises on SEQ_CAP and CTX_CAP; without them a smaller decoder may raise SEQ_FULL or CTX_FULL. -/
def Obligations.PpmRoundTrip : Prop :=
  ∀ (xs : List Nat) (s s0 s1 s2 d d0 : State), d.inst.nBytes = s.inst.nBytes → s.inst.seqCap ≤ d.inst.seqCap →
    (d.inst.ctxCap = 0 ∨ (s.inst.ctxCap ≠ 0 ∧ s.inst.ctxCap ≤ d.inst.ctxCap)) →
    completes (.init .encode) s = some s0 → encodeSymbols xs s0 = some s1 → completes .rcFinish s1 = some s2 →
    openDecoder s2.mem.obuf d = some d0 →
    d0.acfg.alpha = s0.acfg.alpha → d0.acfg.order = s0.acfg.order → d0.acfg.method = s0.acfg.method →
    (∀ k ≤ xs.length, ∃ e d', encodeSymbols (xs.take k) s0 = some e ∧ decodeSymbols k d0 = some ((xs.take k).map toWord, d') ∧ d'.ppm = e.ppm) ∧
    ∃ d1, decodeSymbols xs.length d0 = some (xs.map toWord, d1) ∧ d1.rc.inPtr = s2.mem.obuf.length ∧ d1.ppm = s1.ppm
end

