-- ==== Sys2Proof/Laws/State.lean ====
section
/-! SUPPORT. Field lemmas of the state's updates: what each named update leaves in each field. All but those of `recordFault` and `takeFault` hold by rfl. -/

namespace Sys2Proof.Machine

/-! ### `State.setRes0` -/

@[simp] theorem State.setRes0_inst (s : State) (v : Word) : (s.setRes0 v).inst = s.inst := rfl
@[simp] theorem State.setRes0_busy (s : State) (v : Word) : (s.setRes0 v).busy = s.busy := rfl
@[simp] theorem State.setRes0_done (s : State) (v : Word) : (s.setRes0 v).done = s.done := rfl
@[simp] theorem State.setRes0_fault (s : State) (v : Word) : (s.setRes0 v).fault = s.fault := rfl
@[simp] theorem State.setRes0_session (s : State) (v : Word) : (s.setRes0 v).session = s.session := rfl
@[simp] theorem State.setRes0_mode (s : State) (v : Word) : (s.setRes0 v).mode = s.mode := rfl
@[simp] theorem State.setRes0_rcFinished (s : State) (v : Word) : (s.setRes0 v).rcFinished = s.rcFinished := rfl
@[simp] theorem State.setRes0_rcDecReady (s : State) (v : Word) : (s.setRes0 v).rcDecReady = s.rcDecReady := rfl
@[simp] theorem State.setRes0_doneIE (s : State) (v : Word) : (s.setRes0 v).doneIE = s.doneIE := rfl
@[simp] theorem State.setRes0_faultIE (s : State) (v : Word) : (s.setRes0 v).faultIE = s.faultIE := rfl
@[simp] theorem State.setRes0_faultCmd (s : State) (v : Word) : (s.setRes0 v).faultCmd = s.faultCmd := rfl
@[simp] theorem State.setRes0_faultInfo (s : State) (v : Word) : (s.setRes0 v).faultInfo = s.faultInfo := rfl
@[simp] theorem State.setRes0_latch (s : State) (v : Word) : (s.setRes0 v).latch = s.latch := rfl
@[simp] theorem State.setRes0_arg0 (s : State) (v : Word) : (s.setRes0 v).arg0 = s.arg0 := rfl
@[simp] theorem State.setRes0_arg1 (s : State) (v : Word) : (s.setRes0 v).arg1 = s.arg1 := rfl
@[simp] theorem State.setRes0_arg2 (s : State) (v : Word) : (s.setRes0 v).arg2 = s.arg2 := rfl
@[simp] theorem State.setRes0_res0 (s : State) (v : Word) : (s.setRes0 v).res0 = v := rfl
@[simp] theorem State.setRes0_res1 (s : State) (v : Word) : (s.setRes0 v).res1 = s.res1 := rfl
@[simp] theorem State.setRes0_res2 (s : State) (v : Word) : (s.setRes0 v).res2 = s.res2 := rfl
@[simp] theorem State.setRes0_cfg (s : State) (v : Word) : (s.setRes0 v).cfg = s.cfg := rfl
@[simp] theorem State.setRes0_acfg (s : State) (v : Word) : (s.setRes0 v).acfg = s.acfg := rfl
@[simp] theorem State.setRes0_mem (s : State) (v : Word) : (s.setRes0 v).mem = s.mem := rfl
@[simp] theorem State.setRes0_rc (s : State) (v : Word) : (s.setRes0 v).rc = s.rc := rfl
@[simp] theorem State.setRes0_ppm (s : State) (v : Word) : (s.setRes0 v).ppm = s.ppm := rfl
@[simp] theorem State.setRes0_env (s : State) (v : Word) : (s.setRes0 v).env = s.env := rfl

/-! ### `State.setRes1` -/

@[simp] theorem State.setRes1_inst (s : State) (v : Word) : (s.setRes1 v).inst = s.inst := rfl
@[simp] theorem State.setRes1_busy (s : State) (v : Word) : (s.setRes1 v).busy = s.busy := rfl
@[simp] theorem State.setRes1_done (s : State) (v : Word) : (s.setRes1 v).done = s.done := rfl
@[simp] theorem State.setRes1_fault (s : State) (v : Word) : (s.setRes1 v).fault = s.fault := rfl
@[simp] theorem State.setRes1_session (s : State) (v : Word) : (s.setRes1 v).session = s.session := rfl
@[simp] theorem State.setRes1_mode (s : State) (v : Word) : (s.setRes1 v).mode = s.mode := rfl
@[simp] theorem State.setRes1_rcFinished (s : State) (v : Word) : (s.setRes1 v).rcFinished = s.rcFinished := rfl
@[simp] theorem State.setRes1_rcDecReady (s : State) (v : Word) : (s.setRes1 v).rcDecReady = s.rcDecReady := rfl
@[simp] theorem State.setRes1_doneIE (s : State) (v : Word) : (s.setRes1 v).doneIE = s.doneIE := rfl
@[simp] theorem State.setRes1_faultIE (s : State) (v : Word) : (s.setRes1 v).faultIE = s.faultIE := rfl
@[simp] theorem State.setRes1_faultCmd (s : State) (v : Word) : (s.setRes1 v).faultCmd = s.faultCmd := rfl
@[simp] theorem State.setRes1_faultInfo (s : State) (v : Word) : (s.setRes1 v).faultInfo = s.faultInfo := rfl
@[simp] theorem State.setRes1_latch (s : State) (v : Word) : (s.setRes1 v).latch = s.latch := rfl
@[simp] theorem State.setRes1_arg0 (s : State) (v : Word) : (s.setRes1 v).arg0 = s.arg0 := rfl
@[simp] theorem State.setRes1_arg1 (s : State) (v : Word) : (s.setRes1 v).arg1 = s.arg1 := rfl
@[simp] theorem State.setRes1_arg2 (s : State) (v : Word) : (s.setRes1 v).arg2 = s.arg2 := rfl
@[simp] theorem State.setRes1_res0 (s : State) (v : Word) : (s.setRes1 v).res0 = s.res0 := rfl
@[simp] theorem State.setRes1_res1 (s : State) (v : Word) : (s.setRes1 v).res1 = v := rfl
@[simp] theorem State.setRes1_res2 (s : State) (v : Word) : (s.setRes1 v).res2 = s.res2 := rfl
@[simp] theorem State.setRes1_cfg (s : State) (v : Word) : (s.setRes1 v).cfg = s.cfg := rfl
@[simp] theorem State.setRes1_acfg (s : State) (v : Word) : (s.setRes1 v).acfg = s.acfg := rfl
@[simp] theorem State.setRes1_mem (s : State) (v : Word) : (s.setRes1 v).mem = s.mem := rfl
@[simp] theorem State.setRes1_rc (s : State) (v : Word) : (s.setRes1 v).rc = s.rc := rfl
@[simp] theorem State.setRes1_ppm (s : State) (v : Word) : (s.setRes1 v).ppm = s.ppm := rfl
@[simp] theorem State.setRes1_env (s : State) (v : Word) : (s.setRes1 v).env = s.env := rfl

/-! ### `State.setRes2` -/

@[simp] theorem State.setRes2_inst (s : State) (v : Word) : (s.setRes2 v).inst = s.inst := rfl
@[simp] theorem State.setRes2_busy (s : State) (v : Word) : (s.setRes2 v).busy = s.busy := rfl
@[simp] theorem State.setRes2_done (s : State) (v : Word) : (s.setRes2 v).done = s.done := rfl
@[simp] theorem State.setRes2_fault (s : State) (v : Word) : (s.setRes2 v).fault = s.fault := rfl
@[simp] theorem State.setRes2_session (s : State) (v : Word) : (s.setRes2 v).session = s.session := rfl
@[simp] theorem State.setRes2_mode (s : State) (v : Word) : (s.setRes2 v).mode = s.mode := rfl
@[simp] theorem State.setRes2_rcFinished (s : State) (v : Word) : (s.setRes2 v).rcFinished = s.rcFinished := rfl
@[simp] theorem State.setRes2_rcDecReady (s : State) (v : Word) : (s.setRes2 v).rcDecReady = s.rcDecReady := rfl
@[simp] theorem State.setRes2_doneIE (s : State) (v : Word) : (s.setRes2 v).doneIE = s.doneIE := rfl
@[simp] theorem State.setRes2_faultIE (s : State) (v : Word) : (s.setRes2 v).faultIE = s.faultIE := rfl
@[simp] theorem State.setRes2_faultCmd (s : State) (v : Word) : (s.setRes2 v).faultCmd = s.faultCmd := rfl
@[simp] theorem State.setRes2_faultInfo (s : State) (v : Word) : (s.setRes2 v).faultInfo = s.faultInfo := rfl
@[simp] theorem State.setRes2_latch (s : State) (v : Word) : (s.setRes2 v).latch = s.latch := rfl
@[simp] theorem State.setRes2_arg0 (s : State) (v : Word) : (s.setRes2 v).arg0 = s.arg0 := rfl
@[simp] theorem State.setRes2_arg1 (s : State) (v : Word) : (s.setRes2 v).arg1 = s.arg1 := rfl
@[simp] theorem State.setRes2_arg2 (s : State) (v : Word) : (s.setRes2 v).arg2 = s.arg2 := rfl
@[simp] theorem State.setRes2_res0 (s : State) (v : Word) : (s.setRes2 v).res0 = s.res0 := rfl
@[simp] theorem State.setRes2_res1 (s : State) (v : Word) : (s.setRes2 v).res1 = s.res1 := rfl
@[simp] theorem State.setRes2_res2 (s : State) (v : Word) : (s.setRes2 v).res2 = v := rfl
@[simp] theorem State.setRes2_cfg (s : State) (v : Word) : (s.setRes2 v).cfg = s.cfg := rfl
@[simp] theorem State.setRes2_acfg (s : State) (v : Word) : (s.setRes2 v).acfg = s.acfg := rfl
@[simp] theorem State.setRes2_mem (s : State) (v : Word) : (s.setRes2 v).mem = s.mem := rfl
@[simp] theorem State.setRes2_rc (s : State) (v : Word) : (s.setRes2 v).rc = s.rc := rfl
@[simp] theorem State.setRes2_ppm (s : State) (v : Word) : (s.setRes2 v).ppm = s.ppm := rfl
@[simp] theorem State.setRes2_env (s : State) (v : Word) : (s.setRes2 v).env = s.env := rfl

/-! ### `State.complete` -/

@[simp] theorem State.complete_inst (s : State) : (s.complete).inst = s.inst := rfl
@[simp] theorem State.complete_busy (s : State) : (s.complete).busy = false := rfl
@[simp] theorem State.complete_done (s : State) : (s.complete).done = (if s.fault.isNone then true else s.done) := rfl
@[simp] theorem State.complete_fault (s : State) : (s.complete).fault = s.fault := rfl
@[simp] theorem State.complete_session (s : State) : (s.complete).session = s.session := rfl
@[simp] theorem State.complete_mode (s : State) : (s.complete).mode = s.mode := rfl
@[simp] theorem State.complete_rcFinished (s : State) : (s.complete).rcFinished = s.rcFinished := rfl
@[simp] theorem State.complete_rcDecReady (s : State) : (s.complete).rcDecReady = s.rcDecReady := rfl
@[simp] theorem State.complete_doneIE (s : State) : (s.complete).doneIE = s.doneIE := rfl
@[simp] theorem State.complete_faultIE (s : State) : (s.complete).faultIE = s.faultIE := rfl
@[simp] theorem State.complete_faultCmd (s : State) : (s.complete).faultCmd = s.faultCmd := rfl
@[simp] theorem State.complete_faultInfo (s : State) : (s.complete).faultInfo = s.faultInfo := rfl
@[simp] theorem State.complete_latch (s : State) : (s.complete).latch = s.latch := rfl
@[simp] theorem State.complete_arg0 (s : State) : (s.complete).arg0 = s.arg0 := rfl
@[simp] theorem State.complete_arg1 (s : State) : (s.complete).arg1 = s.arg1 := rfl
@[simp] theorem State.complete_arg2 (s : State) : (s.complete).arg2 = s.arg2 := rfl
@[simp] theorem State.complete_res0 (s : State) : (s.complete).res0 = s.res0 := rfl
@[simp] theorem State.complete_res1 (s : State) : (s.complete).res1 = s.res1 := rfl
@[simp] theorem State.complete_res2 (s : State) : (s.complete).res2 = s.res2 := rfl
@[simp] theorem State.complete_cfg (s : State) : (s.complete).cfg = s.cfg := rfl
@[simp] theorem State.complete_acfg (s : State) : (s.complete).acfg = s.acfg := rfl
@[simp] theorem State.complete_mem (s : State) : (s.complete).mem = s.mem := rfl
@[simp] theorem State.complete_rc (s : State) : (s.complete).rc = s.rc := rfl
@[simp] theorem State.complete_ppm (s : State) : (s.complete).ppm = s.ppm := rfl
@[simp] theorem State.complete_env (s : State) : (s.complete).env = s.env := rfl

/-! ### `State.accept` -/

@[simp] theorem State.accept_inst (s : State) (w : Word) : (s.accept w).inst = s.inst := rfl
@[simp] theorem State.accept_busy (s : State) (w : Word) : (s.accept w).busy = true := rfl
@[simp] theorem State.accept_done (s : State) (w : Word) : (s.accept w).done = false := rfl
@[simp] theorem State.accept_fault (s : State) (w : Word) : (s.accept w).fault = s.fault := rfl
@[simp] theorem State.accept_session (s : State) (w : Word) : (s.accept w).session = s.session := rfl
@[simp] theorem State.accept_mode (s : State) (w : Word) : (s.accept w).mode = s.mode := rfl
@[simp] theorem State.accept_rcFinished (s : State) (w : Word) : (s.accept w).rcFinished = s.rcFinished := rfl
@[simp] theorem State.accept_rcDecReady (s : State) (w : Word) : (s.accept w).rcDecReady = s.rcDecReady := rfl
@[simp] theorem State.accept_doneIE (s : State) (w : Word) : (s.accept w).doneIE = s.doneIE := rfl
@[simp] theorem State.accept_faultIE (s : State) (w : Word) : (s.accept w).faultIE = s.faultIE := rfl
@[simp] theorem State.accept_faultCmd (s : State) (w : Word) : (s.accept w).faultCmd = s.faultCmd := rfl
@[simp] theorem State.accept_faultInfo (s : State) (w : Word) : (s.accept w).faultInfo = s.faultInfo := rfl
@[simp] theorem State.accept_latch (s : State) (w : Word) : (s.accept w).latch = { word := w, arg0 := s.arg0, arg1 := s.arg1, arg2 := s.arg2 } := rfl
@[simp] theorem State.accept_arg0 (s : State) (w : Word) : (s.accept w).arg0 = s.arg0 := rfl
@[simp] theorem State.accept_arg1 (s : State) (w : Word) : (s.accept w).arg1 = s.arg1 := rfl
@[simp] theorem State.accept_arg2 (s : State) (w : Word) : (s.accept w).arg2 = s.arg2 := rfl
@[simp] theorem State.accept_res0 (s : State) (w : Word) : (s.accept w).res0 = s.res0 := rfl
@[simp] theorem State.accept_res1 (s : State) (w : Word) : (s.accept w).res1 = s.res1 := rfl
@[simp] theorem State.accept_res2 (s : State) (w : Word) : (s.accept w).res2 = s.res2 := rfl
@[simp] theorem State.accept_cfg (s : State) (w : Word) : (s.accept w).cfg = s.cfg := rfl
@[simp] theorem State.accept_acfg (s : State) (w : Word) : (s.accept w).acfg = s.acfg := rfl
@[simp] theorem State.accept_mem (s : State) (w : Word) : (s.accept w).mem = s.mem := rfl
@[simp] theorem State.accept_rc (s : State) (w : Word) : (s.accept w).rc = s.rc := rfl
@[simp] theorem State.accept_ppm (s : State) (w : Word) : (s.accept w).ppm = s.ppm := rfl
@[simp] theorem State.accept_env (s : State) (w : Word) : (s.accept w).env = s.env := rfl

/-! ### `State.takeTurn` -/

@[simp] theorem State.takeTurn_inst (s : State) : (s.takeTurn).inst = s.inst := rfl
@[simp] theorem State.takeTurn_busy (s : State) : (s.takeTurn).busy = s.busy := rfl
@[simp] theorem State.takeTurn_done (s : State) : (s.takeTurn).done = s.done := rfl
@[simp] theorem State.takeTurn_fault (s : State) : (s.takeTurn).fault = s.fault := rfl
@[simp] theorem State.takeTurn_session (s : State) : (s.takeTurn).session = s.session := rfl
@[simp] theorem State.takeTurn_mode (s : State) : (s.takeTurn).mode = s.mode := rfl
@[simp] theorem State.takeTurn_rcFinished (s : State) : (s.takeTurn).rcFinished = s.rcFinished := rfl
@[simp] theorem State.takeTurn_rcDecReady (s : State) : (s.takeTurn).rcDecReady = s.rcDecReady := rfl
@[simp] theorem State.takeTurn_doneIE (s : State) : (s.takeTurn).doneIE = s.doneIE := rfl
@[simp] theorem State.takeTurn_faultIE (s : State) : (s.takeTurn).faultIE = s.faultIE := rfl
@[simp] theorem State.takeTurn_faultCmd (s : State) : (s.takeTurn).faultCmd = s.faultCmd := rfl
@[simp] theorem State.takeTurn_faultInfo (s : State) : (s.takeTurn).faultInfo = s.faultInfo := rfl
@[simp] theorem State.takeTurn_latch (s : State) : (s.takeTurn).latch = s.latch := rfl
@[simp] theorem State.takeTurn_arg0 (s : State) : (s.takeTurn).arg0 = s.arg0 := rfl
@[simp] theorem State.takeTurn_arg1 (s : State) : (s.takeTurn).arg1 = s.arg1 := rfl
@[simp] theorem State.takeTurn_arg2 (s : State) : (s.takeTurn).arg2 = s.arg2 := rfl
@[simp] theorem State.takeTurn_res0 (s : State) : (s.takeTurn).res0 = s.res0 := rfl
@[simp] theorem State.takeTurn_res1 (s : State) : (s.takeTurn).res1 = s.res1 := rfl
@[simp] theorem State.takeTurn_res2 (s : State) : (s.takeTurn).res2 = s.res2 := rfl
@[simp] theorem State.takeTurn_cfg (s : State) : (s.takeTurn).cfg = s.cfg := rfl
@[simp] theorem State.takeTurn_acfg (s : State) : (s.takeTurn).acfg = s.acfg := rfl
@[simp] theorem State.takeTurn_mem (s : State) : (s.takeTurn).mem = s.mem := rfl
@[simp] theorem State.takeTurn_rc (s : State) : (s.takeTurn).rc = s.rc := rfl
@[simp] theorem State.takeTurn_ppm (s : State) : (s.takeTurn).ppm = s.ppm := rfl
@[simp] theorem State.takeTurn_env (s : State) : (s.takeTurn).env = { s.env with sched := s.env.sched.tail } := rfl

/-! ### `State.deliver` -/

@[simp] theorem State.deliver_inst (s : State) (v : Word) : (s.deliver v).inst = s.inst := rfl
@[simp] theorem State.deliver_busy (s : State) (v : Word) : (s.deliver v).busy = s.busy := rfl
@[simp] theorem State.deliver_done (s : State) (v : Word) : (s.deliver v).done = s.done := rfl
@[simp] theorem State.deliver_fault (s : State) (v : Word) : (s.deliver v).fault = s.fault := rfl
@[simp] theorem State.deliver_session (s : State) (v : Word) : (s.deliver v).session = s.session := rfl
@[simp] theorem State.deliver_mode (s : State) (v : Word) : (s.deliver v).mode = s.mode := rfl
@[simp] theorem State.deliver_rcFinished (s : State) (v : Word) : (s.deliver v).rcFinished = s.rcFinished := rfl
@[simp] theorem State.deliver_rcDecReady (s : State) (v : Word) : (s.deliver v).rcDecReady = s.rcDecReady := rfl
@[simp] theorem State.deliver_doneIE (s : State) (v : Word) : (s.deliver v).doneIE = s.doneIE := rfl
@[simp] theorem State.deliver_faultIE (s : State) (v : Word) : (s.deliver v).faultIE = s.faultIE := rfl
@[simp] theorem State.deliver_faultCmd (s : State) (v : Word) : (s.deliver v).faultCmd = s.faultCmd := rfl
@[simp] theorem State.deliver_faultInfo (s : State) (v : Word) : (s.deliver v).faultInfo = s.faultInfo := rfl
@[simp] theorem State.deliver_latch (s : State) (v : Word) : (s.deliver v).latch = s.latch := rfl
@[simp] theorem State.deliver_arg0 (s : State) (v : Word) : (s.deliver v).arg0 = s.arg0 := rfl
@[simp] theorem State.deliver_arg1 (s : State) (v : Word) : (s.deliver v).arg1 = s.arg1 := rfl
@[simp] theorem State.deliver_arg2 (s : State) (v : Word) : (s.deliver v).arg2 = s.arg2 := rfl
@[simp] theorem State.deliver_res0 (s : State) (v : Word) : (s.deliver v).res0 = s.res0 := rfl
@[simp] theorem State.deliver_res1 (s : State) (v : Word) : (s.deliver v).res1 = s.res1 := rfl
@[simp] theorem State.deliver_res2 (s : State) (v : Word) : (s.deliver v).res2 = s.res2 := rfl
@[simp] theorem State.deliver_cfg (s : State) (v : Word) : (s.deliver v).cfg = s.cfg := rfl
@[simp] theorem State.deliver_acfg (s : State) (v : Word) : (s.deliver v).acfg = s.acfg := rfl
@[simp] theorem State.deliver_mem (s : State) (v : Word) : (s.deliver v).mem = s.mem := rfl
@[simp] theorem State.deliver_rc (s : State) (v : Word) : (s.deliver v).rc = s.rc := rfl
@[simp] theorem State.deliver_ppm (s : State) (v : Word) : (s.deliver v).ppm = s.ppm := rfl
@[simp] theorem State.deliver_env (s : State) (v : Word) : (s.deliver v).env = { s.env with got := v :: s.env.got } := rfl

/-! ### `State.useDraw` -/

@[simp] theorem State.useDraw_inst (s : State) (m : Word) : (s.useDraw m).inst = s.inst := rfl
@[simp] theorem State.useDraw_busy (s : State) (m : Word) : (s.useDraw m).busy = s.busy := rfl
@[simp] theorem State.useDraw_done (s : State) (m : Word) : (s.useDraw m).done = s.done := rfl
@[simp] theorem State.useDraw_fault (s : State) (m : Word) : (s.useDraw m).fault = s.fault := rfl
@[simp] theorem State.useDraw_session (s : State) (m : Word) : (s.useDraw m).session = s.session := rfl
@[simp] theorem State.useDraw_mode (s : State) (m : Word) : (s.useDraw m).mode = s.mode := rfl
@[simp] theorem State.useDraw_rcFinished (s : State) (m : Word) : (s.useDraw m).rcFinished = s.rcFinished := rfl
@[simp] theorem State.useDraw_rcDecReady (s : State) (m : Word) : (s.useDraw m).rcDecReady = s.rcDecReady := rfl
@[simp] theorem State.useDraw_doneIE (s : State) (m : Word) : (s.useDraw m).doneIE = s.doneIE := rfl
@[simp] theorem State.useDraw_faultIE (s : State) (m : Word) : (s.useDraw m).faultIE = s.faultIE := rfl
@[simp] theorem State.useDraw_faultCmd (s : State) (m : Word) : (s.useDraw m).faultCmd = s.faultCmd := rfl
@[simp] theorem State.useDraw_faultInfo (s : State) (m : Word) : (s.useDraw m).faultInfo = s.faultInfo := rfl
@[simp] theorem State.useDraw_latch (s : State) (m : Word) : (s.useDraw m).latch = s.latch := rfl
@[simp] theorem State.useDraw_arg0 (s : State) (m : Word) : (s.useDraw m).arg0 = s.arg0 := rfl
@[simp] theorem State.useDraw_arg1 (s : State) (m : Word) : (s.useDraw m).arg1 = s.arg1 := rfl
@[simp] theorem State.useDraw_arg2 (s : State) (m : Word) : (s.useDraw m).arg2 = s.arg2 := rfl
@[simp] theorem State.useDraw_res0 (s : State) (m : Word) : (s.useDraw m).res0 = s.res0 := rfl
@[simp] theorem State.useDraw_res1 (s : State) (m : Word) : (s.useDraw m).res1 = s.res1 := rfl
@[simp] theorem State.useDraw_res2 (s : State) (m : Word) : (s.useDraw m).res2 = s.res2 := rfl
@[simp] theorem State.useDraw_cfg (s : State) (m : Word) : (s.useDraw m).cfg = s.cfg := rfl
@[simp] theorem State.useDraw_acfg (s : State) (m : Word) : (s.useDraw m).acfg = s.acfg := rfl
@[simp] theorem State.useDraw_mem (s : State) (m : Word) : (s.useDraw m).mem = s.mem := rfl
@[simp] theorem State.useDraw_rc (s : State) (m : Word) : (s.useDraw m).rc = s.rc := rfl
@[simp] theorem State.useDraw_ppm (s : State) (m : Word) : (s.useDraw m).ppm = s.ppm := rfl
@[simp] theorem State.useDraw_env (s : State) (m : Word) : (s.useDraw m).env = { s.env with draws := if m = 0#64 then s.env.draws else s.env.draws + 1 } := rfl

/-! ### `State.writeStatus` -/

@[simp] theorem State.writeStatus_inst (s : State) (v : Word) : (s.writeStatus v).inst = s.inst := rfl
@[simp] theorem State.writeStatus_busy (s : State) (v : Word) : (s.writeStatus v).busy = s.busy := rfl
@[simp] theorem State.writeStatus_done (s : State) (v : Word) : (s.writeStatus v).done = (s.done && !v.getLsbD 1) := rfl
@[simp] theorem State.writeStatus_fault (s : State) (v : Word) : (s.writeStatus v).fault = s.fault := rfl
@[simp] theorem State.writeStatus_session (s : State) (v : Word) : (s.writeStatus v).session = s.session := rfl
@[simp] theorem State.writeStatus_mode (s : State) (v : Word) : (s.writeStatus v).mode = s.mode := rfl
@[simp] theorem State.writeStatus_rcFinished (s : State) (v : Word) : (s.writeStatus v).rcFinished = s.rcFinished := rfl
@[simp] theorem State.writeStatus_rcDecReady (s : State) (v : Word) : (s.writeStatus v).rcDecReady = s.rcDecReady := rfl
@[simp] theorem State.writeStatus_doneIE (s : State) (v : Word) : (s.writeStatus v).doneIE = s.doneIE := rfl
@[simp] theorem State.writeStatus_faultIE (s : State) (v : Word) : (s.writeStatus v).faultIE = s.faultIE := rfl
@[simp] theorem State.writeStatus_faultCmd (s : State) (v : Word) : (s.writeStatus v).faultCmd = s.faultCmd := rfl
@[simp] theorem State.writeStatus_faultInfo (s : State) (v : Word) : (s.writeStatus v).faultInfo = s.faultInfo := rfl
@[simp] theorem State.writeStatus_latch (s : State) (v : Word) : (s.writeStatus v).latch = s.latch := rfl
@[simp] theorem State.writeStatus_arg0 (s : State) (v : Word) : (s.writeStatus v).arg0 = s.arg0 := rfl
@[simp] theorem State.writeStatus_arg1 (s : State) (v : Word) : (s.writeStatus v).arg1 = s.arg1 := rfl
@[simp] theorem State.writeStatus_arg2 (s : State) (v : Word) : (s.writeStatus v).arg2 = s.arg2 := rfl
@[simp] theorem State.writeStatus_res0 (s : State) (v : Word) : (s.writeStatus v).res0 = s.res0 := rfl
@[simp] theorem State.writeStatus_res1 (s : State) (v : Word) : (s.writeStatus v).res1 = s.res1 := rfl
@[simp] theorem State.writeStatus_res2 (s : State) (v : Word) : (s.writeStatus v).res2 = s.res2 := rfl
@[simp] theorem State.writeStatus_cfg (s : State) (v : Word) : (s.writeStatus v).cfg = s.cfg := rfl
@[simp] theorem State.writeStatus_acfg (s : State) (v : Word) : (s.writeStatus v).acfg = s.acfg := rfl
@[simp] theorem State.writeStatus_mem (s : State) (v : Word) : (s.writeStatus v).mem = s.mem := rfl
@[simp] theorem State.writeStatus_rc (s : State) (v : Word) : (s.writeStatus v).rc = s.rc := rfl
@[simp] theorem State.writeStatus_ppm (s : State) (v : Word) : (s.writeStatus v).ppm = s.ppm := rfl
@[simp] theorem State.writeStatus_env (s : State) (v : Word) : (s.writeStatus v).env = s.env := rfl

/-! ### `State.writeInten` -/

@[simp] theorem State.writeInten_inst (s : State) (v : Word) : (s.writeInten v).inst = s.inst := rfl
@[simp] theorem State.writeInten_busy (s : State) (v : Word) : (s.writeInten v).busy = s.busy := rfl
@[simp] theorem State.writeInten_done (s : State) (v : Word) : (s.writeInten v).done = s.done := rfl
@[simp] theorem State.writeInten_fault (s : State) (v : Word) : (s.writeInten v).fault = s.fault := rfl
@[simp] theorem State.writeInten_session (s : State) (v : Word) : (s.writeInten v).session = s.session := rfl
@[simp] theorem State.writeInten_mode (s : State) (v : Word) : (s.writeInten v).mode = s.mode := rfl
@[simp] theorem State.writeInten_rcFinished (s : State) (v : Word) : (s.writeInten v).rcFinished = s.rcFinished := rfl
@[simp] theorem State.writeInten_rcDecReady (s : State) (v : Word) : (s.writeInten v).rcDecReady = s.rcDecReady := rfl
@[simp] theorem State.writeInten_doneIE (s : State) (v : Word) : (s.writeInten v).doneIE = v.getLsbD 0 := rfl
@[simp] theorem State.writeInten_faultIE (s : State) (v : Word) : (s.writeInten v).faultIE = v.getLsbD 1 := rfl
@[simp] theorem State.writeInten_faultCmd (s : State) (v : Word) : (s.writeInten v).faultCmd = s.faultCmd := rfl
@[simp] theorem State.writeInten_faultInfo (s : State) (v : Word) : (s.writeInten v).faultInfo = s.faultInfo := rfl
@[simp] theorem State.writeInten_latch (s : State) (v : Word) : (s.writeInten v).latch = s.latch := rfl
@[simp] theorem State.writeInten_arg0 (s : State) (v : Word) : (s.writeInten v).arg0 = s.arg0 := rfl
@[simp] theorem State.writeInten_arg1 (s : State) (v : Word) : (s.writeInten v).arg1 = s.arg1 := rfl
@[simp] theorem State.writeInten_arg2 (s : State) (v : Word) : (s.writeInten v).arg2 = s.arg2 := rfl
@[simp] theorem State.writeInten_res0 (s : State) (v : Word) : (s.writeInten v).res0 = s.res0 := rfl
@[simp] theorem State.writeInten_res1 (s : State) (v : Word) : (s.writeInten v).res1 = s.res1 := rfl
@[simp] theorem State.writeInten_res2 (s : State) (v : Word) : (s.writeInten v).res2 = s.res2 := rfl
@[simp] theorem State.writeInten_cfg (s : State) (v : Word) : (s.writeInten v).cfg = s.cfg := rfl
@[simp] theorem State.writeInten_acfg (s : State) (v : Word) : (s.writeInten v).acfg = s.acfg := rfl
@[simp] theorem State.writeInten_mem (s : State) (v : Word) : (s.writeInten v).mem = s.mem := rfl
@[simp] theorem State.writeInten_rc (s : State) (v : Word) : (s.writeInten v).rc = s.rc := rfl
@[simp] theorem State.writeInten_ppm (s : State) (v : Word) : (s.writeInten v).ppm = s.ppm := rfl
@[simp] theorem State.writeInten_env (s : State) (v : Word) : (s.writeInten v).env = s.env := rfl

/-! ### `State.startSession` -/

@[simp] theorem State.startSession_inst (s : State) (m : Direction) : (s.startSession m).inst = s.inst := rfl
@[simp] theorem State.startSession_busy (s : State) (m : Direction) : (s.startSession m).busy = s.busy := rfl
@[simp] theorem State.startSession_done (s : State) (m : Direction) : (s.startSession m).done = s.done := rfl
@[simp] theorem State.startSession_fault (s : State) (m : Direction) : (s.startSession m).fault = s.fault := rfl
@[simp] theorem State.startSession_session (s : State) (m : Direction) : (s.startSession m).session = true := rfl
@[simp] theorem State.startSession_mode (s : State) (m : Direction) : (s.startSession m).mode = m := rfl
@[simp] theorem State.startSession_rcFinished (s : State) (m : Direction) : (s.startSession m).rcFinished = false := rfl
@[simp] theorem State.startSession_rcDecReady (s : State) (m : Direction) : (s.startSession m).rcDecReady = false := rfl
@[simp] theorem State.startSession_doneIE (s : State) (m : Direction) : (s.startSession m).doneIE = s.doneIE := rfl
@[simp] theorem State.startSession_faultIE (s : State) (m : Direction) : (s.startSession m).faultIE = s.faultIE := rfl
@[simp] theorem State.startSession_faultCmd (s : State) (m : Direction) : (s.startSession m).faultCmd = s.faultCmd := rfl
@[simp] theorem State.startSession_faultInfo (s : State) (m : Direction) : (s.startSession m).faultInfo = s.faultInfo := rfl
@[simp] theorem State.startSession_latch (s : State) (m : Direction) : (s.startSession m).latch = s.latch := rfl
@[simp] theorem State.startSession_arg0 (s : State) (m : Direction) : (s.startSession m).arg0 = s.arg0 := rfl
@[simp] theorem State.startSession_arg1 (s : State) (m : Direction) : (s.startSession m).arg1 = s.arg1 := rfl
@[simp] theorem State.startSession_arg2 (s : State) (m : Direction) : (s.startSession m).arg2 = s.arg2 := rfl
@[simp] theorem State.startSession_res0 (s : State) (m : Direction) : (s.startSession m).res0 = s.res0 := rfl
@[simp] theorem State.startSession_res1 (s : State) (m : Direction) : (s.startSession m).res1 = s.res1 := rfl
@[simp] theorem State.startSession_res2 (s : State) (m : Direction) : (s.startSession m).res2 = s.res2 := rfl
@[simp] theorem State.startSession_cfg (s : State) (m : Direction) : (s.startSession m).cfg = s.cfg := rfl
@[simp] theorem State.startSession_acfg (s : State) (m : Direction) : (s.startSession m).acfg = s.cfg.active := rfl
@[simp] theorem State.startSession_mem (s : State) (m : Direction) : (s.startSession m).mem = s.mem.emptyStreams := rfl
@[simp] theorem State.startSession_rc (s : State) (m : Direction) : (s.startSession m).rc = Coder.reset s.inst := rfl
@[simp] theorem State.startSession_ppm (s : State) (m : Direction) : (s.startSession m).ppm = Model.reset := rfl
@[simp] theorem State.startSession_env (s : State) (m : Direction) : (s.startSession m).env = s.env := rfl

/-! ### `emitByte` -/

@[simp] theorem emitByte_inst (s : State) : (emitByte s).inst = s.inst := rfl
@[simp] theorem emitByte_busy (s : State) : (emitByte s).busy = s.busy := rfl
@[simp] theorem emitByte_done (s : State) : (emitByte s).done = s.done := rfl
@[simp] theorem emitByte_fault (s : State) : (emitByte s).fault = s.fault := rfl
@[simp] theorem emitByte_session (s : State) : (emitByte s).session = s.session := rfl
@[simp] theorem emitByte_mode (s : State) : (emitByte s).mode = s.mode := rfl
@[simp] theorem emitByte_rcFinished (s : State) : (emitByte s).rcFinished = s.rcFinished := rfl
@[simp] theorem emitByte_rcDecReady (s : State) : (emitByte s).rcDecReady = s.rcDecReady := rfl
@[simp] theorem emitByte_doneIE (s : State) : (emitByte s).doneIE = s.doneIE := rfl
@[simp] theorem emitByte_faultIE (s : State) : (emitByte s).faultIE = s.faultIE := rfl
@[simp] theorem emitByte_faultCmd (s : State) : (emitByte s).faultCmd = s.faultCmd := rfl
@[simp] theorem emitByte_faultInfo (s : State) : (emitByte s).faultInfo = s.faultInfo := rfl
@[simp] theorem emitByte_latch (s : State) : (emitByte s).latch = s.latch := rfl
@[simp] theorem emitByte_arg0 (s : State) : (emitByte s).arg0 = s.arg0 := rfl
@[simp] theorem emitByte_arg1 (s : State) : (emitByte s).arg1 = s.arg1 := rfl
@[simp] theorem emitByte_arg2 (s : State) : (emitByte s).arg2 = s.arg2 := rfl
@[simp] theorem emitByte_res0 (s : State) : (emitByte s).res0 = s.res0 := rfl
@[simp] theorem emitByte_res1 (s : State) : (emitByte s).res1 = s.res1 := rfl
@[simp] theorem emitByte_res2 (s : State) : (emitByte s).res2 = s.res2 := rfl
@[simp] theorem emitByte_cfg (s : State) : (emitByte s).cfg = s.cfg := rfl
@[simp] theorem emitByte_acfg (s : State) : (emitByte s).acfg = s.acfg := rfl
@[simp] theorem emitByte_mem (s : State) : (emitByte s).mem = { s.mem with obuf := s.mem.obuf ++ [topByte s.inst s.rc.low] } := rfl
@[simp] theorem emitByte_rc (s : State) : (emitByte s).rc = { s.rc with low := s.rc.low * 2 ^ 8 % s.inst.modulus, range := s.rc.range * 2 ^ 8 } := rfl
@[simp] theorem emitByte_ppm (s : State) : (emitByte s).ppm = s.ppm := rfl
@[simp] theorem emitByte_env (s : State) : (emitByte s).env = s.env := rfl

/-! ### `takeByte` -/

@[simp] theorem takeByte_inst (s : State) : (takeByte s).inst = s.inst := rfl
@[simp] theorem takeByte_busy (s : State) : (takeByte s).busy = s.busy := rfl
@[simp] theorem takeByte_done (s : State) : (takeByte s).done = s.done := rfl
@[simp] theorem takeByte_fault (s : State) : (takeByte s).fault = s.fault := rfl
@[simp] theorem takeByte_session (s : State) : (takeByte s).session = s.session := rfl
@[simp] theorem takeByte_mode (s : State) : (takeByte s).mode = s.mode := rfl
@[simp] theorem takeByte_rcFinished (s : State) : (takeByte s).rcFinished = s.rcFinished := rfl
@[simp] theorem takeByte_rcDecReady (s : State) : (takeByte s).rcDecReady = s.rcDecReady := rfl
@[simp] theorem takeByte_doneIE (s : State) : (takeByte s).doneIE = s.doneIE := rfl
@[simp] theorem takeByte_faultIE (s : State) : (takeByte s).faultIE = s.faultIE := rfl
@[simp] theorem takeByte_faultCmd (s : State) : (takeByte s).faultCmd = s.faultCmd := rfl
@[simp] theorem takeByte_faultInfo (s : State) : (takeByte s).faultInfo = s.faultInfo := rfl
@[simp] theorem takeByte_latch (s : State) : (takeByte s).latch = s.latch := rfl
@[simp] theorem takeByte_arg0 (s : State) : (takeByte s).arg0 = s.arg0 := rfl
@[simp] theorem takeByte_arg1 (s : State) : (takeByte s).arg1 = s.arg1 := rfl
@[simp] theorem takeByte_arg2 (s : State) : (takeByte s).arg2 = s.arg2 := rfl
@[simp] theorem takeByte_res0 (s : State) : (takeByte s).res0 = s.res0 := rfl
@[simp] theorem takeByte_res1 (s : State) : (takeByte s).res1 = s.res1 := rfl
@[simp] theorem takeByte_res2 (s : State) : (takeByte s).res2 = s.res2 := rfl
@[simp] theorem takeByte_cfg (s : State) : (takeByte s).cfg = s.cfg := rfl
@[simp] theorem takeByte_acfg (s : State) : (takeByte s).acfg = s.acfg := rfl
@[simp] theorem takeByte_mem (s : State) : (takeByte s).mem = s.mem := rfl
@[simp] theorem takeByte_ppm (s : State) : (takeByte s).ppm = s.ppm := rfl
@[simp] theorem takeByte_env (s : State) : (takeByte s).env = s.env := rfl

/-! ### `escapeOnce` -/

@[simp] theorem escapeOnce_inst (s : State) : (escapeOnce s).inst = s.inst := rfl
@[simp] theorem escapeOnce_busy (s : State) : (escapeOnce s).busy = s.busy := rfl
@[simp] theorem escapeOnce_done (s : State) : (escapeOnce s).done = s.done := rfl
@[simp] theorem escapeOnce_fault (s : State) : (escapeOnce s).fault = s.fault := rfl
@[simp] theorem escapeOnce_session (s : State) : (escapeOnce s).session = s.session := rfl
@[simp] theorem escapeOnce_mode (s : State) : (escapeOnce s).mode = s.mode := rfl
@[simp] theorem escapeOnce_rcFinished (s : State) : (escapeOnce s).rcFinished = s.rcFinished := rfl
@[simp] theorem escapeOnce_rcDecReady (s : State) : (escapeOnce s).rcDecReady = s.rcDecReady := rfl
@[simp] theorem escapeOnce_doneIE (s : State) : (escapeOnce s).doneIE = s.doneIE := rfl
@[simp] theorem escapeOnce_faultIE (s : State) : (escapeOnce s).faultIE = s.faultIE := rfl
@[simp] theorem escapeOnce_faultCmd (s : State) : (escapeOnce s).faultCmd = s.faultCmd := rfl
@[simp] theorem escapeOnce_faultInfo (s : State) : (escapeOnce s).faultInfo = s.faultInfo := rfl
@[simp] theorem escapeOnce_latch (s : State) : (escapeOnce s).latch = s.latch := rfl
@[simp] theorem escapeOnce_arg0 (s : State) : (escapeOnce s).arg0 = s.arg0 := rfl
@[simp] theorem escapeOnce_arg1 (s : State) : (escapeOnce s).arg1 = s.arg1 := rfl
@[simp] theorem escapeOnce_arg2 (s : State) : (escapeOnce s).arg2 = s.arg2 := rfl
@[simp] theorem escapeOnce_res0 (s : State) : (escapeOnce s).res0 = s.res0 := rfl
@[simp] theorem escapeOnce_res1 (s : State) : (escapeOnce s).res1 = s.res1 := rfl
@[simp] theorem escapeOnce_res2 (s : State) : (escapeOnce s).res2 = s.res2 := rfl
@[simp] theorem escapeOnce_cfg (s : State) : (escapeOnce s).cfg = s.cfg := rfl
@[simp] theorem escapeOnce_acfg (s : State) : (escapeOnce s).acfg = s.acfg := rfl
@[simp] theorem escapeOnce_mem (s : State) : (escapeOnce s).mem = s.mem := rfl
@[simp] theorem escapeOnce_rc (s : State) : (escapeOnce s).rc = s.rc := rfl
@[simp] theorem escapeOnce_ppm (s : State) : (escapeOnce s).ppm = { s.ppm with esc := s.ppm.esc + 1 } := rfl
@[simp] theorem escapeOnce_env (s : State) : (escapeOnce s).env = s.env := rfl

/-! ### `updateModel` -/

@[simp] theorem updateModel_inst (s : State) (sym : Nat) : (updateModel s sym).inst = s.inst := rfl
@[simp] theorem updateModel_busy (s : State) (sym : Nat) : (updateModel s sym).busy = s.busy := rfl
@[simp] theorem updateModel_done (s : State) (sym : Nat) : (updateModel s sym).done = s.done := rfl
@[simp] theorem updateModel_fault (s : State) (sym : Nat) : (updateModel s sym).fault = s.fault := rfl
@[simp] theorem updateModel_session (s : State) (sym : Nat) : (updateModel s sym).session = s.session := rfl
@[simp] theorem updateModel_mode (s : State) (sym : Nat) : (updateModel s sym).mode = s.mode := rfl
@[simp] theorem updateModel_rcFinished (s : State) (sym : Nat) : (updateModel s sym).rcFinished = s.rcFinished := rfl
@[simp] theorem updateModel_rcDecReady (s : State) (sym : Nat) : (updateModel s sym).rcDecReady = s.rcDecReady := rfl
@[simp] theorem updateModel_doneIE (s : State) (sym : Nat) : (updateModel s sym).doneIE = s.doneIE := rfl
@[simp] theorem updateModel_faultIE (s : State) (sym : Nat) : (updateModel s sym).faultIE = s.faultIE := rfl
@[simp] theorem updateModel_faultCmd (s : State) (sym : Nat) : (updateModel s sym).faultCmd = s.faultCmd := rfl
@[simp] theorem updateModel_faultInfo (s : State) (sym : Nat) : (updateModel s sym).faultInfo = s.faultInfo := rfl
@[simp] theorem updateModel_latch (s : State) (sym : Nat) : (updateModel s sym).latch = s.latch := rfl
@[simp] theorem updateModel_arg0 (s : State) (sym : Nat) : (updateModel s sym).arg0 = s.arg0 := rfl
@[simp] theorem updateModel_arg1 (s : State) (sym : Nat) : (updateModel s sym).arg1 = s.arg1 := rfl
@[simp] theorem updateModel_arg2 (s : State) (sym : Nat) : (updateModel s sym).arg2 = s.arg2 := rfl
@[simp] theorem updateModel_res0 (s : State) (sym : Nat) : (updateModel s sym).res0 = s.res0 := rfl
@[simp] theorem updateModel_res1 (s : State) (sym : Nat) : (updateModel s sym).res1 = s.res1 := rfl
@[simp] theorem updateModel_res2 (s : State) (sym : Nat) : (updateModel s sym).res2 = s.res2 := rfl
@[simp] theorem updateModel_cfg (s : State) (sym : Nat) : (updateModel s sym).cfg = s.cfg := rfl
@[simp] theorem updateModel_acfg (s : State) (sym : Nat) : (updateModel s sym).acfg = s.acfg := rfl
@[simp] theorem updateModel_mem (s : State) (sym : Nat) : (updateModel s sym).mem = s.mem := rfl
@[simp] theorem updateModel_rc (s : State) (sym : Nat) : (updateModel s sym).rc = s.rc := rfl
@[simp] theorem updateModel_env (s : State) (sym : Nat) : (updateModel s sym).env = s.env := rfl

/-! ### `State.withTriple` -/

@[simp] theorem State.withTriple_inst (s : State) (t : Triple) : (s.withTriple t).inst = s.inst := rfl
@[simp] theorem State.withTriple_busy (s : State) (t : Triple) : (s.withTriple t).busy = s.busy := rfl
@[simp] theorem State.withTriple_done (s : State) (t : Triple) : (s.withTriple t).done = s.done := rfl
@[simp] theorem State.withTriple_fault (s : State) (t : Triple) : (s.withTriple t).fault = s.fault := rfl
@[simp] theorem State.withTriple_session (s : State) (t : Triple) : (s.withTriple t).session = s.session := rfl
@[simp] theorem State.withTriple_mode (s : State) (t : Triple) : (s.withTriple t).mode = s.mode := rfl
@[simp] theorem State.withTriple_rcFinished (s : State) (t : Triple) : (s.withTriple t).rcFinished = s.rcFinished := rfl
@[simp] theorem State.withTriple_rcDecReady (s : State) (t : Triple) : (s.withTriple t).rcDecReady = s.rcDecReady := rfl
@[simp] theorem State.withTriple_doneIE (s : State) (t : Triple) : (s.withTriple t).doneIE = s.doneIE := rfl
@[simp] theorem State.withTriple_faultIE (s : State) (t : Triple) : (s.withTriple t).faultIE = s.faultIE := rfl
@[simp] theorem State.withTriple_faultCmd (s : State) (t : Triple) : (s.withTriple t).faultCmd = s.faultCmd := rfl
@[simp] theorem State.withTriple_faultInfo (s : State) (t : Triple) : (s.withTriple t).faultInfo = s.faultInfo := rfl
@[simp] theorem State.withTriple_latch (s : State) (t : Triple) : (s.withTriple t).latch = { s.latch with arg0 := toWord t.cum, arg1 := toWord t.freq, arg2 := toWord t.total } := rfl
@[simp] theorem State.withTriple_arg0 (s : State) (t : Triple) : (s.withTriple t).arg0 = s.arg0 := rfl
@[simp] theorem State.withTriple_arg1 (s : State) (t : Triple) : (s.withTriple t).arg1 = s.arg1 := rfl
@[simp] theorem State.withTriple_arg2 (s : State) (t : Triple) : (s.withTriple t).arg2 = s.arg2 := rfl
@[simp] theorem State.withTriple_res0 (s : State) (t : Triple) : (s.withTriple t).res0 = s.res0 := rfl
@[simp] theorem State.withTriple_res1 (s : State) (t : Triple) : (s.withTriple t).res1 = s.res1 := rfl
@[simp] theorem State.withTriple_res2 (s : State) (t : Triple) : (s.withTriple t).res2 = s.res2 := rfl
@[simp] theorem State.withTriple_cfg (s : State) (t : Triple) : (s.withTriple t).cfg = s.cfg := rfl
@[simp] theorem State.withTriple_acfg (s : State) (t : Triple) : (s.withTriple t).acfg = s.acfg := rfl
@[simp] theorem State.withTriple_mem (s : State) (t : Triple) : (s.withTriple t).mem = s.mem := rfl
@[simp] theorem State.withTriple_rc (s : State) (t : Triple) : (s.withTriple t).rc = s.rc := rfl
@[simp] theorem State.withTriple_ppm (s : State) (t : Triple) : (s.withTriple t).ppm = s.ppm := rfl
@[simp] theorem State.withTriple_env (s : State) (t : Triple) : (s.withTriple t).env = s.env := rfl

/-! ### `State.withEsc` -/

@[simp] theorem State.withEsc_inst (s : State) (n : Nat) : (s.withEsc n).inst = s.inst := rfl
@[simp] theorem State.withEsc_busy (s : State) (n : Nat) : (s.withEsc n).busy = s.busy := rfl
@[simp] theorem State.withEsc_done (s : State) (n : Nat) : (s.withEsc n).done = s.done := rfl
@[simp] theorem State.withEsc_fault (s : State) (n : Nat) : (s.withEsc n).fault = s.fault := rfl
@[simp] theorem State.withEsc_session (s : State) (n : Nat) : (s.withEsc n).session = s.session := rfl
@[simp] theorem State.withEsc_mode (s : State) (n : Nat) : (s.withEsc n).mode = s.mode := rfl
@[simp] theorem State.withEsc_rcFinished (s : State) (n : Nat) : (s.withEsc n).rcFinished = s.rcFinished := rfl
@[simp] theorem State.withEsc_rcDecReady (s : State) (n : Nat) : (s.withEsc n).rcDecReady = s.rcDecReady := rfl
@[simp] theorem State.withEsc_doneIE (s : State) (n : Nat) : (s.withEsc n).doneIE = s.doneIE := rfl
@[simp] theorem State.withEsc_faultIE (s : State) (n : Nat) : (s.withEsc n).faultIE = s.faultIE := rfl
@[simp] theorem State.withEsc_faultCmd (s : State) (n : Nat) : (s.withEsc n).faultCmd = s.faultCmd := rfl
@[simp] theorem State.withEsc_faultInfo (s : State) (n : Nat) : (s.withEsc n).faultInfo = s.faultInfo := rfl
@[simp] theorem State.withEsc_latch (s : State) (n : Nat) : (s.withEsc n).latch = s.latch := rfl
@[simp] theorem State.withEsc_arg0 (s : State) (n : Nat) : (s.withEsc n).arg0 = s.arg0 := rfl
@[simp] theorem State.withEsc_arg1 (s : State) (n : Nat) : (s.withEsc n).arg1 = s.arg1 := rfl
@[simp] theorem State.withEsc_arg2 (s : State) (n : Nat) : (s.withEsc n).arg2 = s.arg2 := rfl
@[simp] theorem State.withEsc_res0 (s : State) (n : Nat) : (s.withEsc n).res0 = s.res0 := rfl
@[simp] theorem State.withEsc_res1 (s : State) (n : Nat) : (s.withEsc n).res1 = s.res1 := rfl
@[simp] theorem State.withEsc_res2 (s : State) (n : Nat) : (s.withEsc n).res2 = s.res2 := rfl
@[simp] theorem State.withEsc_cfg (s : State) (n : Nat) : (s.withEsc n).cfg = s.cfg := rfl
@[simp] theorem State.withEsc_acfg (s : State) (n : Nat) : (s.withEsc n).acfg = s.acfg := rfl
@[simp] theorem State.withEsc_mem (s : State) (n : Nat) : (s.withEsc n).mem = s.mem := rfl
@[simp] theorem State.withEsc_rc (s : State) (n : Nat) : (s.withEsc n).rc = s.rc := rfl
@[simp] theorem State.withEsc_ppm (s : State) (n : Nat) : (s.withEsc n).ppm = { s.ppm with esc := n } := rfl
@[simp] theorem State.withEsc_env (s : State) (n : Nat) : (s.withEsc n).env = s.env := rfl

/-! ### `State.withToken` -/

@[simp] theorem State.withToken_inst (s : State) (t : Word) : (s.withToken t).inst = s.inst := rfl
@[simp] theorem State.withToken_busy (s : State) (t : Word) : (s.withToken t).busy = s.busy := rfl
@[simp] theorem State.withToken_done (s : State) (t : Word) : (s.withToken t).done = s.done := rfl
@[simp] theorem State.withToken_fault (s : State) (t : Word) : (s.withToken t).fault = s.fault := rfl
@[simp] theorem State.withToken_session (s : State) (t : Word) : (s.withToken t).session = s.session := rfl
@[simp] theorem State.withToken_mode (s : State) (t : Word) : (s.withToken t).mode = s.mode := rfl
@[simp] theorem State.withToken_rcFinished (s : State) (t : Word) : (s.withToken t).rcFinished = s.rcFinished := rfl
@[simp] theorem State.withToken_rcDecReady (s : State) (t : Word) : (s.withToken t).rcDecReady = s.rcDecReady := rfl
@[simp] theorem State.withToken_doneIE (s : State) (t : Word) : (s.withToken t).doneIE = s.doneIE := rfl
@[simp] theorem State.withToken_faultIE (s : State) (t : Word) : (s.withToken t).faultIE = s.faultIE := rfl
@[simp] theorem State.withToken_faultCmd (s : State) (t : Word) : (s.withToken t).faultCmd = s.faultCmd := rfl
@[simp] theorem State.withToken_faultInfo (s : State) (t : Word) : (s.withToken t).faultInfo = s.faultInfo := rfl
@[simp] theorem State.withToken_latch (s : State) (t : Word) : (s.withToken t).latch = { s.latch with arg0 := t } := rfl
@[simp] theorem State.withToken_arg0 (s : State) (t : Word) : (s.withToken t).arg0 = s.arg0 := rfl
@[simp] theorem State.withToken_arg1 (s : State) (t : Word) : (s.withToken t).arg1 = s.arg1 := rfl
@[simp] theorem State.withToken_arg2 (s : State) (t : Word) : (s.withToken t).arg2 = s.arg2 := rfl
@[simp] theorem State.withToken_res0 (s : State) (t : Word) : (s.withToken t).res0 = s.res0 := rfl
@[simp] theorem State.withToken_res1 (s : State) (t : Word) : (s.withToken t).res1 = s.res1 := rfl
@[simp] theorem State.withToken_res2 (s : State) (t : Word) : (s.withToken t).res2 = s.res2 := rfl
@[simp] theorem State.withToken_cfg (s : State) (t : Word) : (s.withToken t).cfg = s.cfg := rfl
@[simp] theorem State.withToken_acfg (s : State) (t : Word) : (s.withToken t).acfg = s.acfg := rfl
@[simp] theorem State.withToken_mem (s : State) (t : Word) : (s.withToken t).mem = s.mem := rfl
@[simp] theorem State.withToken_rc (s : State) (t : Word) : (s.withToken t).rc = s.rc := rfl
@[simp] theorem State.withToken_ppm (s : State) (t : Word) : (s.withToken t).ppm = s.ppm := rfl
@[simp] theorem State.withToken_env (s : State) (t : Word) : (s.withToken t).env = s.env := rfl

/-! ### `recordFault` and `takeFault` -/

/-- Recording a fault when none is recorded (60_exceptions.md R303). -/
theorem State.recordFault_of_none {s : State} (h : s.fault = none) (f : FaultCode) (w : Word) (n : Nat) :
    s.recordFault f w n = { s with fault := some f, faultCmd := w, faultInfo := toWord n } := by
  simp only [State.recordFault, h]

/-- A recorded fault stays the recorded one (60_exceptions.md R303). -/
theorem State.recordFault_of_some {s : State} {g : FaultCode} (h : s.fault = some g) (f : FaultCode) (w : Word) (n : Nat) :
    s.recordFault f w n = s := by
  simp only [State.recordFault, h]

@[simp] theorem State.recordFault_inst (s : State) (c : FaultCode) (w : Word) (n : Nat) : (s.recordFault c w n).inst = s.inst := by
  unfold State.recordFault; split <;> rfl
@[simp] theorem State.recordFault_busy (s : State) (c : FaultCode) (w : Word) (n : Nat) : (s.recordFault c w n).busy = s.busy := by
  unfold State.recordFault; split <;> rfl
@[simp] theorem State.recordFault_done (s : State) (c : FaultCode) (w : Word) (n : Nat) : (s.recordFault c w n).done = s.done := by
  unfold State.recordFault; split <;> rfl
@[simp] theorem State.recordFault_session (s : State) (c : FaultCode) (w : Word) (n : Nat) : (s.recordFault c w n).session = s.session := by
  unfold State.recordFault; split <;> rfl
@[simp] theorem State.recordFault_mode (s : State) (c : FaultCode) (w : Word) (n : Nat) : (s.recordFault c w n).mode = s.mode := by
  unfold State.recordFault; split <;> rfl
@[simp] theorem State.recordFault_rcFinished (s : State) (c : FaultCode) (w : Word) (n : Nat) : (s.recordFault c w n).rcFinished = s.rcFinished := by
  unfold State.recordFault; split <;> rfl
@[simp] theorem State.recordFault_rcDecReady (s : State) (c : FaultCode) (w : Word) (n : Nat) : (s.recordFault c w n).rcDecReady = s.rcDecReady := by
  unfold State.recordFault; split <;> rfl
@[simp] theorem State.recordFault_doneIE (s : State) (c : FaultCode) (w : Word) (n : Nat) : (s.recordFault c w n).doneIE = s.doneIE := by
  unfold State.recordFault; split <;> rfl
@[simp] theorem State.recordFault_faultIE (s : State) (c : FaultCode) (w : Word) (n : Nat) : (s.recordFault c w n).faultIE = s.faultIE := by
  unfold State.recordFault; split <;> rfl
@[simp] theorem State.recordFault_latch (s : State) (c : FaultCode) (w : Word) (n : Nat) : (s.recordFault c w n).latch = s.latch := by
  unfold State.recordFault; split <;> rfl
@[simp] theorem State.recordFault_arg0 (s : State) (c : FaultCode) (w : Word) (n : Nat) : (s.recordFault c w n).arg0 = s.arg0 := by
  unfold State.recordFault; split <;> rfl
@[simp] theorem State.recordFault_arg1 (s : State) (c : FaultCode) (w : Word) (n : Nat) : (s.recordFault c w n).arg1 = s.arg1 := by
  unfold State.recordFault; split <;> rfl
@[simp] theorem State.recordFault_arg2 (s : State) (c : FaultCode) (w : Word) (n : Nat) : (s.recordFault c w n).arg2 = s.arg2 := by
  unfold State.recordFault; split <;> rfl
@[simp] theorem State.recordFault_res0 (s : State) (c : FaultCode) (w : Word) (n : Nat) : (s.recordFault c w n).res0 = s.res0 := by
  unfold State.recordFault; split <;> rfl
@[simp] theorem State.recordFault_res1 (s : State) (c : FaultCode) (w : Word) (n : Nat) : (s.recordFault c w n).res1 = s.res1 := by
  unfold State.recordFault; split <;> rfl
@[simp] theorem State.recordFault_res2 (s : State) (c : FaultCode) (w : Word) (n : Nat) : (s.recordFault c w n).res2 = s.res2 := by
  unfold State.recordFault; split <;> rfl
@[simp] theorem State.recordFault_cfg (s : State) (c : FaultCode) (w : Word) (n : Nat) : (s.recordFault c w n).cfg = s.cfg := by
  unfold State.recordFault; split <;> rfl
@[simp] theorem State.recordFault_acfg (s : State) (c : FaultCode) (w : Word) (n : Nat) : (s.recordFault c w n).acfg = s.acfg := by
  unfold State.recordFault; split <;> rfl
@[simp] theorem State.recordFault_mem (s : State) (c : FaultCode) (w : Word) (n : Nat) : (s.recordFault c w n).mem = s.mem := by
  unfold State.recordFault; split <;> rfl
@[simp] theorem State.recordFault_rc (s : State) (c : FaultCode) (w : Word) (n : Nat) : (s.recordFault c w n).rc = s.rc := by
  unfold State.recordFault; split <;> rfl
@[simp] theorem State.recordFault_ppm (s : State) (c : FaultCode) (w : Word) (n : Nat) : (s.recordFault c w n).ppm = s.ppm := by
  unfold State.recordFault; split <;> rfl
@[simp] theorem State.recordFault_env (s : State) (c : FaultCode) (w : Word) (n : Nat) : (s.recordFault c w n).env = s.env := by
  unfold State.recordFault; split <;> rfl

@[simp] theorem State.takeFault_busy (s : State) (c : FaultCode) (n : Nat) : (s.takeFault c n).busy = false := rfl
@[simp] theorem State.takeFault_inst (s : State) (c : FaultCode) (n : Nat) : (s.takeFault c n).inst = s.inst := State.recordFault_inst s c s.latch.word n
@[simp] theorem State.takeFault_done (s : State) (c : FaultCode) (n : Nat) : (s.takeFault c n).done = s.done := State.recordFault_done s c s.latch.word n
@[simp] theorem State.takeFault_session (s : State) (c : FaultCode) (n : Nat) : (s.takeFault c n).session = s.session := State.recordFault_session s c s.latch.word n
@[simp] theorem State.takeFault_mode (s : State) (c : FaultCode) (n : Nat) : (s.takeFault c n).mode = s.mode := State.recordFault_mode s c s.latch.word n
@[simp] theorem State.takeFault_rcFinished (s : State) (c : FaultCode) (n : Nat) : (s.takeFault c n).rcFinished = s.rcFinished := State.recordFault_rcFinished s c s.latch.word n
@[simp] theorem State.takeFault_rcDecReady (s : State) (c : FaultCode) (n : Nat) : (s.takeFault c n).rcDecReady = s.rcDecReady := State.recordFault_rcDecReady s c s.latch.word n
@[simp] theorem State.takeFault_doneIE (s : State) (c : FaultCode) (n : Nat) : (s.takeFault c n).doneIE = s.doneIE := State.recordFault_doneIE s c s.latch.word n
@[simp] theorem State.takeFault_faultIE (s : State) (c : FaultCode) (n : Nat) : (s.takeFault c n).faultIE = s.faultIE := State.recordFault_faultIE s c s.latch.word n
@[simp] theorem State.takeFault_latch (s : State) (c : FaultCode) (n : Nat) : (s.takeFault c n).latch = s.latch := State.recordFault_latch s c s.latch.word n
@[simp] theorem State.takeFault_arg0 (s : State) (c : FaultCode) (n : Nat) : (s.takeFault c n).arg0 = s.arg0 := State.recordFault_arg0 s c s.latch.word n
@[simp] theorem State.takeFault_arg1 (s : State) (c : FaultCode) (n : Nat) : (s.takeFault c n).arg1 = s.arg1 := State.recordFault_arg1 s c s.latch.word n
@[simp] theorem State.takeFault_arg2 (s : State) (c : FaultCode) (n : Nat) : (s.takeFault c n).arg2 = s.arg2 := State.recordFault_arg2 s c s.latch.word n
@[simp] theorem State.takeFault_res0 (s : State) (c : FaultCode) (n : Nat) : (s.takeFault c n).res0 = s.res0 := State.recordFault_res0 s c s.latch.word n
@[simp] theorem State.takeFault_res1 (s : State) (c : FaultCode) (n : Nat) : (s.takeFault c n).res1 = s.res1 := State.recordFault_res1 s c s.latch.word n
@[simp] theorem State.takeFault_res2 (s : State) (c : FaultCode) (n : Nat) : (s.takeFault c n).res2 = s.res2 := State.recordFault_res2 s c s.latch.word n
@[simp] theorem State.takeFault_cfg (s : State) (c : FaultCode) (n : Nat) : (s.takeFault c n).cfg = s.cfg := State.recordFault_cfg s c s.latch.word n
@[simp] theorem State.takeFault_acfg (s : State) (c : FaultCode) (n : Nat) : (s.takeFault c n).acfg = s.acfg := State.recordFault_acfg s c s.latch.word n
@[simp] theorem State.takeFault_mem (s : State) (c : FaultCode) (n : Nat) : (s.takeFault c n).mem = s.mem := State.recordFault_mem s c s.latch.word n
@[simp] theorem State.takeFault_rc (s : State) (c : FaultCode) (n : Nat) : (s.takeFault c n).rc = s.rc := State.recordFault_rc s c s.latch.word n
@[simp] theorem State.takeFault_ppm (s : State) (c : FaultCode) (n : Nat) : (s.takeFault c n).ppm = s.ppm := State.recordFault_ppm s c s.latch.word n
@[simp] theorem State.takeFault_env (s : State) (c : FaultCode) (n : Nat) : (s.takeFault c n).env = s.env := State.recordFault_env s c s.latch.word n

/-- Taking a fault when none is recorded: the whole next state (60_exceptions.md R303). -/
theorem State.takeFault_of_none {s : State} (h : s.fault = none) (f : FaultCode) (n : Nat) :
    s.takeFault f n = { s with busy := false, fault := some f, faultCmd := s.latch.word, faultInfo := toWord n } := by
  simp only [State.takeFault, State.recordFault, h]

/-- Taking a fault when one is recorded already ends the command and changes no fault register (60_exceptions.md R303). -/
theorem State.takeFault_of_some {s : State} {g : FaultCode} (h : s.fault = some g) (f : FaultCode) (n : Nat) :
    s.takeFault f n = { s with busy := false } := by
  simp only [State.takeFault, State.recordFault, h]

/-- After taking a fault one is recorded. -/
@[simp] theorem State.takeFault_fault_isSome (s : State) (f : FaultCode) (n : Nat) : (s.takeFault f n).fault.isSome = true := by
  cases h : s.fault with
  | none => rw [State.takeFault_of_none h]; rfl
  | some g => rw [State.takeFault_of_some h]; simp only [h]; rfl

/-! ### `resetNow` -/

@[simp] theorem State.resetNow_eq (s : State) : s.resetNow = State.resetOf s.inst s.env := rfl

end Sys2Proof.Machine
end

