-- ==== Sys2Proof/Laws/Ops.lean ====
section
/-! SUPPORT. What the shared operations of all commands can do: checks, preconditions, and the end of a command (30_encoding.md R107, 60_exceptions.md R303, R305, R307). -/

namespace Sys2Proof.Machine

variable {α β : Type}

@[simp] theorem CmdResult.ok_andThen (a : α) (f : α → CmdResult β) : (CmdResult.ok a).andThen f = f a := rfl
@[simp] theorem CmdResult.raise_andThen (c : FaultCode) (n : Nat) (s : State) (f : α → CmdResult β) :
    (CmdResult.raise c n s : CmdResult α).andThen f = .raise c n s := rfl
@[simp] theorem CmdResult.stuck_andThen (r : Fault) (f : α → CmdResult β) : (CmdResult.stuck r : CmdResult α).andThen f = .stuck r := rfl

/-- How a sequence of two pieces of work ends. -/
theorem CmdResult.andThen_cases (x : CmdResult α) (f : α → CmdResult β) :
    (∃ a, x = .ok a ∧ x.andThen f = f a) ∨ (∃ c n s, x = .raise c n s ∧ x.andThen f = .raise c n s) ∨
    (∃ r, x = .stuck r ∧ x.andThen f = .stuck r) := by
  cases x with
  | ok a => exact .inl ⟨a, rfl, rfl⟩
  | raise c n s => exact .inr (.inl ⟨c, n, s, rfl, rfl⟩)
  | stuck r => exact .inr (.inr ⟨r, rfl, rfl⟩)

theorem CmdResult.andThen_eq_ok {x : CmdResult α} {f : α → CmdResult β} {b : β} :
    x.andThen f = .ok b ↔ ∃ a, x = .ok a ∧ f a = .ok b := by
  cases x <;> simp [CmdResult.andThen]

theorem CmdResult.andThen_eq_raise {x : CmdResult α} {f : α → CmdResult β} {c : FaultCode} {n : Nat} {s : State} :
    x.andThen f = .raise c n s ↔ x = .raise c n s ∨ ∃ a, x = .ok a ∧ f a = .raise c n s := by
  cases x <;> simp [CmdResult.andThen]

theorem CmdResult.andThen_eq_stuck {x : CmdResult α} {f : α → CmdResult β} {r : Fault} :
    x.andThen f = .stuck r ↔ x = .stuck r ∨ ∃ a, x = .ok a ∧ f a = .stuck r := by
  cases x <;> simp [CmdResult.andThen]

/-! ### Checks -/

@[simp] theorem require_true (f : FaultCode) (n : Nat) (s : State) (rest : CmdResult α) : require true f n s rest = rest := rfl
@[simp] theorem require_false (f : FaultCode) (n : Nat) (s : State) (rest : CmdResult α) : require false f n s rest = .raise f n s := rfl

theorem require_pass {p : Prop} [Decidable p] (h : p) (f : FaultCode) (n : Nat) (s : State) (rest : CmdResult α) :
    require (decide p) f n s rest = rest := by rw [decide_eq_true h]; rfl

theorem require_fail {p : Prop} [Decidable p] (h : ¬ p) (f : FaultCode) (n : Nat) (s : State) (rest : CmdResult α) :
    require (decide p) f n s rest = .raise f n s := by rw [decide_eq_false h]; rfl

theorem require_eq_ok {c : Bool} {f : FaultCode} {n : Nat} {s : State} {rest : CmdResult α} {a : α} :
    require c f n s rest = .ok a ↔ c = true ∧ rest = .ok a := by
  cases c <;> simp

theorem require_eq_raise {c : Bool} {f g : FaultCode} {n m : Nat} {s t : State} {rest : CmdResult α} :
    require c f n s rest = .raise g m t ↔ (c = false ∧ f = g ∧ n = m ∧ s = t) ∨ (c = true ∧ rest = .raise g m t) := by
  cases c <;> simp

theorem require_eq_stuck {c : Bool} {f : FaultCode} {n : Nat} {s : State} {rest : CmdResult α} {r : Fault} :
    require c f n s rest = .stuck r ↔ c = true ∧ rest = .stuck r := by
  cases c <;> simp

/-! ### The "needs" of a command -/

/-- What the needs of an opcode demand of the state (30_encoding.md R107). -/
def Needs.met (n : Needs) (s : State) : Prop :=
  match n with
  | .nothing => True
  | .session => s.session = true
  | .encode => s.session = true ∧ s.mode = .encode
  | .decode => s.session = true ∧ s.mode = .decode

theorem withNeeds_eq_ok {o : Opcode} {s : State} {rest : CmdResult α} {a : α} :
    withNeeds o s rest = .ok a ↔ (needsOf o).met s ∧ rest = .ok a := by
  cases h : needsOf o <;> simp [withNeeds, h, requireSession, requireMode, require_eq_ok, Needs.met, and_assoc]

theorem withNeeds_of_met {o : Opcode} {s : State} (h : (needsOf o).met s) (rest : CmdResult α) : withNeeds o s rest = rest := by
  cases hn : needsOf o <;> simp_all [withNeeds, requireSession, requireMode, Needs.met]

/-- Where the needs are not met the command raises NO_SESSION or MODE, with no information and no effect (60_exceptions.md R304, R307). -/
theorem withNeeds_cases (o : Opcode) (s : State) (rest : CmdResult α) :
    ((needsOf o).met s ∧ withNeeds o s rest = rest) ∨
    (¬ (needsOf o).met s ∧ s.session = false ∧ withNeeds o s rest = .raise .noSession 0 s) ∨
    (¬ (needsOf o).met s ∧ s.session = true ∧ withNeeds o s rest = .raise .mode 0 s) := by
  cases h : needsOf o <;> cases hs : s.session <;> cases hm : s.mode <;>
    simp [withNeeds, h, requireSession, requireMode, Needs.met, hs, hm]

theorem withNeeds_eq_raise {o : Opcode} {s t : State} {rest : CmdResult α} {f : FaultCode} {n : Nat}
    (h : withNeeds o s rest = .raise f n t) :
    (t = s ∧ n = 0 ∧ (f = .noSession ∨ f = .mode)) ∨ ((needsOf o).met s ∧ rest = .raise f n t) := by
  rcases withNeeds_cases o s rest with ⟨hm, he⟩ | ⟨_, _, he⟩ | ⟨_, _, he⟩
  · exact .inr ⟨hm, he ▸ h⟩
  · rw [he] at h; cases h; exact .inl ⟨rfl, rfl, .inl rfl⟩
  · rw [he] at h; cases h; exact .inl ⟨rfl, rfl, .inr rfl⟩

/-! ### The end of a command -/

/-- The table of R301 lists each fault code with its number, and with no other (60_exceptions.md R301). -/
theorem mem_faultCodes {f : FaultCode} {n : Nat} : (f, n) ∈ faultCodes ↔ f.code = n := by
  cases f <;> simp [faultCodes, FaultCode.code, eq_comm]

/-- The register map the decoder of offsets uses is the table of 10_state.md, section 2. -/
theorem registerOffsets_eq : registerOffsets = regMap := rfl

@[simp] theorem finish_ok (s : State) : finish (.ok s) = .next s.complete := rfl
@[simp] theorem finish_raise (f : FaultCode) (n : Nat) (s : State) : finish (.raise f n s) = .next (s.takeFault f n) := rfl
@[simp] theorem finish_stuck (r : Fault) : finish (.stuck r) = .fault r := rfl

/-- Everything the end of a command can do, where it answers a next state. -/
theorem finish_eq_next {x : CmdResult State} {t : State} :
    finish x = .next t ↔ (∃ s, x = .ok s ∧ t = s.complete) ∨ (∃ f n s, x = .raise f n s ∧ t = s.takeFault f n) := by
  cases x <;> simp [finish, eq_comm]

theorem finish_ne_refused (x : CmdResult State) (r : Refusal) : finish x ≠ .refused r := by
  cases x <;> simp [finish]

theorem finish_eq_fault {x : CmdResult State} {r : Fault} : finish x = .fault r ↔ x = .stuck r := by
  cases x <;> simp [finish]

/-- A command that passes its needs ends as its work does. -/
theorem finish_withNeeds {o : Opcode} {s : State} (h : (needsOf o).met s) (x : CmdResult State) :
    finish (withNeeds o s x) = finish x := by rw [withNeeds_of_met h]

/-- Every command's end clears BUSY (10_state.md R25). -/
theorem finish_busy {x : CmdResult State} {t : State} (h : finish x = .next t) : t.busy = false := by
  rcases finish_eq_next.mp h with ⟨s, _, rfl⟩ | ⟨f, n, s, _, rfl⟩ <;> rfl

end Sys2Proof.Machine
end

