-- ==== Sys2Proof/Laws/Coder.lean ====
section
/-! SUPPORT. Laws of the range coder's operations: the parameters' powers of two, scaling, renormalization, byte strings as naturals, the carry, and what an encode or decode step can do (43_range_coder.md R201 to R211). -/

namespace Sys2Proof

/-! ### The powers of two of an instance -/

theorem Params.bits_ge (p : Params) : 24 ≤ p.bits := by
  have := p.nBytes_legal.1
  simp only [Params.bits]; omega

theorem Params.modulus_pos (p : Params) : 0 < p.modulus := Nat.two_pow_pos _

/-- 2^B = 2^(B-8) * 2^8. -/
theorem Params.modulus_eq (p : Params) : p.modulus = 2 ^ (p.bits - 8) * 2 ^ 8 := by
  have := p.bits_ge
  rw [Params.modulus, ← Nat.pow_add]
  congr 1; omega

/-- 2^B = TOTAL_MAX * 2^16. -/
theorem Params.modulus_eq_totalMax (p : Params) : p.modulus = p.totalMax * 2 ^ 16 := by
  have := p.bits_ge
  rw [Params.modulus, Params.totalMax, ← Nat.pow_add]
  congr 1; omega

theorem Params.floor_succ (p : Params) : p.floor + 1 = 2 ^ (p.bits - 8) := by
  have := Nat.two_pow_pos (p.bits - 8)
  simp only [Params.floor]; omega

theorem Params.floor_pos (p : Params) : 0 < p.floor := by
  have h : 2 ^ 1 ≤ 2 ^ (p.bits - 8) := Nat.pow_le_pow_right (by decide) (by have := p.bits_ge; omega)
  have := p.floor_succ
  omega

end Sys2Proof

namespace Sys2Proof.Machine

/-! ### Scaling -/

@[simp] theorem scaled_zero (p : Params) (range total : Nat) : scaled p range 0 total = 0 := by
  simp [scaled, idiv, mulhi]

theorem scaled_mono (p : Params) (range total : Nat) {x y : Nat} (h : x ≤ y) : scaled p range x total ≤ scaled p range y total :=
  Nat.div_le_div_right (Nat.mul_le_mul_left _ (Nat.div_le_div_right (Nat.mul_le_mul_right _ h)))

/-- Two scaled pieces fit in the scaled sum: floor(x) + floor(y) <= floor(x + y), twice (43_range_coder.md R205). -/
theorem scaled_add_le (p : Params) (range total x y : Nat) :
    scaled p range x total + scaled p range y total ≤ scaled p range (x + y) total := by
  have h1 : idiv p x total + idiv p y total ≤ idiv p (x + y) total := by
    simp only [idiv, Nat.add_mul]; exact Nat.div_add_div_le_add_div
  calc scaled p range x total + scaled p range y total
      ≤ (range * idiv p x total + range * idiv p y total) / p.modulus := Nat.div_add_div_le_add_div
    _ ≤ scaled p range (x + y) total := by
      rw [← Nat.mul_add]
      exact Nat.div_le_div_right (Nat.mul_le_mul_left _ h1)

/-- The whole alphabet scales to the whole range. -/
theorem scaled_total (p : Params) (range : Nat) {total : Nat} (h : 1 ≤ total) : scaled p range total total = range := by
  rw [scaled, idiv, mulhi, Nat.mul_div_cancel_left _ h, Nat.mul_div_cancel _ p.modulus_pos]

/-! ### Renormalization -/

/-- What the least shift is (43_range_coder.md R207). -/
theorem leastShift_eq_some {floor n r e : Nat} :
    leastShift floor n r = some e ↔ e ≤ n ∧ floor ≤ r * 2 ^ (8 * e) ∧ ∀ e' < e, r * 2 ^ (8 * e') < floor := by
  induction n generalizing r e with
  | zero =>
    unfold leastShift
    split
    · next h =>
      refine ⟨fun he => ?_, fun he => ?_⟩
      · cases he; exact ⟨le_refl _, by simpa using h, by simp⟩
      · rw [Nat.le_zero.mp he.1]
    · next h =>
      refine ⟨fun he => (nomatch he), fun he => ?_⟩
      obtain rfl := Nat.le_zero.mp he.1
      exact absurd (by simpa using he.2.1) h
  | succ k ih =>
    unfold leastShift
    split
    · next h =>
      refine ⟨fun he => ?_, fun ⟨_, _, hmin⟩ => ?_⟩
      · cases he; exact ⟨by omega, by simpa using h, by simp⟩
      · rcases Nat.eq_zero_or_pos e with rfl | hpos
        · rfl
        · have := hmin 0 hpos; simp at this; omega
    · next h =>
      have hpow : ∀ j, r * 2 ^ 8 * 2 ^ (8 * j) = r * 2 ^ (8 * (j + 1)) := fun j => by
        rw [Nat.mul_assoc, ← Nat.pow_add]; congr 2; omega
      simp only [Option.map_eq_some_iff, ih, hpow]
      constructor
      · rintro ⟨j, ⟨hj, hle, hmin⟩, rfl⟩
        refine ⟨by omega, hle, fun e' he' => ?_⟩
        rcases e' with _ | e''
        · simpa using (by omega : r < floor)
        · exact hmin e'' (by omega)
      · rintro ⟨he, hle, hmin⟩
        rcases e with _ | e
        · exact absurd (by simpa using hle) h
        · exact ⟨e, ⟨by omega, hle, fun e' he' => hmin (e' + 1) (by omega)⟩, rfl⟩

/-- The least shift exists if some shift within the bound reaches the floor. -/
theorem leastShift_isSome {floor n r e : Nat} (he : e ≤ n) (h : floor ≤ r * 2 ^ (8 * e)) : (leastShift floor n r).isSome = true := by
  induction n generalizing r e with
  | zero =>
    obtain rfl := Nat.le_zero.mp he
    unfold leastShift
    rw [if_pos (by simpa using h)]; rfl
  | succ k ih =>
    unfold leastShift
    split
    · rfl
    · next hr =>
      rcases e with _ | e
      · exact absurd (by simpa using h) hr
      · rw [Option.isSome_map]
        refine ih (e := e) (by omega) ?_
        rw [Nat.mul_assoc, ← Nat.pow_add]
        convert h using 3; omega

/-! ### Byte strings as naturals -/

@[simp] theorem bigEndian_nil : bigEndian [] = 0 := rfl

theorem foldl_bytes (l : List Byte) (a : Nat) :
    l.foldl (fun acc b => acc * 2 ^ 8 + b.toNat) a = a * 2 ^ (8 * l.length) + bigEndian l := by
  induction l generalizing a with
  | nil => simp [bigEndian]
  | cons b bs ih =>
    have h0 : bigEndian (b :: bs) = b.toNat * 2 ^ (8 * bs.length) + bigEndian bs := by
      have := ih (0 * 2 ^ 8 + b.toNat)
      simpa [bigEndian] using this
    rw [List.foldl_cons, ih, h0, List.length_cons, Nat.add_mul, Nat.mul_assoc, ← Nat.pow_add, Nat.add_assoc]
    congr 3; omega

theorem bigEndian_cons (b : Byte) (bs : List Byte) : bigEndian (b :: bs) = b.toNat * 2 ^ (8 * bs.length) + bigEndian bs := by
  have := foldl_bytes bs (0 * 2 ^ 8 + b.toNat)
  simpa [bigEndian] using this

theorem bigEndian_append (a b : List Byte) : bigEndian (a ++ b) = bigEndian a * 2 ^ (8 * b.length) + bigEndian b := by
  have := foldl_bytes b (bigEndian a)
  simpa [bigEndian, List.foldl_append] using this

theorem bigEndian_lt (l : List Byte) : bigEndian l < 2 ^ (8 * l.length) := by
  induction l with
  | nil => simp
  | cons b bs ih =>
    rw [bigEndian_cons, List.length_cons]
    have hb : b.toNat + 1 ≤ 2 ^ 8 := b.isLt
    calc b.toNat * 2 ^ (8 * bs.length) + bigEndian bs
        < b.toNat * 2 ^ (8 * bs.length) + 2 ^ (8 * bs.length) := by omega
      _ = (b.toNat + 1) * 2 ^ (8 * bs.length) := by ring
      _ ≤ 2 ^ 8 * 2 ^ (8 * bs.length) := Nat.mul_le_mul_right _ hb
      _ = 2 ^ (8 * (bs.length + 1)) := by rw [← Nat.pow_add]; congr 1; omega

theorem bigEndian_zeros (n : Nat) : bigEndian (List.replicate n 0x00#8) = 0 := by
  induction n with
  | zero => rfl
  | succ n ih => rw [List.replicate_succ, bigEndian_cons, ih]; simp

/-- What the carry does to the bytes: it adds 1 to their value; it fails only where every byte is 0xFF (43_range_coder.md R203). -/
theorem carryInto_spec (l : List Byte) :
    match carryInto l with
    | some l' => l'.length = l.length ∧ bigEndian l' = bigEndian l + 1
    | none => bigEndian l + 1 = 2 ^ (8 * l.length) := by
  induction l with
  | nil => simp [carryInto]
  | cons b rest ih =>
    unfold carryInto
    cases hr : carryInto rest with
    | some rest' =>
      rw [hr] at ih
      obtain ⟨hl, hv⟩ := ih
      refine ⟨by simp [hl], ?_⟩
      rw [bigEndian_cons, bigEndian_cons, hl, hv]; omega
    | none =>
      rw [hr] at ih
      have ih : bigEndian rest + 1 = 2 ^ (8 * rest.length) := ih
      by_cases hb : b = 0xFF#8
      · rw [if_pos hb]
        show bigEndian (b :: rest) + 1 = 2 ^ (8 * (rest.length + 1))
        rw [bigEndian_cons, Nat.add_assoc, ih, hb, Nat.mul_add, Nat.pow_add]
        simp only [BitVec.toNat_ofNat]
        omega
      · rw [if_neg hb]
        refine ⟨by simp, ?_⟩
        have hlt : b.toNat + 1 < 2 ^ 8 := by
          have h1 := b.isLt
          have h2 : b.toNat ≠ 255 := fun h => hb (BitVec.eq_of_toNat_eq h)
          omega
        rw [bigEndian_cons, bigEndian_cons, bigEndian_zeros, BitVec.toNat_add, List.length_replicate, Nat.add_assoc, ih]
        simp only [BitVec.toNat_ofNat]
        rw [Nat.mod_eq_of_lt (by omega : (b.toNat + 1 % 2 ^ 8) < 2 ^ 8)]
        ring

/-- Everything add_carry can do: it adds v to the code value, and changes only low and bytes already in OBUF; it fails only where the sum would not fit the bytes emitted (43_range_coder.md R203). -/
theorem addCarry_spec (s : State) (v : Nat) (hlow : s.rc.low < s.inst.modulus) (hv : v < s.inst.modulus) :
    match addCarry s v with
    | some s' =>
      s' = { s with mem := { s.mem with obuf := s'.mem.obuf }, rc := { s.rc with low := (s.rc.low + v) % s.inst.modulus } } ∧
      s'.mem.obuf.length = s.mem.obuf.length ∧ codeValue s' = codeValue s + v
    | none => 2 ^ (8 * s.mem.obuf.length) * s.inst.modulus ≤ codeValue s + v := by
  unfold addCarry
  simp only
  by_cases hs : s.rc.low + v < s.inst.modulus
  · rw [if_pos hs]
    refine ⟨by rw [Nat.mod_eq_of_lt hs], rfl, ?_⟩
    simp only [codeValue]; omega
  · rw [if_neg hs]
    have hmod : (s.rc.low + v) % s.inst.modulus = s.rc.low + v - s.inst.modulus := by
      rw [Nat.mod_eq_sub_mod (by omega), Nat.mod_eq_of_lt (by omega)]
    have hc := carryInto_spec s.mem.obuf
    cases ho : carryInto s.mem.obuf with
    | some obuf =>
      rw [ho] at hc
      refine ⟨rfl, hc.1, ?_⟩
      show bigEndian obuf * s.inst.modulus + (s.rc.low + v) % s.inst.modulus = _
      rw [hc.2, hmod, codeValue, Nat.add_mul]; omega
    | none =>
      rw [ho] at hc
      have hc : bigEndian s.mem.obuf + 1 = 2 ^ (8 * s.mem.obuf.length) := hc
      show 2 ^ (8 * s.mem.obuf.length) * s.inst.modulus ≤ codeValue s + v
      rw [← hc, codeValue, Nat.add_mul]; omega

/-! ### Emitting and taking bytes -/

/-- One emitted byte scales the code value by 2^8 (43_range_coder.md R206). -/
theorem codeValue_emitByte (s : State) (hlow : s.rc.low < s.inst.modulus) : codeValue (emitByte s) = codeValue s * 2 ^ 8 := by
  have hm := s.inst.modulus_eq
  have htop : s.rc.low / 2 ^ (s.inst.bits - 8) < 2 ^ 8 := by
    rw [Nat.div_lt_iff_lt_mul (Nat.two_pow_pos _), Nat.mul_comm, ← hm]; exact hlow
  have hbyte : (topByte s.inst s.rc.low).toNat = s.rc.low / 2 ^ (s.inst.bits - 8) := by
    rw [topByte, BitVec.toNat_ofNat, Nat.mod_eq_of_lt htop]
  have hsplit : s.rc.low * 2 ^ 8 = s.rc.low / 2 ^ (s.inst.bits - 8) * s.inst.modulus + s.rc.low * 2 ^ 8 % s.inst.modulus := by
    have h := Nat.div_add_mod (s.rc.low * 2 ^ 8) s.inst.modulus
    have hd : s.rc.low * 2 ^ 8 / s.inst.modulus = s.rc.low / 2 ^ (s.inst.bits - 8) := by
      rw [hm, Nat.mul_div_mul_right _ _ (by decide)]
    rw [hd] at h
    rw [Nat.mul_comm (s.rc.low / _)]; exact h.symm
  simp only [codeValue, emitByte_mem, emitByte_rc, emitByte_inst, bigEndian_append, bigEndian_cons, bigEndian_nil, hbyte, List.length_cons,
    List.length_nil]
  have h := congrArg (bigEndian s.mem.obuf * s.inst.modulus * 2 ^ 8 + ·) hsplit
  rw [Nat.add_mul (bigEndian s.mem.obuf * s.inst.modulus), h]
  ring

/-- Everything e emitted bytes do (43_range_coder.md R204, R206, R207). -/
theorem emitBytes_spec (e : Nat) (s : State) (hlow : s.rc.low < s.inst.modulus) :
    let t := emitBytes e s
    t = { s with mem := { s.mem with obuf := t.mem.obuf }, rc := { s.rc with low := t.rc.low, range := s.rc.range * 2 ^ (8 * e) } } ∧
    t.mem.obuf.length = s.mem.obuf.length + e ∧ t.rc.low < s.inst.modulus ∧ codeValue t = codeValue s * 2 ^ (8 * e) := by
  induction e generalizing s with
  | zero => exact ⟨by simp [emitBytes], rfl, hlow, by simp [emitBytes]⟩
  | succ e ih =>
    have hlow' : (emitByte s).rc.low < (emitByte s).inst.modulus := Nat.mod_lt _ s.inst.modulus_pos
    obtain ⟨heq, hlen, hl, hv⟩ := ih (emitByte s) hlow'
    have hpow : (2 : Nat) ^ 8 * 2 ^ (8 * e) = 2 ^ (8 * (e + 1)) := by rw [← Nat.pow_add]; congr 1; omega
    simp only [emitBytes]
    refine ⟨?_, ?_, hl, ?_⟩
    · rw [heq]
      simp only [emitByte, Nat.mul_assoc, hpow]
    · rw [hlen]; simp; omega
    · rw [hv, codeValue_emitByte s hlow, Nat.mul_assoc, hpow]

/-- Everything e taken bytes do to the fields outside the coder (43_range_coder.md R211). -/
theorem takeBytes_frame (e : Nat) (s : State) :
    let t := takeBytes e s
    t = { s with rc := t.rc } ∧ t.rc.inPtr = s.rc.inPtr + e ∧ t.rc.range = s.rc.range * 2 ^ (8 * e) := by
  induction e generalizing s with
  | zero => exact ⟨rfl, rfl, by simp [takeBytes]⟩
  | succ e ih =>
    obtain ⟨heq, hp, hr⟩ := ih (takeByte s)
    have hpow : (2 : Nat) ^ 8 * 2 ^ (8 * e) = 2 ^ (8 * (e + 1)) := by rw [← Nat.pow_add]; congr 1; omega
    simp only [takeBytes]
    refine ⟨?_, ?_, ?_⟩
    · exact heq.trans rfl
    · rw [hp]; simp only [takeByte]; omega
    · rw [hr]; simp only [takeByte, Nat.mul_assoc, hpow]

/-! ### The steps -/

/-- The checks of a triple pass exactly on the legal ones (43_range_coder.md R201). -/
theorem requireTriple_of_legal {α : Type} {t : Triple} {s : State} (h : t.legal s.inst) (rest : CmdResult α) : requireTriple t s rest = rest := by
  obtain ⟨h1, h2, h3, h4⟩ := h
  simp only [requireTriple]
  rw [require_pass ⟨h1, h2⟩, require_pass h3, require_pass h4]

theorem requireTriple_eq_ok {α : Type} {t : Triple} {s : State} {rest : CmdResult α} {a : α} :
    requireTriple t s rest = .ok a ↔ t.legal s.inst ∧ rest = .ok a := by
  simp only [requireTriple, require_eq_ok, decide_eq_true_eq, Triple.legal, and_assoc]

/-- Everything an encode step can do where it goes on (43_range_coder.md R207, R208). -/
theorem encStep_eq_ok {t : Triple} {s s' : State} (h : encStep t s = .ok s') :
    t.legal s.inst ∧
    ((t.freq = t.total ∧ s' = s) ∨
     (t.freq ≠ t.total ∧ ∃ e s1, renormCount s.inst (scaled s.inst s.rc.range t.freq t.total) = some e ∧
       addCarry s (scaled s.inst s.rc.range t.cum t.total) = some s1 ∧ s.mem.obuf.length + e ≤ s.inst.obufCap ∧
       s' = emitBytes e { s1 with rc := { s1.rc with range := scaled s.inst s.rc.range t.freq t.total } })) := by
  obtain ⟨hl, h⟩ := requireTriple_eq_ok.mp h
  refine ⟨hl, ?_⟩
  split at h
  · next hf => cases h; exact .inl ⟨hf, rfl⟩
  · next hf =>
    refine .inr ⟨hf, ?_⟩
    simp only at h
    split at h
    · cases h
    · next e he =>
      split at h
      · cases h
      · next s1 hs1 =>
        obtain ⟨hc, h⟩ := require_eq_ok.mp h
        cases h
        exact ⟨e, s1, he, hs1, by simpa using hc, rfl⟩

/-- Everything a decode step can do where it goes on (43_range_coder.md R208, R211). -/
theorem decStep_eq_ok {t : Triple} {s s' : State} (h : decStep t s = .ok s') :
    t.legal s.inst ∧
    ((t.freq = t.total ∧ s' = s) ∨
     (t.freq ≠ t.total ∧ scaled s.inst s.rc.range t.cum t.total ≤ windowPos s ∧
       windowPos s < scaled s.inst s.rc.range t.cum t.total + scaled s.inst s.rc.range t.freq t.total ∧
       ∃ e, renormCount s.inst (scaled s.inst s.rc.range t.freq t.total) = some e ∧ s.rc.inPtr + e ≤ s.mem.ibuf.length ∧
       s' = takeBytes e { s with rc := { s.rc with
         low := (s.rc.low + scaled s.inst s.rc.range t.cum t.total) % s.inst.modulus
         range := scaled s.inst s.rc.range t.freq t.total } })) := by
  obtain ⟨hl, h⟩ := requireTriple_eq_ok.mp h
  refine ⟨hl, ?_⟩
  split at h
  · next hf => cases h; exact .inl ⟨hf, rfl⟩
  · next hf =>
    refine .inr ⟨hf, ?_⟩
    simp only at h
    obtain ⟨hw, h⟩ := require_eq_ok.mp h
    have hw := of_decide_eq_true hw
    split at h
    · cases h
    · next e he =>
      obtain ⟨hc, h⟩ := require_eq_ok.mp h
      cases h
      exact ⟨hw.1, hw.2, e, he, by simpa using hc, rfl⟩

/-- A step that raises a fault changes nothing (43_range_coder.md R207). -/
theorem encStep_raise {t : Triple} {s s' : State} {f : FaultCode} {n : Nat} (h : encStep t s = .raise f n s') :
    s' = s ∧ f ∈ [FaultCode.rcBadTriple, .carryOverflow, .rcOutFull] := by
  simp only [encStep, requireTriple, require_eq_raise] at h
  rcases h with ⟨_, rfl, _, rfl⟩ | ⟨_, ⟨_, rfl, _, rfl⟩ | ⟨_, ⟨_, rfl, _, rfl⟩ | ⟨_, h⟩⟩⟩
  · simp
  · simp
  · simp
  · split at h
    · cases h
    · split at h
      · cases h
      · split at h
        · cases h; simp
        · rcases require_eq_raise.mp h with ⟨_, rfl, _, rfl⟩ | ⟨_, h⟩
          · simp
          · cases h

/-- A step that raises a fault changes nothing (43_range_coder.md R211). -/
theorem decStep_raise {t : Triple} {s s' : State} {f : FaultCode} {n : Nat} (h : decStep t s = .raise f n s') :
    s' = s ∧ f ∈ [FaultCode.rcBadTriple, .rcDesync, .rcInUnderrun] := by
  simp only [decStep, requireTriple, require_eq_raise] at h
  rcases h with ⟨_, rfl, _, rfl⟩ | ⟨_, ⟨_, rfl, _, rfl⟩ | ⟨_, ⟨_, rfl, _, rfl⟩ | ⟨_, h⟩⟩⟩
  · simp
  · simp
  · simp
  · split at h
    · cases h
    · rcases require_eq_raise.mp h with ⟨_, rfl, _, rfl⟩ | ⟨_, h⟩
      · simp
      · split at h
        · cases h
        · rcases require_eq_raise.mp h with ⟨_, rfl, _, rfl⟩ | ⟨_, h⟩
          · simp
          · cases h

/-! ### The fetch -/

/-- The binary descent finds the largest x at or above its start, below start + 2^n and below T, whose scaled value is at most v (43_range_coder.md R211). -/
theorem fetchBits_spec (p : Params) (range total v n x : Nat) (hx : x < total) (hv : scaled p range x total ≤ v) :
    let y := fetchBits p range total v n x
    x ≤ y ∧ y < total ∧ scaled p range y total ≤ v ∧ ∀ z, y < z → z < x + 2 ^ n → z < total → v < scaled p range z total := by
  induction n generalizing x with
  | zero =>
    refine ⟨le_refl _, hx, hv, fun z hz hz' _ => ?_⟩
    simp [fetchBits] at hz hz'; omega
  | succ k ih =>
    unfold fetchBits
    simp only
    split
    · next h =>
      obtain ⟨h1, h2, h3, h4⟩ := ih (x + 2 ^ k) h.1 h.2
      exact ⟨Nat.le_trans (Nat.le_add_right _ _) h1, h2, h3, fun z hz hz' => h4 z hz (by rw [Nat.pow_succ] at hz'; omega)⟩
    · next h =>
      obtain ⟨h1, h2, h3, h4⟩ := ih x hx hv
      refine ⟨h1, h2, h3, fun z hz hz' hzt => ?_⟩
      by_cases hzk : z < x + 2 ^ k
      · exact h4 z hz hzk hzt
      · have hlt : v < scaled p range (x + 2 ^ k) total := by
          by_contra hcon
          exact h ⟨by omega, by omega⟩
        exact lt_of_lt_of_le hlt (scaled_mono p range total (by omega))

end Sys2Proof.Machine
end

