-- ==== Sys2Proof/Laws/Matcher.lean ====
section
/-! SUPPORT. Laws of the matcher's operations: common runs, the candidates, and the largest of a list (41_matcher.md R141). -/

namespace Sys2Proof.Machine

/-! ### The largest element -/

theorem foldl_max (l : List Nat) (a : Nat) : l.foldl max a = max a (maxOf l) := by
  induction l generalizing a with
  | nil => simp [maxOf]
  | cons x xs ih =>
    have h0 : maxOf (x :: xs) = max x (maxOf xs) := by
      have := ih (max 0 x)
      simpa [maxOf] using this
    rw [List.foldl_cons, ih, h0, max_assoc]

@[simp] theorem maxOf_nil : maxOf [] = 0 := rfl
@[simp] theorem maxOf_cons (x : Nat) (xs : List Nat) : maxOf (x :: xs) = max x (maxOf xs) := by
  have := foldl_max xs (max 0 x)
  simpa [maxOf] using this

theorem le_maxOf {l : List Nat} {x : Nat} (h : x ∈ l) : x ≤ maxOf l := by
  induction l with
  | nil => cases h
  | cons y ys ih =>
    rw [maxOf_cons]
    rcases List.mem_cons.mp h with rfl | h
    · exact le_max_left _ _
    · exact (ih h).trans (le_max_right _ _)

theorem maxOf_mem {l : List Nat} (h : l ≠ []) : maxOf l ∈ l := by
  induction l with
  | nil => exact absurd rfl h
  | cons y ys ih =>
    rw [maxOf_cons]
    by_cases hy : ys = []
    · subst hy; simp
    · rcases le_total y (maxOf ys) with hle | hle
      · rw [max_eq_right hle]; exact List.mem_cons_of_mem _ (ih hy)
      · rw [max_eq_left hle]; exact List.mem_cons_self

/-! ### Common runs -/

theorem mem_candidates {w j s : Nat} : s ∈ candidates w j ↔ j - w ≤ s ∧ s < j := by
  simp [candidates, matchLo, and_comm]

/-- The common run of two lists: it is common, and no longer run is. -/
theorem commonLen_spec (a b : List Half) :
    commonLen a b ≤ b.length ∧ commonLen a b ≤ a.length ∧ (∀ t < commonLen a b, readAt a t = readAt b t) ∧
    (commonLen a b < a.length → commonLen a b < b.length → readAt a (commonLen a b) ≠ readAt b (commonLen a b)) := by
  induction a generalizing b with
  | nil => simp [commonLen]
  | cons x xs ih =>
    cases b with
    | nil => simp [commonLen]
    | cons y ys =>
      unfold commonLen
      split
      · next h =>
        obtain ⟨h1, h2, h3, h4⟩ := ih ys
        refine ⟨by simpa using h1, by simpa using h2, fun t ht => ?_, fun ha hb => ?_⟩
        · rcases t with _ | t
          · simpa [readAt] using h
          · simpa [readAt] using h3 t (by omega)
        · simpa [readAt] using h4 (by simpa using ha) (by simpa using hb)
      · next h => exact ⟨by simp, by simp, by simp, fun _ _ => by simpa [readAt] using h⟩

theorem readAt_drop {n : Nat} (l : List (BitVec n)) (s t : Nat) : readAt (l.drop s) t = readAt l (s + t) := by
  simp [readAt, List.getD_eq_getElem?_getD, List.getElem?_drop]

/-- `lcp` is the longest common run from s and from j that the data pushed so far bounds, for a source before j (41_matcher.md R141). -/
theorem lcp_isLcp {seq : List Half} {s j : Nat} (h : s < j) : isLcp seq s j (lcp seq s j) := by
  obtain ⟨h1, h2, h3, h4⟩ := commonLen_spec (seq.drop s) (seq.drop j)
  simp only [readAt_drop, List.length_drop] at h1 h2 h3 h4
  exact ⟨h1, h3, fun hl => h4 (by unfold lcp at hl; omega) hl⟩

/-- There is one longest common run. -/
theorem isLcp_unique {seq : List Half} {s j l l' : Nat} (h : isLcp seq s j l) (h' : isLcp seq s j l') : l = l' := by
  rcases Nat.lt_trichotomy l l' with hl | hl | hl
  · exact absurd (h'.2.1 l hl) (h.2.2 (by have := h'.1; omega))
  · exact hl
  · exact absurd (h.2.1 l' hl) (h'.2.2 (by have := h.1; omega))

end Sys2Proof.Machine
end

