-- ==== Sys2Proof/Laws/Store.lean ====
section
/-! SUPPORT. Laws of the sparse maps and of memory: read after write, and every memory operation keeps the canonical form (20_memory.md R70, R71). -/

namespace Sys2Proof.Machine

/-- What the key order of a store must be: a strict total order. -/
structure StrictTotal {κ : Type} (lt : κ → κ → Bool) : Prop where
  irrefl : ∀ a, lt a a = false
  trans : ∀ a b c, lt a b = true → lt b c = true → lt a c = true
  total : ∀ a b, a ≠ b → lt a b = false → lt b a = true

theorem natLt_strictTotal : StrictTotal natLt where
  irrefl a := by simp [natLt]
  trans a b c := by simp only [natLt, decide_eq_true_eq]; omega
  total a b := by simp only [natLt, decide_eq_true_eq, decide_eq_false_iff_not]; omega

theorem lexLt_irrefl (a : List Nat) : lexLt a a = false := by
  induction a with
  | nil => rfl
  | cons x xs ih => simp [lexLt, ih]

theorem lexLt_trans (a b c : List Nat) (hab : lexLt a b = true) (hbc : lexLt b c = true) : lexLt a c = true := by
  induction a generalizing b c with
  | nil =>
    cases c with
    | nil => cases b <;> simp [lexLt] at hbc
    | cons z zs => rfl
  | cons x xs ih =>
    cases b with
    | nil => simp [lexLt] at hab
    | cons y ys =>
      cases c with
      | nil => simp [lexLt] at hbc
      | cons z zs =>
        simp only [lexLt, Bool.or_eq_true, Bool.and_eq_true, decide_eq_true_eq] at hab hbc ⊢
        rcases hab with h | ⟨rfl, h⟩ <;> rcases hbc with h' | ⟨rfl, h'⟩
        · exact .inl (by omega)
        · exact .inl h
        · exact .inl h'
        · exact .inr ⟨rfl, ih ys zs h h'⟩

theorem lexLt_total (a b : List Nat) (hne : a ≠ b) (h : lexLt a b = false) : lexLt b a = true := by
  induction a generalizing b with
  | nil =>
    cases b with
    | nil => exact absurd rfl hne
    | cons y ys => simp [lexLt] at h
  | cons x xs ih =>
    cases b with
    | nil => rfl
    | cons y ys =>
      simp only [lexLt, Bool.or_eq_false_iff, Bool.and_eq_false_iff, decide_eq_false_iff_not] at h
      simp only [lexLt, Bool.or_eq_true, Bool.and_eq_true, decide_eq_true_eq]
      rcases Nat.lt_trichotomy x y with hxy | rfl | hxy
      · exact absurd hxy h.1
      · exact .inr ⟨rfl, ih ys (fun he => hne (by rw [he])) (h.2.resolve_left (fun hn => hn rfl))⟩
      · exact .inl hxy

theorem keyLt_strictTotal : StrictTotal keyLt where
  irrefl a := by simp [keyLt, lexLt_irrefl]
  trans a b c hab hbc := by
    simp only [keyLt, Bool.or_eq_true, Bool.and_eq_true, decide_eq_true_eq] at hab hbc ⊢
    rcases hab with h | ⟨e, h⟩ <;> rcases hbc with h' | ⟨e', h'⟩
    · exact .inl (by omega)
    · exact .inl (by omega)
    · exact .inl (by omega)
    · exact .inr ⟨by omega, lexLt_trans a b c h h'⟩
  total a b hne h := by
    simp only [keyLt, Bool.or_eq_false_iff, Bool.and_eq_false_iff, decide_eq_false_iff_not] at h
    simp only [keyLt, Bool.or_eq_true, Bool.and_eq_true, decide_eq_true_eq]
    rcases Nat.lt_trichotomy a.length b.length with hl | hl | hl
    · exact absurd hl h.1
    · exact .inr ⟨hl.symm, lexLt_total a b hne (h.2.resolve_left (fun hn => hn hl))⟩
    · exact .inl hl

namespace Store

variable {κ α : Type} [DecidableEq κ] [DecidableEq α] {lt : κ → κ → Bool} {t : Store κ α} {d : α}

omit [DecidableEq α] in
@[simp] theorem get_nil (d : α) (k : κ) : Store.get ([] : Store κ α) d k = d := rfl

omit [DecidableEq α] in
theorem get_cons (k' : κ) (v : α) (rest : Store κ α) (d : α) (k : κ) :
    Store.get ((k', v) :: rest) d k = if k' = k then v else Store.get rest d k := rfl

omit [DecidableEq κ] in
theorem wf_cons (k : κ) (v : α) (rest : Store κ α) :
    Store.wf lt ((k, v) :: rest) d = true ↔ v ≠ d ∧ (∀ e ∈ rest, lt k e.1 = true) ∧ Store.wf lt rest d = true := by
  simp [Store.wf, and_assoc]

omit [DecidableEq α] in
/-- A key below every listed key reads the default. -/
theorem get_eq_default (h : StrictTotal lt) (k : κ) (hk : ∀ e ∈ t, lt k e.1 = true) : Store.get t d k = d := by
  induction t with
  | nil => rfl
  | cons e rest ih =>
    have hne : e.1 ≠ k := fun he => by
      have hl := hk e List.mem_cons_self
      rw [he, h.irrefl] at hl
      exact Bool.noConfusion hl
    rw [get_cons, if_neg hne]
    exact ih (fun e' he' => hk e' (List.mem_cons_of_mem _ he'))

/-- The keys of a store after a write: the old ones and the written one. -/
theorem mem_put {k : κ} {v : α} {e : κ × α} (he : e ∈ Store.put lt t d k v) : e ∈ t ∨ e = (k, v) := by
  induction t with
  | nil =>
    simp only [Store.put] at he
    split at he <;> simp_all
  | cons e' rest ih =>
    obtain ⟨k', v'⟩ := e'
    simp only [Store.put] at he
    split at he
    · split at he
      · exact .inl (List.mem_cons_of_mem _ he)
      · rcases List.mem_cons.mp he with h | h
        · exact .inr h
        · exact .inl (List.mem_cons_of_mem _ h)
    · split at he
      · split at he
        · exact .inl he
        · rcases List.mem_cons.mp he with h | h
          · exact .inr h
          · exact .inl h
      · rcases List.mem_cons.mp he with h | h
        · exact .inl (h ▸ List.mem_cons_self)
        · rcases ih h with h | h
          · exact .inl (List.mem_cons_of_mem _ h)
          · exact .inr h

/-- A write keeps the canonical form. -/
theorem wf_put (h : StrictTotal lt) (k : κ) (v : α) (hw : Store.wf lt t d = true) : Store.wf lt (Store.put lt t d k v) d = true := by
  induction t with
  | nil =>
    simp only [Store.put]
    split
    · rfl
    · next hv => exact (wf_cons k v []).mpr ⟨hv, by simp, rfl⟩
  | cons e rest ih =>
    obtain ⟨k', v'⟩ := e
    obtain ⟨hv', hlt, hrest⟩ := (wf_cons k' v' rest).mp hw
    simp only [Store.put]
    split
    · next hk =>
      split
      · exact hrest
      · next hv => exact (wf_cons k v rest).mpr ⟨hv, by rw [hk]; exact hlt, hrest⟩
    · next hk =>
      split
      · next hkk =>
        split
        · exact hw
        · next hv =>
          refine (wf_cons k v _).mpr ⟨hv, fun e he => ?_, hw⟩
          rcases List.mem_cons.mp he with he | he
          · rw [he]; exact hkk
          · exact h.trans _ _ _ hkk (hlt e he)
      · next hkk =>
        refine (wf_cons k' v' _).mpr ⟨hv', fun e he => ?_, ih hrest⟩
        rcases mem_put he with he | he
        · exact hlt e he
        · rw [he]; exact h.total k k' hk (by simpa using hkk)

/-- A read after a write to the same key gives the value written. -/
theorem get_put_same (h : StrictTotal lt) (k : κ) (v : α) (hw : Store.wf lt t d = true) : Store.get (Store.put lt t d k v) d k = v := by
  induction t with
  | nil =>
    simp only [Store.put]
    split
    · next hv => exact hv.symm
    · simp [get_cons]
  | cons e rest ih =>
    obtain ⟨k', v'⟩ := e
    obtain ⟨_, hlt, hrest⟩ := (wf_cons k' v' rest).mp hw
    simp only [Store.put]
    split
    · next hk =>
      split
      · next hv => rw [hv]; exact get_eq_default h k (by rw [hk]; exact hlt)
      · simp [get_cons]
    · next hk =>
      split
      · next hkk =>
        split
        · next hv =>
          rw [hv]
          refine get_eq_default h k fun e he => ?_
          rcases List.mem_cons.mp he with he | he
          · rw [he]; exact hkk
          · exact h.trans _ _ _ hkk (hlt e he)
        · simp [get_cons]
      · rw [get_cons, if_neg (fun he => hk he.symm)]
        exact ih hrest

/-- A write leaves every other key alone. -/
theorem get_put_other {k k' : κ} (v : α) (hne : k' ≠ k) : Store.get (Store.put lt t d k v) d k' = Store.get t d k' := by
  induction t with
  | nil =>
    simp only [Store.put]
    split
    · rfl
    · rw [get_cons, if_neg (fun he => hne he.symm)]
  | cons e rest ih =>
    obtain ⟨k₁, v₁⟩ := e
    simp only [Store.put]
    split
    · next hk =>
      have hne₁ : k₁ ≠ k' := by rw [← hk]; exact fun he => hne he.symm
      split
      · rw [get_cons, if_neg hne₁]
      · rw [get_cons, get_cons, if_neg hne₁, if_neg (fun he => hne he.symm)]
    · split
      · split
        · rfl
        · rw [get_cons, if_neg (fun he => hne he.symm)]
      · rw [get_cons, get_cons, ih]

/-- In a canonical store a listed key never reads the default. -/
theorem get_ne_default_of_mem (h : StrictTotal lt) (hw : Store.wf lt t d = true) {e : κ × α} (he : e ∈ t) :
    Store.get t d e.1 = e.2 ∧ e.2 ≠ d := by
  induction t with
  | nil => cases he
  | cons e' rest ih =>
    obtain ⟨k', v'⟩ := e'
    obtain ⟨hv', hlt, hrest⟩ := (wf_cons k' v' rest).mp hw
    rcases List.mem_cons.mp he with rfl | he
    · exact ⟨by simp [get_cons], hv'⟩
    · have hne : k' ≠ e.1 := fun heq => by
        have hl := hlt e he
        rw [← heq, h.irrefl] at hl
        exact Bool.noConfusion hl
      rw [get_cons, if_neg hne]
      exact ih hrest he

omit [DecidableEq α] in
/-- A key that does not read the default is listed. -/
theorem mem_of_get_ne_default {k : κ} (h : Store.get t d k ≠ d) : (k, Store.get t d k) ∈ t := by
  induction t with
  | nil => exact absurd rfl h
  | cons e rest ih =>
    obtain ⟨k', v'⟩ := e
    rw [get_cons] at h ⊢
    split
    · next he => rw [he]; exact List.mem_cons_self
    · next he => rw [if_neg he] at h; exact List.mem_cons_of_mem _ (ih h)

end Store

/-! ### The cost tables and memory -/

theorem CostTable.wf_set {t : CostTable} (hw : t.wf = true) (i : Nat) (v : Half) : (CostTable.set t i v).wf = true :=
  Store.wf_put natLt_strictTotal i v hw

/-- A cost-table entry reads back what was stored in it, and no other entry changes (20_memory.md R71). -/
theorem CostTable.at_set {t : CostTable} (hw : t.wf = true) (i j : Nat) (v : Half) :
    CostTable.at (CostTable.set t i v) j = if j = i then v else CostTable.at t j := by
  split
  · next h => rw [h]; exact Store.get_put_same natLt_strictTotal i v hw
  · next h => exact Store.get_put_other v h

theorem Memory.wf_iff (m : Memory) :
    m.wf = true ↔ CostTable.wf m.litcost = true ∧ CostTable.wf m.lencost = true ∧ CostTable.wf m.distcost = true := by
  simp [Memory.wf, and_assoc]

theorem Memory.wf_costTable {m : Memory} (hw : m.wf = true) (sel : CostSel) : CostTable.wf (m.costTable sel) = true := by
  obtain ⟨h0, h1, h2⟩ := m.wf_iff.mp hw
  cases sel <;> assumption

/-- MemWrite to a cost table keeps the canonical form. -/
theorem Memory.wf_setCost {m : Memory} (hw : m.wf = true) (sel : CostSel) (i : Nat) (v : Half) : (m.setCost sel i v).wf = true := by
  obtain ⟨h0, h1, h2⟩ := m.wf_iff.mp hw
  refine (Memory.wf_iff _).mpr ?_
  cases sel
  · exact ⟨CostTable.wf_set h0 i v, h1, h2⟩
  · exact ⟨h0, CostTable.wf_set h1 i v, h2⟩
  · exact ⟨h0, h1, CostTable.wf_set h2 i v⟩

/-- What a MemWrite to a cost table leaves in every table (20_memory.md R71). -/
theorem Memory.costTable_setCost {m : Memory} (hw : m.wf = true) (sel sel' : CostSel) (i j : Nat) (v : Half) :
    CostTable.at ((m.setCost sel i v).costTable sel') j = if sel' = sel ∧ j = i then v else CostTable.at (m.costTable sel') j := by
  have h := CostTable.at_set (Memory.wf_costTable hw sel) i j v
  cases sel <;> cases sel' <;> simp_all [Memory.setCost, Memory.costTable]

/-- Appending to a counted space, replacing TOK and emptying the spaces do not touch the cost tables, so they keep the canonical form. -/
theorem Memory.wf_of_costs {m m' : Memory} (hw : m.wf = true) (h0 : m'.litcost = m.litcost) (h1 : m'.lencost = m.lencost)
    (h2 : m'.distcost = m.distcost) : m'.wf = true := by
  rw [Memory.wf_iff, h0, h1, h2]
  exact m.wf_iff.mp hw

theorem Memory.wf_emptyStreams {m : Memory} (hw : m.wf = true) : m.emptyStreams.wf = true := Memory.wf_of_costs hw rfl rfl rfl

theorem Memory.wf_withSeq {m : Memory} (hw : m.wf = true) (l : List Half) : ({ m with seq := l } : Memory).wf = true :=
  Memory.wf_of_costs hw rfl rfl rfl

theorem Memory.wf_withTok {m : Memory} (hw : m.wf = true) (l : List Word) : ({ m with tok := l } : Memory).wf = true :=
  Memory.wf_of_costs hw rfl rfl rfl

theorem Memory.wf_withDseq {m : Memory} (hw : m.wf = true) (l : List Half) : ({ m with dseq := l } : Memory).wf = true :=
  Memory.wf_of_costs hw rfl rfl rfl

theorem Memory.wf_withObuf {m : Memory} (hw : m.wf = true) (l : List Byte) : ({ m with obuf := l } : Memory).wf = true :=
  Memory.wf_of_costs hw rfl rfl rfl

theorem Memory.wf_withIbuf {m : Memory} (hw : m.wf = true) (l : List Byte) : ({ m with ibuf := l } : Memory).wf = true :=
  Memory.wf_of_costs hw rfl rfl rfl

theorem Memory.wf_reset : Memory.reset.wf = true := rfl

/-- The memory of the reset state is in canonical form (20_memory.md R76). -/
theorem State.reset_mem_wf : State.reset.mem.wf = true := rfl

/-! ### The count vectors and CTX -/

/-- c(s) after an increment (44_frequency_model.md R249). -/
theorem Counts.at_inc {t : Counts} (hw : Counts.wf t = true) (s x : Nat) :
    Counts.at (Counts.inc t s) x = if x = s then Counts.at t s + 1 else Counts.at t x := by
  split
  · next h => rw [h]; exact Store.get_put_same natLt_strictTotal s _ hw
  · next h => exact Store.get_put_other _ h

theorem Counts.wf_inc {t : Counts} (hw : Counts.wf t = true) (s : Nat) : Counts.wf (Counts.inc t s) = true :=
  Store.wf_put natLt_strictTotal s _ hw

/-- A table with a count is not the empty one. -/
theorem Counts.inc_ne_nil {t : Counts} (hw : Counts.wf t = true) (s : Nat) : Counts.inc t s ≠ [] := fun h => by
  have := Counts.at_inc hw s s
  rw [h, if_pos rfl] at this
  simp [Counts.at] at this

theorem Model.ctxWf_iff (m : Model) : m.ctxWf = true ↔ Store.wf keyLt m.ctx [] = true ∧ ∀ e ∈ m.ctx, Counts.wf e.2 = true := by
  simp [Model.ctxWf]

/-- Every context's count vector is canonical. -/
theorem Model.wf_table {m : Model} (hw : m.ctxWf = true) (key : List Nat) : Counts.wf (m.table key) = true := by
  by_cases h : m.table key = []
  · rw [h]; rfl
  · exact (m.ctxWf_iff.mp hw).2 _ (Store.mem_of_get_ne_default h)

/-- The update of one order keeps CTX canonical (44_frequency_model.md R249). -/
theorem Model.ctxWf_bump {m : Model} (hw : m.ctxWf = true) (sym k : Nat) : (m.bump sym k).ctxWf = true := by
  obtain ⟨hs, ht⟩ := m.ctxWf_iff.mp hw
  refine (Model.ctxWf_iff _).mpr ⟨Store.wf_put keyLt_strictTotal _ _ hs, fun e he => ?_⟩
  rcases Store.mem_put he with h | h
  · exact ht e h
  · rw [h]; exact Counts.wf_inc (Model.wf_table hw _) sym

/-- The count vectors after the update of one order (44_frequency_model.md R249). -/
theorem Model.table_bump {m : Model} (hw : m.ctxWf = true) (sym k : Nat) (key : List Nat) :
    (m.bump sym k).table key = if key = ctxKey m k then Counts.inc (m.table key) sym else m.table key := by
  split
  · next h => rw [h]; exact Store.get_put_same keyLt_strictTotal _ _ (m.ctxWf_iff.mp hw).1
  · next h => exact Store.get_put_other _ h

@[simp] theorem Model.bump_hist (m : Model) (sym k : Nat) : (m.bump sym k).hist = m.hist := rfl
@[simp] theorem Model.bump_hlen (m : Model) (sym k : Nat) : (m.bump sym k).hlen = m.hlen := rfl
@[simp] theorem Model.bump_esc (m : Model) (sym k : Nat) : (m.bump sym k).esc = m.esc := rfl

/-- The update of every order, one more order at a time. -/
theorem Model.bumpAll_succ (m : Model) (sym top : Nat) : m.bumpAll sym (top + 1) = (m.bumpAll sym top).bump sym (top + 1) := by
  simp [Model.bumpAll, List.range_succ (n := top + 1), List.foldl_append]

@[simp] theorem Model.bumpAll_hist (m : Model) (sym top : Nat) : (m.bumpAll sym top).hist = m.hist := by
  induction top with
  | zero => rfl
  | succ n ih => rw [Model.bumpAll_succ, Model.bump_hist, ih]

/-- The update of every order keeps CTX canonical (44_frequency_model.md R249). -/
theorem Model.ctxWf_bumpAll {m : Model} (hw : m.ctxWf = true) (sym top : Nat) : (m.bumpAll sym top).ctxWf = true := by
  induction top with
  | zero => exact Model.ctxWf_bump hw sym 0
  | succ n ih => rw [Model.bumpAll_succ]; exact Model.ctxWf_bump ih sym (n + 1)

theorem updateModel_ctxWf {s : State} (hw : s.ppm.ctxWf = true) (sym : Nat) : (updateModel s sym).ppm.ctxWf = true :=
  Model.ctxWf_bumpAll hw sym (kmax s)

end Sys2Proof.Machine
end

