-- ==== Sys2Proof/Laws/Model.lean ====
section
/-! SUPPORT. Laws of the frequency model's operations: sums, the inverse of the cumulative count, what the quantities of a level depend on, and the frames of the coding loops (44_frequency_model.md R241 to R248, R260, R261). -/

namespace Sys2Proof.Machine

/-! ### Sums -/

@[simp] theorem sumBelow_zero (f : Nat → Nat) : sumBelow f 0 = 0 := rfl
@[simp] theorem sumBelow_succ (f : Nat → Nat) (n : Nat) : sumBelow f (n + 1) = sumBelow f n + f n := rfl

theorem sumBelow_congr {f g : Nat → Nat} {n : Nat} (h : ∀ i < n, f i = g i) : sumBelow f n = sumBelow g n := by
  induction n with
  | zero => rfl
  | succ n ih => rw [sumBelow_succ, sumBelow_succ, ih fun i hi => h i (by omega), h n (by omega)]

theorem sumBelow_le {f g : Nat → Nat} {n : Nat} (h : ∀ i < n, f i ≤ g i) : sumBelow f n ≤ sumBelow g n := by
  induction n with
  | zero => exact le_refl _
  | succ n ih =>
    have h1 := ih fun i hi => h i (by omega)
    have h2 := h n (by omega)
    simp only [sumBelow_succ]; omega

/-- A sub-range ends no later than the whole. -/
theorem sumBelow_add_le (f : Nat → Nat) {i n : Nat} (h : i < n) : sumBelow f i + f i ≤ sumBelow f n := by
  induction n with
  | zero => omega
  | succ n ih =>
    rcases Nat.lt_or_ge i n with hi | hi
    · have := ih hi
      simp only [sumBelow_succ]; omega
    · obtain rfl : i = n := by omega
      exact le_refl _

theorem sumBelow_mono (f : Nat → Nat) {i n : Nat} (h : i ≤ n) : sumBelow f i ≤ sumBelow f n := by
  rcases Nat.lt_or_ge i n with hi | hi
  · have := sumBelow_add_le f hi; omega
  · obtain rfl : i = n := by omega
    exact le_refl _

/-- The sum in list form. -/
theorem sumBelow_eq_sum (f : Nat → Nat) (n : Nat) : sumBelow f n = ((List.range n).map f).sum := by
  induction n with
  | zero => rfl
  | succ n ih => simp [List.range_succ, ih]

/-- Counting the numbers below n that have a property. -/
theorem sumBelow_indicator (p : Nat → Prop) [DecidablePred p] (n : Nat) :
    sumBelow (fun x => if p x then 1 else 0) n = ((List.range n).filter (fun x => p x)).length := by
  induction n with
  | zero => rfl
  | succ n ih =>
    rw [sumBelow_succ, ih, List.range_succ, List.filter_append, List.length_append]
    by_cases h : p n <;> simp [h]

theorem sumBelow_ones (n : Nat) : sumBelow (fun _ => 1) n = n := by
  induction n with
  | zero => rfl
  | succ n ih => simp [ih]

/-! ### The inverse of the cumulative count -/

/-- The walk finds the symbol whose sub-range holds t (44_frequency_model.md R248). -/
theorem symbolFrom_spec (w : Nat → Nat) (left sym t : Nat) (h : t < sumBelow w (sym + left) - sumBelow w sym) :
    let x := symbolFrom w left sym t
    x < sym + left ∧ sumBelow w x ≤ sumBelow w sym + t ∧ sumBelow w sym + t < sumBelow w x + w x := by
  induction left generalizing sym t with
  | zero => simp at h
  | succ k ih =>
    unfold symbolFrom
    simp only
    split
    · next ht => exact ⟨by omega, by omega, by omega⟩
    · next ht =>
      have he : sym + 1 + k = sym + (k + 1) := by omega
      have hs : sumBelow w (sym + 1) = sumBelow w sym + w sym := rfl
      obtain ⟨h1, h2, h3⟩ := ih (sym + 1) (t - w sym) (by rw [he]; omega)
      exact ⟨by omega, by omega, by omega⟩

/-- ICDF(t) is a symbol below A whose sub-range holds t, for every t below S (44_frequency_model.md R248). -/
theorem icdf_spec (s : State) (lv : Level) (t : Nat) (h : t < massS s lv) :
    icdf s lv t < s.acfg.alpha ∧ cdf s lv (icdf s lv t) ≤ t ∧ t < cdf s lv (icdf s lv t) + pdf s lv (icdf s lv t) := by
  have := symbolFrom_spec (weight s lv) s.acfg.alpha 0 t (by simpa [massS] using h)
  simpa [icdf, cdf, pdf] using this

theorem cdf_add_pdf_le (s : State) (lv : Level) {sym : Nat} (h : sym < s.acfg.alpha) : cdf s lv sym + pdf s lv sym ≤ massS s lv :=
  sumBelow_add_le _ h

/-- No two symbols share a value of the cumulative count (44_frequency_model.md R248). -/
theorem subrange_unique (s : State) (lv : Level) {x y t : Nat} (hx : cdf s lv x ≤ t) (hx' : t < cdf s lv x + pdf s lv x)
    (hy : cdf s lv y ≤ t) (hy' : t < cdf s lv y + pdf s lv y) : x = y := by
  rcases Nat.lt_trichotomy x y with h | h | h
  · have : cdf s lv x + pdf s lv x ≤ cdf s lv y := sumBelow_add_le _ h
    omega
  · exact h
  · have : cdf s lv y + pdf s lv y ≤ cdf s lv x := sumBelow_add_le _ h
    omega

/-! ### What a level's quantities depend on -/

/-- Two states agree on what the model's quantities are computed from: ACFG, CTX, HIST and h. -/
def SameModel (s t : State) : Prop := t.acfg = s.acfg ∧ t.ppm.ctx = s.ppm.ctx ∧ t.ppm.hist = s.ppm.hist ∧ t.ppm.hlen = s.ppm.hlen

theorem SameModel.refl (s : State) : SameModel s s := ⟨rfl, rfl, rfl, rfl⟩

theorem SameModel.trans {s t u : State} (h : SameModel s t) (h' : SameModel t u) : SameModel s u :=
  ⟨h'.1.trans h.1, h'.2.1.trans h.2.1, h'.2.2.1.trans h.2.2.1, h'.2.2.2.trans h.2.2.2⟩

theorem sameModel_escapeOnce (s : State) : SameModel s (escapeOnce s) := ⟨rfl, rfl, rfl, rfl⟩

theorem sameModel_withEsc (s : State) (n : Nat) : SameModel s (s.withEsc n) := ⟨rfl, rfl, rfl, rfl⟩

section Same

variable {s t : State} (h : SameModel s t)
include h

theorem SameModel.kmax : kmax t = kmax s := by simp only [Machine.kmax, h.1, h.2.2.2]

theorem SameModel.ctxKey (k : Nat) : ctxKey t.ppm k = ctxKey s.ppm k := by simp only [Machine.ctxKey, h.2.2.1]

theorem SameModel.countAt (k sym : Nat) : countAt t.ppm k sym = countAt s.ppm k sym := by
  simp only [Machine.countAt, h.ctxKey, Model.table, h.2.1]

theorem SameModel.weight : weight t = weight s := by
  funext lv sym
  cases lv <;> simp only [Machine.weight, h.countAt, h.1]

theorem SameModel.massS : massS t = massS s := by funext lv; simp only [Machine.massS, h.weight, h.1]

theorem SameModel.distinct (k : Nat) : distinct t k = distinct s k := by simp only [Machine.distinct, h.countAt, h.1]

theorem SameModel.massE : massE t = massE s := by
  funext lv
  cases lv <;> simp only [Machine.massE, h.distinct, h.1]

theorem SameModel.massD : massD t = massD s := by funext lv; simp only [Machine.massD, h.massS, h.massE]

theorem SameModel.cdf : cdf t = cdf s := by funext lv sym; simp only [Machine.cdf, h.weight]

theorem SameModel.pdf : pdf t = pdf s := by funext lv sym; simp only [Machine.pdf, h.weight]

theorem SameModel.icdf : icdf t = icdf s := by funext lv x; simp only [Machine.icdf, h.weight, h.1]

theorem SameModel.admitted : admitted t = admitted s := by funext lv; simp only [Machine.admitted, h.weight, h.1]

end Same

/-! ### Levels -/

theorem level_of_ordersLeft {s : State} {n : Nat} (h : ordersLeft s = n) : level s = levelAt n := by rw [level, h]

theorem ordersLeft_escapeOnce {s : State} {k : Nat} (h : ordersLeft s = k + 1) : ordersLeft (escapeOnce s) = k := by
  have hk : kmax (escapeOnce s) = kmax s := rfl
  simp only [ordersLeft, hk, escapeOnce_ppm] at h ⊢
  omega

theorem ordersLeft_of_esc_zero {s : State} (h : s.ppm.esc = 0) : ordersLeft s = kmax s + 1 := by simp [ordersLeft, h]

/-- With ESC = n of kmax + 1 levels passed, the rest are left. -/
theorem ordersLeft_withEsc (s : State) (n : Nat) : ordersLeft (s.withEsc n) = kmax s + 1 - n := rfl

/-- One more escape triple from the top (44_frequency_model.md R261). -/
theorem escapesFromTop_succ (s : State) (j : Nat) : escapesFromTop s (j + 1) = escapesFromTop s j ++ [escapeTriple s (kmax s - j)] := by
  simp [escapesFromTop, List.range_succ]

theorem encSteps_append (ts us : List Triple) (s : State) : encSteps (ts ++ us) s = (encSteps ts s).andThen (encSteps us) := by
  induction ts generalizing s with
  | nil => rfl
  | cons t ts ih =>
    rw [List.cons_append, encSteps, encSteps]
    cases encStep t s with
    | ok s1 => exact ih s1
    | raise f n s1 => rfl
    | stuck r => rfl

theorem decSteps_append (ts us : List Triple) (s : State) : decSteps (ts ++ us) s = (decSteps ts s).andThen (decSteps us) := by
  induction ts generalizing s with
  | nil => rfl
  | cons t ts ih =>
    rw [List.cons_append, decSteps, decSteps]
    cases decStep t s with
    | ok s1 => exact ih s1
    | raise f n s1 => rfl
    | stuck r => rfl

/-! ### Frames of the coder's steps and of the coding loops -/

/-- t differs from s in OBUF and the coder's registers only. -/
def CoderFrame (s t : State) : Prop := t = { s with mem := { s.mem with obuf := t.mem.obuf }, rc := t.rc }

/-- t differs from s in OBUF, the coder's registers and ESC only (60_exceptions.md R305). -/
def LoopFrame (s t : State) : Prop :=
  t = { s with mem := { s.mem with obuf := t.mem.obuf }, rc := t.rc, ppm := { s.ppm with esc := t.ppm.esc } }

theorem CoderFrame.refl (s : State) : CoderFrame s s := rfl

theorem CoderFrame.trans {s t u : State} (h : CoderFrame s t) (h' : CoderFrame t u) : CoderFrame s u := by
  unfold CoderFrame at *
  rw [h'] ; rw [h]

theorem LoopFrame.refl (s : State) : LoopFrame s s := rfl

theorem LoopFrame.trans {s t u : State} (h : LoopFrame s t) (h' : LoopFrame t u) : LoopFrame s u := by
  unfold LoopFrame at *
  rw [h'] ; rw [h]

theorem CoderFrame.loop {s t : State} (h : CoderFrame s t) : LoopFrame s t := by
  unfold CoderFrame LoopFrame at *
  rw [h]

theorem CoderFrame.sameModel {s t : State} (h : CoderFrame s t) : SameModel s t := by
  unfold CoderFrame at h
  rw [h]; exact ⟨rfl, rfl, rfl, rfl⟩

theorem LoopFrame.sameModel {s t : State} (h : LoopFrame s t) : SameModel s t := by
  unfold LoopFrame at h
  rw [h]; exact ⟨rfl, rfl, rfl, rfl⟩

theorem loopFrame_escapeOnce (s : State) : LoopFrame s (escapeOnce s) := rfl

theorem emitByte_frame (s : State) : CoderFrame s (emitByte s) := rfl

theorem emitBytes_frame (e : Nat) (s : State) : CoderFrame s (emitBytes e s) := by
  induction e generalizing s with
  | zero => exact .refl s
  | succ e ih => exact (emitByte_frame s).trans (ih (emitByte s))

theorem addCarry_frame {s s' : State} {v : Nat} (h : addCarry s v = some s') : CoderFrame s s' := by
  unfold addCarry at h
  simp only at h
  split at h
  · cases h; rfl
  · split at h
    · cases h
    · cases h; rfl

/-- An encode step changes OBUF and the coder's registers only. -/
theorem encStep_frame {t : Triple} {s s' : State} (h : encStep t s = .ok s') : CoderFrame s s' := by
  rcases (encStep_eq_ok h).2 with ⟨_, rfl⟩ | ⟨_, e, s1, _, hs1, _, rfl⟩
  · exact .refl _
  · exact (addCarry_frame hs1).trans (CoderFrame.trans (t := { s1 with rc := _ }) rfl (emitBytes_frame e _))

/-- A decode step changes the coder's registers only. -/
theorem decStep_frame {t : Triple} {s s' : State} (h : decStep t s = .ok s') : s' = { s with rc := s'.rc } := by
  rcases (decStep_eq_ok h).2 with ⟨_, rfl⟩ | ⟨_, _, _, e, _, _, rfl⟩
  · rfl
  · exact (takeBytes_frame e _).1

theorem decStep_coderFrame {t : Triple} {s s' : State} (h : decStep t s = .ok s') : CoderFrame s s' := by
  have he := decStep_frame h
  unfold CoderFrame
  rw [he]

/-- Where the encode loop goes on, it has moved OBUF, the coder and ESC only (44_frequency_model.md R260). -/
theorem encodeLoop_frame {sym n : Nat} {s s' : State} (h : encodeLoop sym n s = .ok s') : LoopFrame s s' := by
  induction n generalizing s with
  | zero => exact (encStep_frame h).loop
  | succ k ih =>
    unfold encodeLoop at h
    split at h
    · obtain ⟨s1, hs1, h⟩ := CmdResult.andThen_eq_ok.mp h
      exact ((encStep_frame hs1).loop.trans (loopFrame_escapeOnce s1)).trans (ih h)
    · exact (encStep_frame h).loop

/-- Where the encode loop faults, it has moved OBUF, the coder and ESC only (60_exceptions.md R305). -/
theorem encodeLoop_raise {sym n m : Nat} {s s' : State} {f : FaultCode} (h : encodeLoop sym n s = .raise f m s') :
    LoopFrame s s' ∧ f ∈ [FaultCode.rcBadTriple, .carryOverflow, .rcOutFull] := by
  induction n generalizing s with
  | zero =>
    obtain ⟨rfl, hf⟩ := encStep_raise h
    exact ⟨.refl _, hf⟩
  | succ k ih =>
    unfold encodeLoop at h
    split at h
    · rcases CmdResult.andThen_eq_raise.mp h with h | ⟨s1, hs1, h⟩
      · obtain ⟨rfl, hf⟩ := encStep_raise h
        exact ⟨.refl _, hf⟩
      · obtain ⟨h1, h2⟩ := ih h
        exact ⟨((encStep_frame hs1).loop.trans (loopFrame_escapeOnce s1)).trans h1, h2⟩
    · obtain ⟨rfl, hf⟩ := encStep_raise h
      exact ⟨.refl _, hf⟩

/-- Where the decode loop goes on, it has moved the coder and ESC only (44_frequency_model.md R261). -/
theorem decodeLoop_frame {n x : Nat} {s s' : State} (h : decodeLoop n s = .ok (x, s')) : LoopFrame s s' := by
  induction n generalizing s with
  | zero =>
    unfold decodeLoop at h
    simp only at h
    split at h
    · cases h
    · split at h
      · cases h; exact .refl _
      · obtain ⟨s1, hs1, h⟩ := CmdResult.andThen_eq_ok.mp h
        cases h
        exact (decStep_coderFrame hs1).loop
  | succ k ih =>
    unfold decodeLoop at h
    simp only at h
    split at h
    · exact (loopFrame_escapeOnce s).trans (ih h)
    · split at h
      · cases h; exact .refl _
      · split at h
        · obtain ⟨s1, hs1, h⟩ := CmdResult.andThen_eq_ok.mp h
          exact ((decStep_coderFrame hs1).loop.trans (loopFrame_escapeOnce s1)).trans (ih h)
        · obtain ⟨s1, hs1, h⟩ := CmdResult.andThen_eq_ok.mp h
          cases h
          exact (decStep_coderFrame hs1).loop

/-- Where the decode loop faults, it has moved the coder and ESC only (60_exceptions.md R305). -/
theorem decodeLoop_raise {n m : Nat} {s s' : State} {f : FaultCode} (h : decodeLoop n s = .raise f m s') :
    LoopFrame s s' ∧ f ∈ [FaultCode.rcBadTriple, .rcDesync, .rcInUnderrun] := by
  induction n generalizing s with
  | zero =>
    unfold decodeLoop at h
    simp only at h
    split at h
    · cases h; exact ⟨.refl _, by simp⟩
    · split at h
      · cases h
      · rcases CmdResult.andThen_eq_raise.mp h with h | ⟨s1, _, h⟩
        · obtain ⟨rfl, hf⟩ := decStep_raise h
          exact ⟨.refl _, hf⟩
        · cases h
  | succ k ih =>
    unfold decodeLoop at h
    simp only at h
    split at h
    · obtain ⟨h1, h2⟩ := ih h
      exact ⟨(loopFrame_escapeOnce s).trans h1, h2⟩
    · split at h
      · cases h
      · split at h
        · rcases CmdResult.andThen_eq_raise.mp h with h | ⟨s1, hs1, h⟩
          · obtain ⟨rfl, hf⟩ := decStep_raise h
            exact ⟨.refl _, hf⟩
          · obtain ⟨h1, h2⟩ := ih h
            exact ⟨((decStep_coderFrame hs1).loop.trans (loopFrame_escapeOnce s1)).trans h1, h2⟩
        · rcases CmdResult.andThen_eq_raise.mp h with h | ⟨s1, _, h⟩
          · obtain ⟨rfl, hf⟩ := decStep_raise h
            exact ⟨.refl _, hf⟩
          · cases h

end Sys2Proof.Machine
end

