-- ==== Sys2Proof/Laws/Parser.lean ====
section
/-! SUPPORT. Laws of the parse graph's paths: how they join, what they cost, and where they end (42_parser.md R177, R184). -/

namespace Sys2Proof.Machine

@[simp] theorem spanOf_nil : spanOf [] = 0 := rfl
@[simp] theorem spanOf_cons (t : Token) (ts : List Token) : spanOf (t :: ts) = t.length + spanOf ts := rfl
@[simp] theorem spanOf_append (ts us : List Token) : spanOf (ts ++ us) = spanOf ts + spanOf us := by simp [spanOf]

/-- A path ends where its tokens' lengths take it. -/
theorem isPath_end {s : State} {p q : Nat} {ts : List Token} (h : isPath s p ts q) : q = p + spanOf ts := by
  induction ts generalizing p with
  | nil => exact h.symm
  | cons t ts ih => rw [ih h.2, spanOf_cons, Nat.add_assoc]

/-- A path through a list that is cut in two is a path to the cut and a path from it. -/
theorem isPath_append {s : State} {p q : Nat} {ts us : List Token} :
    isPath s p (ts ++ us) q ↔ isPath s p ts (p + spanOf ts) ∧ isPath s (p + spanOf ts) us q := by
  induction ts generalizing p with
  | nil => simp [isPath]
  | cons t ts ih =>
    simp only [List.cons_append, isPath, ih, spanOf_cons, Nat.add_assoc, and_assoc]

/-- The cost of joined paths. -/
theorem pathCost_append (s : State) (p : Nat) (ts us : List Token) :
    pathCost s p (ts ++ us) = pathCost s p ts + pathCost s (p + spanOf ts) us := by
  induction ts generalizing p with
  | nil => simp [pathCost]
  | cons t ts ih => simp only [List.cons_append, pathCost, ih, spanOf_cons, Nat.add_assoc]

end Sys2Proof.Machine
end

