-- ==== Sys2Proof/Laws/PerInstr.lean ====
section
/-! SUPPORT. The family `Fields`: the fields of every command's word hold its opcode and operands (30_encoding.md R100, R101, R105, R107). -/

namespace Sys2Proof.Laws.Fields

/-- Of a well-formed command: the immediate fits 32 bits and obeys its kind, and the opcode and the immediate give the command back. -/
def Statement (i : Instr) : Prop :=
  i.wellFormed = true →
    i.imm < 2 ^ 32 ∧ i.opcode.code < 2 ^ 8 ∧ (i.opcode.kind = .unused → i.imm = 0) ∧ (i.opcode.kind = .mode → i.imm < 2) ∧
    Opcode.ofCode i.opcode.code = some i.opcode ∧ i.opcode.build i.imm = i

theorem lt_of_immFits {n : Nat} (h : Instr.immFits n = true) : n < 2 ^ 32 := of_decide_eq_true h

/-- TABLE and INDEX come back from the immediate that holds them (30_encoding.md R105). -/
theorem csel_fields {table index : Nat} (h : Instr.cselFits table index = true) :
    cselImm table index < 2 ^ 32 ∧ cselTable (cselImm table index) = table ∧ cselIndex (cselImm table index) = index := by
  simp only [Instr.cselFits, Bool.and_eq_true, decide_eq_true_eq] at h
  simp only [cselImm, cselTable, cselIndex]
  omega

theorem nop : Statement .nop := fun _ => by decide
theorem init (m : Direction) : Statement (.init m) := fun _ => by cases m <;> decide
theorem stmPush (sym : Nat) : Statement (.stmPush sym) := fun h => ⟨lt_of_immFits h, (by decide : (Opcode.stmPush).code < 2 ^ 8), (nomatch ·), (nomatch ·), rfl, rfl⟩
theorem stmQuery (idx : Nat) : Statement (.stmQuery idx) := fun h => ⟨lt_of_immFits h, (by decide : (Opcode.stmQuery).code < 2 ^ 8), (nomatch ·), (nomatch ·), rfl, rfl⟩
theorem stmRead (idx : Nat) : Statement (.stmRead idx) := fun h => ⟨lt_of_immFits h, (by decide : (Opcode.stmRead).code < 2 ^ 8), (nomatch ·), (nomatch ·), rfl, rfl⟩
theorem psuParse : Statement .psuParse := fun _ => by decide
theorem psuToken (idx : Nat) : Statement (.psuToken idx) := fun h => ⟨lt_of_immFits h, (by decide : (Opcode.psuToken).code < 2 ^ 8), (nomatch ·), (nomatch ·), rfl, rfl⟩
theorem psuSetcost (table index : Nat) : Statement (.psuSetcost table index) := fun h => by
  obtain ⟨h0, h1, h2⟩ := csel_fields h
  refine ⟨h0, (by decide : (Opcode.psuSetcost).code < 2 ^ 8), (nomatch ·), (nomatch ·), rfl, ?_⟩
  show Instr.psuSetcost (cselTable (cselImm table index)) (cselIndex (cselImm table index)) = _
  rw [h1, h2]
theorem psuGetcost (table index : Nat) : Statement (.psuGetcost table index) := fun h => by
  obtain ⟨h0, h1, h2⟩ := csel_fields h
  refine ⟨h0, (by decide : (Opcode.psuGetcost).code < 2 ^ 8), (nomatch ·), (nomatch ·), rfl, ?_⟩
  show Instr.psuGetcost (cselTable (cselImm table index)) (cselIndex (cselImm table index)) = _
  rw [h1, h2]
theorem psuExpand : Statement .psuExpand := fun _ => by decide
theorem psuDread (idx : Nat) : Statement (.psuDread idx) := fun h => ⟨lt_of_immFits h, (by decide : (Opcode.psuDread).code < 2 ^ 8), (nomatch ·), (nomatch ·), rfl, rfl⟩
theorem rcEncode : Statement .rcEncode := fun _ => by decide
theorem rcFinish : Statement .rcFinish := fun _ => by decide
theorem rcOutbyte (idx : Nat) : Statement (.rcOutbyte idx) := fun h => ⟨lt_of_immFits h, (by decide : (Opcode.rcOutbyte).code < 2 ^ 8), (nomatch ·), (nomatch ·), rfl, rfl⟩
theorem rcInbyte (byte : Nat) : Statement (.rcInbyte byte) := fun h => ⟨lt_of_immFits h, (by decide : (Opcode.rcInbyte).code < 2 ^ 8), (nomatch ·), (nomatch ·), rfl, rfl⟩
theorem rcDstart : Statement .rcDstart := fun _ => by decide
theorem rcFetch : Statement .rcFetch := fun _ => by decide
theorem rcDecode : Statement .rcDecode := fun _ => by decide
theorem ppmEncode (sym : Nat) : Statement (.ppmEncode sym) := fun h => ⟨lt_of_immFits h, (by decide : (Opcode.ppmEncode).code < 2 ^ 8), (nomatch ·), (nomatch ·), rfl, rfl⟩
theorem ppmDecode : Statement .ppmDecode := fun _ => by decide
theorem ppmHasesc (sym : Nat) : Statement (.ppmHasesc sym) := fun h => ⟨lt_of_immFits h, (by decide : (Opcode.ppmHasesc).code < 2 ^ 8), (nomatch ·), (nomatch ·), rfl, rfl⟩
theorem ppmNumden : Statement .ppmNumden := fun _ => by decide
theorem ppmCdf (sym : Nat) : Statement (.ppmCdf sym) := fun h => ⟨lt_of_immFits h, (by decide : (Opcode.ppmCdf).code < 2 ^ 8), (nomatch ·), (nomatch ·), rfl, rfl⟩
theorem ppmIcdf : Statement .ppmIcdf := fun _ => by decide
theorem ppmEscape : Statement .ppmEscape := fun _ => by decide
theorem ppmUpdate (sym : Nat) : Statement (.ppmUpdate sym) := fun h => ⟨lt_of_immFits h, (by decide : (Opcode.ppmUpdate).code < 2 ^ 8), (nomatch ·), (nomatch ·), rfl, rfl⟩

end Sys2Proof.Laws.Fields
end

