-- ==== Sys2Proof/Tests/Slice0.lean ====
section
/-! SUPPORT. The model's own tests: ill-formed terms, decoded words, the spec's test vectors, and a witness for the hypotheses of every statement. -/

namespace Sys2Proof.Tests

open Sys2Proof.Machine

-- One theorem at a time: each kernel check of a `decide +kernel` would otherwise hold a thread of its own.
set_option Elab.async false

/-! ### WellFormed refuses ill-formed terms (30_encoding.md R101, R105) -/

theorem test_wf_sym_too_wide : (Instr.stmPush (2 ^ 32)).wellFormed = false := by decide
theorem test_wf_idx_too_wide : (Instr.stmQuery (2 ^ 32)).wellFormed = false := by decide
theorem test_wf_byte_too_wide : (Instr.rcInbyte (2 ^ 32)).wellFormed = false := by decide
theorem test_wf_table_too_wide : (Instr.psuSetcost 16 0).wellFormed = false := by decide
theorem test_wf_index_too_wide : (Instr.psuGetcost 0 (2 ^ 28)).wellFormed = false := by decide
theorem test_wf_each_operand_kind :
    [Instr.stmRead (2 ^ 32), .psuToken (2 ^ 32), .psuDread (2 ^ 32), .rcOutbyte (2 ^ 32), .ppmEncode (2 ^ 32), .ppmHasesc (2 ^ 32),
     .ppmCdf (2 ^ 32), .ppmUpdate (2 ^ 32), .psuSetcost 0 (2 ^ 28), .psuGetcost 16 0].all (fun i => !i.wellFormed) = true := by decide

/-! ### Decoding: words written out from 30_encoding.md R100, R105, R107 and 95_test_vectors.md, section 2.1 -/

theorem test_decode_nop : decode 0x0000000000000000#64 = .command .nop := by decide
theorem test_decode_init_enc : decode 0x0000000000000001#64 = .command (.init .encode) := by decide
theorem test_decode_init_dec : decode 0x0000000000000101#64 = .command (.init .decode) := by decide
theorem test_decode_stmPush : decode 0x000000FFFFFFFF10#64 = .command (.stmPush 0xFFFFFFFF) := by decide
theorem test_decode_stmQuery : decode 0x0000000000000211#64 = .command (.stmQuery 2) := by decide
theorem test_decode_stmRead : decode 0x0000000000000212#64 = .command (.stmRead 2) := by decide
theorem test_decode_psuParse : decode 0x0000000000000020#64 = .command .psuParse := by decide
theorem test_decode_psuToken : decode 0x0000000000000321#64 = .command (.psuToken 3) := by decide
theorem test_decode_psuSetcost : decode 0x0000001000010222#64 = .command (.psuSetcost 1 258) := by decide
theorem test_decode_psuGetcost : decode 0x0000002000001F23#64 = .command (.psuGetcost 2 31) := by decide
theorem test_decode_psuExpand : decode 0x0000000000000024#64 = .command .psuExpand := by decide
theorem test_decode_psuDread : decode 0x0000000000000825#64 = .command (.psuDread 8) := by decide
theorem test_decode_rcEncode : decode 0x0000000000000030#64 = .command .rcEncode := by decide
theorem test_decode_rcFinish : decode 0x0000000000000031#64 = .command .rcFinish := by decide
theorem test_decode_rcOutbyte : decode 0x0000000000000732#64 = .command (.rcOutbyte 7) := by decide
theorem test_decode_rcInbyte : decode 0x000000000000AB33#64 = .command (.rcInbyte 0xAB) := by decide
theorem test_decode_rcDstart : decode 0x0000000000000034#64 = .command .rcDstart := by decide
theorem test_decode_rcFetch : decode 0x0000000000000035#64 = .command .rcFetch := by decide
theorem test_decode_rcDecode : decode 0x0000000000000036#64 = .command .rcDecode := by decide
theorem test_decode_ppmEncode : decode 0x0000000000FFFF40#64 = .command (.ppmEncode 65535) := by decide
theorem test_decode_ppmDecode : decode 0x0000000000000041#64 = .command .ppmDecode := by decide
theorem test_decode_ppmHasesc : decode 0x0000000000000142#64 = .command (.ppmHasesc 1) := by decide
theorem test_decode_ppmNumden : decode 0x0000000000000043#64 = .command .ppmNumden := by decide
theorem test_decode_ppmCdf : decode 0x0000000000000344#64 = .command (.ppmCdf 3) := by decide
theorem test_decode_ppmIcdf : decode 0x0000000000000045#64 = .command .ppmIcdf := by decide
theorem test_decode_ppmEscape : decode 0x0000000000000046#64 = .command .ppmEscape := by decide
theorem test_decode_ppmUpdate : decode 0x0000000000000347#64 = .command (.ppmUpdate 3) := by decide
theorem test_decode_reserved_bits : decode 0x0000010000000000#64 = .rejected .reservedNotZero := by decide
theorem test_decode_init_bits : decode 0x0000000000000201#64 = .rejected .modeBitsNotZero := by decide
theorem test_decode_unknown_op : decode 0x0000000000000002#64 = .rejected .unknownOpcode := by decide
theorem test_decode_unused_imm : decode 0x0000000000000130#64 = .rejected .immediateNotZero := by decide
theorem test_decodeTableWord_row : decodeTableWord 64 0x0000000000000347 = some (.ppmUpdate 3) := by decide

/-! ### Small states -/

/-- N_BYTES = 3, and every capacity small enough to fill by hand. -/
def tiny : Params :=
  { nBytes := 3, aMax := 4, wMax := 4, maxlenMax := 4, seqCap := 2, obufCap := 6, ibufCap := 4, kMax := 2, ctxCap := 2 }

/-- The same instance with room for one context table. -/
def oneTable : Params :=
  { nBytes := 3, aMax := 4, wMax := 4, maxlenMax := 4, seqCap := 2, obufCap := 6, ibufCap := 4, kMax := 2, ctxCap := 1 }

/-- The CFG registers of the small sessions: A = 3, W = 2, lengths 1 to 2, COSTMODE 0, ORDER 1, METHOD C. -/
def cfgSmall : CfgRegs := { alpha := 3#17, window := 2#25, minlen := 1#16, maxlen := 2#16, cost := 0#1, order := 1#4, method := 2#2 }

/-- A reset small instance with its CFG registers written. -/
def fresh : State := { State.resetOf tiny Env.idle with cfg := cfgSmall }

/-- A session on the small instance. -/
def sess (m : Direction) : State := fresh.startSession m

/-- A session on the default instance with the given CFG registers. -/
def sessWith (c : CfgRegs) (m : Direction) : State := State.startSession { State.reset with cfg := c } m

/-- The CFG registers after `cfg a, 32768, 3, 258, 0, k, m` (30_encoding.md R111). -/
def cfgPpm (a k m : Nat) : CfgRegs := { CfgRegs.reset with alpha := BitVec.ofNat 17 a, order := BitVec.ofNat 4 k, method := BitVec.ofNat 2 m }

/-- The N3 instance of 95_test_vectors.md with OBUF_CAP and IBUF_CAP raised to 5. -/
def n5 : State :=
  { State.resetOf { nBytes := 3, aMax := 16, seqCap := 1, obufCap := 5, ibufCap := 5 } Env.idle with
    cfg := { CfgRegs.reset with alpha := 16#17 } }

/-- A command with latched ARGs; none if it does not complete. -/
def cmd (a b c : Nat) (i : Instr) (s : State) : Option State := completes i (s.withTriple { cum := a, freq := b, total := c })

/-- The fault a command records, with FAULT_INFO. -/
def faultOf (i : Instr) (s : State) : Option (FaultCode × Word) :=
  match exec i s with
  | .next t => t.fault.map (fun f => (f, t.faultInfo))
  | .fault _ => none
  | .refused _ => none

/-- A sequence pushed. -/
def pushed (l : List Nat) (s : State) : State := { s with mem := { s.mem with seq := l.map (BitVec.ofNat 16) } }

/-- A decoded sequence in place. -/
def decoded (l : List Nat) (s : State) : State := { s with mem := { s.mem with dseq := l.map (BitVec.ofNat 16) } }

/-- Input bytes in place. -/
def input (l : List Nat) (s : State) : State := { s with mem := { s.mem with ibuf := l.map (BitVec.ofNat 8) } }

/-- Output bytes in place. -/
def output (l : List Nat) (s : State) : State := { s with mem := { s.mem with obuf := l.map (BitVec.ofNat 8) } }

/-- Symbols counted by the model's update. -/
def updated (l : List Nat) (s : State) : State := l.foldl updateModel s

/-! ### One step each: values of 95_test_vectors.md, section 2, and of the rules' examples -/

theorem test_nop_status : (completes .nop State.reset).map State.statusWord = some 0x2#64 := by decide +kernel
theorem test_init_dec_status : (completes (.init .decode) State.reset).map State.statusWord = some 0x1A#64 := by decide +kernel
theorem test_init_bad_method_order : faultOf (.init .encode) { State.reset with cfg := { CfgRegs.reset with order := 9#4 } } = some (.badConfig, 0xA8#64) := by
  decide +kernel

theorem test_push_appends : (completes (.stmPush 8) (pushed [9] (sessWith CfgRegs.reset .encode))).map (fun t => t.mem.seq) = some [9#16, 8#16] := by
  decide +kernel
theorem test_push_bad_symbol : faultOf (.stmPush 256) (sessWith CfgRegs.reset .encode) = some (.badSymbol, 256#64) := by decide +kernel
theorem test_query_overlap :
    (completes (.stmQuery 1) (pushed [5, 5, 5, 5] (sessWith CfgRegs.reset .encode))).map (fun t => (t.res0, t.res1, t.res2)) =
      some (3#64, 0#64, 1#64) := by decide +kernel
theorem test_query_most_recent :
    (completes (.stmQuery 4) (pushed [7, 8, 7, 8, 7, 8] (sessWith { CfgRegs.reset with window := 8#25 } .encode))).map
      (fun t => (t.res0, t.res1, t.res2)) = some (2#64, 2#64, 2#64) := by decide +kernel
theorem test_stmRead : (completes (.stmRead 1) (pushed [9, 8] (sessWith CfgRegs.reset .encode))).map (fun t => t.res0) = some 8#64 := by
  decide +kernel

/-- The §8 scenario: Literal 1, Literal 2, Match(6, 2), Literal 3, at cost 4. -/
theorem test_parse_section8 :
    (completes .psuParse (pushed [1, 2, 1, 2, 1, 2, 1, 2, 3] (sessWith { CfgRegs.reset with window := 8#25, minlen := 2#16 } .encode))).map
      (fun t => (t.mem.tok, t.res0, t.res1)) =
      some ([0x1#64, 0x2#64, 0x8000000000020006#64, 0x3#64], 4#64, 4#64) := by decide +kernel
theorem test_parse_first_proposal_wins :
    (completes .psuParse (pushed [0, 0, 0, 0, 0, 0, 0, 0, 0, 0] (sessWith { CfgRegs.reset with maxlen := 4#16 } .encode))).map
      (fun t => (t.mem.tok, t.res0)) = some ([0#64, 0#64, 0x8000000000010004#64, 0x8000000000010004#64], 4#64) := by decide +kernel
theorem test_token_out_of_range : faultOf (.psuToken 0) (sessWith CfgRegs.reset .encode) = some (.rangeArg, 0#64) := by decide +kernel
theorem test_setcost_then_getcost :
    ((cmd 8 0 0 (.psuSetcost 1 258) State.reset).bind (completes (.psuGetcost 1 258))).map (fun t => t.res0) = some 8#64 := by decide +kernel
theorem test_setcost_bad_table : faultOf (.psuSetcost 3 0) State.reset = some (.rangeArg, 0x30000000#64) := by decide +kernel
theorem test_getcost_bad_index : faultOf (.psuGetcost 2 32) State.reset = some (.rangeArg, 0x20000020#64) := by decide +kernel
theorem test_expand_overlap :
    ((completes .psuExpand ((decoded [1, 2] (sessWith { CfgRegs.reset with window := 8#25 } .encode)).withToken 0x8000000000020006#64)).map
      (fun t => t.mem.dseq)) = some [1#16, 2#16, 1#16, 2#16, 1#16, 2#16, 1#16, 2#16] := by decide +kernel
theorem test_expand_literal_reserved :
    faultOf .psuExpand ((decoded [1, 1] (sessWith CfgRegs.reset .encode)).withToken 0x10005#64) = some (.badToken, 0x10005#64) := by decide +kernel
theorem test_dread : (completes (.psuDread 1) (decoded [4, 3] (sessWith CfgRegs.reset .encode))).map (fun t => t.res0) = some 3#64 := by
  decide +kernel

theorem test_rcEncode_half :
    (cmd 1 1 2 .rcEncode (sessWith CfgRegs.reset .encode)).map (fun t => (t.rc.low, t.rc.range, t.mem.obuf)) =
      some (0x7FFFFFFFFFFFFFFF, 0x7FFFFFFFFFFFFFFF, []) := by decide +kernel
theorem test_rcEncode_renormalizes :
    (cmd 0 1 (2 ^ 48) .rcEncode (sessWith CfgRegs.reset .encode)).map (fun t => (t.rc.low, t.rc.range, t.mem.obuf)) =
      some (0, 0xFFFF000000000000, List.replicate 6 0#8) := by decide +kernel
/-- The carry vector: two steps, then the flush carries through an FF byte. -/
theorem test_rcFinish_carry :
    (((cmd 255 1 256 .rcEncode (n5.startSession .encode)).bind (cmd 0 1 256 .rcEncode)).bind (completes .rcFinish)).map
      (fun t => (t.mem.obuf, t.rc.low)) = some ([0xFF#8, 0x00#8, 0x7E#8, 0x80#8, 0x00#8], 0x7E8000) := by decide +kernel
theorem test_rcFinish_empty :
    (completes .rcFinish (sessWith CfgRegs.reset .encode)).map (fun t => (t.mem.obuf, t.statusWord)) =
      some ([0x7F#8, 0xFF#8, 0xFF#8, 0xFF#8, 0xFF#8, 0xFF#8, 0xFF#8, 0xFF#8], 0x2A#64) := by decide +kernel
theorem test_outbyte : (completes (.rcOutbyte 0) (output [0xBF, 0xFF] (sessWith CfgRegs.reset .encode))).map (fun t => t.res0) = some 0xBF#64 := by
  decide +kernel
theorem test_inbyte : (completes (.rcInbyte 0xBF) (sessWith CfgRegs.reset .decode)).map (fun t => t.mem.ibuf) = some [0xBF#8] := by decide +kernel
theorem test_inbyte_too_large : faultOf (.rcInbyte 256) (sessWith CfgRegs.reset .decode) = some (.rangeArg, 0x100#64) := by decide +kernel
theorem test_dstart :
    (completes .rcDstart (input [0xFF, 0x00, 0x7E, 0x80, 0x00] (n5.startSession .decode))).map (fun t => (t.rc.data, t.rc.inPtr)) =
      some (0xFF007E, 3) := by decide +kernel
theorem test_fetch :
    ((completes .rcDstart (input [0xFF, 0x00, 0x7E, 0x80, 0x00] (n5.startSession .decode))).bind (cmd 0 0 256 .rcFetch)).map (fun t => t.res0) =
      some 255#64 := by decide +kernel
theorem test_fetch_bad_total :
    faultOf .rcFetch { sessWith CfgRegs.reset .decode with rcDecReady := true } = some (.rcBadTriple, 1#64) := by decide +kernel
theorem test_rcDecode_refills :
    (((completes .rcDstart (input [0xFF, 0x00, 0x7E, 0x80, 0x00] (n5.startSession .decode))).bind (cmd 255 1 256 .rcDecode)).bind
      (cmd 0 1 256 .rcDecode)).map (fun t => (t.rc.low, t.rc.range, t.rc.data, t.rc.inPtr)) = some (0xFF0000, 0xFF0000, 0x7E8000, 5) := by
  decide +kernel
theorem test_rcDecode_desync :
    (completes .rcDstart (input [0xFF, 0x00, 0x7E, 0x80, 0x00] (n5.startSession .decode))).bind
      (fun s => faultOf .rcDecode (s.withTriple { cum := 0, freq := 1, total := 256 })) = some (.rcDesync, 0xFF007E#64) := by decide +kernel

theorem test_ppmEncode_skip_then_base :
    (completes (.ppmEncode 0) (sessWith (cfgPpm 1 0 0) .encode)).map (fun t => (t.res0, t.rc.range, t.ppm.hlen)) =
      some (1#64, 2 ^ 64 - 1, 1) := by decide +kernel
/-- Symbol 6 of the Method A stream: an escape (1, 1, 2), then (5, 1, 6), then the skipped BASE step: two escapes. -/
theorem test_ppmEncode_two_escapes :
    (completes (.ppmEncode 2) (updated [0, 1, 0, 0, 1] (sessWith (cfgPpm 3 1 0) .encode))).map (fun t => t.res0) = some 2#64 := by decide +kernel
theorem test_ppmDecode_stream :
    ((completes .rcDstart (input [0x5A, 0xAA, 0xAA, 0xAA, 0xAA, 0xAA, 0xAA, 0xA8] (sessWith (cfgPpm 2 0 0) .decode))).bind
      (completes .ppmDecode)).map (fun t => (t.res0, t.res1)) = some (0#64, 1#64) := by decide +kernel
theorem test_hasesc_method_b : (completes (.ppmHasesc 3) (updated [1, 1, 3] (sessWith (cfgPpm 4 0 1) .encode))).map (fun t => t.res0) = some 1#64 := by
  decide +kernel
theorem test_numden_method_a :
    (completes .ppmNumden (updated [1, 1, 3] (sessWith (cfgPpm 4 0 0) .encode))).map (fun t => (t.res0, t.res1, t.res2)) =
      some (2#64, 5#64, 0#64) := by decide +kernel
theorem test_numden_base :
    ((completes .ppmEscape (updated [1, 1, 3] (sessWith (cfgPpm 4 0 1) .encode))).bind (completes .ppmNumden)).map
      (fun t => (t.res0, t.res1, t.res2)) = some (0#64, 3#64, 0xFFFFFFFFFFFFFFFF#64) := by decide +kernel
theorem test_cdf_method_d :
    (completes (.ppmCdf 3) (updated [1, 1, 3] (sessWith (cfgPpm 4 0 3) .encode))).map (fun t => (t.res0, t.res1)) = some (3#64, 1#64) := by
  decide +kernel
theorem test_icdf_method_c : (cmd 2 0 0 .ppmIcdf (updated [1, 1, 3] (sessWith (cfgPpm 4 0 2) .encode))).map (fun t => t.res0) = some 3#64 := by
  decide +kernel
theorem test_icdf_out_of_range : faultOf .ppmIcdf (sessWith (cfgPpm 4 0 0) .encode) = some (.rangeArg, 0#64) := by decide +kernel
theorem test_escape_status :
    (completes .ppmEscape (updated [1, 1, 3] (sessWith (cfgPpm 4 0 0) .encode))).map State.statusWord = some 0x1000A#64 := by decide +kernel
theorem test_update_counts :
    (completes (.ppmUpdate 2) (updated [0, 1, 0, 0, 1] (sessWith (cfgPpm 3 1 0) .encode))).map (fun t => (t.ppm.ctx, t.ppm.hist, t.ppm.hlen)) =
      some ([([], [(0, 3), (1, 2), (2, 1)]), ([0], [(0, 1), (1, 2)]), ([1], [(0, 1), (2, 1)])], [2], 6) := by decide +kernel
theorem test_update_ctx_full :
    faultOf (.ppmUpdate 3) (updated [1, 2] { sessWith (cfgPpm 4 2 0) .encode with inst := { ctxCap := 3 } }) = some (.ctxFull, 1#64) := by
  decide +kernel

/-- The overrun of 95_test_vectors.md, section 2.10: STATUS = 0x110D with BUSY still 1. -/
theorem test_overrun_status :
    (writeCmd ((sessWith CfgRegs.reset .encode).accept 0x410#64) 0x510#64).statusWord = 0x110D#64 := by decide +kernel
theorem test_fetchWord_step :
    (match step ((sessWith CfgRegs.reset .encode).withFetchWord 64 0x410) with | .next t => some t.mem.seq | _ => none) = some [4#16] := by
  decide +kernel

/-! ### Witnesses: for each statement with hypotheses, states and operands that meet them, at the ends of their ranges -/

/-- The check of a list of symbols, element by element. -/
theorem syms_of_all {l : List Half} {a : Nat} (h : l.all (fun x => decide (x.toNat < a)) = true) : ∀ x ∈ l, x.toNat < a := by
  simpa using h

/-- The check of a cost table's indices, entry by entry. -/
theorem index_of_all {t : CostTable} {n : Nat} (h : t.all (fun e => decide (e.1 < n)) = true) : ∀ e ∈ t, e.1 < n := fun e he =>
  of_decide_eq_true (List.all_eq_true.mp h e he)

/-- A small encode session with its command registers free, and the invariant of the machine. -/
theorem sess_inv (m : Direction) : (sess m).Inv := by
  cases m <;>
  exact
    { config := by constructor <;> decide +kernel
      spaces :=
        { wf := by decide +kernel, seq_cap := by decide +kernel, tok_le := by decide +kernel, dseq_cap := by decide +kernel
          obuf_cap := by decide +kernel, ibuf_cap := by decide +kernel, seq_syms := syms_of_all (by decide +kernel)
          dseq_syms := syms_of_all (by decide +kernel), cost_index := fun sel => index_of_all (by cases sel <;> decide +kernel) }
      status := by constructor <;> decide +kernel
      coder := by constructor <;> decide +kernel
      interval := by constructor <;> decide +kernel
      model := by constructor <;> decide +kernel }

/-- A small session with a word in flight and the core to move. -/
def flying (w : Word) : State := placeCommand (sess .encode) w

/-- A decode session on the small instance, its coder loaded with three bytes. -/
def ready (bytes : List Nat) : State :=
  { input bytes (sess .decode) with rc := { low := 0, range := 0xFFFFFF, data := 0x400000, inPtr := 3 }, rcDecReady := true }

theorem ready_inv : (ready [0x40, 0, 0]).Inv where
  config := by constructor <;> decide +kernel
  spaces :=
    { wf := by decide +kernel, seq_cap := by decide +kernel, tok_le := by decide +kernel, dseq_cap := by decide +kernel
      obuf_cap := by decide +kernel, ibuf_cap := by decide +kernel, seq_syms := syms_of_all (by decide +kernel)
      dseq_syms := syms_of_all (by decide +kernel), cost_index := fun sel => index_of_all (by cases sel <;> decide +kernel) }
  status := by constructor <;> decide +kernel
  coder := by constructor <;> decide +kernel
  interval := by constructor <;> decide +kernel
  model := by constructor <;> decide +kernel

theorem witness_DecodeOfEncodeIsIdentity :
    (Instr.stmPush (2 ^ 32 - 1)).wellFormed = true ∧ (Instr.psuSetcost 15 (2 ^ 28 - 1)).wellFormed = true ∧ (Instr.rcInbyte 0).wellFormed = true := by
  decide

theorem witness_EncodeOfDecodeIsIdentity : decode 0x000000FFFFFFFF23#64 = .command (.psuGetcost 15 (2 ^ 28 - 1)) := by decide

/-- A word of each illegal kind, next to legal ones: OP 0x02 and 0x48, RSV = 1, IMM of NOP = 1, IMM of INIT = 2. -/
theorem illegalWord_examples :
    illegalWord 0x02#64 ∧ illegalWord 0x48#64 ∧ illegalWord 0x0000010000000010#64 ∧ illegalWord 0x100#64 ∧ illegalWord 0x201#64 ∧
    ¬ illegalWord 0x00#64 ∧ ¬ illegalWord 0x47#64 ∧ ¬ illegalWord 0x000000FFFFFFFF10#64 ∧ ¬ illegalWord 0x101#64 := by
  unfold illegalWord listedOp
  refine ⟨?_, ?_, ?_, ?_, ?_, ?_, ?_, ?_, ?_⟩ <;> decide

theorem witness_CommandWordsDispatchOrRaiseIllegal (w : Word) :
    (flying w).nextAgent = .core ∧ (flying w).busy = true ∧ (flying w).latch.word = w := ⟨rfl, rfl, rfl⟩

theorem witness_StepRunsDecodedCommand :
    (flying 0x110#64).nextAgent = .core ∧ (flying 0x110#64).busy = true ∧ decode (flying 0x110#64).latch.word = .command (.stmPush 1) := by decide

/-- A recorded fault. -/
def faulted : State := (sess .encode).takeFault .rangeArg 7

theorem witness_CmdWriteAcceptedDroppedOrOverrun :
    faulted.fault.isSome = true ∧ ((flying 0#64).fault = none ∧ (flying 0#64).busy = true) ∧ ((sess .encode).fault = none ∧ (sess .encode).busy = false) := by
  decide

theorem witness_OverrunDoesNotAbortTheCommand :
    (flying 0x110#64).fault = none ∧ (flying 0x110#64).busy = true ∧ (flying 0x110#64).done = false ∧
    ∃ t, exec (.stmPush 1) (flying 0x110#64) = .next t ∧ t.mem.seq = [1#16] := by
  refine ⟨by decide, by decide, by decide, _, rfl, by decide⟩

theorem witness_ResetGivesTheListedValues : (1#64).getLsbD 0 = true ∧ (2#64).getLsbD 0 = false := by decide

theorem witness_RegisterWritesStoreLegalBits : (Reg.inten, 0x3#64) ∈ writableRegs ∧ (Reg.cfgPpm, 0x30F#64) ∈ writableRegs := by decide

theorem witness_WindowAccessesFollowTheMap :
    (4088 < 4096 ∧ 4088 % 8 = 0 ∧ regAt 4088 = none) ∧ (Reg.id ∈ readOnlyRegs ∧ regAt 0 = some .id) ∧
    (Reg.paramCtxCap ∈ readOnlyRegs ∧ regAt 0x1C0 = some .paramCtxCap) ∧ regAt 0x008 = some .ctrl ∧ regAt 0x020 = some .cmd ∧
    (4095 < 4096 ∧ 4095 % 8 ≠ 0) ∧ (0x000, Reg.id) ∈ registerOffsets ∧ (0x1C0, Reg.paramCtxCap) ∈ registerOffsets := by decide

/-- Every offset of the map is listed once, with one register. -/
theorem test_registerOffsets_complete : registerOffsets.map (fun e => e.1) = listedOffsets ∧ (registerOffsets.map (fun e => e.2)).Nodup := by decide

theorem witness_ReadsHaveNoSideEffect :
    (sess .encode).busy = false ∧ ∃ t, performAccess (sess .encode) (.read 0x1C0 8) = .next t := ⟨by decide, _, rfl⟩

theorem witness_ReadsWhileBusyAreExactOrFree :
    (sess .encode).busy = false ∧ (flying 0x11#64).busy = true ∧ decode (flying 0x11#64).latch.word = .command (.stmQuery 0) ∧
    Reg.res2 ∈ writtenRegs .stmQuery ∧ (Reg.seqLen ∉ writtenRegs .stmQuery ∧ Reg.seqLen ∉ [Reg.status, .faultCmd, .faultInfo]) := by decide

theorem witness_StatusHoldsItsFields :
    { sess .encode with ppm := { Model.reset with esc := 255 } }.ppm.esc < 2 ^ 8 ∧ (sess .encode).fault = none ∧
    (FaultCode.rangeArg, 0x07) ∈ faultCodes ∧ faulted.fault = some .rangeArg := by decide

theorem witness_StatusHoldsItsFields_ends :
    (FaultCode.illegalCmd, 0x01) ∈ faultCodes ∧ { sess .encode with fault := some .illegalCmd }.fault = some .illegalCmd ∧
    (FaultCode.cmdOverrun, 0x11) ∈ faultCodes ∧ { sess .encode with fault := some .cmdOverrun }.fault = some .cmdOverrun := by decide

theorem witness_FaultStaysUntilReset :
    { faulted with env := { Env.idle with todo := [.rst] } }.fault = some .rangeArg ∧
    (∃ t, step { faulted with env := { Env.idle with todo := [.rst] } } = .next t) ∧ (∃ t, step faulted = .next t) :=
  ⟨by decide, ⟨_, rfl⟩, ⟨_, rfl⟩⟩

theorem witness_CommandEndSetsBusyDoneAndFaultCmd :
    (sess .encode).fault = none ∧ (∃ t, exec .nop (sess .encode) = .next t ∧ t.fault = none) ∧
    (∃ t, exec (.stmPush 3) (sess .encode) = .next t ∧ t.fault.isSome = true) ∧
    (FaultCode.badSymbol, 0x06) ∈ faultCodes ∧ faulted.fault.isSome = true :=
  ⟨by decide, ⟨_, rfl, by decide⟩, ⟨_, rfl, by decide⟩, by decide, by decide⟩

theorem witness_NeedsAreCheckedFirst :
    (Instr.ppmUpdate 0).opcode ∉ [Opcode.nop, .init, .psuSetcost, .psuGetcost] ∧ fresh.session = false ∧
    (Instr.ppmEncode 0).opcode ∈ [Opcode.rcEncode, .rcFinish, .ppmEncode] ∧ (sess .decode).session = true ∧ (sess .decode).mode = .decode ∧
    Instr.ppmDecode.opcode ∈ [Opcode.rcInbyte, .rcDstart, .rcFetch, .rcDecode, .ppmDecode] ∧ (sess .encode).session = true ∧
    (sess .encode).mode = .encode := by decide

theorem witness_PhaseOrderIsEnforced :
    ({ sess .encode with rcFinished := true }.session = true ∧ { sess .encode with rcFinished := true }.mode = .encode ∧
      { sess .encode with rcFinished := true }.rcFinished = true) ∧
    ((sess .decode).session = true ∧ (sess .decode).mode = .decode ∧ (sess .decode).rcDecReady = false) ∧
    ((ready [1, 2, 3]).session = true ∧ (ready [1, 2, 3]).mode = .decode ∧ (ready [1, 2, 3]).rcDecReady = true) ∧
    ((escapeOnce (sess .encode)).mode = .encode ∧ (escapeOnce (sess .encode)).rcFinished = false ∧ (escapeOnce (sess .encode)).ppm.esc ≠ 0) ∧
    ((escapeOnce (ready [])).mode = .decode ∧ (escapeOnce (ready [])).rcDecReady = true ∧ (escapeOnce (ready [])).ppm.esc ≠ 0) := by decide

theorem witness_FaultsArePrecise :
    (sess .encode).fault = none ∧
    (∃ t, exec (.stmPush 3) (sess .encode) = .next t ∧ t.fault = some .badSymbol ∧ (Instr.stmPush 3).opcode ∉ [Opcode.ppmEncode, .ppmDecode]) ∧
    (∃ t, exec (.ppmEncode 3) (sess .encode) = .next t ∧ t.fault = some .badSymbol ∧
      FaultCode.badSymbol ∈ [FaultCode.noSession, .mode, .sequence, .badSymbol, .seqFull]) :=
  ⟨by decide, ⟨_, rfl, by decide, by decide⟩, ⟨_, rfl, by decide, by decide⟩⟩

/-- The clause of CTX_FULL: a session with one context table and room for no other. -/
theorem witness_FaultsArePrecise_ctxFull :
    { updated [1] (sess .encode) with inst := oneTable }.fault = none ∧ (Instr.ppmEncode 0).opcode = .ppmEncode ∧
    faultOf (.ppmEncode 0) { updated [1] (sess .encode) with inst := oneTable } = some (.ctxFull, 1#64) := by decide +kernel

theorem witness_EveryCommandWordHasAnOutcome :
    { flying 0x30#64 with rc := { Coder.reset tiny with range := 0xFFFF } }.inst.floor ≤ 0xFFFF ∧ (flying 0x30#64).nextAgent = .core ∧
    (flying 0x30#64).busy = true := by decide

theorem witness_CommandsLeaveHostRegistersAlone :
    ∃ t, exec (.stmPush 2) (sess .encode) = .next t ∧ (Instr.stmPush 2).opcode ≠ .init ∧ (Instr.stmPush 2).opcode ≠ .psuSetcost :=
  ⟨_, rfl, by decide, by decide⟩

theorem witness_CommandsWriteOnlyTheirRegisters :
    (∃ t, exec (.stmRead 0) (pushed [1] (sess .encode)) = .next t) ∧ Reg.res1 ∉ writtenRegs (Instr.stmRead 0).opcode ∧
    (Instr.stmRead 0).opcode ∉ [Opcode.init, .stmPush] ∧ writesEsc (Instr.stmRead 0).opcode = false := ⟨⟨_, rfl⟩, by decide, by decide, by decide⟩

/-- One state meets the hypotheses of every invariant statement, of ParametersNeverChange and of CarryOverflowNeverOccurs. -/
theorem witness_StepKeepsTheInvariants :
    (sess .encode).Inv ∧ ∃ t, step (sess .encode) = .next t ∧ ∃ u, exec (.stmPush 2) (sess .encode) = .next u ∧ (sess .encode).fault = none :=
  ⟨sess_inv .encode, _, rfl, _, rfl, by decide⟩

theorem witness_OnlyBadAccessesAreRefused :
    (∃ r, step { sess .encode with env := { Env.idle with todo := [.read 4096 8] } } = .refused r) ∧
    (∃ r, step { sess .encode with env := { Env.idle with todo := [.write 0x20 4 0#64] } } = .refused r) ∧
    (∃ r, step { sess .encode with env := { Env.idle with todo := [.read 0x21 8] } } = .refused r) := ⟨⟨_, rfl⟩, ⟨_, rfl⟩, ⟨_, rfl⟩⟩

/-- Each clause of INIT's checks, at the value next to the legal range. -/
theorem witness_InitChecksThenStartsSession :
    let bad (c : CfgRegs) := faultOf (.init .encode) { fresh with cfg := c }
    bad { cfgSmall with alpha := 0#17 } = some (.badConfig, 0x80#64) ∧ bad { cfgSmall with alpha := 5#17 } = some (.badConfig, 0x80#64) ∧
    bad { cfgSmall with window := 0#25 } = some (.badConfig, 0x88#64) ∧ bad { cfgSmall with window := 5#25 } = some (.badConfig, 0x88#64) ∧
    bad { cfgSmall with minlen := 0#16 } = some (.badConfig, 0x90#64) ∧ bad { cfgSmall with minlen := 3#16 } = some (.badConfig, 0x90#64) ∧
    bad { cfgSmall with maxlen := 5#16 } = some (.badConfig, 0x98#64) ∧ bad { cfgSmall with order := 3#4 } = some (.badConfig, 0xA8#64) ∧
    (completes (.init .decode) { fresh with cfg := { cfgSmall with alpha := 4#17, window := 4#25, maxlen := 4#16, order := 2#4 } }).isSome = true := by
  decide +kernel

theorem witness_PushAndInbyteAppend :
    (sess .encode).session = true ∧ (sess .encode).acfg.alpha ≤ 3 ∧ 2 < (sess .encode).acfg.alpha ∧
    (pushed [0, 1] (sess .encode)).inst.seqCap ≤ (pushed [0, 1] (sess .encode)).mem.seq.length ∧
    (pushed [0] (sess .encode)).mem.seq.length < (pushed [0] (sess .encode)).inst.seqCap ∧ (sess .decode).mode = .decode ∧
    (input [1, 2, 3, 4] (sess .decode)).inst.ibufCap ≤ (input [1, 2, 3, 4] (sess .decode)).mem.ibuf.length ∧
    (input [1, 2, 3] (sess .decode)).mem.ibuf.length < (input [1, 2, 3] (sess .decode)).inst.ibufCap := by decide

theorem witness_QueryReportsTheMatchRecord :
    (pushed [1, 1] (sess .encode)).session = true ∧ (pushed [1, 1] (sess .encode)).mem.seq.length ≤ 2 ∧ 1 < (pushed [1, 1] (sess .encode)).mem.seq.length := by
  decide

theorem witness_MatchesObeyWindowAndContentLaws : 1 < [1#16, 1#16].length ∧ 0 < matchLen [1#16, 1#16] 1 1 := by decide

theorem witness_IndexedReadsReturnTheElement :
    let s := { output [9] (pushed [1] (decoded [2] (sess .encode))) with res0 := 0#64 }
    s.session = true ∧ 0 < s.mem.seq.length ∧ s.mem.seq.length ≤ 1 ∧ s.mem.tok.length ≤ 0 ∧ 0 < s.mem.dseq.length ∧ s.mem.dseq.length ≤ 1 ∧
    0 < s.mem.obuf.length ∧ s.mem.obuf.length ≤ 1 ∧ 0 < { s with mem := { s.mem with tok := [5#64] } }.mem.tok.length := by decide

theorem witness_ParseIsACoverOfLeastCost : (pushed [1, 1] (sess .encode)).session = true ∧ 1 ≤ (pushed [1, 1] (sess .encode)).acfg.minlen := by decide

/-- Three equal symbols with every literal at cost 1 and the match of length 2 at a given cost: at cost 2 the two literals tie with it. -/
def tied (cost : Nat) : State :=
  let s := pushed [1, 1, 1] (sess .encode)
  { s with acfg := { s.acfg with minlen := 2, costMode := .tables }, mem := { s.mem with litcost := [(1, 1#16)], lencost := [(2, BitVec.ofNat 16 cost)] } }

/-- The tie rule's first clause, at the end of its range: the match from 1 and the literal from 2 reach position 3 at equal cost, and the match, proposed first, is kept; at cost 3 the literal is strictly cheaper. -/
theorem witness_ParseTieRule_earlierStart :
    isPath (tied 3) 0 ([.literal 1] ++ [.backref 2 1]) 3 ∧ spanOf [.literal 1] < spanOf [.literal 1, .literal 1] ∧
    parseTokens (tied 3) = [.literal 1, .literal 1] ++ .literal 1 :: [] ∧ parseTokens (tied 2) = [.literal 1, .backref 2 1] := by
  refine ⟨⟨⟨by decide, .inl (by decide)⟩, ⟨by decide, .inr (by decide)⟩, ?_⟩, by decide, by decide +kernel, by decide +kernel⟩
  show 0 + 1 + 2 = 3
  decide

/-- Two equal symbols, a match of length 1 allowed, and a literal of a given cost beside a match of cost 1. -/
def tiedOnes (cost : Nat) : State :=
  let s := pushed [1, 1] (sess .encode)
  { s with acfg := { s.acfg with costMode := .tables }, mem := { s.mem with litcost := [(1, BitVec.ofNat 16 cost)], lencost := [(1, 1#16)] } }

/-- The tie rule's second clause, at the end of its range: the literal and the match from 1 both reach position 2; at equal cost the literal is kept, and at cost 2 the match is strictly cheaper. -/
theorem witness_ParseTieRule_literalFirst :
    isPath (tiedOnes 2) 0 ([.literal 1] ++ [.literal 1]) 2 ∧ (Token.literal 1).isLiteral = true ∧ (Token.backref 1 1).isLiteral = false ∧
    parseTokens (tiedOnes 2) = [.literal 1] ++ .backref 1 1 :: [] ∧ parseTokens (tiedOnes 1) = [.literal 1, .literal 1] := by
  refine ⟨⟨⟨by decide, .inl (by decide)⟩, ⟨by decide, .inl (by decide)⟩, ?_⟩, by decide, by decide, by decide +kernel, by decide +kernel⟩
  show 0 + 1 + 1 = 2
  decide

theorem pushed_inv : (pushed [1, 1] (sess .encode)).Inv where
  config := by constructor <;> decide +kernel
  spaces :=
    { wf := by decide +kernel, seq_cap := by decide +kernel, tok_le := by decide +kernel, dseq_cap := by decide +kernel
      obuf_cap := by decide +kernel, ibuf_cap := by decide +kernel, seq_syms := syms_of_all (by decide +kernel)
      dseq_syms := syms_of_all (by decide +kernel), cost_index := fun sel => index_of_all (by cases sel <;> decide +kernel) }
  status := by constructor <;> decide +kernel
  coder := by constructor <;> decide +kernel
  interval := by constructor <;> decide +kernel
  model := by constructor <;> decide +kernel

theorem witness_ParseThenExpandReproducesSeq :
    let s := pushed [1, 1] (sess .encode)
    s.Inv ∧ s.session = true ∧ s.mem.dseq = [] ∧ ∃ t, completes .psuParse s = some t :=
  ⟨pushed_inv, by decide, by decide, Option.isSome_iff_exists.mp (by decide +kernel)⟩

theorem witness_CostTablesStoreAndReturnEntries :
    costSel 2 = some .dist ∧ 2 < 3 ∧ costLen fresh.inst .dist ≤ 32 ∧ 31 < costLen fresh.inst .dist ∧ 4 < costLen fresh.inst .len ∧
    0xFFFF < (fresh.withToken 0x10000#64).latch.arg0.toNat ∧ (fresh.withToken 0xFFFF#64).latch.arg0.toNat ≤ 0xFFFF ∧ fresh.mem.wf = true := by decide

/-- Each clause of PSU_EXPAND: a token it cannot expand, one that does not fit, and one that does, of either kind. -/
theorem witness_ExpandAppendsLiteralOrCopy :
    let ends (l : List Nat) (w : Word) := faultOf .psuExpand ((decoded l (sess .encode)).withToken w)
    let goes (l : List Nat) (w : Word) := (completes .psuExpand ((decoded l (sess .encode)).withToken w)).map (fun t => t.mem.dseq)
    ends [] 3#64 = some (.badToken, 3#64) ∧ ends [1] 0x8000000000010003#64 = some (.badToken, 0x8000000000010003#64) ∧
    ends [1] 0x8000000000020001#64 = some (.badToken, 0x8000000000020001#64) ∧ ends [1, 2] 2#64 = some (.seqFull, 0#64) ∧
    ends [1] 0x8000000000010002#64 = some (.seqFull, 0#64) ∧ goes [1] 2#64 = some [1#16, 2#16] ∧
    goes [1] 0x8000000000010001#64 = some [1#16, 1#16] := by decide +kernel

theorem witness_WidthLemma :
    tiny.floor ≤ 0xFFFF ∧ Triple.legal tiny { cum := 255, freq := 1, total := 256 } ∧ Triple.legal tiny { cum := 0, freq := 1, total := 2 } := by
  unfold Triple.legal; decide

/-- The states of the coder statements: a triple latched in an encode session and in a decode session. -/
def coding (m : Direction) (a b c : Nat) : State :=
  State.withTriple (match m with | .encode => sess .encode | .decode => ready [0x40, 0, 0]) { cum := a, freq := b, total := c }

theorem witness_IllegalTriplesFaultInOrder :
    (∀ m, (coding m 0 1 0).session = true ∧ (coding m 0 1 0).mode = m) ∧ (coding .encode 0 1 0).rcFinished = false ∧
    (coding .decode 0 1 0).rcDecReady = true ∧
    ∀ t ∈ [0, 257], ¬ (1 ≤ (coding .encode 0 1 t).latch.arg2.toNat ∧ (coding .encode 0 1 t).latch.arg2.toNat ≤ 2 ^ (8 * tiny.nBytes - 16)) := by
  refine ⟨fun m => by cases m <;> decide, by decide⟩

/-- The third and last clauses at the same boundary: c + f = T + 1 and c + f = T, with T = TOTAL_MAX. -/
theorem witness_IllegalTriplesFaultInOrder_sum :
    faultOf .rcEncode (coding .encode 0 0 256) = some (.rcBadTriple, 2#64) ∧ faultOf .rcEncode (coding .encode 256 1 256) = some (.rcBadTriple, 3#64) ∧
    faultOf .rcEncode (coding .encode 255 1 256) = none := by decide +kernel

theorem witness_CertainStepsAreSkipped :
    (∀ m, (coding m 0 256 256).session = true ∧ (coding m 0 256 256).mode = m ∧ (coding m 0 256 256).latch.arg1 = (coding m 0 256 256).latch.arg2 ∧
      (coding m 0 256 256).opTriple.legal (coding m 0 256 256).inst) ∧
    (coding .encode 0 256 256).rcFinished = false ∧ (coding .decode 0 256 256).rcDecReady = true := by
  refine ⟨fun m => ?_, by decide⟩
  unfold Triple.legal
  cases m <;> decide

theorem coding_inv (m : Direction) (a b c : Nat) : (coding m a b c).Inv := by
  cases m
  · have h := sess_inv .encode
    exact ⟨⟨h.1.1, h.1.2, h.1.3, h.1.4, h.1.5, h.1.6, h.1.7, h.1.8, h.1.9, h.1.10, h.1.11⟩,
      ⟨h.2.1, h.2.2, h.2.3, h.2.4, h.2.5, h.2.6, h.2.7, h.2.8, h.2.9⟩, ⟨h.3.1, h.3.2, h.3.3, h.3.4, h.3.5, h.3.6, h.3.7⟩,
      ⟨h.4.1, h.4.2, h.4.3, h.4.4, h.4.5⟩, ⟨h.5.1, h.5.2⟩, ⟨h.6.1, h.6.2, h.6.3, h.6.4, h.6.5, h.6.6, h.6.7, h.6.8, h.6.9, h.6.10⟩⟩
  · have h := ready_inv
    exact ⟨⟨h.1.1, h.1.2, h.1.3, h.1.4, h.1.5, h.1.6, h.1.7, h.1.8, h.1.9, h.1.10, h.1.11⟩,
      ⟨h.2.1, h.2.2, h.2.3, h.2.4, h.2.5, h.2.6, h.2.7, h.2.8, h.2.9⟩, ⟨h.3.1, h.3.2, h.3.3, h.3.4, h.3.5, h.3.6, h.3.7⟩,
      ⟨h.4.1, h.4.2, h.4.3, h.4.4, h.4.5⟩, ⟨h.5.1, h.5.2⟩, ⟨h.6.1, h.6.2, h.6.3, h.6.4, h.6.5, h.6.6, h.6.7, h.6.8, h.6.9, h.6.10⟩⟩

/-- With range 2^24 - 1 the triple (0, 1, 256) gives width 0xFFFF, which is FLOOR: e = 0; with range FLOOR it gives 0xFF: e = 2. -/
theorem witness_EncodeNarrowsTheInterval :
    (coding .encode 0 1 256).Inv ∧ (coding .encode 0 1 256).session = true ∧ (coding .encode 0 1 256).mode = .encode ∧
    (coding .encode 0 1 256).rcFinished = false ∧ (coding .encode 0 1 256).opTriple.legal (coding .encode 0 1 256).inst ∧
    (coding .encode 0 1 256).latch.arg1.toNat < (coding .encode 0 1 256).latch.arg2.toNat ∧
    (let m := 2 ^ (8 * tiny.nBytes)
     let r := 0xFFFFFF * (1 * m / 256) / m
     tiny.floor ≤ r * 2 ^ (8 * 0) ∧ (0xFFFF * (1 * m / 256) / m * 2 ^ (8 * 1) < tiny.floor) ∧
     tiny.floor ≤ 0xFFFF * (1 * m / 256) / m * 2 ^ (8 * 2)) ∧
    faultOf .rcEncode { output [0, 0, 0, 0, 0, 0] (coding .encode 0 1 256) with rc := { Coder.reset tiny with range := 0xFFFF } } =
      some (.rcOutFull, 6#64) := by
  refine ⟨coding_inv _ _ _ _, by decide, by decide, by decide, ?_, by decide, by decide, by decide +kernel⟩
  unfold Triple.legal; decide

theorem witness_FinishFlushesTheCodeValue :
    (sess .encode).Inv ∧ (sess .encode).session = true ∧ (sess .encode).mode = .encode ∧ (sess .encode).rcFinished = false ∧
    tiny.obufCap < (output [0, 0, 0, 0] (sess .encode)).mem.obuf.length + tiny.nBytes ∧
    (output [0, 0, 0] (sess .encode)).mem.obuf.length + tiny.nBytes ≤ tiny.obufCap :=
  ⟨sess_inv .encode, by decide, by decide, by decide, by decide, by decide⟩

theorem witness_DstartReadsBigEndian :
    (sess .decode).session = true ∧ (sess .decode).mode = .decode ∧ (sess .decode).rcDecReady = false ∧
    (input [1, 2] (sess .decode)).mem.ibuf.length < tiny.nBytes ∧ tiny.nBytes ≤ (input [1, 2, 3] (sess .decode)).mem.ibuf.length := by decide

theorem witness_FetchFindsTheLargestValue :
    (coding .decode 0 0 256).session = true ∧ (coding .decode 0 0 256).mode = .decode ∧ (coding .decode 0 0 256).rcDecReady = true ∧
    (coding .decode 0 0 256).rc.low < tiny.modulus ∧ (coding .decode 0 0 256).latch.arg2.toNat ≤ 2 ^ (8 * tiny.nBytes - 16) ∧
    ¬ ((coding .decode 0 0 257).latch.arg2.toNat ≤ 2 ^ (8 * tiny.nBytes - 16)) := by decide

/-- The window 0x400000 lies in the sub-range of (0, 1, 2) and outside that of (1, 1, 2); a width of 0xFF asks for bytes the input lacks. -/
theorem witness_DecodeNarrowsAndRefills :
    CoderOk (coding .decode 0 1 2) ∧ (coding .decode 0 1 2).session = true ∧ (coding .decode 0 1 2).mode = .decode ∧
    (coding .decode 0 1 2).rcDecReady = true ∧ (coding .decode 0 1 2).opTriple.legal (coding .decode 0 1 2).inst ∧
    (coding .decode 0 1 2).latch.arg1.toNat < (coding .decode 0 1 2).latch.arg2.toNat ∧
    tiny.floor ≤ 0xFFFFFF * (1 * 2 ^ 24 / 2) / 2 ^ 24 * 2 ^ (8 * 0) ∧ (completes .rcDecode (coding .decode 0 1 2)).isSome = true ∧
    faultOf .rcDecode (coding .decode 1 1 2) = some (.rcDesync, 0x400000#64) ∧
    faultOf .rcDecode { coding .decode 0 1 256 with rc := { low := 0, range := 0xFFFF, data := 0, inPtr := 3 } } = some (.rcInUnderrun, 3#64) := by
  refine ⟨(coding_inv _ _ _ _).coder, by decide, by decide, by decide, ?_, by decide, by decide, by decide +kernel, by decide +kernel, by decide +kernel⟩
  unfold Triple.legal; decide

theorem witness_FetchFindsTheBucket :
    let t : Triple := { cum := 0, freq := 1, total := 2 }
    let s := coding .decode 0 1 2
    t.legal s.inst ∧ t.freq < t.total ∧ scaled s.inst s.rc.range t.cum t.total ≤ windowPos s ∧
    windowPos s < scaled s.inst s.rc.range t.cum t.total + scaled s.inst s.rc.range t.freq t.total := by
  unfold Triple.legal; decide

/-- An encode session of two triples, finished, and a decode session over its bytes. -/
theorem witness_RangeCoderIsExact :
    let ts : List Triple := [{ cum := 1, freq := 1, total := 2 }, { cum := 0, freq := 256, total := 256 }]
    (∀ t ∈ ts, t.legal tiny) ∧
    ((completes (.init .encode) fresh).bind (fun s0 => (runTriples .rcEncode ts s0).bind fun s1 => (completes .rcFinish s1).bind fun s2 =>
      openDecoder s2.mem.obuf fresh)).isSome = true := by
  refine ⟨?_, by decide +kernel⟩
  unfold Triple.legal; decide

theorem witness_ModelQueriesReportTheLevel :
    (sess .encode).session = true ∧ (sess .encode).acfg.alpha ≤ 3 ∧ 2 < (sess .encode).acfg.alpha ∧
    (sess .encode).ppm.esc ≤ kmax (sess .encode) ∧ (escapeOnce (sess .encode)).ppm.esc = kmax (escapeOnce (sess .encode)) + 1 := by decide

theorem witness_IcdfInvertsCdf :
    let s := (updated [1] (sess .encode)).withToken 0#64
    s.session = true ∧ 1 < s.acfg.alpha ∧ level s = .order 1 ∧ massS s (level s) ≤ 0 ∧
    cdf (escapeOnce s) (level (escapeOnce s)) 1 ≤ 0 ∧ 0 < cdf (escapeOnce s) (level (escapeOnce s)) 1 + pdf (escapeOnce s) (level (escapeOnce s)) 1 := by
  decide +kernel

theorem updated_inv : (updated [1] (sess .encode)).Inv where
  config := by constructor <;> decide +kernel
  spaces :=
    { wf := by decide +kernel, seq_cap := by decide +kernel, tok_le := by decide +kernel, dseq_cap := by decide +kernel
      obuf_cap := by decide +kernel, ibuf_cap := by decide +kernel, seq_syms := syms_of_all (by decide +kernel)
      dseq_syms := syms_of_all (by decide +kernel), cost_index := fun sel => index_of_all (by cases sel <;> decide +kernel) }
  status := by constructor <;> decide +kernel
  coder := by constructor <;> decide +kernel
  interval := by constructor <;> decide +kernel
  model := by constructor <;> decide +kernel

theorem witness_ModelTotalsAreLegal :
    (updated [1] (sess .encode)).Inv ∧ (updated [1] (sess .encode)).session = true ∧ 1 ≤ kmax (updated [1] (sess .encode)) ∧
    2 < (updated [1] (sess .encode)).acfg.alpha ∧ weight (updated [1] (sess .encode)) .base 2 ≠ 0 :=
  ⟨updated_inv, by decide, by decide, by decide, by decide +kernel⟩

theorem witness_EscapeDescendsOneLevel :
    (sess .encode).session = true ∧ level (sess .encode) = .order 0 ∧ level (escapeOnce (sess .encode)) = .base ∧
    level (updated [1] (sess .encode)) = .order 1 := by decide

/-- Each clause of the update: a symbol out of range, h at SEQ_CAP, CTX at CTX_CAP, and room. -/
theorem witness_UpdateCountsEveryOrder :
    ModelOk (updated [1] (sess .encode)) ∧ (sess .encode).acfg.alpha ≤ 3 ∧ faultOf (.ppmUpdate 0) (updated [1, 1] (sess .encode)) = some (.seqFull, 0#64) ∧
    faultOf (.ppmUpdate 0) { updated [1] (sess .encode) with inst := oneTable } = some (.ctxFull, 1#64) ∧
    (completes (.ppmUpdate 0) (updated [1] (sess .encode))).isSome = true :=
  ⟨updated_inv.model, by decide, by decide +kernel, by decide +kernel, by decide +kernel⟩

/-- The state some work goes on with. -/
def okState (x : CmdResult State) : Option State :=
  match x with
  | .ok s => some s
  | .raise _ _ _ => none
  | .stuck _ => none

/-- The fault some work raises, with its information. -/
def raised (x : CmdResult State) : Option (FaultCode × Nat) :=
  match x with
  | .ok _ => none
  | .raise f n _ => some (f, n)
  | .stuck _ => none

/-- Work that goes on and a step after it that raises. -/
theorem steps_then_raise {x : CmdResult State} {y : State → CmdResult State} {r : FaultCode × Nat}
    (hy : ∀ s1 f n s', y s1 = .raise f n s' → s' = s1) (h : (okState x).bind (fun s1 => raised (y s1)) = some r) :
    ∃ s1, x = .ok s1 ∧ y s1 = .raise r.1 r.2 s1 := by
  cases x with
  | raise f n s => cases h
  | stuck r => cases h
  | ok s1 =>
    refine ⟨s1, rfl, ?_⟩
    cases hys : y s1 with
    | ok s => simp [okState, raised, hys] at h
    | stuck q => simp [okState, raised, hys] at h
    | raise f n s' =>
      obtain rfl := hy s1 f n s' hys
      simp only [okState, raised, hys, Option.bind_some, Option.some.injEq] at h
      rw [← h]

/-- A session whose history is full. -/
def fullHist (m : Direction) : State := updated [1, 1] (sess m)

/-- A session with one context table and room for no other. -/
def fullCtx (m : Direction) : State := { updated [1] (sess m) with inst := oneTable }

/-- An encode session with OBUF full and range at FLOOR. -/
def fullOut : State := { output [0, 0, 0, 0, 0, 0] (sess .encode) with rc := { Coder.reset tiny with range := 0xFFFF } }

theorem fullHist_inv : (fullHist .encode).Inv where
  config := by constructor <;> decide +kernel
  spaces :=
    { wf := by decide +kernel, seq_cap := by decide +kernel, tok_le := by decide +kernel, dseq_cap := by decide +kernel
      obuf_cap := by decide +kernel, ibuf_cap := by decide +kernel, seq_syms := syms_of_all (by decide +kernel)
      dseq_syms := syms_of_all (by decide +kernel), cost_index := fun sel => index_of_all (by cases sel <;> decide +kernel) }
  status := by constructor <;> decide +kernel
  coder := by constructor <;> decide +kernel
  interval := by constructor <;> decide +kernel
  model := by constructor <;> decide +kernel

theorem fullCtx_inv : (fullCtx .encode).Inv where
  config := by constructor <;> decide +kernel
  spaces :=
    { wf := by decide +kernel, seq_cap := by decide +kernel, tok_le := by decide +kernel, dseq_cap := by decide +kernel
      obuf_cap := by decide +kernel, ibuf_cap := by decide +kernel, seq_syms := syms_of_all (by decide +kernel)
      dseq_syms := syms_of_all (by decide +kernel), cost_index := fun sel => index_of_all (by cases sel <;> decide +kernel) }
  status := by constructor <;> decide +kernel
  coder := by constructor <;> decide +kernel
  interval := by constructor <;> decide +kernel
  model := by constructor <;> decide +kernel

theorem fullOut_inv : fullOut.Inv where
  config := by constructor <;> decide +kernel
  spaces :=
    { wf := by decide +kernel, seq_cap := by decide +kernel, tok_le := by decide +kernel, dseq_cap := by decide +kernel
      obuf_cap := by decide +kernel, ibuf_cap := by decide +kernel, seq_syms := syms_of_all (by decide +kernel)
      dseq_syms := syms_of_all (by decide +kernel), cost_index := fun sel => index_of_all (by cases sel <;> decide +kernel) }
  status := by constructor <;> decide +kernel
  coder := by constructor <;> decide +kernel
  interval := by constructor <;> decide +kernel
  model := by constructor <;> decide +kernel

theorem witness_PpmEncodeCodesItsTriples :
    let s := sess .encode
    s.Inv ∧ s.session = true ∧ s.mode = .encode ∧ s.rcFinished = false ∧ s.ppm.esc = 0 ∧ 2 < s.acfg.alpha ∧ s.acfg.alpha ≤ 3 ∧
    s.ppm.hlen < s.inst.seqCap ∧ tableCount s.ppm + (newOrders s).length ≤ s.inst.ctxCap ∧
    s.mem.obuf.length + (kmax s + 2) * s.inst.nBytes ≤ s.inst.obufCap :=
  ⟨sess_inv .encode, by decide, by decide, by decide, by decide, by decide, by decide, by decide, by decide, by decide⟩

/-- The clauses of SEQ_FULL, at h = SEQ_CAP, and of CTX_FULL, at one table more than CTX_CAP. -/
theorem witness_PpmEncodeCodesItsTriples_full :
    (let s := fullHist .encode
     s.Inv ∧ s.session = true ∧ s.mode = .encode ∧ s.rcFinished = false ∧ s.ppm.esc = 0 ∧ s.inst.seqCap ≤ s.ppm.hlen ∧
     faultOf (.ppmEncode 0) s = some (.seqFull, 0#64)) ∧
    (let s := fullCtx .encode
     s.Inv ∧ s.session = true ∧ s.mode = .encode ∧ s.rcFinished = false ∧ s.ppm.esc = 0 ∧ s.ppm.hlen < s.inst.seqCap ∧
     s.inst.ctxCap ≠ 0 ∧ s.inst.ctxCap < tableCount s.ppm + (newOrders s).length ∧ faultOf (.ppmEncode 0) s = some (.ctxFull, 1#64)) :=
  ⟨⟨fullHist_inv, by decide, by decide, by decide, by decide, by decide, by decide +kernel⟩,
   ⟨fullCtx_inv, by decide, by decide, by decide, by decide, by decide, by decide, by decide +kernel, by decide +kernel⟩⟩

/-- The clause of a step that faults: the first escape is skipped, and the step at BASE needs a byte that OBUF has no room for. -/
theorem witness_PpmEncodeCodesItsTriples_outFull :
    let s := fullOut
    s.Inv ∧ s.session = true ∧ s.mode = .encode ∧ s.rcFinished = false ∧ s.ppm.esc = 0 ∧ 2 < s.acfg.alpha ∧ s.ppm.hlen < s.inst.seqCap ∧
    tableCount s.ppm + (newOrders s).length ≤ s.inst.ctxCap ∧
    symbolTriples s 2 (kmax s + 1) = [escapeTriple s 0] ++ codeTriple s .base 2 :: [] ∧
    (∃ s1, encSteps [escapeTriple s 0] s = .ok s1 ∧ encStep (codeTriple s .base 2) s1 = .raise .rcOutFull 6 s1) :=
  ⟨fullOut_inv, by decide, by decide, by decide, by decide, by decide, by decide, by decide +kernel, by decide +kernel,
   steps_then_raise (r := (.rcOutFull, 6)) (fun _ _ _ _ h => (encStep_raise h).1) (by decide +kernel)⟩

/-- A symbol's steps that succeed, the same with CTX full, and h at SEQ_CAP. -/
def started (data range : Nat) (s : State) : State := { s with rc := { low := 0, range := range, data := data, inPtr := 0 }, rcDecReady := true }

theorem started_hist_inv : (started 0 0xFFFFFF (fullHist .decode)).Inv where
  config := by constructor <;> decide +kernel
  spaces :=
    { wf := by decide +kernel, seq_cap := by decide +kernel, tok_le := by decide +kernel, dseq_cap := by decide +kernel
      obuf_cap := by decide +kernel, ibuf_cap := by decide +kernel, seq_syms := syms_of_all (by decide +kernel)
      dseq_syms := syms_of_all (by decide +kernel), cost_index := fun sel => index_of_all (by cases sel <;> decide +kernel) }
  status := by constructor <;> decide +kernel
  coder := by constructor <;> decide +kernel
  interval := by constructor <;> decide +kernel
  model := by constructor <;> decide +kernel

theorem started_ctx_inv : (started 0 0xFFFFFF (fullCtx .decode)).Inv where
  config := by constructor <;> decide +kernel
  spaces :=
    { wf := by decide +kernel, seq_cap := by decide +kernel, tok_le := by decide +kernel, dseq_cap := by decide +kernel
      obuf_cap := by decide +kernel, ibuf_cap := by decide +kernel, seq_syms := syms_of_all (by decide +kernel)
      dseq_syms := syms_of_all (by decide +kernel), cost_index := fun sel => index_of_all (by cases sel <;> decide +kernel) }
  status := by constructor <;> decide +kernel
  coder := by constructor <;> decide +kernel
  interval := by constructor <;> decide +kernel
  model := by constructor <;> decide +kernel

theorem steps_succeed {x : CmdResult State} (h : (okState x).isSome = true) : ∃ s1, x = .ok s1 := by
  cases x with
  | ok s1 => exact ⟨s1, rfl⟩
  | raise f n s => cases h
  | stuck r => cases h

theorem witness_PpmDecodeReturnsTheCodedSymbol :
    let s := ready [0x40, 0, 0]
    s.Inv ∧ s.session = true ∧ s.mode = .decode ∧ s.rcDecReady = true ∧ s.ppm.esc = 0 ∧ 0 < s.acfg.alpha ∧ s.ppm.hlen < s.inst.seqCap ∧
    tableCount s.ppm + (newOrders s).length ≤ s.inst.ctxCap ∧ ∃ s1, decSteps (symbolTriples s 0 (kmax s + 1)) s = .ok s1 :=
  ⟨ready_inv, by decide, by decide, by decide, by decide, by decide, by decide, by decide, steps_succeed (by decide +kernel)⟩

theorem witness_PpmDecodeReturnsTheCodedSymbol_full :
    (let s := started 0 0xFFFFFF (fullHist .decode)
     s.Inv ∧ s.session = true ∧ s.mode = .decode ∧ s.rcDecReady = true ∧ s.ppm.esc = 0 ∧ s.inst.seqCap ≤ s.ppm.hlen ∧
     faultOf .ppmDecode s = some (.seqFull, 0#64)) ∧
    (let s := started 0 0xFFFFFF (fullCtx .decode)
     s.Inv ∧ s.session = true ∧ s.mode = .decode ∧ s.rcDecReady = true ∧ s.ppm.esc = 0 ∧ s.ppm.hlen < s.inst.seqCap ∧ 1 < s.acfg.alpha ∧
     s.inst.ctxCap ≠ 0 ∧ s.inst.ctxCap < tableCount s.ppm + (newOrders s).length ∧
     (∃ s1, decSteps (symbolTriples s 1 (kmax s + 1)) s = .ok s1) ∧ faultOf .ppmDecode s = some (.ctxFull, 1#64)) :=
  ⟨⟨started_hist_inv, by decide, by decide, by decide, by decide, by decide, by decide +kernel⟩,
   ⟨started_ctx_inv, by decide, by decide, by decide, by decide, by decide, by decide, by decide, by decide +kernel,
    steps_succeed (by decide +kernel), by decide +kernel⟩⟩

/-- An alphabet of one symbol, seen once (A = 1, K = 0, METHOD C): U is empty, and the window lies in the escape zone [1, 2) of order 0. -/
def emptyU : State :=
  started 0xC00000 0xFFFFFF (updated [0] (State.startSession { fresh with cfg := { cfgSmall with alpha := 1#17, order := 0#4 } } .decode))

theorem emptyU_inv : emptyU.Inv where
  config := by constructor <;> decide +kernel
  spaces :=
    { wf := by decide +kernel, seq_cap := by decide +kernel, tok_le := by decide +kernel, dseq_cap := by decide +kernel
      obuf_cap := by decide +kernel, ibuf_cap := by decide +kernel, seq_syms := syms_of_all (by decide +kernel)
      dseq_syms := syms_of_all (by decide +kernel), cost_index := fun sel => index_of_all (by cases sel <;> decide +kernel) }
  status := by constructor <;> decide +kernel
  coder := by constructor <;> decide +kernel
  interval := by constructor <;> decide +kernel
  model := by constructor <;> decide +kernel

theorem started_desync_inv : (started 0xFFFFFE 0xFFFFFF (sess .decode)).Inv where
  config := by constructor <;> decide +kernel
  spaces :=
    { wf := by decide +kernel, seq_cap := by decide +kernel, tok_le := by decide +kernel, dseq_cap := by decide +kernel
      obuf_cap := by decide +kernel, ibuf_cap := by decide +kernel, seq_syms := syms_of_all (by decide +kernel)
      dseq_syms := syms_of_all (by decide +kernel), cost_index := fun sel => index_of_all (by cases sel <;> decide +kernel) }
  status := by constructor <;> decide +kernel
  coder := by constructor <;> decide +kernel
  interval := by constructor <;> decide +kernel
  model := by constructor <;> decide +kernel

theorem started_underrun_inv : (started 0 0xFFFF (sess .decode)).Inv where
  config := by constructor <;> decide +kernel
  spaces :=
    { wf := by decide +kernel, seq_cap := by decide +kernel, tok_le := by decide +kernel, dseq_cap := by decide +kernel
      obuf_cap := by decide +kernel, ibuf_cap := by decide +kernel, seq_syms := syms_of_all (by decide +kernel)
      dseq_syms := syms_of_all (by decide +kernel), cost_index := fun sel => index_of_all (by cases sel <;> decide +kernel) }
  status := by constructor <;> decide +kernel
  coder := by constructor <;> decide +kernel
  interval := by constructor <;> decide +kernel
  model := by constructor <;> decide +kernel

theorem witness_PpmDecodeReturnsTheCodedSymbol_emptyU :
    emptyU.Inv ∧ emptyU.session = true ∧ emptyU.mode = .decode ∧ emptyU.rcDecReady = true ∧ emptyU.ppm.esc = 0 ∧
    emptyU.ppm.hlen < emptyU.inst.seqCap ∧ (∃ s1, decSteps (escapesFromTop emptyU (kmax emptyU + 1)) emptyU = .ok s1) ∧ massS emptyU .base = 0 ∧
    faultOf .ppmDecode emptyU = some (.rcDesync, 0x400001#64) :=
  ⟨emptyU_inv, by decide, by decide, by decide, by decide, by decide, steps_succeed (by decide +kernel), by decide +kernel, by decide +kernel⟩

/-- The clause of a step that faults after the one escape of a fresh session, at BASE over three symbols: the window past the last sub-range, and a byte the input lacks. -/
theorem witness_PpmDecodeReturnsTheCodedSymbol_step :
    ∀ e ∈ [(started 0xFFFFFE 0xFFFFFF (sess .decode), FaultCode.rcDesync, 0xFFFFFE), (started 0 0xFFFF (sess .decode), .rcInUnderrun, 0)],
      e.1.Inv ∧ e.1.session = true ∧ e.1.mode = .decode ∧ e.1.rcDecReady = true ∧ e.1.ppm.esc = 0 ∧ e.1.ppm.hlen < e.1.inst.seqCap ∧
      1 ≤ kmax e.1 + 1 ∧ massE e.1 .base ≠ massD e.1 .base ∧
      ¬ (massE e.1 .base = 0 ∧ ((List.range e.1.acfg.alpha).filter (fun x => 0 < weight e.1 .base x)).length = 1) ∧
      (∃ s1, decSteps (escapesFromTop e.1 1) e.1 = .ok s1 ∧
        decStep (fetchedTriple e.1 .base (decFetch (massD e.1 .base) s1)) s1 = .raise e.2.1 e.2.2 s1) := by
  intro e he
  rcases List.mem_pair.mp he with rfl | rfl
  · exact ⟨started_desync_inv, by decide, by decide, by decide, by decide, by decide, by decide, by decide +kernel, by decide +kernel,
      steps_then_raise (r := (.rcDesync, 0xFFFFFE))
        (y := fun s1 => decStep (fetchedTriple (started 0xFFFFFE 0xFFFFFF (sess .decode)) .base
          (decFetch (massD (started 0xFFFFFE 0xFFFFFF (sess .decode)) .base) s1)) s1)
        (fun _ _ _ _ h => (decStep_raise h).1) (by decide +kernel)⟩
  · exact ⟨started_underrun_inv, by decide, by decide, by decide, by decide, by decide, by decide, by decide +kernel, by decide +kernel,
      steps_then_raise (r := (.rcInUnderrun, 0))
        (y := fun s1 => decStep (fetchedTriple (started 0 0xFFFF (sess .decode)) .base
          (decFetch (massD (started 0 0xFFFF (sess .decode)) .base) s1)) s1)
        (fun _ _ _ _ h => (decStep_raise h).1) (by decide +kernel)⟩

/-- Two symbols coded, finished and opened again, on the small instance. -/
theorem witness_PpmRoundTrip :
    fresh.inst.nBytes = tiny.nBytes ∧ tiny.seqCap ≤ fresh.inst.seqCap ∧ (tiny.ctxCap ≠ 0 ∧ tiny.ctxCap ≤ fresh.inst.ctxCap) ∧
    ((completes (.init .encode) fresh).bind (fun s0 => (encodeSymbols [1, 1] s0).bind fun s1 => (completes .rcFinish s1).bind fun s2 =>
      (openDecoder s2.mem.obuf fresh).map fun d0 =>
        decide (d0.acfg.alpha = s0.acfg.alpha ∧ d0.acfg.order = s0.acfg.order ∧ d0.acfg.method = s0.acfg.method))) = some true := by
  decide +kernel

end Sys2Proof.Tests
end

section
/-! PROOFS. How a command's work can end, and what every command leaves to the host (10_state.md R34, 40_control.md R132). -/

namespace Sys2Proof.Machine

/-! ### Where a command's work ends -/

/-- However the work ends, what it leaves is as wanted: Q of the value it goes on with, P of the state a fault is raised in. -/
def CmdResult.Ends {α : Type} (Q : α → Prop) (P : State → Prop) : CmdResult α → Prop
  | .ok a => Q a
  | .raise _ _ s => P s
  | .stuck _ => True

namespace CmdResult.Ends

variable {α β : Type} {Q : α → Prop} {P : State → Prop}

theorem ok {a : α} (h : Q a) : (CmdResult.ok a).Ends Q P := h

/-- From what is known of the two ways to end. -/
theorem of_cases {x : CmdResult α} (hok : ∀ a, x = .ok a → Q a) (hraise : ∀ f n s, x = .raise f n s → P s) : x.Ends Q P := by
  cases x with
  | ok a => exact hok a rfl
  | raise f n s => exact hraise f n s rfl
  | stuck r => trivial

theorem require {c : Bool} {f : FaultCode} {n : Nat} {s : State} {rest : CmdResult α} (hs : P s) (h : rest.Ends Q P) :
    (require c f n s rest).Ends Q P := by
  cases c with
  | true => exact h
  | false => exact hs

theorem withNeeds {o : Opcode} {s : State} {rest : CmdResult α} (hs : P s) (h : rest.Ends Q P) : (withNeeds o s rest).Ends Q P := by
  rcases withNeeds_cases o s rest with ⟨_, he⟩ | ⟨_, _, he⟩ | ⟨_, _, he⟩ <;> rw [he]
  · exact h
  · exact hs
  · exact hs

theorem andThen {R : β → Prop} {x : CmdResult α} {f : α → CmdResult β} (hx : x.Ends Q P) (hf : ∀ a, Q a → (f a).Ends R P) :
    (x.andThen f).Ends R P := by
  cases x with
  | ok a => exact hf a hx
  | raise c n s => exact hx
  | stuck r => trivial

end CmdResult.Ends

/-! ### The part of the state that only the host's side moves -/

/-- The parameters, the registers only the host writes, the latch and the outside world. -/
structure HostPart where
  inst : Params
  args : Word × Word × Word
  cfg : CfgRegs
  doneIE : Bool
  faultIE : Bool
  latch : Latch
  env : Env

/-- The host's part of a state. -/
def State.hostPart (s : State) : HostPart :=
  { inst := s.inst, args := (s.arg0, s.arg1, s.arg2), cfg := s.cfg, doneIE := s.doneIE, faultIE := s.faultIE, latch := s.latch, env := s.env }

/-- t and s agree on the host's part. -/
def SameHostPart (s t : State) : Prop := t.hostPart = s.hostPart

theorem sameHostPart_iff {s t : State} :
    SameHostPart s t ↔ t.inst = s.inst ∧ t.arg0 = s.arg0 ∧ t.arg1 = s.arg1 ∧ t.arg2 = s.arg2 ∧ t.cfg = s.cfg ∧
      t.doneIE = s.doneIE ∧ t.faultIE = s.faultIE ∧ t.latch = s.latch ∧ t.env = s.env := by
  simp [SameHostPart, State.hostPart, and_assoc]

theorem SameHostPart.refl (s : State) : SameHostPart s s := rfl

theorem SameHostPart.trans {s t u : State} (h : SameHostPart s t) (h' : SameHostPart t u) : SameHostPart s u := Eq.trans h' h

theorem LoopFrame.sameHostPart {s t : State} (h : LoopFrame s t) : SameHostPart s t := by
  unfold LoopFrame at h
  rw [h]; rfl

theorem CoderFrame.sameHostPart {s t : State} (h : CoderFrame s t) : SameHostPart s t := h.loop.sameHostPart

theorem sameHostPart_complete (s : State) : SameHostPart s s.complete := rfl

theorem sameHostPart_takeFault (s : State) (f : FaultCode) (n : Nat) : SameHostPart s (s.takeFault f n) := by simp [sameHostPart_iff]

/-- Work that leaves the host's part of s as it was, whether it goes on or faults. -/
def KeepsHostPart (s : State) (x : CmdResult State) : Prop := x.Ends (SameHostPart s) (SameHostPart s)

theorem finish_sameHostPart {s t : State} {x : CmdResult State} (hx : KeepsHostPart s x) (h : finish x = .next t) : SameHostPart s t := by
  rcases finish_eq_next.mp h with ⟨u, rfl, rfl⟩ | ⟨f, n, u, rfl, rfl⟩
  · exact SameHostPart.trans hx (sameHostPart_complete u)
  · exact SameHostPart.trans hx (sameHostPart_takeFault u f n)

theorem encStep_keepsHostPart (t : Triple) (s : State) : KeepsHostPart s (encStep t s) :=
  .of_cases (fun _ h => (encStep_frame h).sameHostPart) (fun _ _ _ h => (encStep_raise h).1 ▸ .refl s)

theorem decStep_keepsHostPart (t : Triple) (s : State) : KeepsHostPart s (decStep t s) :=
  .of_cases (fun _ h => (decStep_coderFrame h).sameHostPart) (fun _ _ _ h => (decStep_raise h).1 ▸ .refl s)

theorem encFinish_keepsHostPart (s : State) : KeepsHostPart s (encFinish s) := by
  unfold encFinish
  split
  · exact SameHostPart.refl s
  · next u hu => exact .require (.refl s) ((addCarry_frame hu).sameHostPart.trans rfl)

theorem encodeLoop_keepsHostPart (sym n : Nat) (s : State) : KeepsHostPart s (encodeLoop sym n s) :=
  .of_cases (fun _ h => (encodeLoop_frame h).sameHostPart) (fun _ _ _ h => (encodeLoop_raise h).1.sameHostPart)

theorem decodeLoop_ends_sameHostPart (n : Nat) (s : State) :
    (decodeLoop n s).Ends (fun r => SameHostPart s r.2) (SameHostPart s) :=
  .of_cases (fun _ h => (decodeLoop_frame h).sameHostPart) (fun _ _ _ h => (decodeLoop_raise h).1.sameHostPart)

theorem withCostEntry_keepsHostPart (table index : Nat) {s : State} {rest : CostSel → CmdResult State}
    (h : ∀ sel, KeepsHostPart s (rest sel)) : KeepsHostPart s (withCostEntry table index s rest) := by
  unfold withCostEntry
  split
  · exact SameHostPart.refl s
  · next sel _ => exact .require (.refl s) (h sel)

/-- Every command is work brought to an end by `finish`, and that work leaves the host's part alone. -/
theorem exec_eq_finish (i : Instr) (s : State) : ∃ x, exec i s = finish x ∧ KeepsHostPart s x := by
  have hs : SameHostPart s s := .refl s
  cases i
  case nop => exact ⟨.ok s, rfl, .ok hs⟩
  all_goals refine ⟨_, rfl, ?_⟩
  case init m => exact .withNeeds hs (.require hs (.require hs (.require hs (.require hs (.require hs (.ok rfl))))))
  case stmPush sym => exact .withNeeds hs (.require hs (.require hs (.ok rfl)))
  case stmQuery idx => exact .withNeeds hs (.require hs (.ok rfl))
  case stmRead idx => exact .withNeeds hs (.require hs (.ok rfl))
  case psuParse => exact .withNeeds hs (.ok rfl)
  case psuToken idx => exact .withNeeds hs (.require hs (.ok rfl))
  case psuSetcost table index => exact .withNeeds hs (withCostEntry_keepsHostPart _ _ fun _ => .require hs (.ok rfl))
  case psuGetcost table index => exact .withNeeds hs (withCostEntry_keepsHostPart _ _ fun _ => .ok rfl)
  case psuExpand => exact .withNeeds hs (.require hs (.require hs (.ok rfl)))
  case psuDread idx => exact .withNeeds hs (.require hs (.ok rfl))
  case rcEncode => exact .withNeeds hs (.require hs (encStep_keepsHostPart _ s))
  case rcFinish => exact .withNeeds hs (.require hs (encFinish_keepsHostPart s))
  case rcOutbyte idx => exact .withNeeds hs (.require hs (.ok rfl))
  case rcInbyte byte => exact .withNeeds hs (.require hs (.require hs (.ok rfl)))
  case rcDstart => exact .withNeeds hs (.require hs (.require hs (.ok rfl)))
  case rcFetch => exact .withNeeds hs (.require hs (.require hs (.ok rfl)))
  case rcDecode => exact .withNeeds hs (.require hs (decStep_keepsHostPart _ s))
  case ppmEncode sym =>
    exact .withNeeds hs (.require hs (.require hs (.require hs (.require hs (.require hs
      (.andThen (encodeLoop_keepsHostPart _ _ s) fun _ h => .ok (by simpa [sameHostPart_iff] using h)))))))
  case ppmDecode =>
    exact .withNeeds hs (.require hs (.require hs (.require hs
      (.andThen (decodeLoop_ends_sameHostPart _ s) fun _ h => .require h (.ok (by simpa [sameHostPart_iff] using h))))))
  case ppmHasesc sym => exact .withNeeds hs (.require hs (.ok rfl))
  case ppmNumden => exact .withNeeds hs (.ok rfl)
  case ppmCdf sym => exact .withNeeds hs (.require hs (.ok rfl))
  case ppmIcdf => exact .withNeeds hs (.require hs (.ok rfl))
  case ppmEscape => exact .withNeeds hs (.require hs (.ok rfl))
  case ppmUpdate sym => exact .withNeeds hs (.require hs (.require hs (.require hs (.ok rfl))))

theorem exec_ne_refused (i : Instr) (s : State) (r : Refusal) : exec i s ≠ .refused r := by
  obtain ⟨x, hx, _⟩ := exec_eq_finish i s
  rw [hx]
  exact finish_ne_refused x r

theorem exec_sameHostPart {i : Instr} {s t : State} (h : exec i s = .next t) : SameHostPart s t := by
  obtain ⟨x, hx, hk⟩ := exec_eq_finish i s
  exact finish_sameHostPart hk (hx ▸ h)

end Sys2Proof.Machine
end

section
/-! PROOFS. What one step can do (00_scope.md R8, R13): its cases, the steps that are refused, and the parameters, which no step changes. -/

namespace Sys2Proof.Machine

/-- The state in which an access is made: its turn taken off the schedule, and the accesses after it still to come. -/
def State.takeAccess (s : State) (rest : List Access) : State :=
  { s.takeTurn with env := { s.takeTurn.env with todo := rest } }

@[simp] theorem State.takeAccess_inst (s : State) (rest : List Access) : (s.takeAccess rest).inst = s.inst := rfl

/-- Everything a step can do, where it answers a next state. -/
inductive StepTo (s : State) : State → Prop where
  | idle : (s.nextAgent = .core ∧ s.busy = false) ∨ (s.nextAgent = .host ∧ s.env.todo = []) → StepTo s s.takeTurn
  | command {i : Instr} {t : State} : s.nextAgent = .core → s.busy = true → decode s.latch.word = .command i →
      exec i s.takeTurn = .next t → StepTo s t
  | illegal {r : Reject} : s.nextAgent = .core → s.busy = true → decode s.latch.word = .rejected r →
      StepTo s (s.takeTurn.takeFault .illegalCmd s.latch.word.toNat)
  | reset {rest : List Access} : s.nextAgent = .host → s.env.todo = .rst :: rest → StepTo s (s.takeAccess rest).resetNow
  | read {addr bytes off : Nat} {rest : List Access} : s.nextAgent = .host → s.env.todo = .read addr bytes :: rest →
      windowOffset s.inst addr bytes = .ok off → StepTo s (hostRead (s.takeAccess rest) off)
  | write {addr bytes off : Nat} {v : Word} {rest : List Access} : s.nextAgent = .host → s.env.todo = .write addr bytes v :: rest →
      windowOffset s.inst addr bytes = .ok off → StepTo s (hostWrite (s.takeAccess rest) off v)

/-! ### The two turns -/

theorem coreTurn_of_idle {s : State} (h : s.busy = false) : coreTurn s = .next s := by simp [coreTurn, h]

theorem coreTurn_of_command {s : State} {i : Instr} (hb : s.busy = true) (h : decode s.latch.word = .command i) :
    coreTurn s = exec i s := by simp [coreTurn, hb, h]

theorem coreTurn_of_rejected {s : State} {r : Reject} (hb : s.busy = true) (h : decode s.latch.word = .rejected r) :
    coreTurn s = .next (s.takeFault .illegalCmd s.latch.word.toNat) := by simp [coreTurn, hb, h, illegalCommand]

theorem step_of_core {s : State} (h : s.nextAgent = .core) : step s = coreTurn s.takeTurn := by simp [step, h]

theorem step_of_host_idle {s : State} (h : s.nextAgent = .host) (ht : s.env.todo = []) : step s = .next s.takeTurn := by
  simp [step, h, hostTurn, State.takeTurn, ht]

theorem step_of_access {s : State} {a : Access} {rest : List Access} (h : s.nextAgent = .host) (ht : s.env.todo = a :: rest) :
    step s = performAccess (s.takeAccess rest) a := by
  simp [step, h, hostTurn, State.takeAccess, State.takeTurn, ht]

/-- The cases of a step are all it can do. -/
theorem stepTo_of_step {s t : State} (h : step s = .next t) : StepTo s t := by
  cases ha : s.nextAgent with
  | core =>
    rw [step_of_core ha] at h
    cases hb : s.busy with
    | false =>
      rw [coreTurn_of_idle (s := s.takeTurn) hb] at h
      cases h
      exact .idle (.inl ⟨ha, hb⟩)
    | true =>
      cases hd : decode s.latch.word with
      | command i => exact .command ha hb hd (coreTurn_of_command (s := s.takeTurn) hb hd ▸ h)
      | rejected r =>
        rw [coreTurn_of_rejected (s := s.takeTurn) hb hd] at h
        cases h
        exact .illegal ha hb hd
  | host =>
    cases ht : s.env.todo with
    | nil =>
      rw [step_of_host_idle ha ht] at h
      cases h
      exact .idle (.inr ⟨ha, ht⟩)
    | cons a rest =>
      rw [step_of_access ha ht] at h
      cases a with
      | rst => cases h; exact .reset ha ht
      | read addr bytes =>
        simp only [performAccess] at h
        split at h
        · cases h
        · next off ho => cases h; exact .read ha ht ho
      | write addr bytes v =>
        simp only [performAccess] at h
        split at h
        · cases h
        · next off ho => cases h; exact .write ha ht ho

/-! ### The refused steps -/

/-- An access that has no meaning: outside the window, of another width, or misaligned (10_state.md R46, 20_memory.md R78). -/
def badAccess (p : Params) (addr bytes : Nat) : Prop :=
  addr < p.regBase ∨ p.regBase + 4096 ≤ addr ∨ bytes ≠ 8 ∨ (addr - p.regBase) % 8 ≠ 0

theorem badAccess_of_windowOffset_error {p : Params} {addr bytes : Nat} {r : Refusal} (h : windowOffset p addr bytes = .error r) :
    badAccess p addr bytes := by
  unfold windowOffset at h
  unfold badAccess
  split at h
  · next hout => omega
  · split at h
    · next hwidth => exact .inr (.inr (.inl hwidth))
    · split at h
      · next halign => exact .inr (.inr (.inr halign))
      · cases h

theorem coreTurn_ne_refused (s : State) (r : Refusal) : coreTurn s ≠ .refused r := by
  cases hb : s.busy with
  | false => simp [coreTurn_of_idle hb]
  | true =>
    cases hd : decode s.latch.word with
    | command i => rw [coreTurn_of_command hb hd]; exact exec_ne_refused i s r
    | rejected q => simp [coreTurn_of_rejected hb hd]

/-- The accesses that are refused are reads and writes without a meaning. -/
theorem performAccess_eq_refused {s : State} {a : Access} {r : Refusal} (h : performAccess s a = .refused r) :
    ∃ addr bytes, ((∃ v, a = .write addr bytes v) ∨ a = .read addr bytes) ∧ badAccess s.inst addr bytes := by
  cases a with
  | rst => cases h
  | read addr bytes =>
    refine ⟨addr, bytes, .inr rfl, ?_⟩
    simp only [performAccess] at h
    split at h
    · next q hq => exact badAccess_of_windowOffset_error hq
    · cases h
  | write addr bytes v =>
    refine ⟨addr, bytes, .inl ⟨v, rfl⟩, ?_⟩
    simp only [performAccess] at h
    split at h
    · next q hq => exact badAccess_of_windowOffset_error hq
    · cases h

/-- Settles O31: a turn of the core is never refused, so a refused step is a host access that the window gives no meaning. -/
theorem onlyBadAccessesAreRefused : Obligations.OnlyBadAccessesAreRefused := by
  intro s r h
  cases ha : s.nextAgent with
  | core => exact absurd (step_of_core ha ▸ h) (coreTurn_ne_refused _ r)
  | host =>
    cases ht : s.env.todo with
    | nil => rw [step_of_host_idle ha ht] at h; cases h
    | cons a rest =>
      rw [step_of_access ha ht] at h
      obtain ⟨addr, bytes, hacc, hbad⟩ := performAccess_eq_refused h
      refine ⟨rfl, addr, bytes, rest, ?_, hbad⟩
      rcases hacc with ⟨v, rfl⟩ | rfl
      · exact .inl ⟨v, rfl⟩
      · exact .inr rfl

/-! ### The parameters -/

@[simp] theorem hostRead_inst (s : State) (off : Nat) : (hostRead s off).inst = s.inst := by
  unfold hostRead
  split <;> rfl

@[simp] theorem writeCmd_inst (s : State) (w : Word) : (writeCmd s w).inst = s.inst := by
  unfold writeCmd
  split
  · rfl
  · split
    · exact State.recordFault_inst s _ _ _
    · rfl

@[simp] theorem writeCtrl_inst (s : State) (v : Word) : (writeCtrl s v).inst = s.inst := by
  unfold writeCtrl
  split <;> rfl

@[simp] theorem regWrite_inst (s : State) (r : Reg) (v : Word) : (regWrite s r v).inst = s.inst := by
  cases r with
  | ctrl => exact writeCtrl_inst s v
  | cmd => exact writeCmd_inst s v
  | _ => rfl

@[simp] theorem hostWrite_inst (s : State) (off : Nat) (v : Word) : (hostWrite s off v).inst = s.inst := by
  unfold hostWrite
  split
  · rfl
  · exact regWrite_inst s _ v

/-- Settles O32: the parameters are in the host's part, which no command changes, and neither a reset nor an access writes them. -/
theorem parametersNeverChange : Obligations.ParametersNeverChange := by
  intro s t h
  cases stepTo_of_step h with
  | idle _ => rfl
  | command _ _ _ hx =>
    obtain ⟨hinst, _⟩ := sameHostPart_iff.mp (exec_sameHostPart hx)
    exact hinst
  | illegal _ _ _ => exact State.takeFault_inst _ _ _
  | reset _ _ => rfl
  | read _ _ _ => exact hostRead_inst _ _
  | write _ _ _ => exact hostWrite_inst _ _ _

end Sys2Proof.Machine
end

section
/-! PROOFS. What a command may write: its footprint, and the registers and spaces outside it (10_state.md R30, R34, R35, R42 to R44, 30_encoding.md R107). -/

namespace Sys2Proof.Machine

/-! ### More rules for how work ends -/

namespace CmdResult.Ends

variable {α : Type} {Q Q' : α → Prop} {P P' : State → Prop}

theorem mono {x : CmdResult α} (h : x.Ends Q P) (hQ : ∀ a, Q a → Q' a) (hP : ∀ s, P s → P' s) : x.Ends Q' P' := by
  cases x with
  | ok a => exact hQ a h
  | raise f n s => exact hP s h
  | stuck r => trivial

/-- After a check, its condition is known. -/
theorem require_decide {p : Prop} [Decidable p] {f : FaultCode} {n : Nat} {s : State} {rest : CmdResult α} (hs : P s)
    (h : p → rest.Ends Q P) : (Machine.require (decide p) f n s rest).Ends Q P := by
  by_cases hp : p
  · rw [require_pass hp]; exact h hp
  · rw [require_fail hp]; exact hs

theorem require_not {c : Bool} {f : FaultCode} {n : Nat} {s : State} {rest : CmdResult α} (hs : P s) (h : c = false → rest.Ends Q P) :
    (Machine.require (!c) f n s rest).Ends Q P := by
  cases c with
  | true => exact hs
  | false => exact h rfl

/-- What is known of a value the work goes on with can be added. -/
theorem and_ok {x : CmdResult α} (h : x.Ends Q P) (h' : ∀ a, x = .ok a → Q' a) : x.Ends (fun a => Q a ∧ Q' a) P := by
  cases x with
  | ok a => exact ⟨h, h' a rfl⟩
  | raise f n s => exact h
  | stuck r => trivial

/-- After the checks of its needs, a command's needs are met. -/
theorem withNeeds_met {o : Opcode} {s : State} {rest : CmdResult α} (hs : P s) (h : (needsOf o).met s → rest.Ends Q P) :
    (Machine.withNeeds o s rest).Ends Q P := by
  rcases withNeeds_cases o s rest with ⟨hm, he⟩ | ⟨_, _, he⟩ | ⟨_, _, he⟩ <;> rw [he]
  · exact h hm
  · exact hs
  · exact hs

end CmdResult.Ends

/-- What every encode step and every escape keeps, the encode loop keeps; I may speak of the order levels left (44_frequency_model.md R260). -/
theorem encodeLoop_ends {I : Nat → State → Prop} {P : State → Prop} (hstep : ∀ n t u, I n u → (encStep t u).Ends (I n) (I n))
    (hescape : ∀ n u, I (n + 1) u → I n (escapeOnce u)) (hP : ∀ n u, I n u → P u) (sym : Nat) {n : Nat} {s : State} (hs : I n s) :
    (encodeLoop sym n s).Ends P P := by
  have hlast (n : Nat) (t : Triple) (u : State) (hu : I n u) : (encStep t u).Ends P P := (hstep n t u hu).mono (hP n) (hP n)
  induction n generalizing s with
  | zero => exact hlast 0 _ s hs
  | succ k ih =>
    unfold encodeLoop
    split
    · exact .andThen ((hstep (k + 1) _ s hs).mono (fun _ => id) (hP (k + 1))) fun u hu => ih (hescape k u hu)
    · exact hlast (k + 1) _ s hs

/-- What every decode step and every escape keeps, the decode loop keeps (44_frequency_model.md R261). -/
theorem decodeLoop_ends {I : Nat → State → Prop} {P : State → Prop} (hstep : ∀ n t u, I n u → (decStep t u).Ends (I n) (I n))
    (hescape : ∀ n u, I (n + 1) u → I n (escapeOnce u)) (hP : ∀ n u, I n u → P u) {n : Nat} {s : State} (hs : I n s) :
    (decodeLoop n s).Ends (fun r => P r.2) P := by
  have hlast (n : Nat) (t : Triple) (u : State) (x : Nat) (hu : I n u) :
      ((decStep t u).andThen fun u' => .ok (x, u')).Ends (fun r => P r.2) P :=
    .andThen ((hstep n t u hu).mono (hP n) (hP n)) fun _ h => h
  induction n generalizing s with
  | zero =>
    unfold decodeLoop
    simp only
    split
    · exact hP 0 s hs
    · split
      · exact hP 0 s hs
      · exact hlast 0 _ s _ hs
  | succ k ih =>
    unfold decodeLoop
    simp only
    split
    · exact ih (hescape k s hs)
    · split
      · exact hP (k + 1) s hs
      · split
        · exact .andThen ((hstep (k + 1) _ s hs).mono (fun _ => id) (hP (k + 1))) fun u hu => ih (hescape k u hu)
        · exact hlast (k + 1) _ s _ hs

/-! ### The footprint of a command -/

/-- s, with the parts that a command of opcode o may write taken from u: the registers of `writtenRegs` with their spaces, ESC, the fields of STATUS, ACFG and the cost tables (10_state.md R28 to R30, R42; 30_encoding.md R107). -/
def footprint (o : Opcode) (s u : State) : State :=
  { s with
    session := if o = .init then u.session else s.session
    mode := if o = .init then u.mode else s.mode
    acfg := if o = .init then u.acfg else s.acfg
    rcFinished := if o = .init ∨ o = .rcFinish then u.rcFinished else s.rcFinished
    rcDecReady := if o = .init ∨ o = .rcDstart then u.rcDecReady else s.rcDecReady
    res0 := if .res0 ∈ writtenRegs o then u.res0 else s.res0
    res1 := if .res1 ∈ writtenRegs o then u.res1 else s.res1
    res2 := if .res2 ∈ writtenRegs o then u.res2 else s.res2
    mem :=
      { seq := if .seqLen ∈ writtenRegs o then u.mem.seq else s.mem.seq
        tok := if .tokCount ∈ writtenRegs o then u.mem.tok else s.mem.tok
        dseq := if .dseqLen ∈ writtenRegs o then u.mem.dseq else s.mem.dseq
        obuf := if .outLen ∈ writtenRegs o then u.mem.obuf else s.mem.obuf
        ibuf := if .inLen ∈ writtenRegs o then u.mem.ibuf else s.mem.ibuf
        litcost := if o = .psuSetcost then u.mem.litcost else s.mem.litcost
        lencost := if o = .psuSetcost then u.mem.lencost else s.mem.lencost
        distcost := if o = .psuSetcost then u.mem.distcost else s.mem.distcost }
    rc :=
      { low := if .rcLow ∈ writtenRegs o then u.rc.low else s.rc.low
        range := if .rcRange ∈ writtenRegs o then u.rc.range else s.rc.range
        data := if .rcData ∈ writtenRegs o then u.rc.data else s.rc.data
        inPtr := if .inPtr ∈ writtenRegs o then u.rc.inPtr else s.rc.inPtr }
    ppm :=
      { ctx := if .ppmHlen ∈ writtenRegs o then u.ppm.ctx else s.ppm.ctx
        hist := if .ppmHlen ∈ writtenRegs o then u.ppm.hist else s.ppm.hist
        hlen := if .ppmHlen ∈ writtenRegs o then u.ppm.hlen else s.ppm.hlen
        esc := if writesEsc o then u.ppm.esc else s.ppm.esc } }

theorem ite_else_ite {α : Type} {c : Prop} [Decidable c] (a b d : α) : (if c then a else if c then b else d) = if c then a else d := by
  split <;> rfl

/-- A command's later writes hide its earlier ones. -/
theorem footprint_footprint (o : Opcode) (s t u : State) : footprint o (footprint o s t) u = footprint o s u := by
  simp only [footprint, ite_else_ite]

/-- u differs from s in the footprint of opcode o only. -/
def Within (o : Opcode) (s u : State) : Prop := u = footprint o s u

namespace Within

variable {o : Opcode} {s t u : State}

theorem refl (o : Opcode) (s : State) : Within o s s := by simp [Within, footprint]

theorem trans (h : Within o s t) (h' : Within o t u) : Within o s u :=
  Eq.trans h' ((congrArg (footprint o · u) h).trans (footprint_footprint o s t u))

/-! Each elementary update is within the footprint of the opcodes that name what it writes. -/

theorem setRes0 (v : Word) (h : .res0 ∈ writtenRegs o) : Within o s (s.setRes0 v) := by simp [Within, footprint, State.setRes0, h]

theorem setRes1 (v : Word) (h : .res1 ∈ writtenRegs o) : Within o s (s.setRes1 v) := by simp [Within, footprint, State.setRes1, h]

theorem withOutput (l : List Byte) (x : Nat) (hout : .outLen ∈ writtenRegs o) (hlow : .rcLow ∈ writtenRegs o) :
    Within o s { s with mem := { s.mem with obuf := l }, rc := { s.rc with low := x } } := by simp [Within, footprint, hout, hlow]

theorem withRange (x : Nat) (h : .rcRange ∈ writtenRegs o) : Within o s { s with rc := { s.rc with range := x } } := by
  simp [Within, footprint, h]

theorem withCoder (c : Coder) (hlow : .rcLow ∈ writtenRegs o) (hrange : .rcRange ∈ writtenRegs o) (hdata : .rcData ∈ writtenRegs o)
    (hptr : .inPtr ∈ writtenRegs o) : Within o s { s with rc := c } := by simp [Within, footprint, hlow, hrange, hdata, hptr]

theorem escapeOnce (h : writesEsc o = true) : Within o s (escapeOnce s) := by simp [Within, footprint, Machine.escapeOnce, h]

theorem updateModel (sym : Nat) (hlen : .ppmHlen ∈ writtenRegs o) (hesc : writesEsc o = true) : Within o s (updateModel s sym) := by
  simp [Within, footprint, Machine.updateModel, hlen, hesc]

/-! What lies outside the footprint is as it was. -/

theorem sameHostPart (h : Within o s u) : SameHostPart s u := (congrArg State.hostPart h).trans rfl
theorem busy (h : Within o s u) : u.busy = s.busy := (congrArg State.busy h).trans rfl
theorem done (h : Within o s u) : u.done = s.done := (congrArg State.done h).trans rfl
theorem fault (h : Within o s u) : u.fault = s.fault := (congrArg State.fault h).trans rfl
theorem faultCmd (h : Within o s u) : u.faultCmd = s.faultCmd := (congrArg State.faultCmd h).trans rfl
theorem faultInfo (h : Within o s u) : u.faultInfo = s.faultInfo := (congrArg State.faultInfo h).trans rfl
theorem latch (h : Within o s u) : u.latch = s.latch := (congrArg State.latch h).trans rfl
theorem inst (h : Within o s u) : u.inst = s.inst := (congrArg State.inst h).trans rfl

theorem session (h : Within o s u) (ho : o ≠ .init) : u.session = s.session := (congrArg State.session h).trans (if_neg ho)
theorem mode (h : Within o s u) (ho : o ≠ .init) : u.mode = s.mode := (congrArg State.mode h).trans (if_neg ho)
theorem acfg (h : Within o s u) (ho : o ≠ .init) : u.acfg = s.acfg := (congrArg State.acfg h).trans (if_neg ho)
theorem rcFinished (h : Within o s u) (ho : ¬ (o = .init ∨ o = .rcFinish)) : u.rcFinished = s.rcFinished :=
  (congrArg State.rcFinished h).trans (if_neg ho)
theorem rcDecReady (h : Within o s u) (ho : ¬ (o = .init ∨ o = .rcDstart)) : u.rcDecReady = s.rcDecReady :=
  (congrArg State.rcDecReady h).trans (if_neg ho)

theorem res0 (h : Within o s u) (ho : .res0 ∉ writtenRegs o) : u.res0 = s.res0 := (congrArg State.res0 h).trans (if_neg ho)
theorem res1 (h : Within o s u) (ho : .res1 ∉ writtenRegs o) : u.res1 = s.res1 := (congrArg State.res1 h).trans (if_neg ho)
theorem res2 (h : Within o s u) (ho : .res2 ∉ writtenRegs o) : u.res2 = s.res2 := (congrArg State.res2 h).trans (if_neg ho)

theorem seq (h : Within o s u) (ho : .seqLen ∉ writtenRegs o) : u.mem.seq = s.mem.seq := (congrArg (·.mem.seq) h).trans (if_neg ho)
theorem tok (h : Within o s u) (ho : .tokCount ∉ writtenRegs o) : u.mem.tok = s.mem.tok := (congrArg (·.mem.tok) h).trans (if_neg ho)
theorem dseq (h : Within o s u) (ho : .dseqLen ∉ writtenRegs o) : u.mem.dseq = s.mem.dseq := (congrArg (·.mem.dseq) h).trans (if_neg ho)
theorem obuf (h : Within o s u) (ho : .outLen ∉ writtenRegs o) : u.mem.obuf = s.mem.obuf := (congrArg (·.mem.obuf) h).trans (if_neg ho)
theorem ibuf (h : Within o s u) (ho : .inLen ∉ writtenRegs o) : u.mem.ibuf = s.mem.ibuf := (congrArg (·.mem.ibuf) h).trans (if_neg ho)

theorem costTable (h : Within o s u) (ho : o ≠ .psuSetcost) (sel : CostSel) : u.mem.costTable sel = s.mem.costTable sel := by
  cases sel with
  | lit => exact (congrArg (·.mem.litcost) h).trans (if_neg ho)
  | len => exact (congrArg (·.mem.lencost) h).trans (if_neg ho)
  | dist => exact (congrArg (·.mem.distcost) h).trans (if_neg ho)

theorem low (h : Within o s u) (ho : .rcLow ∉ writtenRegs o) : u.rc.low = s.rc.low := (congrArg (·.rc.low) h).trans (if_neg ho)
theorem range (h : Within o s u) (ho : .rcRange ∉ writtenRegs o) : u.rc.range = s.rc.range := (congrArg (·.rc.range) h).trans (if_neg ho)
theorem data (h : Within o s u) (ho : .rcData ∉ writtenRegs o) : u.rc.data = s.rc.data := (congrArg (·.rc.data) h).trans (if_neg ho)
theorem inPtr (h : Within o s u) (ho : .inPtr ∉ writtenRegs o) : u.rc.inPtr = s.rc.inPtr := (congrArg (·.rc.inPtr) h).trans (if_neg ho)

theorem ctx (h : Within o s u) (ho : .ppmHlen ∉ writtenRegs o) : u.ppm.ctx = s.ppm.ctx := (congrArg (·.ppm.ctx) h).trans (if_neg ho)
theorem hist (h : Within o s u) (ho : .ppmHlen ∉ writtenRegs o) : u.ppm.hist = s.ppm.hist := (congrArg (·.ppm.hist) h).trans (if_neg ho)
theorem hlen (h : Within o s u) (ho : .ppmHlen ∉ writtenRegs o) : u.ppm.hlen = s.ppm.hlen := (congrArg (·.ppm.hlen) h).trans (if_neg ho)
theorem esc (h : Within o s u) (ho : writesEsc o = false) : u.ppm.esc = s.ppm.esc :=
  (congrArg (·.ppm.esc) h).trans (if_neg (Bool.eq_false_iff.mp ho))

end Within

/-! ### The coder's steps and the coding loops -/

/-- Work that leaves everything outside the footprint of opcode o as it was, whether it goes on or faults. -/
def StaysWithin (o : Opcode) (s : State) (x : CmdResult State) : Prop := x.Ends (Within o s) (Within o s)

theorem emitByte_within {o : Opcode} (hout : .outLen ∈ writtenRegs o) (hlow : .rcLow ∈ writtenRegs o) (hrange : .rcRange ∈ writtenRegs o)
    (s : State) : Within o s (emitByte s) := by simp [Within, footprint, emitByte, hout, hlow, hrange]

theorem emitBytes_within {o : Opcode} (hout : .outLen ∈ writtenRegs o) (hlow : .rcLow ∈ writtenRegs o) (hrange : .rcRange ∈ writtenRegs o)
    (e : Nat) (s : State) : Within o s (emitBytes e s) := by
  induction e generalizing s with
  | zero => exact .refl o s
  | succ e ih => exact (emitByte_within hout hlow hrange s).trans (ih (emitByte s))

theorem addCarry_within {o : Opcode} (hout : .outLen ∈ writtenRegs o) (hlow : .rcLow ∈ writtenRegs o) {s u : State} {v : Nat}
    (h : addCarry s v = some u) : Within o s u := by
  unfold addCarry at h
  simp only at h
  split at h
  · cases h; exact .withOutput s.mem.obuf _ hout hlow
  · split at h
    · cases h
    · cases h; exact .withOutput _ _ hout hlow

theorem encStep_staysWithin {o : Opcode} (hout : .outLen ∈ writtenRegs o) (hlow : .rcLow ∈ writtenRegs o) (hrange : .rcRange ∈ writtenRegs o)
    (t : Triple) (s : State) : StaysWithin o s (encStep t s) := by
  refine .of_cases (fun u h => ?_) (fun _ _ _ h => (encStep_raise h).1 ▸ .refl o s)
  rcases (encStep_eq_ok h).2 with ⟨_, rfl⟩ | ⟨_, e, s1, _, hs1, _, rfl⟩
  · exact .refl _ _
  · exact ((addCarry_within hout hlow hs1).trans (.withRange _ hrange)).trans (emitBytes_within hout hlow hrange e _)

theorem encFinish_staysWithin (s : State) : StaysWithin .rcFinish s (encFinish s) := by
  unfold encFinish
  split
  · exact Within.refl _ s
  · next u hu =>
    refine .require (.refl _ s) (Within.trans (addCarry_within (by decide) (by decide) hu) ?_)
    simp [Within, footprint, writtenRegs]

theorem decStep_staysWithin {o : Opcode} (hlow : .rcLow ∈ writtenRegs o) (hrange : .rcRange ∈ writtenRegs o) (hdata : .rcData ∈ writtenRegs o)
    (hptr : .inPtr ∈ writtenRegs o) (t : Triple) (s : State) : StaysWithin o s (decStep t s) := by
  refine .of_cases (fun u h => ?_) (fun _ _ _ h => (decStep_raise h).1 ▸ .refl o s)
  rw [decStep_frame h]
  exact .withCoder _ hlow hrange hdata hptr

theorem encodeLoop_staysWithin (sym n : Nat) (s : State) : StaysWithin .ppmEncode s (encodeLoop sym n s) :=
  encodeLoop_ends (I := fun _ => Within .ppmEncode s)
    (fun _ t u hu => (encStep_staysWithin (by decide) (by decide) (by decide) t u).mono (fun _ => hu.trans) (fun _ => hu.trans))
    (fun _ _ hu => hu.trans (.escapeOnce rfl)) (fun _ _ => id) sym (n := n) (.refl _ s)

theorem decodeLoop_staysWithin (n : Nat) (s : State) : (decodeLoop n s).Ends (fun r => Within .ppmDecode s r.2) (Within .ppmDecode s) :=
  decodeLoop_ends (I := fun _ => Within .ppmDecode s)
    (fun _ t u hu => (decStep_staysWithin (by decide) (by decide) (by decide) (by decide) t u).mono (fun _ => hu.trans) (fun _ => hu.trans))
    (fun _ _ hu => hu.trans (.escapeOnce rfl)) (fun _ _ => id) (n := n) (.refl _ s)

theorem withCostEntry_staysWithin {o : Opcode} (table index : Nat) {s : State} {rest : CostSel → CmdResult State}
    (h : ∀ sel, StaysWithin o s (rest sel)) : StaysWithin o s (withCostEntry table index s rest) := by
  unfold withCostEntry
  split
  · exact Within.refl o s
  · next sel _ => exact .require (.refl o s) (h sel)

/-! ### Every command -/

/-- Every command is work brought to an end by `finish`, and that work leaves everything outside the command's footprint as it was: more than `exec_eq_finish` says, command by command. -/
theorem exec_eq_finish_within (i : Instr) (s : State) : ∃ x, exec i s = finish x ∧ StaysWithin i.opcode s x := by
  have hs : Within i.opcode s s := .refl _ s
  cases i
  case nop => exact ⟨.ok s, rfl, .ok hs⟩
  all_goals refine ⟨_, rfl, ?_⟩
  case init m => exact .withNeeds hs (.require hs (.require hs (.require hs (.require hs (.require hs (.ok rfl))))))
  case stmPush sym => exact .withNeeds hs (.require hs (.require hs (.ok rfl)))
  case stmQuery idx => exact .withNeeds hs (.require hs (.ok rfl))
  case stmRead idx => exact .withNeeds hs (.require hs (.ok rfl))
  case psuParse => exact .withNeeds hs (.ok rfl)
  case psuToken idx => exact .withNeeds hs (.require hs (.ok rfl))
  case psuSetcost table index =>
    exact .withNeeds hs (withCostEntry_staysWithin _ _ fun sel => .require hs (.ok (by cases sel <;> rfl)))
  case psuGetcost table index => exact .withNeeds hs (withCostEntry_staysWithin _ _ fun _ => .ok rfl)
  case psuExpand => exact .withNeeds hs (.require hs (.require hs (.ok rfl)))
  case psuDread idx => exact .withNeeds hs (.require hs (.ok rfl))
  case rcEncode => exact .withNeeds hs (.require hs (encStep_staysWithin (by decide) (by decide) (by decide) _ s))
  case rcFinish => exact .withNeeds hs (.require hs (encFinish_staysWithin s))
  case rcOutbyte idx => exact .withNeeds hs (.require hs (.ok rfl))
  case rcInbyte byte => exact .withNeeds hs (.require hs (.require hs (.ok rfl)))
  case rcDstart => exact .withNeeds hs (.require hs (.require hs (.ok rfl)))
  case rcFetch => exact .withNeeds hs (.require hs (.require hs (.ok rfl)))
  case rcDecode => exact .withNeeds hs (.require hs (decStep_staysWithin (by decide) (by decide) (by decide) (by decide) _ s))
  case ppmEncode sym =>
    exact .withNeeds hs (.require hs (.require hs (.require hs (.require hs (.require hs
      (.andThen (encodeLoop_staysWithin _ _ s) fun _ h => .ok ((h.trans (.updateModel _ (by decide) rfl)).trans (.setRes0 _ (by decide)))))))))
  case ppmDecode =>
    exact .withNeeds hs (.require hs (.require hs (.require hs
      (.andThen (decodeLoop_staysWithin _ s) fun _ h => .require h (.ok
        (((h.trans (.updateModel _ (by decide) rfl)).trans (.setRes0 _ (by decide))).trans (.setRes1 _ (by decide))))))))
  case ppmHasesc sym => exact .withNeeds hs (.require hs (.ok rfl))
  case ppmNumden => exact .withNeeds hs (.ok rfl)
  case ppmCdf sym => exact .withNeeds hs (.require hs (.ok rfl))
  case ppmIcdf => exact .withNeeds hs (.require hs (.ok rfl))
  case ppmEscape => exact .withNeeds hs (.require hs (.ok rfl))
  case ppmUpdate sym => exact .withNeeds hs (.require hs (.require hs (.require hs (.ok rfl))))

end Sys2Proof.Machine
end

section
/-! PROOFS. What a command leaves behind: the ends of BUSY, DONE and the fault registers, and the registers no command or only its own writes (10_state.md R25, R26, R30, R34, R35, R42 to R44, 60_exceptions.md R303). -/

namespace Sys2Proof.Machine

/-! ### The end of a command -/

/-- Everything a command can do: work within its footprint, then a completion or a fault. -/
theorem exec_cases {i : Instr} {s t : State} (h : exec i s = .next t) :
    ∃ u, Within i.opcode s u ∧ (t = u.complete ∨ ∃ f n, t = u.takeFault f n) := by
  obtain ⟨x, hx, hw⟩ := exec_eq_finish_within i s
  rcases finish_eq_next.mp (hx ▸ h) with ⟨u, rfl, rfl⟩ | ⟨f, n, u, rfl, rfl⟩
  · exact ⟨u, hw, .inl rfl⟩
  · exact ⟨u, hw, .inr ⟨f, n, rfl⟩⟩

/-- A fault that is taken with one recorded already leaves the fault registers as they were (60_exceptions.md R303). -/
theorem takeFault_eq_of_isSome {s : State} (h : s.fault.isSome = true) (f : FaultCode) (n : Nat) :
    s.takeFault f n = { s with busy := false } := by
  obtain ⟨g, hg⟩ := Option.isSome_iff_exists.mp h
  exact State.takeFault_of_some hg f n

theorem exec_busy_done_faultCmd {i : Instr} {s t : State} (h : exec i s = .next t) :
    t.busy = false ∧ (t.fault = none → t.done = true) ∧ (t.fault.isSome = true → t.done = s.done) ∧
      (s.fault = none → t.fault.isSome = true → t.faultCmd = s.latch.word) := by
  obtain ⟨u, hu, rfl | ⟨f, n, rfl⟩⟩ := exec_cases h
  · refine ⟨rfl, fun hn => ?_, fun hf => ?_, fun hn hf => ?_⟩
    · rw [State.complete_fault] at hn; simp [hn]
    · have hf : ¬ u.fault.isNone = true := by simpa [← Option.isSome_iff_ne_none] using hf
      rw [State.complete_done, if_neg hf, hu.done]
    · rw [State.complete_fault, hu.fault, hn] at hf; cases hf
  · refine ⟨rfl, fun hn => ?_, fun _ => by rw [State.takeFault_done, hu.done], fun hn _ => ?_⟩
    · have := State.takeFault_fault_isSome u f n
      rw [hn] at this; cases this
    · rw [State.takeFault_of_none (hu.fault.trans hn), hu.latch]

/-- t holds the fault f, with the fault registers of s. -/
def KeepsFault (f : FaultCode) (s t : State) : Prop := t.fault = some f ∧ t.faultCmd = s.faultCmd ∧ t.faultInfo = s.faultInfo

/-- A recorded fault and its registers outlast every command (60_exceptions.md R303). -/
theorem exec_keepsFault {i : Instr} {s t : State} {f : FaultCode} (hf : s.fault = some f) (h : exec i s = .next t) : KeepsFault f s t := by
  obtain ⟨u, hu, rfl | ⟨g, n, rfl⟩⟩ := exec_cases h
  · exact ⟨hu.fault.trans hf, hu.faultCmd, hu.faultInfo⟩
  · rw [State.takeFault_of_some (hu.fault.trans hf)]
    exact ⟨hu.fault.trans hf, hu.faultCmd, hu.faultInfo⟩

/-! ### What only commands and reset move -/

/-- The parameters and what only commands and reset write: the session's fields of STATUS, ACFG, RES, the address spaces, the coder and the frequency model. -/
structure CorePart where
  inst : Params
  session : Bool
  mode : Direction
  rcFinished : Bool
  rcDecReady : Bool
  acfg : ActiveCfg
  res : Word × Word × Word
  mem : Memory
  rc : Coder
  ppm : Model

/-- The core's part of a state. -/
def State.corePart (s : State) : CorePart :=
  { inst := s.inst, session := s.session, mode := s.mode, rcFinished := s.rcFinished, rcDecReady := s.rcDecReady, acfg := s.acfg
    res := (s.res0, s.res1, s.res2), mem := s.mem, rc := s.rc, ppm := s.ppm }

/-- t and s agree on the core's part. -/
def SameCorePart (s t : State) : Prop := t.corePart = s.corePart

namespace SameCorePart

variable {s t u : State}

theorem refl (s : State) : SameCorePart s s := rfl
theorem trans (h : SameCorePart s t) (h' : SameCorePart t u) : SameCorePart s u := Eq.trans h' h

theorem inst (h : SameCorePart s t) : t.inst = s.inst := congrArg CorePart.inst h
theorem session (h : SameCorePart s t) : t.session = s.session := congrArg CorePart.session h
theorem mode (h : SameCorePart s t) : t.mode = s.mode := congrArg CorePart.mode h
theorem rcFinished (h : SameCorePart s t) : t.rcFinished = s.rcFinished := congrArg CorePart.rcFinished h
theorem rcDecReady (h : SameCorePart s t) : t.rcDecReady = s.rcDecReady := congrArg CorePart.rcDecReady h
theorem acfg (h : SameCorePart s t) : t.acfg = s.acfg := congrArg CorePart.acfg h
theorem res0 (h : SameCorePart s t) : t.res0 = s.res0 := congrArg (·.res.1) h
theorem res1 (h : SameCorePart s t) : t.res1 = s.res1 := congrArg (·.res.2.1) h
theorem res2 (h : SameCorePart s t) : t.res2 = s.res2 := congrArg (·.res.2.2) h
theorem mem (h : SameCorePart s t) : t.mem = s.mem := congrArg CorePart.mem h
theorem rc (h : SameCorePart s t) : t.rc = s.rc := congrArg CorePart.rc h
theorem ppm (h : SameCorePart s t) : t.ppm = s.ppm := congrArg CorePart.ppm h

end SameCorePart

theorem sameCorePart_complete (s : State) : SameCorePart s s.complete := rfl

theorem sameCorePart_recordFault (s : State) (f : FaultCode) (w : Word) (n : Nat) : SameCorePart s (s.recordFault f w n) := by
  simp [SameCorePart, State.corePart]

theorem sameCorePart_takeFault (s : State) (f : FaultCode) (n : Nat) : SameCorePart s (s.takeFault f n) := by
  simp [SameCorePart, State.corePart]

/-- A command's end moves nothing of the core's part: what it leaves there its work has left. -/
theorem exec_cases_core {i : Instr} {s t : State} (h : exec i s = .next t) : ∃ u, Within i.opcode s u ∧ SameCorePart u t := by
  obtain ⟨u, hu, rfl | ⟨f, n, rfl⟩⟩ := exec_cases h
  · exact ⟨u, hu, sameCorePart_complete u⟩
  · exact ⟨u, hu, sameCorePart_takeFault u f n⟩

/-! ### The registers and spaces a command writes -/

/-- The result, counter and coder registers (10_state.md R35, R43, R44). -/
def resultRegs : List Reg := [.res0, .res1, .res2, .seqLen, .tokCount, .dseqLen, .outLen, .inLen, .inPtr, .rcLow, .rcRange, .rcData, .ppmHlen]

theorem SameCorePart.regValue {s t : State} (h : SameCorePart s t) {r : Reg} (hr : r ∈ resultRegs) : regValue t r = regValue s r := by
  have hm := h.mem
  have hc := h.rc
  have hp := h.ppm
  fin_cases hr
  exacts [h.res0, h.res1, h.res2, congrArg (toWord ·.seq.length) hm, congrArg (toWord ·.tok.length) hm, congrArg (toWord ·.dseq.length) hm,
    congrArg (toWord ·.obuf.length) hm, congrArg (toWord ·.ibuf.length) hm, congrArg (toWord ·.inPtr) hc, congrArg (toWord ·.low) hc,
    congrArg (toWord ·.range) hc, congrArg (toWord ·.data) hc, congrArg (toWord ·.hlen) hp]

theorem Within.regValue {o : Opcode} {s u : State} (h : Within o s u) {r : Reg} (hr : r ∈ resultRegs) (hw : r ∉ writtenRegs o) :
    regValue u r = regValue s r := by
  fin_cases hr
  exacts [h.res0 hw, h.res1 hw, h.res2 hw, congrArg (toWord ·.length) (h.seq hw), congrArg (toWord ·.length) (h.tok hw),
    congrArg (toWord ·.length) (h.dseq hw), congrArg (toWord ·.length) (h.obuf hw), congrArg (toWord ·.length) (h.ibuf hw),
    congrArg toWord (h.inPtr hw), congrArg toWord (h.low hw), congrArg toWord (h.range hw), congrArg toWord (h.data hw),
    congrArg toWord (h.hlen hw)]

/-- Settles O21: the host's part is outside every command's footprint, and ACFG, SESSION, MODE and the cost tables outside all footprints but one. -/
theorem commandsLeaveHostRegistersAlone : Obligations.CommandsLeaveHostRegistersAlone := by
  intro i s t h
  obtain ⟨hinst, ha0, ha1, ha2, hcfg, hdone, hfault, hlatch, henv⟩ := sameHostPart_iff.mp (exec_sameHostPart h)
  obtain ⟨u, hu, ht⟩ := exec_cases_core h
  refine ⟨hinst, ha0, ha1, ha2, hcfg, hdone, hfault, hlatch, henv, fun ho => ⟨?_, ?_, ?_⟩, fun ho sel => ?_⟩
  · exact ht.acfg.trans (hu.acfg ho)
  · exact ht.session.trans (hu.session ho)
  · exact ht.mode.trans (hu.mode ho)
  · rw [ht.mem]; exact hu.costTable ho sel

/-! Which opcodes write the length of a space, h, or the coder's registers (30_encoding.md R107). -/

theorem seqLen_mem_writtenRegs {o : Opcode} : .seqLen ∈ writtenRegs o ↔ o ∈ [Opcode.init, .stmPush] := by cases o <;> decide
theorem tokCount_mem_writtenRegs {o : Opcode} : .tokCount ∈ writtenRegs o ↔ o ∈ [Opcode.init, .psuParse] := by cases o <;> decide
theorem dseqLen_mem_writtenRegs {o : Opcode} : .dseqLen ∈ writtenRegs o ↔ o ∈ [Opcode.init, .psuExpand] := by cases o <;> decide
theorem outLen_mem_writtenRegs {o : Opcode} : .outLen ∈ writtenRegs o ↔ o ∈ [Opcode.init, .rcEncode, .rcFinish, .ppmEncode] := by
  cases o <;> decide
theorem inLen_mem_writtenRegs {o : Opcode} : .inLen ∈ writtenRegs o ↔ o ∈ [Opcode.init, .rcInbyte] := by cases o <;> decide
theorem ppmHlen_mem_writtenRegs {o : Opcode} : .ppmHlen ∈ writtenRegs o ↔ o ∈ [Opcode.init, .ppmEncode, .ppmDecode, .ppmUpdate] := by
  cases o <;> decide

/-- Settles O22: a command's work stays within its footprint, which holds the registers of `writtenRegs`, their spaces and ESC only. -/
theorem commandsWriteOnlyTheirRegisters : Obligations.CommandsWriteOnlyTheirRegisters := by
  intro i s t h
  obtain ⟨u, hu, ht⟩ := exec_cases_core h
  refine ⟨fun r hr hw => (ht.regValue hr).trans (hu.regValue hr hw), ?_⟩
  rw [ht.mem, ht.ppm]
  refine ⟨fun ho => ?_, fun ho => ?_, fun ho => ?_, fun ho => ?_, fun ho => ?_, fun ho => ?_, hu.esc⟩
  · exact hu.seq (mt seqLen_mem_writtenRegs.mp ho)
  · exact hu.tok (mt tokCount_mem_writtenRegs.mp ho)
  · exact hu.dseq (mt dseqLen_mem_writtenRegs.mp ho)
  · exact hu.obuf (mt outLen_mem_writtenRegs.mp ho)
  · exact hu.ibuf (mt inLen_mem_writtenRegs.mp ho)
  · have hw := mt ppmHlen_mem_writtenRegs.mp ho
    exact ⟨hu.ctx hw, hu.hist hw, hu.hlen hw⟩

/-! ### A recorded fault -/

theorem writeCmd_of_isSome {s : State} (h : s.fault.isSome = true) (w : Word) : writeCmd s w = s := if_pos h

/-- A write to CTRL resets or does nothing (10_state.md R23). -/
theorem writeCtrl_cases (s : State) (v : Word) : writeCtrl s v = s.resetNow ∨ writeCtrl s v = s := by
  unfold writeCtrl
  split
  · exact .inl rfl
  · exact .inr rfl

/-- Among the writes of a register only that of CTRL, by a reset, changes a recorded fault or its registers (60_exceptions.md R308). -/
theorem regWrite_keepsFault {s : State} {f : FaultCode} (hf : s.fault = some f) (r : Reg) (v : Word) :
    KeepsFault f s (regWrite s r v) ∨ regWrite s r v = s.resetNow := by
  cases r with
  | ctrl =>
    rcases writeCtrl_cases s v with h | h
    · exact .inr h
    · exact .inl ((congrArg (KeepsFault f s) h).mpr ⟨hf, rfl, rfl⟩)
  | cmd =>
    have h : writeCmd s v = s := writeCmd_of_isSome (by rw [hf]; rfl) v
    exact .inl ((congrArg (KeepsFault f s) h).mpr ⟨hf, rfl, rfl⟩)
  | _ => exact .inl ⟨hf, rfl, rfl⟩

/-- A read moves the outside world only (20_memory.md R75). -/
theorem hostRead_eq (s : State) (off : Nat) : hostRead s off = { s with env := (hostRead s off).env } := by
  unfold hostRead
  split <;> rfl

/-- A write is ignored, or writes the register of its offset (10_state.md R46). -/
theorem hostWrite_cases (s : State) (off : Nat) (v : Word) : hostWrite s off v = s ∨ ∃ r, hostWrite s off v = regWrite s r v := by
  unfold hostWrite
  split
  · exact .inl rfl
  · next r _ => exact .inr ⟨r, rfl⟩

/-- Settles O15: no command and no access but a reset changes a recorded fault. -/
theorem faultStaysUntilReset : Obligations.FaultStaysUntilReset := by
  intro s t f hf h
  cases stepTo_of_step h with
  | idle _ => exact .inl ⟨hf, rfl, rfl⟩
  | command _ _ _ hx => exact .inl (exec_keepsFault (s := s.takeTurn) hf hx)
  | illegal _ _ _ => rw [State.takeFault_of_some (s := s.takeTurn) hf]; exact .inl ⟨hf, rfl, rfl⟩
  | reset _ _ => exact .inr ⟨_, rfl⟩
  | read _ _ _ => rw [hostRead_eq]; exact .inl ⟨hf, rfl, rfl⟩
  | @write _ _ off v rest _ _ _ =>
    rcases hostWrite_cases (s.takeAccess rest) off v with he | ⟨r, he⟩
    · rw [he]; exact .inl ⟨hf, rfl, rfl⟩
    · rw [he]
      exact (regWrite_keepsFault (s := s.takeAccess rest) hf r v).imp_right fun hr => ⟨_, hr⟩

/-! ### Steps and the core's part -/

/-- A write of a register moves nothing of the core's part, unless it resets (10_state.md R23). -/
theorem regWrite_sameCorePart (s : State) (r : Reg) (v : Word) : SameCorePart s (regWrite s r v) ∨ regWrite s r v = s.resetNow := by
  cases r with
  | ctrl =>
    rcases writeCtrl_cases s v with h | h
    · exact .inr h
    · exact .inl (congrArg State.corePart h)
  | cmd =>
    left
    show SameCorePart s (writeCmd s v)
    unfold writeCmd
    split
    · exact .refl s
    · split
      · exact sameCorePart_recordFault s _ _ _
      · exact .refl s
  | _ => exact .inl rfl

/-- What a step can do to the core's part: nothing, a reset, or a command. -/
theorem step_cases_core {s t : State} (h : step s = .next t) :
    SameCorePart s t ∨ (∃ env, t = State.resetOf s.inst env) ∨ ∃ i, exec i s.takeTurn = .next t := by
  cases stepTo_of_step h with
  | idle _ => exact .inl rfl
  | command _ _ _ hx => exact .inr (.inr ⟨_, hx⟩)
  | illegal _ _ _ => exact .inl (.trans (t := s.takeTurn) rfl (sameCorePart_takeFault _ _ _))
  | reset _ _ => exact .inr (.inl ⟨_, rfl⟩)
  | read _ _ _ => rw [hostRead_eq]; exact .inl rfl
  | @write _ _ off v rest _ _ _ =>
    have hs : SameCorePart s (s.takeAccess rest) := rfl
    rcases hostWrite_cases (s.takeAccess rest) off v with he | ⟨r, he⟩
    · rw [he]; exact .inl hs
    · rw [he]
      exact (regWrite_sameCorePart (s.takeAccess rest) r v).imp hs.trans fun hr => .inl ⟨_, hr⟩

/-- A property of the core's part, which the rest of the state does not bear on. -/
def OfCorePart (P : State → Prop) : Prop := ∀ s t, SameCorePart s t → P s → P t

/-- The work of command i keeps P in state s, whether it goes on or faults. -/
def WorkKeeps (P : State → Prop) (i : Instr) (s : State) : Prop := ∃ x, exec i s = finish x ∧ x.Ends P P

/-- A property of the core's part that holds at reset and that every command's work keeps is kept by every step. -/
theorem step_keeps {P : State → Prop} (hP : OfCorePart P) (hreset : ∀ p env, P (State.resetOf p env))
    (hwork : ∀ i s, P s → WorkKeeps P i s) {s t : State} (hs : P s) (h : step s = .next t) : P t := by
  rcases step_cases_core h with hst | ⟨env, rfl⟩ | ⟨i, hx⟩
  · exact hP s t hst hs
  · exact hreset s.inst env
  · obtain ⟨x, hxf, hends⟩ := hwork i s.takeTurn (hP s _ rfl hs)
    rcases finish_eq_next.mp (hxf ▸ hx) with ⟨u, rfl, rfl⟩ | ⟨f, n, u, rfl, rfl⟩
    · exact hP u _ (sameCorePart_complete u) hends
    · exact hP u _ (sameCorePart_takeFault u f n) hends

/-- A command keeps what its footprint does not bear on. -/
theorem workKeeps_of_within {P : State → Prop} {i : Instr} {s : State} (h : ∀ u, Within i.opcode s u → P u) : WorkKeeps P i s := by
  obtain ⟨x, hx, hw⟩ := exec_eq_finish_within i s
  exact ⟨x, hx, hw.mono h h⟩

end Sys2Proof.Machine
end

section
/-! PROOFS. ACFG stays legal, and the range coder's registers stay B bits wide (10_state.md R42 to R44, 40_control.md R131, 43_range_coder.md R205). -/

namespace Sys2Proof.Machine

/-! ### The active configuration -/

theorem ConfigOk.congr {s t : State} (hinst : t.inst = s.inst) (hacfg : t.acfg = s.acfg) (hsession : t.session = s.session) (h : ConfigOk s) :
    ConfigOk t := by
  obtain ⟨⟩ := h
  constructor <;> simp only [hinst, hacfg, hsession] <;> assumption

theorem configOk_resetOf (p : Params) (env : Env) : ConfigOk (State.resetOf p env) where
  alpha_pos := (by decide : 1 ≤ ActiveCfg.reset.alpha)
  alpha_le := (by decide : ActiveCfg.reset.alpha ≤ 65536)
  window_pos := (by decide : 1 ≤ ActiveCfg.reset.window)
  window_le := (by decide : ActiveCfg.reset.window ≤ 2 ^ 24)
  minlen_pos := (by decide : 1 ≤ ActiveCfg.reset.minlen)
  minlen_le := (by decide : ActiveCfg.reset.minlen ≤ ActiveCfg.reset.maxlen)
  maxlen_le := (by decide : ActiveCfg.reset.maxlen ≤ 65535)
  order_le := Nat.zero_le _
  alpha_max := nofun
  window_max := nofun
  maxlen_max := nofun

/-- INIT starts a session only with a legal configuration (40_control.md R131). -/
theorem requireConfig_ends_configOk {s : State} (hs : ConfigOk s) (m : Direction) :
    (requireConfig s (.ok (s.startSession m))).Ends ConfigOk ConfigOk := by
  refine .require_decide hs fun hA => .require_decide hs fun hW => .require_decide hs fun hMin => .require_decide hs fun hMax =>
    .require_decide hs fun hK => .ok ?_
  exact
    { alpha_pos := hA.1
      alpha_le := hA.2.trans s.inst.aMax_legal.2
      window_pos := hW.1
      window_le := hW.2.trans s.inst.wMax_legal.2
      minlen_pos := hMin.1
      minlen_le := hMin.2
      maxlen_le := hMax.trans s.inst.maxlenMax_legal.2
      order_le := hK
      alpha_max := fun _ => hA.2
      window_max := fun _ => hW.2
      maxlen_max := fun _ => hMax }

theorem requireConfig_ends {α : Type} {Q : α → Prop} {P : State → Prop} {s : State} {rest : CmdResult α} (hs : P s) (h : rest.Ends Q P) :
    (requireConfig s rest).Ends Q P :=
  .require hs (.require hs (.require hs (.require hs (.require hs h))))

theorem workKeeps_configOk (i : Instr) (s : State) (hs : ConfigOk s) : WorkKeeps ConfigOk i s := by
  cases i with
  | init m => exact ⟨_, rfl, .withNeeds hs (requireConfig_ends_configOk hs m)⟩
  | _ => exact workKeeps_of_within fun u hu => hs.congr hu.inst (hu.acfg nofun) (hu.session nofun)

/-- Settles O24: only INIT writes ACFG, after its checks. -/
theorem stepKeepsConfigLegal : Obligations.StepKeepsConfigLegal := fun _ _ =>
  step_keeps (fun _ _ h => .congr h.inst h.acfg h.session) configOk_resetOf workKeeps_configOk

/-! ### The range coder's registers -/

theorem CoderOk.congr {s t : State} (hinst : t.inst = s.inst) (hrc : t.rc = s.rc) (hibuf : t.mem.ibuf = s.mem.ibuf) (h : CoderOk s) :
    CoderOk t := by
  obtain ⟨⟩ := h
  constructor <;> simp only [hinst, hrc, hibuf] <;> assumption

/-- A state whose registers are the reset ones (10_state.md R43, R44). -/
theorem coderOk_of_rc_eq_reset {s : State} (h : s.rc = Coder.reset s.inst) : CoderOk s := by
  have hm := s.inst.modulus_eq
  have hf := s.inst.floor_succ
  constructor <;> simp only [h, Coder.reset] <;> omega

/-- Renormalized, the width of a sub-range lies between FLOOR and 2^B (43_range_coder.md R205, R207). -/
theorem renormCount_bounds {p : Params} {r e : Nat} (hr : r < p.modulus) (h : renormCount p r = some e) :
    p.floor ≤ r * 2 ^ (8 * e) ∧ r * 2 ^ (8 * e) < p.modulus := by
  obtain ⟨_, hfloor, hmin⟩ := leastShift_eq_some.mp h
  refine ⟨hfloor, ?_⟩
  cases e with
  | zero => simpa using hr
  | succ e =>
    have hlt := hmin e (Nat.lt_succ_self e)
    have hm := p.modulus_eq
    have hf := p.floor_succ
    have hpow : r * 2 ^ (8 * (e + 1)) = r * 2 ^ (8 * e) * 2 ^ 8 := by rw [Nat.mul_assoc, ← Nat.pow_add]; rfl
    omega

/-- A scaled part of a legal triple is no wider than the range (43_range_coder.md R205). -/
theorem scaled_le_range (p : Params) (range : Nat) {x total : Nat} (hx : x ≤ total) (ht : 1 ≤ total) : scaled p range x total ≤ range :=
  (scaled_mono p range total hx).trans_eq (scaled_total p range ht)

theorem addCarry_coderOk {s u : State} {v : Nat} (hs : CoderOk s) (hv : v < s.inst.modulus) (h : addCarry s v = some u) : CoderOk u := by
  have hspec := addCarry_spec s v hs.low_lt hv
  rw [h] at hspec
  obtain ⟨hu, -, -⟩ := hspec
  rw [hu]
  exact { hs with low_lt := Nat.mod_lt _ s.inst.modulus_pos }

theorem encStep_ends_coderOk (t : Triple) {s : State} (hs : CoderOk s) : (encStep t s).Ends CoderOk CoderOk := by
  refine .of_cases (fun u h => ?_) (fun _ _ _ h => (encStep_raise h).1 ▸ hs)
  obtain ⟨⟨htot, _, hfreq, hsum⟩, ⟨_, rfl⟩ | ⟨_, e, s1, he, hs1, _, rfl⟩⟩ := encStep_eq_ok h
  · exact hs
  · have hlt {x : Nat} (hx : x ≤ t.total) : scaled s.inst s.rc.range x t.total < s.inst.modulus :=
      (scaled_le_range _ _ hx htot).trans_lt hs.range_lt
    have hok := addCarry_coderOk hs (hlt (by omega)) hs1
    have hinst : s1.inst = s.inst := ((addCarry_frame hs1).sameHostPart |> sameHostPart_iff.mp).1
    obtain ⟨hfloor, hmod⟩ := renormCount_bounds (hlt (x := t.freq) (by omega)) he
    obtain ⟨heq, _, hlow, _⟩ :=
      emitBytes_spec e { s1 with rc := { s1.rc with range := scaled s.inst s.rc.range t.freq t.total } } hok.low_lt
    rw [heq]
    exact { hok with low_lt := hlow, range_lt := hinst ▸ hmod, floor_le := hinst ▸ hfloor }

theorem encFinish_ends_coderOk {s : State} (hs : CoderOk s) : (encFinish s).Ends CoderOk CoderOk := by
  unfold encFinish
  split
  · exact hs
  · next u hu =>
    have hok : CoderOk u := addCarry_coderOk hs ((Nat.div_le_self _ _).trans_lt hs.range_lt) hu
    exact .require hs { hok with }

/-- Shifting bytes in keeps low and data below 2^B (43_range_coder.md R211). -/
theorem takeBytes_lt (e : Nat) {s : State} (hlow : s.rc.low < s.inst.modulus) (hdata : s.rc.data < s.inst.modulus) :
    (takeBytes e s).rc.low < s.inst.modulus ∧ (takeBytes e s).rc.data < s.inst.modulus := by
  induction e generalizing s with
  | zero => exact ⟨hlow, hdata⟩
  | succ e ih =>
    refine ih (s := takeByte s) (Nat.mod_lt _ s.inst.modulus_pos) ?_
    show s.rc.data * 2 ^ 8 % s.inst.modulus + (readAt s.mem.ibuf s.rc.inPtr).toNat < s.inst.modulus
    have hbyte := (readAt s.mem.ibuf s.rc.inPtr).isLt
    have htop : s.rc.data % 2 ^ (s.inst.bits - 8) < 2 ^ (s.inst.bits - 8) := Nat.mod_lt _ (Nat.two_pow_pos _)
    rw [s.inst.modulus_eq, Nat.mul_mod_mul_right]
    omega

theorem decStep_ends_coderOk (t : Triple) {s : State} (hs : CoderOk s) : (decStep t s).Ends CoderOk CoderOk := by
  refine .of_cases (fun u h => ?_) (fun _ _ _ h => (decStep_raise h).1 ▸ hs)
  obtain ⟨⟨htot, _, _, hsum⟩, ⟨_, rfl⟩ | ⟨_, _, _, e, he, hptr, rfl⟩⟩ := decStep_eq_ok h
  · exact hs
  · obtain ⟨hfloor, hmod⟩ := renormCount_bounds ((scaled_le_range s.inst s.rc.range (x := t.freq) (by omega) htot).trans_lt hs.range_lt) he
    obtain ⟨heq, hp, hr⟩ := takeBytes_frame e { s with rc := { s.rc with
      low := (s.rc.low + scaled s.inst s.rc.range t.cum t.total) % s.inst.modulus
      range := scaled s.inst s.rc.range t.freq t.total } }
    obtain ⟨hlow, hdata⟩ := takeBytes_lt e (s := { s with rc := { s.rc with
      low := (s.rc.low + scaled s.inst s.rc.range t.cum t.total) % s.inst.modulus
      range := scaled s.inst s.rc.range t.freq t.total } }) (Nat.mod_lt _ s.inst.modulus_pos) hs.data_lt
    rw [heq]
    exact { low_lt := hlow, data_lt := hdata, range_lt := hr ▸ hmod, floor_le := hr ▸ hfloor, ptr_le := hp ▸ hptr }

/-- The first N_BYTES bytes of IBUF fill B bits (43_range_coder.md R215). -/
theorem bigEndian_take_lt (p : Params) (l : List Byte) : bigEndian (l.take p.nBytes) < p.modulus :=
  (bigEndian_lt _).trans_le (Nat.pow_le_pow_right (by decide) (Nat.mul_le_mul_left 8 (List.length_take_le _ _)))

/-- A command that names none of the coder's registers and not IN_LEN keeps the coder's state. -/
theorem Within.coderOk {o : Opcode} {s u : State} (h : Within o s u)
    (ho : ∀ r ∈ [Reg.inLen, .inPtr, .rcLow, .rcRange, .rcData], r ∉ writtenRegs o) (hs : CoderOk s) : CoderOk u := by
  simp only [List.forall_mem_cons] at ho
  obtain ⟨hlen, hptr, hlow, hrange, hdata, -⟩ := ho
  obtain ⟨⟩ := hs
  constructor <;> simp only [h.inst, h.low hlow, h.range hrange, h.data hdata, h.inPtr hptr, h.ibuf hlen] <;> assumption

theorem workKeeps_coderOk (i : Instr) (s : State) (hs : CoderOk s) : WorkKeeps CoderOk i s := by
  cases i with
  | init m => exact ⟨_, rfl, .withNeeds hs (requireConfig_ends hs (.ok (coderOk_of_rc_eq_reset rfl)))⟩
  | rcEncode => exact ⟨_, rfl, .withNeeds hs (.require hs (encStep_ends_coderOk _ hs))⟩
  | rcFinish => exact ⟨_, rfl, .withNeeds hs (.require hs (encFinish_ends_coderOk hs))⟩
  | rcInbyte byte =>
    exact ⟨_, rfl, .withNeeds hs (.require hs (.require hs (.ok { hs with ptr_le := hs.ptr_le.trans (by simp) })))⟩
  | rcDstart =>
    exact ⟨_, rfl, .withNeeds hs (.require hs (.require_decide hs fun hlen =>
      .ok { hs with data_lt := bigEndian_take_lt s.inst s.mem.ibuf, ptr_le := hlen }))⟩
  | rcDecode => exact ⟨_, rfl, .withNeeds hs (.require hs (decStep_ends_coderOk _ hs))⟩
  | ppmEncode sym =>
    have hloop := encodeLoop_ends (I := fun _ => CoderOk) (fun _ t _ => encStep_ends_coderOk t)
      (fun _ _ h => { h with }) (fun _ _ => id) sym (n := ordersLeft s) hs
    exact ⟨_, rfl, .withNeeds hs (.require hs (.require hs (.require hs (.require hs (.require hs (.andThen hloop fun _ h => .ok { h with }))))))⟩
  | ppmDecode =>
    have hloop := decodeLoop_ends (I := fun _ => CoderOk) (fun _ t _ => decStep_ends_coderOk t)
      (fun _ _ h => { h with }) (fun _ _ => id) (n := ordersLeft s) hs
    exact ⟨_, rfl, .withNeeds hs (.require hs (.require hs (.require hs (.andThen hloop fun _ h => .require h (.ok { h with })))))⟩
  | _ => exact workKeeps_of_within fun u hu => hu.coderOk (by simp [writtenRegs, Instr.opcode]) hs

/-- Settles O27: every step of the coder renormalizes the range and keeps its registers below 2^B. -/
theorem stepKeepsCoderInRange : Obligations.StepKeepsCoderInRange := fun _ _ =>
  step_keeps (fun _ _ h => .congr h.inst h.rc (congrArg Memory.ibuf h.mem))
    (fun _ _ => coderOk_of_rc_eq_reset rfl) workKeeps_coderOk

end Sys2Proof.Machine
end

section
/-! PROOFS. The STATUS fields and the fault registers stay in agreement (10_state.md R25 to R29, R33, 60_exceptions.md R303, R311). -/

namespace Sys2Proof.Machine

theorem statusOk_resetOf (p : Params) (env : Env) : StatusOk (State.resetOf p env) where
  busy_not_done _ := rfl
  fault_not_done _ := rfl
  no_fault_cmd _ := rfl
  no_fault_info _ := rfl
  decode_session := nofun
  finished_encode := nofun
  ready_decode := nofun

/-! ### Accesses -/

/-- Recording a fault of the command in flight, whose DONE is 0 (60_exceptions.md R303, R306). -/
theorem StatusOk.recordFault {s : State} (hs : StatusOk s) (hb : s.busy = true) (f : FaultCode) (w : Word) (n : Nat) :
    StatusOk (s.recordFault f w n) := by
  cases hf : s.fault with
  | none =>
    rw [State.recordFault_of_none hf]
    exact { hs with fault_not_done := fun _ => hs.busy_not_done hb, no_fault_cmd := nofun, no_fault_info := nofun }
  | some g => rw [State.recordFault_of_some hf]; exact hs

theorem StatusOk.writeCmd {s : State} (hs : StatusOk s) (w : Word) : StatusOk (writeCmd s w) := by
  unfold Machine.writeCmd
  split
  · exact hs
  · split
    · next hb => exact hs.recordFault hb _ _ _
    · exact { hs with busy_not_done := fun _ => rfl, fault_not_done := fun _ => rfl }

theorem StatusOk.writeStatus {s : State} (hs : StatusOk s) (v : Word) : StatusOk (s.writeStatus v) :=
  { hs with
    busy_not_done := fun hb => by rw [State.writeStatus_done, hs.busy_not_done hb]; rfl
    fault_not_done := fun hf => by rw [State.writeStatus_done, hs.fault_not_done hf]; rfl }

theorem StatusOk.regWrite {s : State} (hs : StatusOk s) (r : Reg) (v : Word) : StatusOk (regWrite s r v) := by
  cases r with
  | ctrl =>
    rcases writeCtrl_cases s v with h | h
    · exact (congrArg StatusOk h).mpr (statusOk_resetOf s.inst s.env)
    · exact (congrArg StatusOk h).mpr hs
  | status => exact hs.writeStatus v
  | cmd => exact hs.writeCmd v
  | _ => exact { hs with }

/-! ### Commands -/

/-- While a command runs: STATUS agrees, and BUSY is 1. -/
def StatusOkBusy (s : State) : Prop := StatusOk s ∧ s.busy = true

theorem StatusOkBusy.complete {s : State} (h : StatusOkBusy s) : StatusOk s.complete :=
  { h.1 with
    busy_not_done := nofun
    fault_not_done := fun hf => by
      obtain ⟨f, hf⟩ := Option.isSome_iff_exists.mp hf
      have hf : s.fault = some f := hf
      rw [State.complete_done, hf]
      exact h.1.busy_not_done h.2 }

theorem StatusOkBusy.takeFault {s : State} (h : StatusOkBusy s) (f : FaultCode) (n : Nat) : StatusOk (s.takeFault f n) :=
  { h.1.recordFault h.2 f s.latch.word n with busy_not_done := nofun }

/-- A command that names neither SESSION, MODE, RC_FINISHED nor RC_DEC_READY keeps STATUS in agreement. -/
theorem Within.statusOkBusy {o : Opcode} {s u : State} (h : Within o s u) (ho : o ∉ [Opcode.init, .rcFinish, .rcDstart])
    (hs : StatusOkBusy s) : StatusOkBusy u := by
  simp only [List.mem_cons, List.not_mem_nil, or_false, not_or] at ho
  obtain ⟨hinit, hfin, hstart⟩ := ho
  obtain ⟨⟨⟩, hb⟩ := hs
  refine ⟨?_, h.busy.trans hb⟩
  constructor <;>
    simp only [h.busy, h.done, h.fault, h.faultCmd, h.faultInfo, h.mode hinit, h.session hinit, h.rcFinished (not_or.mpr ⟨hinit, hfin⟩),
      h.rcDecReady (not_or.mpr ⟨hinit, hstart⟩)] <;> assumption

/-- RC_FINISH sets RC_FINISHED in an encode session only (43_range_coder.md R209, R212). -/
theorem encFinish_ends_statusOkBusy {s : State} (hs : StatusOkBusy s) (hm : s.session = true ∧ s.mode = .encode) :
    (encFinish s).Ends StatusOkBusy StatusOkBusy := by
  unfold encFinish
  split
  · exact hs
  · next u hu =>
    have hw : Within .rcEncode s u := addCarry_within (by decide) (by decide) hu
    have hok := hw.statusOkBusy (by decide) hs
    have hsession := (hw.session nofun).trans hm.1
    have hmode := (hw.mode nofun).trans hm.2
    exact .require hs ⟨{ hok.1 with finished_encode := fun _ => ⟨hsession, hmode⟩ }, hok.2⟩

theorem workKeeps_statusOkBusy (i : Instr) (s : State) (hs : StatusOkBusy s) : WorkKeeps StatusOkBusy i s := by
  cases i with
  | init m =>
    refine ⟨_, rfl, .withNeeds hs (requireConfig_ends hs ⟨?_, hs.2⟩)⟩
    exact { hs.1 with decode_session := fun _ => rfl, finished_encode := nofun, ready_decode := nofun }
  | rcFinish => exact ⟨_, rfl, .withNeeds_met hs fun hm => .require hs (encFinish_ends_statusOkBusy hs hm)⟩
  | rcDstart =>
    exact ⟨_, rfl, .withNeeds_met hs fun hm => .require hs (.require hs ⟨{ hs.1 with ready_decode := fun _ => hm }, hs.2⟩)⟩
  | _ => exact workKeeps_of_within fun u hu => hu.statusOkBusy (by simp [Instr.opcode]) hs

theorem exec_keeps_statusOk {i : Instr} {s t : State} (hs : StatusOkBusy s) (h : exec i s = .next t) : StatusOk t := by
  obtain ⟨x, hx, hends⟩ := workKeeps_statusOkBusy i s hs
  rcases finish_eq_next.mp (hx ▸ h) with ⟨u, rfl, rfl⟩ | ⟨f, n, u, rfl, rfl⟩
  · exact StatusOkBusy.complete hends
  · exact StatusOkBusy.takeFault hends f n

/-- Settles O26: DONE is 0 while a command is in flight, so neither its end nor an overrun sets DONE beside a fault; the phase bits are set by commands of their own direction. -/
theorem stepKeepsStatusConsistent : Obligations.StepKeepsStatusConsistent := by
  intro s t hs h
  have hturn : StatusOk s.takeTurn := { hs with }
  have haccess (rest : List Access) : StatusOk (s.takeAccess rest) := { hs with }
  cases stepTo_of_step h with
  | idle _ => exact hturn
  | command _ hb _ hx => exact exec_keeps_statusOk ⟨hturn, hb⟩ hx
  | illegal _ hb _ => exact StatusOkBusy.takeFault ⟨hturn, hb⟩ _ _
  | reset _ _ => exact statusOk_resetOf _ _
  | @read _ _ _ rest _ _ _ => rw [hostRead_eq]; exact { haccess rest with }
  | @write _ _ off v rest _ _ _ =>
    rcases hostWrite_cases (s.takeAccess rest) off v with he | ⟨r, he⟩
    · rw [he]; exact haccess rest
    · rw [he]; exact (haccess rest).regWrite r v

end Sys2Proof.Machine
end

section
/-! PROOFS. The frequency model stays consistent: what the update of the counts does to CTX, and the escapes and symbols of the coding loops (10_state.md R48, 44_frequency_model.md R241, R245, R249, R254, R260, R261). -/

namespace Sys2Proof.Machine

/-! ### The size of a store and the sum of a table after a write -/

section
variable {κ α : Type} [DecidableEq κ] [DecidableEq α] {lt : κ → κ → Bool} {t : Store κ α} {d : α}

theorem Store.length_put_le (k : κ) (v : α) : (Store.put lt t d k v).length ≤ t.length + 1 := by
  induction t with
  | nil => unfold Store.put; split <;> simp
  | cons e rest ih =>
    unfold Store.put
    split
    · split <;> simp only [List.length_cons] <;> omega
    · split
      · split <;> simp
      · simpa using ih

/-- A write to a listed key adds no entry. -/
theorem Store.length_put_le_of_get_ne (hlt : StrictTotal lt) (hw : Store.wf lt t d = true) {k : κ} (hk : Store.get t d k ≠ d) (v : α) :
    (Store.put lt t d k v).length ≤ t.length := by
  induction t with
  | nil => exact absurd rfl hk
  | cons e rest ih =>
    obtain ⟨k', v'⟩ := e
    obtain ⟨_, hrest, hw⟩ := (Store.wf_cons k' v' rest).mp hw
    unfold Store.put
    split
    · split <;> simp
    · next hne =>
      rw [Store.get_cons, if_neg fun he => hne he.symm] at hk
      split
      · next hkk => exact absurd (Store.get_eq_default hlt k fun e he => hlt.trans _ _ _ hkk (hrest e he)) hk
      · simpa using ih hw hk

end

@[simp] theorem Counts.total_cons (e : Nat × Nat) (t : Counts) : Counts.total (e :: t) = e.2 + Counts.total t := by simp [Counts.total]

/-- The sum of a table after a write: the new count replaces the old one (10_state.md R49). -/
theorem Counts.total_put {t : Counts} (hw : Counts.wf t = true) (s v : Nat) :
    Counts.total (Store.put natLt t 0 s v) + Counts.at t s = Counts.total t + v := by
  induction t with
  | nil =>
    unfold Store.put
    split
    · next hv => rw [hv]; rfl
    · rw [Counts.total_cons]; simp [Counts.at, Nat.add_comm]
  | cons e rest ih =>
    obtain ⟨k', v'⟩ := e
    obtain ⟨_, hrest, hw⟩ := (Store.wf_cons k' v' rest).mp hw
    unfold Store.put Counts.at
    rw [Store.get_cons]
    split
    · next hk =>
      rw [if_pos hk.symm]
      split
      · next hv => rw [hv, Counts.total_cons]; omega
      · simp only [Counts.total_cons]; omega
    · next hk =>
      rw [if_neg fun he : k' = s => hk he.symm]
      split
      · next hkk =>
        rw [Store.get_eq_default natLt_strictTotal s fun e he => natLt_strictTotal.trans _ _ _ hkk (hrest e he)]
        split
        · next hv => rw [hv]
        · simp only [Counts.total_cons]; omega
      · have := ih hw
        simp only [Counts.total_cons, Counts.at] at this ⊢
        omega

theorem Counts.total_inc {t : Counts} (hw : Counts.wf t = true) (s : Nat) : Counts.total (Counts.inc t s) = Counts.total t + 1 := by
  have := Counts.total_put hw s (Counts.at t s + 1)
  unfold Counts.inc
  omega

/-! ### The context keys -/

theorem length_lastN {k : Nat} {l : List Nat} (h : k ≤ l.length) : (lastN k l).length = k := by
  rw [lastN, List.length_drop]; omega

theorem mem_of_mem_lastN {k x : Nat} {l : List Nat} (h : x ∈ lastN k l) : x ∈ l := List.mem_of_mem_drop h

theorem length_ctxKey {m : Model} {k : Nat} (h : k ≤ m.hist.length) : (ctxKey m k).length = k := length_lastN h

/-- The keys of different orders differ (44_frequency_model.md R242). -/
theorem ctxKey_injective {m : Model} {j k : Nat} (hj : j ≤ m.hist.length) (hk : k ≤ m.hist.length) (h : ctxKey m j = ctxKey m k) : j = k := by
  rw [← length_ctxKey hj, h, length_ctxKey hk]

/-! ### The update of the counts -/

/-- The orders below n whose context table has no count (44_frequency_model.md R249, Capacity). -/
def emptyOrders (m : Model) (n : Nat) : List Nat := (List.range n).filter fun k => m.table (ctxKey m k) = []

theorem emptyOrders_kmax (s : State) : emptyOrders s.ppm (kmax s + 1) = newOrders s := rfl

/-- m' is m with sym counted once in the context of every order below n (44_frequency_model.md R249). -/
structure CountedBelow (m : Model) (sym n : Nat) (m' : Model) : Prop where
  hist : m'.hist = m.hist
  ctxWf : m'.ctxWf = true
  other : ∀ key, (∀ k < n, key ≠ ctxKey m k) → m'.table key = m.table key
  entries : ∀ e ∈ m'.ctx, e ∈ m.ctx ∨ ∃ k < n, e = (ctxKey m k, Counts.inc (m.table (ctxKey m k)) sym)
  size : m'.ctx.length ≤ m.ctx.length + (emptyOrders m n).length

theorem countedBelow_zero {m : Model} (hw : m.ctxWf = true) (sym : Nat) : CountedBelow m sym 0 m where
  hist := rfl
  ctxWf := hw
  other _ _ := rfl
  entries _ he := .inl he
  size := Nat.le_add_right _ _

/-- Counting at one more order. -/
theorem CountedBelow.bump {m m' : Model} {sym n : Nat} (h : CountedBelow m sym n m') (hn : n ≤ m.hist.length) :
    CountedBelow m sym (n + 1) (m'.bump sym n) := by
  have hkey : ctxKey m' n = ctxKey m n := by simp only [ctxKey, h.hist]
  have hfresh : m'.table (ctxKey m n) = m.table (ctxKey m n) :=
    h.other _ fun k hk he => by have := ctxKey_injective hn (by omega) he; omega
  refine ⟨h.hist, Model.ctxWf_bump h.ctxWf sym n, fun key hne => ?_, fun e he => ?_, ?_⟩
  · rw [Model.table_bump h.ctxWf, hkey, if_neg (hne n (Nat.lt_succ_self n))]
    exact h.other key fun k hk => hne k (by omega)
  · rcases Store.mem_put he with he | he
    · exact (h.entries e he).imp_right fun ⟨k, hk, hek⟩ => ⟨k, by omega, hek⟩
    · exact .inr ⟨n, Nat.lt_succ_self n, by rw [he, hkey, hfresh]⟩
  · have hsize := h.size
    have hgrow : (emptyOrders m (n + 1)).length = (emptyOrders m n).length + if m.table (ctxKey m n) = [] then 1 else 0 := by
      rw [emptyOrders, List.range_succ, List.filter_append, List.length_append]
      by_cases he : m.table (ctxKey m n) = [] <;> simp [he, emptyOrders]
    rw [hgrow]
    split
    · have hput : (m'.bump sym n).ctx.length ≤ m'.ctx.length + 1 := Store.length_put_le _ _
      omega
    · next hne =>
      have hput : (m'.bump sym n).ctx.length ≤ m'.ctx.length :=
        Store.length_put_le_of_get_ne keyLt_strictTotal (m'.ctxWf_iff.mp h.ctxWf).1 (by rw [hkey]; exact fun he => hne (hfresh.symm.trans he)) _
      omega

theorem countedBelow_bumpAll {m : Model} (hw : m.ctxWf = true) (sym : Nat) {top : Nat} (htop : top ≤ m.hist.length) :
    CountedBelow m sym (top + 1) (m.bumpAll sym top) := by
  induction top with
  | zero => exact (countedBelow_zero hw sym).bump htop
  | succ n ih => rw [Model.bumpAll_succ]; exact (ih (by omega)).bump htop

/-! ### The invariant and the update -/

theorem ModelOk.hist_length_eq_kmax {s : State} (hs : ModelOk s) : s.ppm.hist.length = kmax s := by rw [hs.hist_len, kmax, Nat.min_comm]

/-- A context's table sums to at most h, listed or not (44_frequency_model.md R245). -/
theorem ModelOk.table_total_le {s : State} (hs : ModelOk s) (key : List Nat) : Counts.total (s.ppm.table key) ≤ s.ppm.hlen := by
  by_cases h : s.ppm.table key = []
  · rw [h]; exact Nat.zero_le _
  · exact hs.table_total _ (Store.mem_of_get_ne_default h)

theorem ModelOk.table_sym_lt {s : State} (hs : ModelOk s) (key : List Nat) : ∀ c ∈ s.ppm.table key, c.1 < s.acfg.alpha := by
  by_cases h : s.ppm.table key = []
  · rw [h]; simp
  · exact hs.table_syms _ (Store.mem_of_get_ne_default h)

/-- The update keeps the model consistent where its capacity checks pass (44_frequency_model.md R249). -/
theorem ModelOk.updateModel {s : State} (hs : ModelOk s) {sym : Nat} (hsym : sym < s.acfg.alpha) (hroom : s.ppm.hlen < s.inst.seqCap)
    (hctx : ctxOverflows s = false) : ModelOk (updateModel s sym) := by
  have hc := countedBelow_bumpAll hs.ctx_wf sym (top := kmax s) hs.hist_length_eq_kmax.ge
  have hk : kmax s ≤ kmax (Machine.updateModel s sym) := min_le_min_left _ (Nat.le_succ _)
  have hlen : (Machine.updateModel s sym).ppm.hist.length = min (s.ppm.hlen + 1) s.acfg.order := by
    refine length_lastN ?_
    rw [List.length_append, hs.hist_len, List.length_singleton]; omega
  constructor
  case esc_le => exact Nat.zero_le _
  case hlen_le => exact hroom
  case hist_len => exact hlen
  case hist_syms =>
    intro x hx
    rcases List.mem_append.mp (mem_of_mem_lastN hx) with hx | hx
    · exact hs.hist_syms x hx
    · rw [List.mem_singleton.mp hx]; exact hsym
  case ctx_wf => exact updateModel_ctxWf hs.ctx_wf sym
  case ctx_cap =>
    intro hcap
    have hsize := hc.size
    rw [emptyOrders_kmax] at hsize
    have hfit := of_decide_eq_false hctx
    rw [not_and, tableCount] at hfit
    exact hsize.trans (Nat.le_of_not_lt (hfit hcap))
  case key_len =>
    intro e he
    rcases hc.entries e he with he | ⟨k, hk', rfl⟩
    · exact (hs.key_len e he).trans hk
    · rw [length_ctxKey (by rw [hs.hist_length_eq_kmax]; omega)]; omega
  case key_syms =>
    intro e he
    rcases hc.entries e he with he | ⟨k, _, rfl⟩
    · exact hs.key_syms e he
    · exact fun x hx => hs.hist_syms x (mem_of_mem_lastN hx)
  case table_syms =>
    intro e he
    rcases hc.entries e he with he | ⟨k, _, rfl⟩
    · exact hs.table_syms e he
    · intro c hcm
      rcases Store.mem_put hcm with hcm | rfl
      · exact hs.table_sym_lt _ c hcm
      · exact hsym
  case table_total =>
    intro e he
    rcases hc.entries e he with he | ⟨k, _, rfl⟩
    · exact (hs.table_total e he).trans (Nat.le_succ _)
    · show Counts.total (Counts.inc _ sym) ≤ s.ppm.hlen + 1
      rw [Counts.total_inc (Model.wf_table hs.ctx_wf _)]
      exact Nat.succ_le_succ (hs.table_total_le _)

/-- The invariant does not depend on more than the parameters, ACFG and the model, and bears any ESC within the levels. -/
theorem ModelOk.congr {s t : State} (hinst : t.inst = s.inst) (h : SameModel s t) (hesc : t.ppm.esc ≤ kmax s + 1) (hs : ModelOk s) :
    ModelOk t := by
  have hk := h.kmax
  obtain ⟨hacfg, hctx, hhist, hlen⟩ := h
  obtain ⟨⟩ := hs
  constructor <;> simp only [hinst, hacfg, hctx, hhist, hlen, hk, Model.ctxWf, tableCount] <;> assumption

theorem modelOk_of_ppm_eq_reset {s : State} (h : s.ppm = Model.reset) : ModelOk s := by
  constructor <;> simp [h, Model.reset, Model.ctxWf, Store.wf, tableCount]

/-! ### The coding loops -/

/-- u is s with some levels passed and n order levels to go, and whatever the coder's steps did (44_frequency_model.md R260, R261). -/
structure DownTo (s : State) (n : Nat) (u : State) : Prop where
  inst : u.inst = s.inst
  model : SameModel s u
  esc : u.ppm.esc + n ≤ kmax s + 1

theorem downTo_ordersLeft {s : State} (hs : ModelOk s) : DownTo s (ordersLeft s) s :=
  ⟨rfl, .refl s, by have := hs.esc_le; unfold ordersLeft; omega⟩

theorem DownTo.escapeOnce {s u : State} {n : Nat} (h : DownTo s (n + 1) u) : DownTo s n (escapeOnce u) :=
  ⟨h.inst, h.model.trans (sameModel_escapeOnce u), by have := h.esc; show u.ppm.esc + 1 + n ≤ _; omega⟩

theorem DownTo.zero {s u : State} {n : Nat} (h : DownTo s n u) : DownTo s 0 u := ⟨h.inst, h.model, by have := h.esc; omega⟩

theorem DownTo.coderStep {s u v : State} {n : Nat} (h : DownTo s n u) (hv : CoderFrame u v) : DownTo s n v :=
  ⟨(congrArg State.inst hv).trans h.inst, h.model.trans hv.sameModel, (congrArg (·.ppm.esc + n) hv).trans_le h.esc⟩

theorem DownTo.modelOk {s u : State} {n : Nat} (h : DownTo s n u) (hs : ModelOk s) : ModelOk u := hs.congr h.inst h.model h.zero.esc

theorem SameModel.newOrders {s t : State} (h : SameModel s t) : newOrders t = newOrders s := by
  unfold Machine.newOrders
  rw [h.kmax]
  exact List.filter_congr fun k _ => by rw [h.ctxKey, Model.table, h.2.1]; rfl

theorem DownTo.ctxOverflows {s u : State} {n : Nat} (h : DownTo s n u) : ctxOverflows u = ctxOverflows s := by
  unfold Machine.ctxOverflows tableCount
  rw [h.inst, h.model.newOrders, h.model.2.1]

/-- The update at the end of a loop, with the checks made before the loop. -/
theorem DownTo.updateModel {s u : State} {n sym : Nat} (h : DownTo s n u) (hs : ModelOk s) (hsym : sym < s.acfg.alpha)
    (hroom : s.ppm.hlen < s.inst.seqCap) (hctx : Machine.ctxOverflows s = false) : ModelOk (updateModel u sym) := by
  obtain ⟨hacfg, -, -, hlen⟩ := h.model
  exact (h.modelOk hs).updateModel (hacfg ▸ hsym) (by rw [hlen, h.inst]; exact hroom) (h.ctxOverflows.trans hctx)

theorem encodeLoop_ends_downTo {s : State} (hs : ModelOk s) (sym : Nat) :
    (encodeLoop sym (ordersLeft s) s).Ends (DownTo s 0) (DownTo s 0) :=
  encodeLoop_ends (I := DownTo s)
    (fun _ _ _ hu => .of_cases (fun _ h => hu.coderStep (encStep_frame h)) (fun _ _ _ h => (encStep_raise h).1 ▸ hu))
    (fun _ _ hu => hu.escapeOnce) (fun _ _ hu => hu.zero) sym (downTo_ordersLeft hs)

theorem decodeLoop_ends_downTo {s : State} (hs : ModelOk s) :
    (decodeLoop (ordersLeft s) s).Ends (fun r => DownTo s 0 r.2) (DownTo s 0) :=
  decodeLoop_ends (I := DownTo s)
    (fun _ _ _ hu => .of_cases (fun _ h => hu.coderStep (decStep_coderFrame h)) (fun _ _ _ h => (decStep_raise h).1 ▸ hu))
    (fun _ _ hu => hu.escapeOnce) (fun _ _ hu => hu.zero) (downTo_ordersLeft hs)

/-- A level that admits a symbol has a positive mass. -/
theorem massS_pos_of_admitted {s : State} {lv : Level} (h : 0 < admitted s lv) : 0 < massS s lv := by
  refine h.trans_le (sumBelow_le fun x _ => ?_)
  split <;> omega

/-- The symbol the decode loop gives is below A (44_frequency_model.md R248, R261). -/
theorem decodeLoop_symbol_lt {n x : Nat} {s u : State} (h : decodeLoop n s = .ok (x, u)) : x < s.acfg.alpha := by
  induction n generalizing s with
  | zero =>
    unfold decodeLoop at h
    simp only at h
    split at h
    · cases h
    · split at h
      · next hone => cases h; exact (icdf_spec _ .base 0 (by omega)).1
      · obtain ⟨v, hv, h⟩ := CmdResult.andThen_eq_ok.mp h
        obtain ⟨⟨_, _, _, hfit⟩, _⟩ := decStep_eq_ok hv
        cases h
        exact (icdf_spec s .base _ hfit).1
  | succ k ih =>
    unfold decodeLoop at h
    simp only at h
    split at h
    · exact ih (s := escapeOnce s) h
    · split at h
      · next hone =>
        cases h
        exact (icdf_spec _ _ 0 (massS_pos_of_admitted (by rw [hone.2]; decide))).1
      · split at h
        · obtain ⟨v, hv, h⟩ := CmdResult.andThen_eq_ok.mp h
          have hacfg : v.acfg = s.acfg := (decStep_coderFrame hv).sameModel.1
          exact hacfg ▸ ih (s := escapeOnce v) h
        · next hlt =>
          obtain ⟨v, _, h⟩ := CmdResult.andThen_eq_ok.mp h
          cases h
          exact (icdf_spec s _ _ (by omega)).1

/-! ### The commands -/

/-- A command that names neither PPM_HLEN nor ESC, and is not INIT, keeps the model. -/
theorem Within.modelOk {o : Opcode} {s u : State} (h : Within o s u) (hinit : o ≠ .init) (hlen : .ppmHlen ∉ writtenRegs o)
    (hesc : writesEsc o = false) (hs : ModelOk s) : ModelOk u :=
  hs.congr h.inst ⟨h.acfg hinit, h.ctx hlen, h.hist hlen, h.hlen hlen⟩ (h.esc hesc ▸ hs.esc_le)

theorem escapeOnce_modelOk {s : State} (hs : ModelOk s) (h : level s ≠ .base) : ModelOk (escapeOnce s) := by
  have hleft : ordersLeft s ≠ 0 := fun h0 => h (level_of_ordersLeft h0)
  refine ModelOk.congr (s := s) rfl (sameModel_escapeOnce s) ?_ hs
  show s.ppm.esc + 1 ≤ kmax s + 1
  unfold ordersLeft at hleft
  omega

theorem workKeeps_modelOk (i : Instr) (s : State) (hs : ModelOk s) : WorkKeeps ModelOk i s := by
  cases i with
  | init m => exact ⟨_, rfl, .withNeeds hs (requireConfig_ends hs (.ok (modelOk_of_ppm_eq_reset rfl)))⟩
  | ppmEscape => exact ⟨_, rfl, .withNeeds hs (.require_decide hs fun h => .ok (escapeOnce_modelOk hs h))⟩
  | ppmUpdate sym =>
    exact ⟨_, rfl, .withNeeds hs (.require_decide hs fun hsym => .require_decide hs fun hroom => .require_not hs fun hctx =>
      .ok (hs.updateModel hsym hroom hctx))⟩
  | ppmEncode sym =>
    have hloop := (encodeLoop_ends_downTo hs sym).mono (fun _ => id) fun _ hu => hu.modelOk hs
    exact ⟨_, rfl, .withNeeds hs (.require hs (.require hs (.require_decide hs fun hsym => .require_decide hs fun hroom =>
      .require_not hs fun hctx => .andThen hloop fun _ hu => .ok { hu.updateModel hs hsym hroom hctx with })))⟩
  | ppmDecode =>
    have hloop := ((decodeLoop_ends_downTo hs).mono (fun _ => id) fun _ hu => hu.modelOk hs).and_ok fun _ h => decodeLoop_symbol_lt h
    exact ⟨_, rfl, .withNeeds hs (.require hs (.require hs (.require_decide hs fun hroom => .andThen hloop fun _ hr =>
      .require_not (hr.1.modelOk hs) fun hctx => .ok { hr.1.updateModel hs hr.2 hroom (hr.1.ctxOverflows.symm.trans hctx) with })))⟩
  | _ => exact workKeeps_of_within fun u hu => hu.modelOk nofun (by simp [writtenRegs, Instr.opcode]) rfl hs

/-- Settles O29: each update counts its symbol at most once in any context, in at most as many new contexts as CTX has room for, and the loops pass no more than kmax + 1 levels. -/
theorem stepKeepsModelConsistent : Obligations.StepKeepsModelConsistent := fun _ _ _ =>
  step_keeps (fun _ _ h hs => hs.congr h.inst ⟨h.acfg, congrArg Model.ctx h.ppm, congrArg Model.hist h.ppm, congrArg Model.hlen h.ppm⟩
    (h.ppm ▸ hs.esc_le)) (fun _ _ => modelOk_of_ppm_eq_reset rfl) workKeeps_modelOk

end Sys2Proof.Machine
end

section
/-! PROOFS. The register window as the host sees it: STATUS and its fields, what each write stores, the map of offsets, and the CMD write (10_state.md R24 to R27, R31 to R46, 60_exceptions.md R301, R303). -/

namespace Sys2Proof.Machine

/-! ### STATUS -/

theorem faultCodeOf_lt (f : Option FaultCode) : faultCodeOf f < 2 ^ 8 := by
  cases f with
  | none => decide
  | some f => cases f <;> decide

/-- STATUS as a natural: its fields, each at the weight of its lowest bit (10_state.md R24). -/
theorem statusWord_toNat (s : State) :
    s.statusWord.toNat = s.busy.toNat + 2 * s.done.toNat + 4 * s.fault.isSome.toNat + 8 * s.session.toNat + 16 * s.mode.bit
      + 32 * s.rcFinished.toNat + 64 * s.rcDecReady.toNat + 2 ^ 8 * faultCodeOf s.fault + 2 ^ 16 * (s.ppm.esc % 2 ^ 8) := by
  have hmode : s.mode.bit < 2 := by cases s.mode <;> decide
  have := faultCodeOf_lt s.fault
  have := s.busy.toNat_lt
  have := s.done.toNat_lt
  have := s.fault.isSome.toNat_lt
  have := s.session.toNat_lt
  have := s.rcFinished.toNat_lt
  have := s.rcDecReady.toNat_lt
  rw [State.statusWord, BitVec.toNat_ofNat]
  omega

/-- Every field of STATUS at its bits (10_state.md R24). -/
theorem bitField_statusWord (s : State) :
    bitField s.statusWord 0 0 = s.busy.toNat ∧ bitField s.statusWord 1 1 = s.done.toNat ∧ bitField s.statusWord 2 2 = s.fault.isSome.toNat ∧
    bitField s.statusWord 3 3 = s.session.toNat ∧ bitField s.statusWord 4 4 = s.mode.bit ∧ bitField s.statusWord 5 5 = s.rcFinished.toNat ∧
    bitField s.statusWord 6 6 = s.rcDecReady.toNat ∧ bitField s.statusWord 7 7 = 0 ∧ bitField s.statusWord 15 8 = faultCodeOf s.fault ∧
    bitField s.statusWord 23 16 = s.ppm.esc % 2 ^ 8 ∧ bitField s.statusWord 63 24 = 0 := by
  have hmode : s.mode.bit < 2 := by cases s.mode <;> decide
  have := faultCodeOf_lt s.fault
  have := s.busy.toNat_lt
  have := s.done.toNat_lt
  have := s.fault.isSome.toNat_lt
  have := s.session.toNat_lt
  have := s.rcFinished.toNat_lt
  have := s.rcDecReady.toNat_lt
  simp only [bitField, statusWord_toNat]
  refine ⟨?_, ?_, ?_, ?_, ?_, ?_, ?_, ?_, ?_, ?_, ?_⟩ <;> omega

/-- FAULT_CODE is the number R301 gives the recorded fault. -/
theorem bitField_status_faultCode {s : State} {e : FaultCode × Nat} (he : e ∈ faultCodes) (hf : s.fault = some e.1) :
    bitField s.statusWord 15 8 = e.2 := by
  obtain ⟨-, -, -, -, -, -, -, -, hcode, -, -⟩ := bitField_statusWord s
  rw [hcode, hf]
  exact mem_faultCodes.mp he

/-- Settles O13: the STATUS word is the sum of its fields at their weights, and they do not overlap. -/
theorem statusHoldsItsFields : Obligations.StatusHoldsItsFields := by
  refine ⟨fun s hesc => ?_, fun s => ⟨fun hn => ?_, fun e he hf => bitField_status_faultCode he hf⟩,
    fun f => ⟨f.code, mem_faultCodes.mpr rfl⟩, fun _ _ => rfl, fun _ _ => rfl⟩
  · obtain ⟨hbusy, hdone, hfault, hsession, hmode, hfin, hready, h7, -, hesc', h24⟩ := bitField_statusWord s
    refine ⟨hbusy, hdone, hfault, hsession, hmode.trans ?_, hfin, hready, h7, hesc'.trans (Nat.mod_eq_of_lt hesc), h24⟩
    cases s.mode <;> rfl
  · obtain ⟨-, -, -, -, -, -, -, -, hcode, -, -⟩ := bitField_statusWord s
    exact hcode.trans (by rw [hn]; rfl)

/-- Settles O16: a command's end is a completion or a fault taken, and STATUS shows the fault that is recorded. -/
theorem commandEndSetsBusyDoneAndFaultCmd : Obligations.CommandEndSetsBusyDoneAndFaultCmd := by
  refine ⟨fun i s t h => exec_busy_done_faultCmd h, fun s e n he => ⟨fun hn => ?_, fun hf => takeFault_eq_of_isSome hf e.1 n⟩⟩
  have htake := State.takeFault_of_none hn e.1 n
  have hfault : (s.takeFault e.1 n).fault = some e.1 := congrArg State.fault htake
  obtain ⟨-, -, hbit, -⟩ := bitField_statusWord (s.takeFault e.1 n)
  refine ⟨htake, hbit.trans (by rw [hfault]; rfl), bitField_status_faultCode he hfault, ?_, ?_⟩
  · exact congrArg State.faultCmd htake
  · exact congrArg State.faultInfo htake

/-! ### What a write stores -/

/-- A register of n bits stores the low n bits of the word (10_state.md R36 to R40). -/
theorem toWord_extractLsb'_zero (v : Word) {n : Nat} (hn : n ≤ 64) : toWord (v.extractLsb' 0 n).toNat = v &&& toWord (2 ^ n - 1) := by
  refine BitVec.eq_of_toNat_eq ?_
  have hpow : 2 ^ n ≤ 2 ^ 64 := Nat.pow_le_pow_right (by decide) hn
  have hpos := Nat.two_pow_pos n
  rw [BitVec.toNat_and, BitVec.toNat_ofNat, BitVec.toNat_ofNat, BitVec.extractLsb'_toNat, Nat.shiftRight_zero,
    Nat.mod_eq_of_lt (by omega : 2 ^ n - 1 < 2 ^ 64), Nat.and_two_pow_sub_one_eq_mod]
  exact Nat.mod_eq_of_lt ((Nat.mod_lt _ hpos).trans_le hpow)

/-- INTEN stores bits 0 and 1 (10_state.md R31). -/
theorem intenWord_writeInten (s : State) (v : Word) : (s.writeInten v).intenWord = v &&& 0x3#64 := by
  refine BitVec.eq_of_toNat_eq ?_
  have h0 := Nat.toNat_testBit v.toNat 0
  have h1 := Nat.toNat_testBit v.toNat 1
  have hand : v.toNat &&& (2 ^ 2 - 1) = v.toNat % 2 ^ 2 := Nat.and_two_pow_sub_one_eq_mod _ _
  have hnat : (0x3#64).toNat = 2 ^ 2 - 1 := rfl
  rw [State.intenWord, BitVec.toNat_and, BitVec.toNat_ofNat, hnat, hand, State.writeInten_doneIE, State.writeInten_faultIE, BitVec.getLsbD,
    BitVec.getLsbD, h0, h1]
  omega

/-- CFG_PPM stores bits [3:0] and [9:8] (10_state.md R41). -/
theorem ppmWord_write (c : CfgRegs) (v : Word) :
    ({ c with order := v.extractLsb' 0 4, method := v.extractLsb' 8 2 } : CfgRegs).ppmWord = v &&& 0x30F#64 := by
  refine BitVec.eq_of_toNat_eq ?_
  have hnat : (0x30F#64).toNat = 2 ^ 8 * 3 + 15 := rfl
  rw [CfgRegs.ppmWord, BitVec.toNat_and, BitVec.toNat_ofNat, hnat, BitVec.extractLsb'_toNat, BitVec.extractLsb'_toNat, Nat.shiftRight_zero,
    Nat.shiftRight_eq_div_pow, Nat.mod_eq_of_lt (by omega : v.toNat % 2 ^ 4 + 2 ^ 8 * (v.toNat / 2 ^ 8 % 2 ^ 2) < 2 ^ 64), Nat.add_comm]
  refine Nat.eq_of_testBit_eq fun i => ?_
  rw [Nat.testBit_and, Nat.testBit_two_pow_mul_add _ (by omega : v.toNat % 2 ^ 4 < 2 ^ 8), Nat.testBit_two_pow_mul_add _ (by decide : 15 < 2 ^ 8)]
  split
  · rw [Nat.testBit_mod_two_pow, (Nat.testBit_two_pow_sub_one 4 i : Nat.testBit 15 i = _), Bool.and_comm]
  · next hi =>
    rw [Nat.testBit_mod_two_pow, (Nat.testBit_two_pow_sub_one 2 (i - 8) : Nat.testBit 3 (i - 8) = _), Nat.testBit_div_two_pow, Bool.and_comm,
      Nat.sub_add_cancel (Nat.le_of_not_lt hi)]

/-- A writable register stores its legal bits. -/
theorem regValue_regWrite_same (s : State) (v : Word) {e : Reg × Word} (he : e ∈ writableRegs) : regValue (regWrite s e.1 v) e.1 = v &&& e.2 := by
  fin_cases he
  exacts [intenWord_writeInten s v, BitVec.and_allOnes.symm, BitVec.and_allOnes.symm, BitVec.and_allOnes.symm,
    toWord_extractLsb'_zero v (by decide), toWord_extractLsb'_zero v (by decide), toWord_extractLsb'_zero v (by decide),
    toWord_extractLsb'_zero v (by decide), toWord_extractLsb'_zero v (by decide), ppmWord_write s.cfg v]

/-- A write of a register that is not CTRL, STATUS or CMD leaves what every other register shows. -/
theorem regValue_regWrite_other (s : State) (v : Word) {q : Reg} (hq : q ∉ [Reg.ctrl, .status, .cmd]) {r : Reg} (hr : r ≠ q) :
    regValue (regWrite s q v) r = regValue s r := by
  cases q with
  | ctrl | status | cmd => simp at hq
  | inten => cases r with | inten => exact absurd rfl hr | _ => rfl
  | arg0 => cases r with | arg0 => exact absurd rfl hr | _ => rfl
  | arg1 => cases r with | arg1 => exact absurd rfl hr | _ => rfl
  | arg2 => cases r with | arg2 => exact absurd rfl hr | _ => rfl
  | cfgAlpha => cases r with | cfgAlpha => exact absurd rfl hr | _ => rfl
  | cfgWindow => cases r with | cfgWindow => exact absurd rfl hr | _ => rfl
  | cfgMinlen => cases r with | cfgMinlen => exact absurd rfl hr | _ => rfl
  | cfgMaxlen => cases r with | cfgMaxlen => exact absurd rfl hr | _ => rfl
  | cfgCost => cases r with | cfgCost => exact absurd rfl hr | _ => rfl
  | cfgPpm => cases r with | cfgPpm => exact absurd rfl hr | _ => rfl
  | _ => rfl

/-- Settles O9: each writable register is a field of its own, and its write a mask. -/
theorem registerWritesStoreLegalBits : Obligations.RegisterWritesStoreLegalBits := by
  intro s v e he
  refine ⟨regValue_regWrite_same s v he, fun r hr => regValue_regWrite_other s v ?_ hr, ?_⟩
  · fin_cases he <;> decide
  · fin_cases he <;> exact ⟨rfl, rfl, rfl, rfl, rfl⟩

/-! ### The map of offsets -/

theorem listedOffsets_eq : listedOffsets = regMap.map Prod.fst := rfl

/-- The register found at an offset is that of a row of the map (10_state.md, section 2). -/
theorem mem_regMap_of_regAt {off : Nat} {r : Reg} (h : regAt off = some r) : (off, r) ∈ regMap := by
  obtain ⟨e, he, rfl⟩ := Option.map_eq_some_iff.mp h
  have hoff : e.1 = off := by simpa using List.find?_some he
  exact hoff ▸ List.mem_of_find?_eq_some he

theorem regAt_eq_none_iff (off : Nat) : regAt off = none ↔ off ∉ listedOffsets := by
  rw [listedOffsets_eq, regAt, Option.map_eq_none_iff, List.find?_eq_none, List.mem_map]
  simp only [beq_iff_eq, not_exists, not_and]

/-- Each row of the map is an aligned offset in the window, at which the map finds the register of the row. -/
theorem regMap_rows : ∀ e ∈ regMap, e.1 < 4096 ∧ e.1 % 8 = 0 ∧ regAt e.1 = some e.2 := by decide

/-- An aligned 64-bit access in the window has its offset (10_state.md R46, 20_memory.md R78). -/
theorem windowOffset_base (p : Params) {off : Nat} (hoff : off < 4096) (h8 : off % 8 = 0) : windowOffset p (p.regBase + off) 8 = .ok off := by
  have hsub : p.regBase + off - p.regBase = off := Nat.add_sub_cancel_left ..
  rw [windowOffset, if_neg (by omega), if_neg (by decide), hsub, if_neg (by omega)]

/-- An access of another width or alignment has none (10_state.md R46). -/
theorem windowOffset_bad (p : Params) {off bytes : Nat} (hoff : off < 4096) (h : bytes ≠ 8 ∨ off % 8 ≠ 0) :
    ∃ q, windowOffset p (p.regBase + off) bytes = .error q := by
  have hsub : p.regBase + off - p.regBase = off := Nat.add_sub_cancel_left ..
  rw [windowOffset, if_neg (by omega), hsub]
  by_cases hb : bytes ≠ 8
  · exact ⟨_, if_pos hb⟩
  · rw [if_neg hb]
    exact ⟨_, if_pos (h.resolve_left hb)⟩

theorem performAccess_read (s : State) {off : Nat} (hoff : off < 4096) (h8 : off % 8 = 0) :
    performAccess s (.read (s.inst.regBase + off) 8) = .next (hostRead s off) := by
  simp only [performAccess, windowOffset_base s.inst hoff h8]

theorem performAccess_write (s : State) {off : Nat} (hoff : off < 4096) (h8 : off % 8 = 0) (v : Word) :
    performAccess s (.write (s.inst.regBase + off) 8 v) = .next (hostWrite s off v) := by
  simp only [performAccess, windowOffset_base s.inst hoff h8]

/-- An aligned 64-bit read at a row of the map. -/
theorem performAccess_read_row (s : State) {e : Nat × Reg} (he : e ∈ regMap) :
    performAccess s (.read (s.inst.regBase + e.1) 8) = .next ((s.useDraw (drawnBits s e.2)).deliver (regRead s e.2)) := by
  obtain ⟨hoff, h8, hat⟩ := regMap_rows e he
  rw [performAccess_read s hoff h8]
  simp only [hostRead, hat]

/-- An aligned 64-bit write at a row of the map. -/
theorem performAccess_write_row (s : State) {e : Nat × Reg} (he : e ∈ regMap) (v : Word) :
    performAccess s (.write (s.inst.regBase + e.1) 8 v) = .next (regWrite s e.2 v) := by
  obtain ⟨hoff, h8, hat⟩ := regMap_rows e he
  rw [performAccess_write s hoff h8]
  simp only [hostWrite, hat]

/-- A write to a read-only register is ignored (10_state.md R46). -/
theorem regWrite_readOnly (s : State) (v : Word) : ∀ r ∈ readOnlyRegs, regWrite s r v = s := by
  intro r hr
  fin_cases hr <;> rfl

/-- No command writes CTRL or CMD, so no bit of a read of them is drawn. -/
theorem drawnBits_writeOnly (s : State) : ∀ r ∈ [Reg.ctrl, .cmd], drawnBits s r = 0#64 := by
  intro r hr
  have hw (o : Opcode) : r ∉ writtenRegs o := by fin_cases hr <;> cases o <;> decide
  have hopen : openBits s r = 0#64 := by
    fin_cases hr <;> (simp only [openBits]; split <;> simp [hw])
  rw [drawnBits, hopen, ite_self]

/-- A write-only register reads 0 (10_state.md R46). -/
theorem regRead_writeOnly (s : State) : ∀ r ∈ [Reg.ctrl, .cmd], regRead s r = 0#64 := by
  intro r hr
  have hvalue : regValue s r = 0#64 := by fin_cases hr <;> rfl
  rw [regRead, drawnBits_writeOnly s r hr, hvalue]
  simp

theorem State.useDraw_zero (s : State) : s.useDraw 0#64 = s := by simp [State.useDraw]

/-- Settles O10: the window's offsets are the rows of the map, and each row's access is its register's. -/
theorem windowAccessesFollowTheMap : Obligations.WindowAccessesFollowTheMap := by
  refine ⟨fun s off v hoff => ⟨regAt_eq_none_iff off, fun h8 hat => ⟨?_, ?_⟩, fun r hr hat => ?_, fun r hr hat => ?_, fun bytes hbad => ?_⟩,
    fun s v e he => ⟨performAccess_read_row s he, performAccess_write_row s he v⟩, fun s => ⟨rfl, rfl, rfl, rfl⟩⟩
  · rw [performAccess_read s hoff h8]; simp only [hostRead, hat]
  · rw [performAccess_write s hoff h8]; simp only [hostWrite, hat]
  · exact (performAccess_write_row s (mem_regMap_of_regAt hat) v).trans (congrArg _ (regWrite_readOnly s v r hr))
  · rw [performAccess_read_row s (mem_regMap_of_regAt hat), drawnBits_writeOnly s r hr, regRead_writeOnly s r hr, State.useDraw_zero]
  · obtain ⟨q, hq⟩ := windowOffset_bad s.inst hoff hbad
    exact ⟨q, by simp only [performAccess, hq], by simp only [performAccess, hq]⟩

/-! ### The CMD write -/

theorem writeCmd_of_busy {s : State} (hf : s.fault = none) (hb : s.busy = true) (w : Word) :
    writeCmd s w = { s with fault := some .cmdOverrun, faultCmd := w, faultInfo := s.latch.word } := by
  rw [writeCmd, hf, if_neg (by decide), if_pos hb, State.recordFault_of_none hf, toWord, BitVec.ofNat_toNat, BitVec.setWidth_eq]

theorem writeCmd_of_idle {s : State} (hf : s.fault = none) (hb : s.busy = false) (w : Word) : writeCmd s w = s.accept w := by
  rw [writeCmd, hf, if_neg (by decide), if_neg (by simp [hb])]

/-- Settles O6: a write at 0x020 is `writeCmd`, which has three cases. -/
theorem cmdWriteAcceptedDroppedOrOverrun : Obligations.CmdWriteAcceptedDroppedOrOverrun := by
  intro s w
  have hrow : ((0x020, .cmd) : Nat × Reg) ∈ regMap := by decide
  have hwrite : performAccess s (.write (s.inst.regBase + 0x020) 8 w) = .next (writeCmd s w) := performAccess_write_row s hrow w
  refine ⟨rfl, regRead_writeOnly s .cmd (by decide), fun hf => ?_, fun hf hb => ?_, fun hf hb => ?_⟩
  · rw [hwrite, writeCmd_of_isSome hf]
  · rw [hwrite, writeCmd_of_busy hf hb]
  · rw [hwrite, writeCmd_of_idle hf hb]; rfl

end Sys2Proof.Machine
end

section
/-! PROOFS. The address spaces stay canonical, within their capacities and over the alphabet (20_memory.md R70 to R72). -/

namespace Sys2Proof.Machine

/-! ### Elements, tokens and copies -/

theorem readAt_mem {w i : Nat} {l : List (BitVec w)} (h : i < l.length) : readAt l i ∈ l := by
  rw [readAt, List.getD_eq_getElem _ _ h]
  exact List.getElem_mem h

/-- A symbol below A is stored as an element below A (20_memory.md R72). -/
theorem toNat_ofNat_lt {sym a : Nat} (w : Nat) (h : sym < a) : (BitVec.ofNat w sym).toNat < a := by
  rw [BitVec.toNat_ofNat]
  exact (Nat.mod_le _ _).trans_lt h

/-- The backtrack puts at most one token in front per round (42_parser.md R177). -/
theorem length_backtrack_le (cells : List ParseCell) (rounds j : Nat) (toks : List Token) :
    (backtrack cells rounds j toks).length ≤ toks.length + rounds := by
  induction rounds generalizing j toks with
  | zero => exact le_rfl
  | succ rounds ih =>
    unfold backtrack
    split
    · omega
    · split
      · omega
      · next t start _ =>
        have := ih start (t :: toks)
        rw [List.length_cons] at this
        omega

/-- A parse has no more tokens than SEQ has symbols (20_memory.md R70). -/
theorem length_parseTokens_le (s : State) : (parseTokens s).length ≤ s.mem.seq.length :=
  (length_backtrack_le _ _ _ []).trans_eq (Nat.zero_add _)

theorem length_expandCopy (d l : Nat) (dseq : List Half) : (expandCopy d l dseq).length = dseq.length + l := by
  induction l generalizing dseq with
  | zero => rfl
  | succ l ih =>
    rw [expandCopy, ih, List.length_append, List.length_singleton]
    omega

/-- A copy from within the sequence appends symbols that were in it (42_parser.md R182). -/
theorem mem_of_mem_expandCopy {d l : Nat} {dseq : List Half} (hpos : 1 ≤ d) (hd : d ≤ dseq.length) {x : Half}
    (hx : x ∈ expandCopy d l dseq) : x ∈ dseq := by
  induction l generalizing dseq with
  | zero => exact hx
  | succ l ih =>
    rcases List.mem_append.mp (ih (by rw [List.length_append]; omega) hx) with h | h
    · exact h
    · rw [List.mem_singleton.mp h]
      exact readAt_mem (by omega)

theorem length_expandToken (t : Word) (dseq : List Half) : (expandToken t dseq).length = dseq.length + tokGrowth t := by
  unfold expandToken tokGrowth
  split
  · exact List.length_append
  · exact length_expandCopy _ _ _

/-- What PSU_EXPAND appends is over the alphabet, where its checks of the token pass (42_parser.md R182). -/
theorem expandToken_syms {acfg : ActiveCfg} {t : Word} {dseq : List Half} (ht : tokenExpandable acfg dseq.length t = true)
    (hd : ∀ x ∈ dseq, x.toNat < acfg.alpha) : ∀ x ∈ expandToken t dseq, x.toNat < acfg.alpha := by
  intro x hx
  obtain ⟨-, ht⟩ := (Bool.and_eq_true _ _).mp ht
  unfold expandToken at hx
  split at hx
  · next hlit =>
    rw [if_pos hlit, decide_eq_true_eq] at ht
    rcases List.mem_append.mp hx with hx | hx
    · exact hd x hx
    · rw [List.mem_singleton.mp hx]
      exact toNat_ofNat_lt 16 ht.2
  · next hmatch =>
    rw [if_neg hmatch, decide_eq_true_eq] at ht
    obtain ⟨-, -, hpos, -, hle⟩ := ht
    exact hd x (mem_of_mem_expandCopy hpos hle hx)

/-! ### The length of OBUF -/

/-- A carry changes bytes of OBUF and adds none (43_range_coder.md R203). -/
theorem addCarry_obuf_length {s u : State} {v : Nat} (h : addCarry s v = some u) : u.mem.obuf.length = s.mem.obuf.length := by
  unfold addCarry at h
  simp only at h
  split at h
  · cases h; rfl
  · have hspec := carryInto_spec s.mem.obuf
    split at h
    · cases h
    · next hc =>
      rw [hc] at hspec
      cases h
      exact hspec.1

/-- The encoder's renormalization emits as many bytes as it has rounds (43_range_coder.md R207). -/
theorem emitBytes_obuf_length (e : Nat) (s : State) : (emitBytes e s).mem.obuf.length = s.mem.obuf.length + e := by
  induction e generalizing s with
  | zero => rfl
  | succ e ih =>
    rw [emitBytes, ih, emitByte_mem, List.length_append, List.length_singleton]
    omega

theorem length_lowBytes (p : Params) (low : Nat) : (lowBytes p low).length = p.nBytes := by
  rw [lowBytes, List.length_map, List.length_range]

/-! ### The invariant, and what it does not bear on -/

theorem SpacesOk.congr {s t : State} (hinst : t.inst = s.inst) (hacfg : t.acfg = s.acfg) (hmem : t.mem = s.mem) (hs : SpacesOk s) :
    SpacesOk t := by
  obtain ⟨⟩ := hs
  constructor <;> simp only [hinst, hacfg, hmem] <;> assumption

theorem spacesOk_resetOf (p : Params) (env : Env) : SpacesOk (State.resetOf p env) where
  wf := Memory.wf_reset
  seq_cap := Nat.zero_le _
  tok_le := Nat.zero_le _
  dseq_cap := Nat.zero_le _
  obuf_cap := Nat.zero_le _
  ibuf_cap := Nat.zero_le _
  seq_syms := nofun
  dseq_syms := nofun
  cost_index sel := by cases sel <;> exact nofun

/-- INIT changes the alphabet, and empties every space that is over it (40_control.md R131). -/
theorem SpacesOk.startSession {s : State} (hs : SpacesOk s) (m : Direction) : SpacesOk (s.startSession m) where
  wf := Memory.wf_emptyStreams hs.wf
  seq_cap := Nat.zero_le _
  tok_le := Nat.zero_le _
  dseq_cap := Nat.zero_le _
  obuf_cap := Nat.zero_le _
  ibuf_cap := Nat.zero_le _
  seq_syms := nofun
  dseq_syms := nofun
  cost_index := hs.cost_index

/-- The coder's steps bear on the capacity of OBUF only. -/
theorem SpacesOk.of_coderFrame {s u : State} (hs : SpacesOk s) (h : CoderFrame s u) (hlen : u.mem.obuf.length ≤ s.inst.obufCap) :
    SpacesOk u := by
  rw [h]
  exact { hs with obuf_cap := hlen }

/-- What a MemWrite to a cost table leaves in every table: its old entries and the one written (20_memory.md R71). -/
theorem Memory.mem_costTable_setCost {m : Memory} {sel sel' : CostSel} {i : Nat} {v : Half} {e : Nat × Half}
    (he : e ∈ (m.setCost sel i v).costTable sel') : e ∈ m.costTable sel' ∨ (sel' = sel ∧ e = (i, v)) := by
  by_cases hsel : sel' = sel
  · subst hsel
    cases sel' <;> exact (Store.mem_put he).imp_right fun h => ⟨rfl, h⟩
  · cases sel <;> cases sel'
    case lit.lit | len.len | dist.dist => exact absurd rfl hsel
    all_goals exact .inl he

theorem SpacesOk.setCost {s : State} (hs : SpacesOk s) {sel : CostSel} {i : Nat} (hi : i < costLen s.inst sel) (v : Half) :
    SpacesOk { s with mem := s.mem.setCost sel i v } := by
  have hwf := Memory.wf_setCost hs.wf sel i v
  have hindex : ∀ sel', ∀ e ∈ (s.mem.setCost sel i v).costTable sel', e.1 < costLen s.inst sel' := by
    intro sel' e he
    rcases Memory.mem_costTable_setCost he with he | ⟨rfl, rfl⟩
    · exact hs.cost_index sel' e he
    · exact hi
  cases sel <;> exact { hs with wf := hwf, cost_index := hindex }

/-! ### The commands -/

theorem encStep_ends_spacesOk (t : Triple) {s : State} (hs : SpacesOk s) : (encStep t s).Ends SpacesOk SpacesOk := by
  refine .of_cases (fun u h => hs.of_coderFrame (encStep_frame h) ?_) (fun _ _ _ h => (encStep_raise h).1 ▸ hs)
  rcases (encStep_eq_ok h).2 with ⟨_, rfl⟩ | ⟨_, e, s1, _, hs1, hroom, rfl⟩
  · exact hs.obuf_cap
  · rw [emitBytes_obuf_length]
    exact (congrArg (· + e) (addCarry_obuf_length hs1)).trans_le hroom

theorem encFinish_ends_spacesOk {s : State} (hs : SpacesOk s) : (encFinish s).Ends SpacesOk SpacesOk := by
  unfold encFinish
  split
  · exact hs
  · next u hu =>
    have hlen := addCarry_obuf_length hu
    have hok : SpacesOk u := hs.of_coderFrame (addCarry_frame hu) (hlen.trans_le hs.obuf_cap)
    obtain ⟨hinst, -⟩ := sameHostPart_iff.mp (addCarry_frame hu).sameHostPart
    refine .require_decide hs fun hroom => .ok { hok with obuf_cap := ?_ }
    show (u.mem.obuf ++ lowBytes s.inst u.rc.low).length ≤ u.inst.obufCap
    rw [List.length_append, length_lowBytes, hlen, hinst]
    exact hroom

/-- After a check, its Boolean is known. -/
theorem CmdResult.Ends.require_eq_true {α : Type} {Q : α → Prop} {P : State → Prop} {c : Bool} {f : FaultCode} {n : Nat} {s : State}
    {rest : CmdResult α} (hs : P s) (h : c = true → rest.Ends Q P) : (Machine.require c f n s rest).Ends Q P := by
  cases c with
  | true => exact h rfl
  | false => exact hs

/-- After the checks of a csel immediate, its INDEX is below the length of its table (42_parser.md R180). -/
theorem CmdResult.Ends.withCostEntry {α : Type} {Q : α → Prop} {P : State → Prop} {table index : Nat} {s : State}
    {rest : CostSel → CmdResult α} (hs : P s) (h : ∀ sel, index < costLen s.inst sel → (rest sel).Ends Q P) :
    (Machine.withCostEntry table index s rest).Ends Q P := by
  unfold Machine.withCostEntry
  split
  · exact hs
  · next sel _ => exact .require_decide hs (h sel)

/-- A command that names no space's length, and is neither INIT nor PSU_SETCOST, leaves the spaces as they were. -/
theorem Within.mem {o : Opcode} {s u : State} (h : Within o s u) (ho : o ∉ [Opcode.init, .psuSetcost])
    (hlen : ∀ r ∈ [Reg.seqLen, .tokCount, .dseqLen, .outLen, .inLen], r ∉ writtenRegs o) : u.mem = s.mem := by
  simp only [List.forall_mem_cons] at hlen
  obtain ⟨hseq, htok, hdseq, hout, hin, -⟩ := hlen
  have hcost : o ≠ .psuSetcost := fun he => ho (by simp [he])
  rw [h]
  simp only [footprint, hseq, htok, hdseq, hout, hin, hcost, if_false]

theorem workKeeps_spacesOk (i : Instr) (s : State) (hs : SpacesOk s) : WorkKeeps SpacesOk i s := by
  cases i with
  | init m => exact ⟨_, rfl, .withNeeds hs (requireConfig_ends hs (.ok (hs.startSession m)))⟩
  | stmPush sym =>
    refine ⟨_, rfl, .withNeeds hs (.require_decide hs fun hsym => .require_decide hs fun hroom => .ok ?_)⟩
    have hlen : (s.mem.seq ++ [BitVec.ofNat 16 sym]).length = s.mem.seq.length + 1 := List.length_append
    refine { hs with seq_cap := hlen.trans_le hroom, tok_le := hs.tok_le.trans (by simp), seq_syms := fun x hx => ?_ }
    rcases List.mem_append.mp hx with hx | hx
    · exact hs.seq_syms x hx
    · rw [List.mem_singleton.mp hx]
      exact toNat_ofNat_lt 16 hsym
  | psuParse =>
    have hlen : ((parseTokens s).map Token.word).length ≤ s.mem.seq.length := (List.length_map _).trans_le (length_parseTokens_le s)
    exact ⟨_, rfl, .withNeeds hs (.ok { hs with tok_le := hlen })⟩
  | psuSetcost table index =>
    exact ⟨_, rfl, .withNeeds hs (.withCostEntry hs fun _ hi => .require hs (.ok (hs.setCost hi _)))⟩
  | psuExpand =>
    exact ⟨_, rfl, .withNeeds hs (.require_eq_true hs fun ht => .require_decide hs fun hroom =>
      .ok { hs with dseq_cap := (length_expandToken _ _).trans_le hroom, dseq_syms := expandToken_syms ht hs.dseq_syms })⟩
  | rcEncode => exact ⟨_, rfl, .withNeeds hs (.require hs (encStep_ends_spacesOk _ hs))⟩
  | rcFinish => exact ⟨_, rfl, .withNeeds hs (.require hs (encFinish_ends_spacesOk hs))⟩
  | rcInbyte byte =>
    have hlen : (s.mem.ibuf ++ [BitVec.ofNat 8 byte]).length = s.mem.ibuf.length + 1 := List.length_append
    exact ⟨_, rfl, .withNeeds hs (.require hs (.require_decide hs fun hroom => .ok { hs with ibuf_cap := hlen.trans_le hroom }))⟩
  | ppmEncode sym =>
    have hloop := encodeLoop_ends (I := fun _ => SpacesOk) (fun _ t _ => encStep_ends_spacesOk t)
      (fun _ _ h => { h with }) (fun _ _ => id) sym (n := ordersLeft s) hs
    exact ⟨_, rfl, .withNeeds hs (.require hs (.require hs (.require hs (.require hs (.require hs (.andThen hloop fun _ h => .ok { h with }))))))⟩
  | _ =>
    exact workKeeps_of_within fun u hu =>
      hs.congr hu.inst (hu.acfg nofun) (hu.mem (by simp [Instr.opcode]) (by simp [writtenRegs, Instr.opcode]))

/-- Settles O25: each space grows after the check of its capacity, by symbols that were checked or copied, and a parse has no more tokens than symbols.
The configuration need not be legal: INIT changes the alphabet, but empties the spaces over it. -/
theorem stepKeepsSpacesCanonical : Obligations.StepKeepsSpacesCanonical := fun _ _ _ =>
  step_keeps (fun _ _ h => .congr h.inst h.acfg h.mem) spacesOk_resetOf workKeeps_spacesOk

end Sys2Proof.Machine
end

section
/-! PROOFS. Reads have no side effect, and the core's turn runs the decoded command (20_memory.md R75, R80, 10_state.md R51). -/

namespace Sys2Proof.Machine

/-! ### Reads -/

/-- What an aligned 64-bit read at an offset hands to the host (10_state.md R46). -/
def readValue (s : State) (off : Nat) : Word :=
  match regAt off with
  | none => 0#64
  | some r => regRead s r

/-- A read adds its value to those the host holds, and leaves the accesses and turns to come. -/
theorem hostRead_env (s : State) (off : Nat) :
    (hostRead s off).env.got = readValue s off :: s.env.got ∧ (hostRead s off).env.todo = s.env.todo ∧
      (hostRead s off).env.sched = s.env.sched := by
  cases h : regAt off <;> simp [hostRead, readValue, h]

theorem performAccess_read_eq_next {s t : State} {addr bytes : Nat} :
    performAccess s (.read addr bytes) = .next t ↔ ∃ off, windowOffset s.inst addr bytes = .ok off ∧ t = hostRead s off := by
  cases h : windowOffset s.inst addr bytes <;> simp [performAccess, h, eq_comm]

/-- With nothing in flight a read is exact (70_reset_and_hazards.md R341). -/
theorem regRead_of_idle {s : State} (h : s.busy = false) (r : Reg) : regRead s r = regValue s r := by
  have hdrawn : drawnBits s r = 0#64 := if_neg (Bool.eq_false_iff.mp h)
  rw [regRead, hdrawn, BitVec.not_zero, BitVec.and_allOnes, BitVec.and_zero, BitVec.or_zero]

/-- No register shows the outside world. -/
theorem regValue_withEnv (s : State) (env : Env) (r : Reg) : regValue { s with env := env } r = regValue s r := by
  cases r <;> rfl

/-- With nothing in flight the value of a read does not depend on the outside world. -/
theorem readValue_withEnv {s : State} (h : s.busy = false) (env : Env) (off : Nat) : readValue { s with env := env } off = readValue s off := by
  unfold readValue
  split
  · rfl
  · next r _ => rw [regRead_of_idle h, regRead_of_idle (s := { s with env := env }) h, regValue_withEnv]

/-- Settles O11: a read moves the outside world only, on which an exact read does not depend. -/
theorem readsHaveNoSideEffect : Obligations.ReadsHaveNoSideEffect := by
  intro s addr bytes t h
  obtain ⟨off, hoff, rfl⟩ := performAccess_read_eq_next.mp h
  obtain ⟨hgot, htodo, hsched⟩ := hostRead_env s off
  refine ⟨hostRead_eq s off, htodo, hsched, _, hgot, fun hidle => ?_⟩
  have hagain : readValue (hostRead s off) off = readValue s off := by rw [hostRead_eq, readValue_withEnv hidle]
  obtain ⟨hgot', -, -⟩ := hostRead_env (hostRead s off) off
  exact ⟨_, performAccess_read_eq_next.mpr ⟨off, by rw [hostRead_inst, hoff], rfl⟩, by rw [hgot', hagain]⟩

/-! ### The core's turn -/

theorem step_of_command {s : State} {i : Instr} (ha : s.nextAgent = .core) (hb : s.busy = true) (hd : decode s.latch.word = .command i) :
    step s = exec i s.takeTurn :=
  (step_of_core ha).trans (coreTurn_of_command (s := s.takeTurn) hb hd)

/-- A word placed in flight is accepted, and the core moves next (10_state.md R32). -/
theorem withFetchWord_eq_placeCommand (s : State) (w : Word) : s.withFetchWord 64 w.toNat = placeCommand s w := by
  rw [State.withFetchWord, Nat.mod_eq_of_lt w.isLt, toWord, BitVec.ofNat_toNat, BitVec.setWidth_eq]

theorem takeTurn_placeCommand (s : State) (w : Word) : (placeCommand s w).takeTurn = s.accept w := rfl

/-- Settles O5: the core's turn decodes the latched word, which for a placed command is the word placed. -/
theorem stepRunsDecodedCommand : Obligations.StepRunsDecodedCommand := by
  refine ⟨fun s i => step_of_command, fun s w i hd => ?_⟩
  rw [withFetchWord_eq_placeCommand, step_of_command (s := placeCommand s w) rfl rfl hd, takeTurn_placeCommand]

end Sys2Proof.Machine
end

section
/-! PROOFS. Command words: the fields of an encoding, what decodes and what is rejected, and decode and encode as inverses (30_encoding.md R100 to R109, R112). -/

namespace Sys2Proof

/-! ### The fields of a word -/

/-- OP, IMM and RSV are all of a word (30_encoding.md R100). -/
theorem toNat_eq_fields (w : Word) : w.toNat = opOf w + immOf w * 2 ^ 8 + rsvOf w * 2 ^ 40 := by
  have := w.isLt
  simp only [opOf, immOf, rsvOf, bitField]
  omega

theorem immOf_lt (w : Word) : immOf w < 2 ^ 32 := Nat.mod_lt _ (by decide)

/-- w[39:9] is imm[31:1] (30_encoding.md R103). -/
theorem bitField_modeBits (w : Word) : bitField w 39 9 = immOf w / 2 := by
  simp only [immOf, bitField]
  omega

/-- Each field of an encoding holds what was put there (30_encoding.md R100). -/
theorem encode_fields {i : Instr} (hcode : i.opcode.code < 2 ^ 8) (himm : i.imm < 2 ^ 32) :
    opOf (encode i) = i.opcode.code ∧ immOf (encode i) = i.imm ∧ rsvOf (encode i) = 0 := by
  simp only [opOf, immOf, rsvOf, bitField, encode, toWord, BitVec.toNat_ofNat]
  omega

/-- A word whose RSV is 0 is the encoding of any command with its OP and IMM. -/
theorem encode_eq_of_fields {i : Instr} {w : Word} (hop : i.opcode.code = opOf w) (himm : i.imm = immOf w) (hrsv : rsvOf w = 0) :
    encode i = w := by
  have hw : w.toNat = i.opcode.code + i.imm * 2 ^ 8 := by rw [toNat_eq_fields, hop, himm, hrsv, Nat.zero_mul, Nat.add_zero]
  rw [encode, ← hw, toWord, BitVec.ofNat_toNat, BitVec.setWidth_eq]

/-! ### The opcode table -/

/-- No two rows of the table have the same OP (30_encoding.md R107). -/
theorem Opcode.ofCode_code (o : Opcode) : Opcode.ofCode o.code = some o := by cases o <;> rfl

theorem Opcode.ofCode_eq_some {n : Nat} {o : Opcode} : Opcode.ofCode n = some o ↔ o.code = n := by
  refine ⟨fun h => ?_, fun h => h ▸ o.ofCode_code⟩
  simpa using List.find?_some h

theorem Opcode.ofCode_eq_none {n : Nat} : Opcode.ofCode n = none ↔ ∀ o : Opcode, o.code ≠ n := by
  simp only [Option.eq_none_iff_forall_ne_some, ne_eq, Opcode.ofCode_eq_some]

@[simp] theorem Opcode.build_opcode (o : Opcode) (imm : Nat) : (o.build imm).opcode = o := by cases o <;> rfl

/-- The immediate checks of 30_encoding.md R103: 0 for an opcode that uses none, a single bit for INIT. -/
def Opcode.immOk (o : Opcode) (imm : Nat) : Prop := (o.kind = .unused → imm = 0) ∧ (o.kind = .mode → imm < 2)

/-- An immediate that passes its checks is the immediate of the command built from it: no bit of it is dropped (30_encoding.md R101, R105). -/
theorem Opcode.build_imm {o : Opcode} {imm : Nat} (h : o.immOk imm) : (o.build imm).imm = imm := by
  obtain ⟨hunused, hmode⟩ := h
  cases o
  case nop | psuParse | psuExpand | rcEncode | rcFinish | rcDstart | rcFetch | rcDecode | ppmDecode | ppmNumden | ppmIcdf | ppmEscape =>
    exact (hunused rfl).symm
  case init =>
    have hbit : imm = 0 ∨ imm = 1 := by have := hmode rfl; omega
    rcases hbit with rfl | rfl <;> rfl
  case psuSetcost | psuGetcost => exact Nat.div_add_mod' imm (2 ^ 28)
  all_goals rfl

/-- A built command's operands fit their fields (30_encoding.md R101, R105). -/
theorem Opcode.build_wellFormed (o : Opcode) {imm : Nat} (h : imm < 2 ^ 32) : (o.build imm).wellFormed = true := by
  have hfits : Instr.immFits imm = true := decide_eq_true h
  have hcsel : Instr.cselFits (cselTable imm) (cselIndex imm) = true := by
    have htable : cselTable imm < 2 ^ 4 := by unfold cselTable; omega
    have hindex : cselIndex imm < 2 ^ 28 := Nat.mod_lt _ (by decide)
    exact Bool.and_eq_true_iff.mpr ⟨decide_eq_true htable, decide_eq_true hindex⟩
  cases o
  case psuSetcost | psuGetcost => exact hcsel
  case stmPush | stmQuery | stmRead | psuToken | psuDread | rcOutbyte | rcInbyte | ppmEncode | ppmHasesc | ppmCdf | ppmUpdate => exact hfits
  all_goals rfl

/-! ### What decodes -/

/-- Every command's word holds its opcode and operands. -/
theorem fields_statement (i : Instr) : Laws.Fields.Statement i :=
  match i with
  | .nop => Laws.Fields.nop
  | .init m => Laws.Fields.init m
  | .stmPush sym => Laws.Fields.stmPush sym
  | .stmQuery idx => Laws.Fields.stmQuery idx
  | .stmRead idx => Laws.Fields.stmRead idx
  | .psuParse => Laws.Fields.psuParse
  | .psuToken idx => Laws.Fields.psuToken idx
  | .psuSetcost table index => Laws.Fields.psuSetcost table index
  | .psuGetcost table index => Laws.Fields.psuGetcost table index
  | .psuExpand => Laws.Fields.psuExpand
  | .psuDread idx => Laws.Fields.psuDread idx
  | .rcEncode => Laws.Fields.rcEncode
  | .rcFinish => Laws.Fields.rcFinish
  | .rcOutbyte idx => Laws.Fields.rcOutbyte idx
  | .rcInbyte byte => Laws.Fields.rcInbyte byte
  | .rcDstart => Laws.Fields.rcDstart
  | .rcFetch => Laws.Fields.rcFetch
  | .rcDecode => Laws.Fields.rcDecode
  | .ppmEncode sym => Laws.Fields.ppmEncode sym
  | .ppmDecode => Laws.Fields.ppmDecode
  | .ppmHasesc sym => Laws.Fields.ppmHasesc sym
  | .ppmNumden => Laws.Fields.ppmNumden
  | .ppmCdf sym => Laws.Fields.ppmCdf sym
  | .ppmIcdf => Laws.Fields.ppmIcdf
  | .ppmEscape => Laws.Fields.ppmEscape
  | .ppmUpdate sym => Laws.Fields.ppmUpdate sym

/-- The words that decode, and what they decode to (30_encoding.md R103). -/
theorem decode_eq_command {w : Word} {i : Instr} :
    decode w = .command i ↔ ∃ o : Opcode, o.code = opOf w ∧ rsvOf w = 0 ∧ o.immOk (immOf w) ∧ i = o.build (immOf w) := by
  unfold decode
  cases ho : Opcode.ofCode (opOf w) with
  | none => simp [Opcode.ofCode_eq_none.mp ho]
  | some o =>
    have hcode : ∀ o' : Opcode, o'.code = opOf w ↔ o' = o := fun o' => by
      rw [← Opcode.ofCode_eq_some, ho, Option.some_inj, eq_comm]
    have hmode : immOf w / 2 = 0 ↔ immOf w < 2 := by omega
    simp only [hcode, bitField_modeBits, exists_eq_left, Opcode.immOk]
    split_ifs <;> simp_all [eq_comm]

/-- Settles O1: the fields of an encoding pass every check of the decoder, and build the command again. -/
theorem decodeOfEncodeIsIdentity : Obligations.DecodeOfEncodeIsIdentity := by
  intro i hwf
  obtain ⟨himm, hcode, hunused, hmode, -, hbuild⟩ := fields_statement i hwf
  obtain ⟨hop, himm', hrsv⟩ := encode_fields hcode himm
  exact decode_eq_command.mpr ⟨i.opcode, hop.symm, hrsv, by rw [himm']; exact ⟨hunused, hmode⟩, by rw [himm', hbuild]⟩

/-- A decoded command has the opcode and the immediate of its word, and is well-formed. -/
theorem fields_of_decode {w : Word} {i : Instr} (h : decode w = .command i) :
    i.opcode.code = opOf w ∧ i.imm = immOf w ∧ i.wellFormed = true ∧ rsvOf w = 0 := by
  obtain ⟨o, hop, hrsv, himm, rfl⟩ := decode_eq_command.mp h
  exact ⟨by rw [Opcode.build_opcode, hop], Opcode.build_imm himm, o.build_wellFormed (immOf_lt w), hrsv⟩

/-- Settles O2: OP, IMM and RSV are all of a word, and the decoded command keeps the first two. -/
theorem encodeOfDecodeIsIdentity : Obligations.EncodeOfDecodeIsIdentity := by
  intro w i h
  obtain ⟨hop, himm, hwf, hrsv⟩ := fields_of_decode h
  exact ⟨encode_eq_of_fields hop himm hrsv, hwf⟩

/-- Settles O4: decoding runs on each word; the last has a bit of RSV set. -/
theorem exampleWordsDecodeAsListed : Obligations.ExampleWordsDecodeAsListed := by
  have hrejected : decode 0x0000010000000000#64 = .rejected .reservedNotZero := by decide
  refine ⟨by decide, by decide, by decide, by decide, by decide, by decide, fun i h => ?_⟩
  cases hrejected.symm.trans h

end Sys2Proof

namespace Sys2Proof.Machine

/-! ### What is rejected -/

/-- The listed OP values are the codes of the table's rows (30_encoding.md R107, R108). -/
theorem listedOp_iff {n : Nat} : listedOp n ↔ ∃ o : Opcode, o.code = n := by
  constructor
  · intro h
    have hlt : n < 0x48 := by unfold listedOp at h; omega
    have hrow : ∀ n < 0x48, listedOp n → ∃ o ∈ Opcode.all, o.code = n := by unfold listedOp; decide
    obtain ⟨o, -, ho⟩ := hrow n hlt h
    exact ⟨o, ho⟩
  · rintro ⟨o, rfl⟩
    unfold listedOp
    cases o <;> decide

theorem code_mem_unusedImmOps (o : Opcode) : o.code ∈ unusedImmOps ↔ o.kind = .unused := by cases o <;> decide

theorem code_eq_one (o : Opcode) : o.code = 0x01 ↔ o.kind = .mode := by cases o <;> decide

/-- The words that a check of 30_encoding.md R103 rejects are those that decode to no command. -/
theorem not_illegalWord_iff {w : Word} : ¬ illegalWord w ↔ ∃ i, decode w = .command i := by
  have hlegal : ¬ illegalWord w ↔ listedOp (opOf w) ∧ rsvOf w = 0 ∧ (opOf w ∈ unusedImmOps → immOf w = 0) ∧ (opOf w = 0x01 → immOf w < 2) := by
    have hmode : immOf w / 2 = 0 ↔ immOf w < 2 := by omega
    simp only [illegalWord, bitField_modeBits, not_or, not_not, not_and, hmode]
    rfl
  simp only [hlegal, decode_eq_command, listedOp_iff]
  constructor
  · rintro ⟨⟨o, ho⟩, hrsv, hunused, hmode⟩
    rw [← ho, code_mem_unusedImmOps] at hunused
    rw [← ho, code_eq_one] at hmode
    exact ⟨_, o, ho, hrsv, ⟨hunused, hmode⟩, rfl⟩
  · rintro ⟨_, o, ho, hrsv, ⟨hunused, hmode⟩, rfl⟩
    rw [← ho, code_mem_unusedImmOps, code_eq_one]
    exact ⟨⟨o, rfl⟩, hrsv, hunused, hmode⟩

theorem decode_rejected_of_illegalWord {w : Word} (h : illegalWord w) : ∃ r, decode w = .rejected r := by
  cases hd : decode w with
  | command i => exact absurd h (not_illegalWord_iff.mpr ⟨i, hd⟩)
  | rejected r => exact ⟨r, rfl⟩

theorem step_of_illegalWord {s : State} (ha : s.nextAgent = .core) (hb : s.busy = true) (h : illegalWord s.latch.word) :
    step s = .next (s.takeTurn.takeFault .illegalCmd s.latch.word.toNat) := by
  obtain ⟨r, hr⟩ := decode_rejected_of_illegalWord h
  rw [step_of_core ha, coreTurn_of_rejected (s := s.takeTurn) hb hr]
  rfl

/-- Settles O3: the core's turn follows the decoder, whose rejections are the illegal words and whose commands have the word's fields. -/
theorem commandWordsDispatchOrRaiseIllegal : Obligations.CommandWordsDispatchOrRaiseIllegal := by
  intro s ha hb
  refine ⟨step_of_illegalWord ha hb, fun h => ?_⟩
  obtain ⟨i, hi⟩ := not_illegalWord_iff.mp h
  obtain ⟨hop, himm, hwf, -⟩ := fields_of_decode hi
  exact ⟨i, hop, himm, hwf, step_of_command ha hb hi⟩

end Sys2Proof.Machine
end

section
/-! PROOFS. Every command word has an outcome: a command first checks its needs, and where the range is at or above FLOOR the coder's renormalization, and with it every command's work, comes to an end (30_encoding.md R106, R107, 43_range_coder.md R205, 60_exceptions.md R307). -/

namespace Sys2Proof.Machine

/-! ### Work that comes to an end -/

/-- The work is not stuck, and Q holds of the value it goes on with, if it does. -/
def CmdResult.Finishes {α : Type} (Q : α → Prop) : CmdResult α → Prop
  | .ok a => Q a
  | .raise _ _ _ => True
  | .stuck _ => False

namespace CmdResult.Finishes

variable {α β : Type} {Q : α → Prop}

theorem require {c : Bool} {f : FaultCode} {n : Nat} {s : State} {rest : CmdResult α} (h : c = true → rest.Finishes Q) :
    (require c f n s rest).Finishes Q := by
  cases c with
  | true => exact h rfl
  | false => trivial

theorem withNeeds {o : Opcode} {s : State} {rest : CmdResult α} (h : rest.Finishes Q) : (withNeeds o s rest).Finishes Q := by
  rcases withNeeds_cases o s rest with ⟨_, he⟩ | ⟨_, _, he⟩ | ⟨_, _, he⟩ <;> rw [he]
  · exact h
  · trivial
  · trivial

theorem andThen {R : β → Prop} {x : CmdResult α} {f : α → CmdResult β} (hx : x.Finishes Q) (hf : ∀ a, Q a → (f a).Finishes R) :
    (x.andThen f).Finishes R := by
  cases x with
  | ok a => exact hf a hx
  | raise c n s => trivial
  | stuck r => exact hx.elim

theorem requireTriple {t : Triple} {s : State} {rest : CmdResult α} (h : t.legal s.inst → rest.Finishes Q) :
    (requireTriple t s rest).Finishes Q :=
  .require fun htotal => .require fun hfreq => .require fun hsum =>
    h ⟨(of_decide_eq_true htotal).1, (of_decide_eq_true htotal).2, of_decide_eq_true hfreq, of_decide_eq_true hsum⟩

/-- Of work that comes to an end, what is known of the value it goes on with can be said in place of Q. -/
theorem of_ok {Q' : α → Prop} {x : CmdResult α} (hx : x.Finishes Q) (h : ∀ a, x = .ok a → Q' a) : x.Finishes Q' := by
  cases x with
  | ok a => exact h a rfl
  | raise c n s => trivial
  | stuck r => exact hx.elim

/-- Finished work brings its command to a next state. -/
theorem finish_eq_next {Q : State → Prop} {x : CmdResult State} (hx : x.Finishes Q) : ∃ t, finish x = .next t := by
  cases x with
  | ok s => exact ⟨_, rfl⟩
  | raise f n s => exact ⟨_, rfl⟩
  | stuck r => exact hx.elim

end CmdResult.Finishes

/-! ### The coder's steps -/

/-- The range is at or above FLOOR (10_state.md R44). -/
def FloorReached (s : State) : Prop := s.inst.floor ≤ s.rc.range

/-- A legal triple's sub-range has a positive width: FLOOR * idiv(f, T) >= (2^(B-8) - 1) * 2^16 >= 2^B (43_range_coder.md R205). -/
theorem scaled_pos {s : State} (hs : FloorReached s) {t : Triple} (ht : t.legal s.inst) : 0 < scaled s.inst s.rc.range t.freq t.total := by
  obtain ⟨htotal, hmax, hfreq, -⟩ := ht
  have hidiv : 2 ^ 16 ≤ idiv s.inst t.freq t.total := by
    refine (Nat.le_div_iff_mul_le htotal).mpr ?_
    calc 2 ^ 16 * t.total ≤ 2 ^ 16 * s.inst.totalMax := Nat.mul_le_mul_left _ hmax
      _ = 1 * s.inst.modulus := by rw [s.inst.modulus_eq_totalMax, Nat.mul_comm, Nat.one_mul]
      _ ≤ t.freq * s.inst.modulus := Nat.mul_le_mul_right _ hfreq
  have hfloor : s.inst.modulus ≤ s.inst.floor * 2 ^ 16 := by
    have := s.inst.modulus_eq
    have := s.inst.floor_succ
    have := s.inst.floor_pos
    omega
  exact Nat.div_pos (hfloor.trans (Nat.mul_le_mul hs hidiv)) s.inst.modulus_pos

/-- Every positive width is renormalized within N_BYTES rounds (43_range_coder.md R205, R207). -/
theorem renormCount_isSome (p : Params) {r : Nat} (hr : 0 < r) : ∃ e, renormCount p r = some e := by
  refine Option.isSome_iff_exists.mp (leastShift_isSome (le_refl p.nBytes) ?_)
  have hfloor : p.floor ≤ p.modulus := by
    have := p.modulus_eq
    have := p.floor_succ
    omega
  exact hfloor.trans (Nat.le_mul_of_pos_left _ hr)

theorem emitBytes_range (e : Nat) (s : State) : (emitBytes e s).rc.range = s.rc.range * 2 ^ (8 * e) := by
  induction e generalizing s with
  | zero => exact (Nat.mul_one _).symm
  | succ e ih =>
    rw [emitBytes, ih, emitByte_rc, Nat.mul_assoc, ← Nat.pow_add, Nat.mul_succ, Nat.add_comm 8]

theorem encStep_floorReached {t : Triple} {s u : State} (hs : FloorReached s) (h : encStep t s = .ok u) : FloorReached u := by
  have hinst : u.inst = s.inst := (congrArg State.inst (encStep_frame h)).trans rfl
  rw [FloorReached, hinst]
  rcases (encStep_eq_ok h).2 with ⟨_, rfl⟩ | ⟨_, e, s1, he, _, _, rfl⟩
  · exact hs
  · rw [emitBytes_range]
    exact (leastShift_eq_some.mp he).2.1

theorem decStep_floorReached {t : Triple} {s u : State} (hs : FloorReached s) (h : decStep t s = .ok u) : FloorReached u := by
  have hinst : u.inst = s.inst := (congrArg State.inst (decStep_frame h)).trans rfl
  rw [FloorReached, hinst]
  rcases (decStep_eq_ok h).2 with ⟨_, rfl⟩ | ⟨_, _, _, e, he, _, rfl⟩
  · exact hs
  · obtain ⟨-, -, hrange⟩ := takeBytes_frame e { s with rc := { s.rc with
      low := (s.rc.low + scaled s.inst s.rc.range t.cum t.total) % s.inst.modulus
      range := scaled s.inst s.rc.range t.freq t.total } }
    rw [hrange]
    exact (leastShift_eq_some.mp he).2.1

theorem encStep_finishes (t : Triple) {s : State} (hs : FloorReached s) : (encStep t s).Finishes FloorReached := by
  refine .of_ok (Q := fun _ => True) (.requireTriple fun hl => ?_) fun _ => encStep_floorReached hs
  obtain ⟨e, he⟩ := renormCount_isSome s.inst (scaled_pos hs hl)
  simp only [he]
  split
  · trivial
  · split
    · trivial
    · exact .require fun _ => trivial

theorem decStep_finishes (t : Triple) {s : State} (hs : FloorReached s) : (decStep t s).Finishes FloorReached := by
  refine .of_ok (Q := fun _ => True) (.requireTriple fun hl => ?_) fun _ => decStep_floorReached hs
  obtain ⟨e, he⟩ := renormCount_isSome s.inst (scaled_pos hs hl)
  simp only [he]
  split
  · trivial
  · exact .require fun _ => .require fun _ => trivial

theorem encFinish_finishes (s : State) : (encFinish s).Finishes fun _ => True := by
  unfold encFinish
  split
  · trivial
  · exact .require fun _ => trivial

/-! ### The coding loops -/

/-- Every step of the encode loop leaves the range at or above FLOOR for the next one (44_frequency_model.md R260). -/
theorem encodeLoop_finishes (sym n : Nat) {s : State} (hs : FloorReached s) : (encodeLoop sym n s).Finishes FloorReached := by
  induction n generalizing s with
  | zero => exact encStep_finishes _ hs
  | succ k ih =>
    unfold encodeLoop
    split
    · exact .andThen (encStep_finishes _ hs) fun u hu => ih (s := escapeOnce u) hu
    · exact encStep_finishes _ hs

/-- Every step of the decode loop leaves the range at or above FLOOR for the next one (44_frequency_model.md R261). -/
theorem decodeLoop_finishes (n : Nat) {s : State} (hs : FloorReached s) : (decodeLoop n s).Finishes fun _ => True := by
  induction n generalizing s with
  | zero =>
    unfold decodeLoop
    simp only
    split
    · trivial
    · split
      · trivial
      · exact .andThen (decStep_finishes _ hs) fun _ _ => trivial
  | succ k ih =>
    unfold decodeLoop
    simp only
    split
    · exact ih (s := escapeOnce s) hs
    · split
      · trivial
      · split
        · exact .andThen (decStep_finishes _ hs) fun u hu => ih (s := escapeOnce u) hu
        · exact .andThen (decStep_finishes _ hs) fun _ _ => trivial

theorem withCostEntry_finishes (table index : Nat) {s : State} {rest : CostSel → CmdResult State}
    (h : ∀ sel, (rest sel).Finishes fun _ => True) : (withCostEntry table index s rest).Finishes fun _ => True := by
  unfold withCostEntry
  split
  · trivial
  · next sel _ => exact .require fun _ => h sel

/-! ### Every command -/

/-- Every command checks its needs first; the work behind them comes to an end where the range is at or above FLOOR. -/
theorem exec_eq_finish_withNeeds (i : Instr) (s : State) :
    ∃ x, exec i s = finish (withNeeds i.opcode s x) ∧ (FloorReached s → x.Finishes fun _ => True) := by
  cases i
  case nop => exact ⟨.ok s, rfl, fun _ => trivial⟩
  all_goals refine ⟨_, rfl, fun hs => ?_⟩
  case psuParse | ppmNumden => trivial
  case stmQuery | stmRead | psuToken | psuDread | rcOutbyte | ppmHasesc | ppmCdf | ppmIcdf | ppmEscape => exact .require fun _ => trivial
  case stmPush | psuExpand | rcInbyte | rcDstart | rcFetch => exact .require fun _ => .require fun _ => trivial
  case ppmUpdate => exact .require fun _ => .require fun _ => .require fun _ => trivial
  case init => exact .require fun _ => .require fun _ => .require fun _ => .require fun _ => .require fun _ => trivial
  case psuSetcost => exact withCostEntry_finishes _ _ fun _ => .require fun _ => trivial
  case psuGetcost => exact withCostEntry_finishes _ _ fun _ => trivial
  case rcEncode => exact .require fun _ => (encStep_finishes _ hs).of_ok fun _ _ => trivial
  case rcFinish => exact .require fun _ => encFinish_finishes s
  case rcDecode => exact .require fun _ => (decStep_finishes _ hs).of_ok fun _ _ => trivial
  case ppmEncode sym =>
    exact .require fun _ => .require fun _ => .require fun _ => .require fun _ => .require fun _ =>
      .andThen (encodeLoop_finishes sym _ hs) fun _ _ => trivial
  case ppmDecode =>
    exact .require fun _ => .require fun _ => .require fun _ => .andThen (decodeLoop_finishes _ hs) fun _ _ => .require fun _ => trivial

/-- A command ends in a next state with BUSY = 0 where the range is at or above FLOOR (10_state.md R25). -/
theorem exec_ends {s : State} (hs : FloorReached s) (i : Instr) : ∃ t, exec i s = .next t ∧ t.busy = false := by
  obtain ⟨x, hx, hfin⟩ := exec_eq_finish_withNeeds i s
  obtain ⟨t, ht⟩ := CmdResult.Finishes.finish_eq_next (.withNeeds (o := i.opcode) (s := s) (hfin hs))
  exact ⟨t, hx.trans ht, finish_busy ht⟩

/-- Settles O20: an illegal word raises ILLEGAL_CMD, and a legal one runs a command, whose work comes to an end. -/
theorem everyCommandWordHasAnOutcome : Obligations.EveryCommandWordHasAnOutcome := by
  intro s hs ha hb
  by_cases hill : illegalWord s.latch.word
  · exact ⟨_, step_of_illegalWord ha hb hill, rfl, fun _ => rfl, fun h => absurd hill h⟩
  · obtain ⟨i, hi⟩ := not_illegalWord_iff.mp hill
    obtain ⟨t, ht, hbusy⟩ := exec_ends (s := s.takeTurn) hs i
    exact ⟨t, (step_of_command ha hb hi).trans ht, hbusy, fun h => absurd h hill, fun _ => ⟨i, hi, ht⟩⟩

/-! ### The needs of a command -/

/-- The opcodes by their needs (30_encoding.md R107). -/
theorem needsOf_eq_nothing (o : Opcode) : needsOf o = .nothing ↔ o ∈ [Opcode.nop, .init, .psuSetcost, .psuGetcost] := by
  cases o <;> decide

theorem needsOf_eq_encode (o : Opcode) : needsOf o = .encode ↔ o ∈ [Opcode.rcEncode, .rcFinish, .ppmEncode] := by
  cases o <;> decide

theorem needsOf_eq_decode (o : Opcode) :
    needsOf o = .decode ↔ o ∈ [Opcode.rcInbyte, .rcDstart, .rcFetch, .rcDecode, .ppmDecode] := by
  cases o <;> decide

theorem Needs.session_of_met {n : Needs} {s : State} (hn : n ≠ .nothing) (h : n.met s) : s.session = true := by
  cases n with
  | nothing => exact absurd rfl hn
  | session => exact h
  | encode => exact h.1
  | decode => exact h.1

theorem exec_of_noSession {i : Instr} {s : State} (hneeds : needsOf i.opcode ≠ .nothing) (hs : s.session = false) :
    exec i s = .next (s.takeFault .noSession 0) := by
  obtain ⟨x, hx, -⟩ := exec_eq_finish_withNeeds i s
  rcases withNeeds_cases i.opcode s x with ⟨hmet, _⟩ | ⟨_, _, hraise⟩ | ⟨_, hsome, _⟩
  · exact absurd (hs.symm.trans (Needs.session_of_met hneeds hmet)) nofun
  · rw [hx, hraise, finish_raise]
  · exact absurd (hs.symm.trans hsome) nofun

/-- With a session, a command whose needs are not met is one of the other direction. -/
theorem exec_of_otherMode {i : Instr} {s : State} (hneeds : ¬ (needsOf i.opcode).met s) (hs : s.session = true) :
    exec i s = .next (s.takeFault .mode 0) := by
  obtain ⟨x, hx, -⟩ := exec_eq_finish_withNeeds i s
  rcases withNeeds_cases i.opcode s x with ⟨hmet, _⟩ | ⟨_, hnone, _⟩ | ⟨_, _, hraise⟩
  · exact absurd hmet hneeds
  · exact absurd (hs.symm.trans hnone) nofun
  · rw [hx, hraise, finish_raise]

/-- Settles O17: every command checks the needs of its opcode first, NO_SESSION before MODE. -/
theorem needsAreCheckedFirst : Obligations.NeedsAreCheckedFirst := by
  intro i s
  refine ⟨fun ho => exec_of_noSession (mt (needsOf_eq_nothing _).mp ho), fun ho hs hm => exec_of_otherMode ?_ hs,
    fun ho hs hm => exec_of_otherMode ?_ hs⟩
  · rw [(needsOf_eq_encode _).mpr ho]
    exact fun hmet => absurd (hm.symm.trans hmet.2) nofun
  · rw [(needsOf_eq_decode _).mpr ho]
    exact fun hmet => absurd (hm.symm.trans hmet.2) nofun

end Sys2Proof.Machine
end

section
/-! PROOFS. The global commands: NOP only completes, and INIT checks the CFG registers in their order before it starts a session (40_control.md R130, R131). -/

namespace Sys2Proof.Machine

/-! ### NOP -/

theorem exec_nop (s : State) : exec .nop s = .next s.complete := rfl

/-- Settles O33: NOP's work leaves the state alone, so only the completion is seen. -/
theorem nopOnlyCompletes : Obligations.NopOnlyCompletes := exec_nop

/-! ### INIT -/

/-- COSTMODE's two codes (10_state.md R40). -/
theorem costModeOf_eq_tables (c : BitVec 1) : costModeOf c = .tables ↔ c = 1#1 := by
  revert c
  decide

/-- METHOD's four codes (10_state.md R41). -/
theorem methodOf_eq (b : BitVec 2) :
    (methodOf b = .A ↔ b = 0#2) ∧ (methodOf b = .B ↔ b = 1#2) ∧ (methodOf b = .C ↔ b = 2#2) ∧ (methodOf b = .D ↔ b = 3#2) := by
  revert b
  decide

/-- INIT needs no session: its only checks are those of the CFG registers (40_control.md R131). -/
theorem exec_init (m : Direction) (s : State) : exec (.init m) s = finish (requireConfig s (.ok (s.startSession m))) := rfl

/-- Settles O34: each check is reached when those before it pass, and the new session is `startSession`, its COSTMODE and METHOD decoded from their codes. -/
theorem initChecksThenStartsSession : Obligations.InitChecksThenStartsSession := by
  intro m s
  dsimp only
  rw [exec_init, requireConfig]
  refine ⟨fun hA => ?_, fun hA hW => ?_, fun hA hW hMin => ?_, fun hA hW hMin hMax => ?_, fun hA hW hMin hMax hK => ?_,
    fun hA hW hMin hMax hK => ?_⟩
  · rw [require_fail hA, finish_raise]
  · rw [require_pass hA, require_fail hW, finish_raise]
  · rw [require_pass hA, require_pass hW, require_fail hMin, finish_raise]
  · rw [require_pass hA, require_pass hW, require_pass hMin, require_fail hMax, finish_raise]
  · rw [require_pass hA, require_pass hW, require_pass hMin, require_pass hMax, require_fail hK, finish_raise]
  · obtain ⟨hmA, hmB, hmC, hmD⟩ := methodOf_eq s.cfg.method
    refine ⟨costModeOf s.cfg.cost, methodOf s.cfg.method, costModeOf_eq_tables s.cfg.cost, hmA, hmB, hmC, hmD, ?_⟩
    rw [require_pass hA, require_pass hW, require_pass hMin, require_pass hMax, require_pass hK, finish_ok]
    rfl

end Sys2Proof.Machine
end

section
/-! PROOFS. The matcher: the record of R141 is the model's, it obeys the window and content laws, and STM_QUERY reports it; then the commands that append one element to a space or read one (41_matcher.md R141 to R147, 42_parser.md R179, R183, 43_range_coder.md R213, R214). -/

namespace Sys2Proof.Machine

/-! ### The match record -/

section Record

variable {seq : List Half} {w j : Nat}

theorem lcp_le_matchLen {s : Nat} (hs : s ∈ candidates w j) : lcp seq s j ≤ matchLen seq w j :=
  le_maxOf (List.mem_map_of_mem hs)

/-- A match has a source: a largest element of a nonempty list is one of its elements. -/
theorem exists_candidate_of_matchLen_pos (h : 0 < matchLen seq w j) :
    ∃ s ∈ candidates w j, lcp seq s j = matchLen seq w j := by
  have hne : candidates w j ≠ [] := fun hnil => by simp [matchLen, hnil] at h
  exact List.mem_map.mp (maxOf_mem (mt List.map_eq_nil_iff.mp hne))

theorem matchSrc_of_matchLen_eq_zero (h : matchLen seq w j = 0) : matchSrc seq w j = 0 := if_pos h

theorem matchSrc_of_matchLen_pos (h : 0 < matchLen seq w j) :
    matchSrc seq w j = maxOf ((candidates w j).filter fun s => lcp seq s j = matchLen seq w j) := if_neg h.ne'

theorem matchSrc_attains (h : 0 < matchLen seq w j) :
    matchSrc seq w j ∈ candidates w j ∧ lcp seq (matchSrc seq w j) j = matchLen seq w j := by
  obtain ⟨s, hs, hlen⟩ := exists_candidate_of_matchLen_pos h
  have hmem : s ∈ (candidates w j).filter fun s => lcp seq s j = matchLen seq w j :=
    List.mem_filter.mpr ⟨hs, decide_eq_true hlen⟩
  have hmax := maxOf_mem (List.ne_nil_of_mem hmem)
  rw [← matchSrc_of_matchLen_pos h] at hmax
  obtain ⟨hcand, hattains⟩ := List.mem_filter.mp hmax
  exact ⟨hcand, of_decide_eq_true hattains⟩

theorem le_matchSrc (h : 0 < matchLen seq w j) {s : Nat} (hs : s ∈ candidates w j) (hlen : lcp seq s j = matchLen seq w j) :
    s ≤ matchSrc seq w j := by
  rw [matchSrc_of_matchLen_pos h]
  exact le_maxOf (List.mem_filter.mpr ⟨hs, decide_eq_true hlen⟩)

/-- The window law (41_matcher.md R142). -/
theorem matchSrc_window (h : 0 < matchLen seq w j) : j - w ≤ matchSrc seq w j ∧ matchSrc seq w j < j :=
  mem_candidates.mp (matchSrc_attains h).1

theorem matchSrc_isLcp (h : 0 < matchLen seq w j) : isLcp seq (matchSrc seq w j) j (matchLen seq w j) :=
  (matchSrc_attains h).2 ▸ lcp_isLcp (matchSrc_window h).2

/-- The content law (41_matcher.md R143). -/
theorem readAt_matchSrc_add {t : Nat} (h : t < matchLen seq w j) :
    readAt seq (matchSrc seq w j + t) = readAt seq (j + t) := by
  obtain ⟨-, hcommon, -⟩ := matchSrc_isLcp (Nat.zero_lt_of_lt h)
  exact hcommon t h

theorem isLcp_le_matchLen {s l : Nat} (hlo : j - w ≤ s) (hs : s < j) (h : isLcp seq s j l) : l ≤ matchLen seq w j :=
  isLcp_unique (lcp_isLcp hs) h ▸ lcp_le_matchLen (mem_candidates.mpr ⟨hlo, hs⟩)

/-- Among the sources of the greatest length none is more recent than `matchSrc`. -/
theorem isLcp_lt_matchLen {s l : Nat} (hpos : 0 < matchLen seq w j) (hsrc : matchSrc seq w j < s) (hs : s < j)
    (h : isLcp seq s j l) : l < matchLen seq w j := by
  have hlo : j - w ≤ s := (matchSrc_window hpos).1.trans hsrc.le
  refine lt_of_le_of_ne (isLcp_le_matchLen hlo hs h) fun hl => ?_
  have hattains : lcp seq s j = matchLen seq w j := (isLcp_unique (lcp_isLcp hs) h).trans hl
  exact absurd (le_matchSrc hpos (mem_candidates.mpr ⟨hlo, hs⟩) hattains) (Nat.not_le.mpr hsrc)

theorem isMatchRecord_matchLen_matchSrc (seq : List Half) (w j : Nat) :
    isMatchRecord seq w j (matchLen seq w j) (matchSrc seq w j) := by
  refine ⟨fun s l => isLcp_le_matchLen, matchSrc_of_matchLen_eq_zero, fun hpos => ?_⟩
  obtain ⟨hlo, hsrc⟩ := matchSrc_window hpos
  exact ⟨hlo, hsrc, matchSrc_isLcp hpos, fun s l => isLcp_lt_matchLen hpos⟩

end Record

/-- Settles O37: the source is a candidate, whose common run with the position is as long as the record says. -/
theorem matchesObeyWindowAndContentLaws : Obligations.MatchesObeyWindowAndContentLaws := by
  intro seq w j _
  refine ⟨fun hpos => ?_, fun l hl t ht => readAt_matchSrc_add (ht.trans_le hl)⟩
  obtain ⟨hlo, hsrc⟩ := matchSrc_window hpos
  exact ⟨hlo, hsrc, by omega, by omega⟩

/-! ### STM_QUERY -/

theorem exec_stmQuery {s : State} (hs : s.session = true) (j : Nat) :
    exec (.stmQuery j) s = finish (require (decide (j < s.mem.seq.length)) .rangeArg j s <|
      .ok (((s.setRes0 (toWord (matchLen s.mem.seq s.acfg.window j))).setRes1 (toWord (matchSrc s.mem.seq s.acfg.window j))).setRes2
        (toWord (if 0 < matchLen s.mem.seq s.acfg.window j then j - matchSrc s.mem.seq s.acfg.window j else 0)))) :=
  finish_withNeeds (o := .stmQuery) hs _

/-- Settles O36: STM_QUERY reports `matchLen` and `matchSrc`, which are the record of R141. -/
theorem queryReportsTheMatchRecord : Obligations.QueryReportsTheMatchRecord := by
  intro s j hs
  rw [exec_stmQuery hs]
  refine ⟨fun hj => ?_, fun hj => ⟨_, _, isMatchRecord_matchLen_matchSrc _ _ _, ?_⟩⟩
  · rw [require_fail hj.not_gt, finish_raise]
  · rw [require_pass hj, finish_ok, apply_ite toWord]
    rfl

/-! ### STM_PUSH and RC_INBYTE -/

theorem exec_stmPush {s : State} (hs : s.session = true) (sym : Nat) :
    exec (.stmPush sym) s = finish (require (decide (sym < s.acfg.alpha)) .badSymbol sym s <|
      require (decide (s.mem.seq.length < s.inst.seqCap)) .seqFull 0 s <|
      .ok { s with mem := { s.mem with seq := s.mem.seq ++ [BitVec.ofNat 16 sym] } }) :=
  finish_withNeeds (o := .stmPush) hs _

theorem exec_rcInbyte {s : State} (hs : s.session = true) (hm : s.mode = .decode) (b : Nat) :
    exec (.rcInbyte b) s = finish (require (decide (b ≤ 0xFF)) .rangeArg b s <|
      require (decide (s.mem.ibuf.length < s.inst.ibufCap)) .rcInFull s.mem.ibuf.length s <|
      .ok { s with mem := { s.mem with ibuf := s.mem.ibuf ++ [BitVec.ofNat 8 b] } }) :=
  finish_withNeeds (o := .rcInbyte) ⟨hs, hm⟩ _

/-- Settles O35: each command checks its element, then the room in its space, before it appends. -/
theorem pushAndInbyteAppend : Obligations.PushAndInbyteAppend := by
  refine ⟨fun sym s hs => ?_, fun b s hs hm => ?_⟩
  · rw [exec_stmPush hs]
    refine ⟨fun hsym => ?_, fun hsym hcap => ?_, fun hsym hcap => ?_⟩
    · rw [require_fail hsym.not_gt, finish_raise]
    · rw [require_pass hsym, require_fail hcap.not_gt, finish_raise]
    · rw [require_pass hsym, require_pass hcap, finish_ok]
  · rw [exec_rcInbyte hs hm]
    refine ⟨fun hb => ?_, fun hb hcap => ?_, fun hb hcap => ?_⟩
    · rw [require_fail hb.not_ge, finish_raise]
    · rw [require_pass hb, require_fail hcap.not_gt, finish_raise]
    · rw [require_pass hb, require_pass hcap, finish_ok]

/-! ### The indexed reads -/

/-- The one shape of the four indexed reads: the index is checked against the space's length, and the element goes to RES0 (41_matcher.md R147). -/
def indexedRead {n : Nat} (o : Opcode) (space : List (BitVec n)) (j : Nat) (s : State) : Host.Outcome State Fault Refusal :=
  finish (withNeeds o s (require (decide (j < space.length)) .rangeArg j s (.ok (s.setRes0 ((readAt space j).setWidth 64)))))

section IndexedRead

variable {n : Nat} {o : Opcode} {space : List (BitVec n)} {j : Nat} {s : State}

theorem indexedRead_of_lt (hs : (needsOf o).met s) (h : j < space.length) :
    indexedRead o space j s = .next (State.complete { s with res0 := (space[j]).setWidth 64 }) := by
  rw [indexedRead, finish_withNeeds hs, require_pass h, finish_ok, readAt, List.getD_eq_getElem _ _ h]
  rfl

theorem indexedRead_of_le (hs : (needsOf o).met s) (h : space.length ≤ j) :
    indexedRead o space j s = .next (s.takeFault .rangeArg j) := by
  rw [indexedRead, finish_withNeeds hs, require_fail h.not_gt, finish_raise]

end IndexedRead

theorem exec_stmRead (j : Nat) (s : State) : exec (.stmRead j) s = indexedRead .stmRead s.mem.seq j s := by
  rw [exec, execStmRead, toWord, BitVec.ofNat_toNat, indexedRead]

theorem exec_psuToken (j : Nat) (s : State) : exec (.psuToken j) s = indexedRead .psuToken s.mem.tok j s := by
  rw [exec, execPsuToken, indexedRead, BitVec.setWidth_eq]

theorem exec_psuDread (j : Nat) (s : State) : exec (.psuDread j) s = indexedRead .psuDread s.mem.dseq j s := by
  rw [exec, execPsuDread, toWord, BitVec.ofNat_toNat, indexedRead]

theorem exec_rcOutbyte (j : Nat) (s : State) : exec (.rcOutbyte j) s = indexedRead .rcOutbyte s.mem.obuf j s := by
  rw [exec, execRcOutbyte, toWord, BitVec.ofNat_toNat, indexedRead]

/-- Settles O38: each of the four commands is an indexed read of its space. -/
theorem indexedReadsReturnTheElement : Obligations.IndexedReadsReturnTheElement := by
  intro s j hs
  rw [exec_stmRead, exec_psuToken, exec_psuDread, exec_rcOutbyte]
  refine ⟨indexedRead_of_lt hs, indexedRead_of_le hs, fun h => ?_, indexedRead_of_le hs, indexedRead_of_lt hs, indexedRead_of_le hs,
    indexedRead_of_lt hs, indexedRead_of_le hs⟩
  rw [indexedRead_of_lt (o := .psuToken) hs h, BitVec.setWidth_eq]

end Sys2Proof.Machine
end

section
/-! PROOFS. The cost tables and PSU_EXPAND: the checks of PSU_SETCOST and PSU_GETCOST, what each leaves in the tables, and what the expansion of a token word appends (42_parser.md R180 to R182). -/

namespace Sys2Proof.Machine

/-! ### The cost tables -/

theorem costSel_eq_none {table : Nat} : costSel table = none ↔ 2 < table := by
  match table with
  | 0 | 1 | 2 => simp [costSel]
  | table + 3 => simp [costSel]

section CostEntry

variable {α : Type} {table index : Nat} {s : State} {rest : CostSel → CmdResult α}

theorem withCostEntry_of_none (h : costSel table = none) :
    withCostEntry table index s rest = .raise .rangeArg (cselImm table index) s := by
  rw [withCostEntry, h]

theorem withCostEntry_of_le {sel : CostSel} (h : costSel table = some sel) (hi : costLen s.inst sel ≤ index) :
    withCostEntry table index s rest = .raise .rangeArg (cselImm table index) s := by
  simp only [withCostEntry, h]
  exact require_fail hi.not_gt _ _ _ _

theorem withCostEntry_of_lt {sel : CostSel} (h : costSel table = some sel) (hi : index < costLen s.inst sel) :
    withCostEntry table index s rest = rest sel := by
  simp only [withCostEntry, h]
  exact require_pass hi _ _ _ _

end CostEntry

/-- Neither command needs a session: the first checks are those of the immediate (42_parser.md R180, R181). -/
theorem exec_psuSetcost (table index : Nat) (s : State) :
    exec (.psuSetcost table index) s = finish (withCostEntry table index s fun sel =>
      require (decide (s.opArg0 ≤ 0xFFFF)) .rangeArg s.opArg0 s <|
      .ok { s with mem := s.mem.setCost sel index (BitVec.ofNat 16 s.opArg0) }) := rfl

theorem exec_psuGetcost (table index : Nat) (s : State) :
    exec (.psuGetcost table index) s = finish (withCostEntry table index s fun sel =>
      .ok (s.setRes0 (toWord (CostTable.at (s.mem.costTable sel) index).toNat))) := rfl

/-- A MemWrite to a cost table touches no other space (20_memory.md R71). -/
theorem Memory.setCost_frame (m : Memory) (sel : CostSel) (i : Nat) (v : Half) :
    m.setCost sel i v =
      { m with litcost := (m.setCost sel i v).litcost, lencost := (m.setCost sel i v).lencost, distcost := (m.setCost sel i v).distcost } := by
  cases sel <;> rfl

/-- Settles O41: a bad TABLE or INDEX fails the checks of the immediate in both commands; past them PSU_SETCOST is one MemWrite to the selected table and PSU_GETCOST one read. -/
theorem costTablesStoreAndReturnEntries : Obligations.CostTablesStoreAndReturnEntries := by
  intro s table index
  rw [exec_psuSetcost, exec_psuGetcost]
  refine ⟨costSel_eq_none, ⟨rfl, rfl, rfl⟩, ⟨rfl, rfl, rfl⟩, ⟨rfl, rfl, rfl⟩, fun htable => ?_,
    fun sel hsel hi => ?_, fun sel hsel hi => ⟨fun hv => ?_, ?_, fun hv hwf => ?_⟩⟩
  · have hnone := costSel_eq_none.mpr htable
    exact ⟨congrArg finish (withCostEntry_of_none hnone), congrArg finish (withCostEntry_of_none hnone)⟩
  · exact ⟨congrArg finish (withCostEntry_of_le hsel hi), congrArg finish (withCostEntry_of_le hsel hi)⟩
  · rw [withCostEntry_of_lt hsel hi, State.opArg0, require_fail hv.not_ge, finish_raise]
  · rw [withCostEntry_of_lt hsel hi, finish_ok, toWord, BitVec.ofNat_toNat]
    rfl
  · refine ⟨s.mem.setCost sel index (BitVec.ofNat 16 s.opArg0), ?_, Memory.setCost_frame _ _ _ _, Memory.wf_setCost hwf _ _ _,
      fun sel' j => ?_⟩
    · rw [withCostEntry_of_lt hsel hi, require_pass (p := s.opArg0 ≤ 0xFFFF) hv, finish_ok]
    · have hval : (BitVec.ofNat 16 s.opArg0).toNat = s.latch.arg0.toNat := Nat.mod_eq_of_lt (Nat.lt_succ_of_le hv)
      rw [Memory.costTable_setCost hwf, apply_ite BitVec.toNat, hval]

/-! ### PSU_EXPAND -/

/-- The checks 2 to 4 of PSU_EXPAND, kind by kind (42_parser.md R182). -/
theorem tokenExpandable_iff {acfg : ActiveCfg} {m : Nat} {t : Word} :
    tokenExpandable acfg m t = true ↔
      (tokKind t = 0 ∧ tokRsv t = 0 ∧ tokDist t = 0 ∧ tokLow t < acfg.alpha) ∨
      (tokKind t = 1 ∧ tokRsv t = 0 ∧ 1 ≤ tokLow t ∧ tokLow t ≤ acfg.maxlen ∧
        1 ≤ tokDist t ∧ tokDist t ≤ acfg.window ∧ tokDist t ≤ m) := by
  have hkind : tokKind t = 0 ∨ tokKind t = 1 := Nat.le_one_iff_eq_zero_or_eq_one.mp (Nat.le_of_lt_succ (Nat.mod_lt _ (by decide)))
  unfold tokenExpandable
  rcases hkind with h | h <;> simp [h]

theorem tokGrowth_literal {t : Word} (h : tokKind t = 0) : tokGrowth t = 1 := if_pos h

theorem tokGrowth_match {t : Word} (h : tokKind t = 1) : tokGrowth t = tokLow t := if_neg (by omega)

theorem expandToken_literal {t : Word} (h : tokKind t = 0) (dseq : List Half) :
    expandToken t dseq = dseq ++ [BitVec.ofNat 16 (tokLow t)] := if_pos h

theorem expandToken_match {t : Word} (h : tokKind t = 1) (dseq : List Half) :
    expandToken t dseq = expandCopy (tokDist t) (tokLow t) dseq := if_neg (by omega)

theorem exec_psuExpand {s : State} (hs : s.session = true) :
    exec .psuExpand s = finish (require (tokenExpandable s.acfg s.mem.dseq.length s.latch.arg0) .badToken s.latch.arg0.toNat s <|
      require (decide (s.mem.dseq.length + tokGrowth s.latch.arg0 ≤ s.inst.seqCap)) .seqFull 0 s <|
      .ok { s with mem := { s.mem with dseq := expandToken s.latch.arg0 s.mem.dseq } }) :=
  finish_withNeeds (o := .psuExpand) hs _

section Expand

variable {s : State} (hs : s.session = true)
include hs

theorem exec_psuExpand_badToken (h : ¬ tokenExpandable s.acfg s.mem.dseq.length s.latch.arg0 = true) :
    exec .psuExpand s = .next (s.takeFault .badToken s.latch.arg0.toNat) := by
  rw [exec_psuExpand hs, Bool.eq_false_iff.mpr h, require_false, finish_raise]

theorem exec_psuExpand_full (h : tokenExpandable s.acfg s.mem.dseq.length s.latch.arg0 = true)
    (hfull : s.inst.seqCap < s.mem.dseq.length + tokGrowth s.latch.arg0) : exec .psuExpand s = .next (s.takeFault .seqFull 0) := by
  rw [exec_psuExpand hs, h, require_true, require_fail hfull.not_ge, finish_raise]

theorem exec_psuExpand_ok (h : tokenExpandable s.acfg s.mem.dseq.length s.latch.arg0 = true)
    (hroom : s.mem.dseq.length + tokGrowth s.latch.arg0 ≤ s.inst.seqCap) :
    exec .psuExpand s = .next (State.complete { s with mem := { s.mem with dseq := expandToken s.latch.arg0 s.mem.dseq } }) := by
  rw [exec_psuExpand hs, h, require_true, require_pass hroom, finish_ok]

end Expand

/-! ### The copy of a Match -/

theorem readAt_append_left {w k : Nat} {l : List (BitVec w)} (h : k < l.length) (l' : List (BitVec w)) : readAt (l ++ l') k = readAt l k :=
  List.getD_append _ _ _ _ h

theorem readAt_concat_length {w : Nat} (l : List (BitVec w)) (x : BitVec w) : readAt (l ++ [x]) l.length = x := by
  simp [readAt]

/-- The copy leaves the symbols before it (42_parser.md R182). -/
theorem readAt_expandCopy_of_lt {d l k : Nat} {dseq : List Half} (h : k < dseq.length) :
    readAt (expandCopy d l dseq) k = readAt dseq k := by
  induction l generalizing dseq with
  | zero => rfl
  | succ l ih => rw [expandCopy, ih (by rw [List.length_append]; omega), readAt_append_left h]

/-- Each symbol of the copy is the one d back, which the copy itself may have written (42_parser.md R182). -/
theorem readAt_expandCopy_add {d l k : Nat} {dseq : List Half} (hpos : 1 ≤ d) (hd : d ≤ dseq.length) (hk : k < l) :
    readAt (expandCopy d l dseq) (dseq.length + k) = readAt (expandCopy d l dseq) (dseq.length + k - d) := by
  induction l generalizing dseq k with
  | zero => exact absurd hk (Nat.not_lt_zero k)
  | succ l ih =>
    have hlen : (dseq ++ [readAt dseq (dseq.length - d)]).length = dseq.length + 1 := List.length_append
    rw [expandCopy]
    cases k with
    | zero =>
      rw [Nat.add_zero, readAt_expandCopy_of_lt (by omega), readAt_expandCopy_of_lt (by omega), readAt_concat_length,
        readAt_append_left (by omega)]
    | succ k =>
      have hih := ih (dseq := dseq ++ [readAt dseq (dseq.length - d)]) (k := k) (by omega) (by omega)
      rwa [hlen, Nat.add_right_comm] at hih

/-- Settles O42: PSU_EXPAND's checks are those of the token's kind, then the room; the copy keeps what was there and obeys its recurrence. -/
theorem expandAppendsLiteralOrCopy : Obligations.ExpandAppendsLiteralOrCopy := by
  intro s hs
  dsimp only
  refine ⟨fun hnlit hnmatch => exec_psuExpand_badToken hs fun ht => (tokenExpandable_iff.mp ht).elim hnlit hnmatch,
    fun hlit hfull => ?_, fun hmatch hfull => ?_, fun hlit hroom => ?_, fun hmatch hroom => ?_⟩
  · exact exec_psuExpand_full hs (tokenExpandable_iff.mpr (.inl hlit)) (by rwa [tokGrowth_literal hlit.1])
  · exact exec_psuExpand_full hs (tokenExpandable_iff.mpr (.inr hmatch)) (by rwa [tokGrowth_match hmatch.1])
  · rw [exec_psuExpand_ok hs (tokenExpandable_iff.mpr (.inl hlit)) (by rwa [tokGrowth_literal hlit.1]), expandToken_literal hlit.1]
    rfl
  · obtain ⟨hkind, -, -, -, hpos, -, hd⟩ := id hmatch
    refine ⟨expandCopy (tokDist s.latch.arg0) (tokLow s.latch.arg0) s.mem.dseq, ?_, length_expandCopy _ _ _,
      fun k hk => readAt_expandCopy_of_lt hk, fun k hk => readAt_expandCopy_add hpos hd hk⟩
    rw [exec_psuExpand_ok hs (tokenExpandable_iff.mpr (.inr hmatch)) (by rwa [tokGrowth_match hkind]), expandToken_match hkind]

end Sys2Proof.Machine
end

section
/-! PROOFS. The dynamic program of the parse: a proposal keeps the cells' invariant, the forward pass ends with the least costs, and the backtrack follows tokens that were kept (42_parser.md R171 to R178, R184). -/

namespace Sys2Proof.Machine

/-! ### The edges -/

/-- A usable match ends within SEQ, and its distance lies in the window and within the symbols before it (42_parser.md R172). -/
theorem usableMatch_bounds {s : State} {i : Nat} (hmin : 1 ≤ s.acfg.minlen) (hu : usableMatch s i = true) :
    s.acfg.minlen ≤ clippedLen s i ∧ clippedLen s i ≤ s.acfg.maxlen ∧ clippedLen s i ≤ matchLen s.mem.seq s.acfg.window i ∧
    clippedLen s i ≤ s.mem.seq.length - i ∧
    1 ≤ matchDist s i ∧ matchDist s i ≤ s.acfg.window ∧ matchDist s i ≤ i ∧ i - matchDist s i = matchSrc s.mem.seq s.acfg.window i := by
  have hlen : s.acfg.minlen ≤ clippedLen s i := of_decide_eq_true hu
  have hle : clippedLen s i ≤ matchLen s.mem.seq s.acfg.window i := min_le_left _ _
  have hpos : 0 < matchLen s.mem.seq s.acfg.window i := by omega
  obtain ⟨hlo, hsrc⟩ := matchSrc_window hpos
  have hend := (matchSrc_isLcp hpos).1
  refine ⟨hlen, min_le_right _ _, hle, hle.trans hend, ?_⟩
  unfold matchDist
  omega

theorem isEdge_literal {s : State} {p sym : Nat} :
    isEdge s p (.literal sym) ↔ p < s.mem.seq.length ∧ sym = (readAt s.mem.seq p).toNat := by
  simp [isEdge]

theorem isEdge_backref {s : State} {p l d : Nat} :
    isEdge s p (.backref l d) ↔ p < s.mem.seq.length ∧ usableMatch s p = true ∧ l = clippedLen s p ∧ d = matchDist s p := by
  simp [isEdge]

theorem isEdge_bounds {s : State} {p : Nat} {t : Token} (hmin : 1 ≤ s.acfg.minlen) (h : isEdge s p t) :
    1 ≤ t.length ∧ p + t.length ≤ s.mem.seq.length := by
  obtain ⟨hp, rfl | ⟨hu, rfl⟩⟩ := h
  · exact ⟨le_rfl, hp⟩
  · obtain ⟨hlen, -, -, hend, -⟩ := usableMatch_bounds hmin hu
    simp only [Token.length]
    omega

/-- The order in which the forward pass makes its proposals: by start position, and the literal's first at each (42_parser.md R177). -/
def proposedBefore (p' : Nat) (t' : Token) (p : Nat) (t : Token) : Prop :=
  p' < p ∨ (p' = p ∧ t'.isLiteral = true ∧ t.isLiteral = false)

theorem proposedBefore.asymm {p p' : Nat} {t t' : Token} (h : proposedBefore p' t' p t) : ¬ proposedBefore p t p' t' := by
  intro h'
  rcases h with hlt | ⟨rfl, hlit, -⟩
  · rcases h' with hlt' | ⟨heq, -, -⟩ <;> omega
  · rcases h' with hlt' | ⟨-, -, hmatch⟩
    · exact absurd hlt' (Nat.lt_irrefl _)
    · exact absurd (hlit.symm.trans hmatch) nofun

/-! ### The cells -/

/-- pred[j] as stored. -/
def predAt (cells : List ParseCell) (j : Nat) : Option (Token × Nat) := (cells[j]?).bind (fun c => c.pred)

/-- cost[j] where it is finite, and 0 where it is INF, as the model reads it. -/
def storedCost (cells : List ParseCell) (j : Nat) : Nat := (costAt cells j).getD 0

theorem storedCost_eq {cells : List ParseCell} {j c : Nat} (h : costAt cells j = some c) : storedCost cells j = c := by
  rw [storedCost, h, Option.getD_some]

theorem parseCost_eq_storedCost (s : State) : parseCost s = storedCost (parseCells s) s.mem.seq.length := rfl

theorem costAt_parseStart (n j : Nat) : costAt (parseStart n) j = if j = 0 then some 0 else none := by
  cases j with
  | zero => rfl
  | succ j =>
    simp only [costAt, parseStart, List.getElem?_cons_succ, List.getElem?_replicate]
    split <;> rfl

section Propose

variable {cells : List ParseCell} {j c start k : Nat} {t : Token}

theorem length_propose : (propose cells j c t start).length = cells.length := by
  unfold propose
  split
  · exact List.length_set
  · split
    · exact List.length_set
    · rfl

theorem propose_of_le {c' : Nat} (h : costAt cells j = some c') (hle : c' ≤ c) : propose cells j c t start = cells := by
  simp only [propose, h]
  exact if_neg hle.not_gt

/-- A proposal below the stored cost, or for a position at INF, is stored (42_parser.md R177). -/
theorem propose_of_lt (h : ∀ c', costAt cells j = some c' → c < c') :
    propose cells j c t start = cells.set j { cost := some c, pred := some (t, start) } := by
  unfold propose
  split
  · rfl
  · next c' hc' => exact if_pos (h c' hc')

/-- A proposal changes no other position's cell. -/
theorem propose_other (h : k ≠ j) : (propose cells j c t start)[k]? = cells[k]? := by
  unfold propose
  split
  · exact List.getElem?_set_ne h.symm
  · split
    · exact List.getElem?_set_ne h.symm
    · rfl

theorem costAt_propose_other (h : k ≠ j) : costAt (propose cells j c t start) k = costAt cells k := by
  rw [costAt, propose_other h, costAt]

theorem storedCost_propose_other (h : k ≠ j) : storedCost (propose cells j c t start) k = storedCost cells k := by
  rw [storedCost, costAt_propose_other h, storedCost]

theorem predAt_propose_other (h : k ≠ j) : predAt (propose cells j c t start) k = predAt cells k := by
  rw [predAt, propose_other h, predAt]

/-- What a proposal leaves at its position: the stored cost where it is no larger, and the proposal otherwise (42_parser.md R177). -/
theorem propose_cases (hj : j < cells.length) :
    (∃ c' ≤ c, costAt cells j = some c' ∧ propose cells j c t start = cells) ∨
    ((∀ c', costAt cells j = some c' → c < c') ∧ costAt (propose cells j c t start) j = some c ∧
      predAt (propose cells j c t start) j = some (t, start)) := by
  by_cases h : ∀ c', costAt cells j = some c' → c < c'
  · refine .inr ⟨h, ?_, ?_⟩
    · rw [propose_of_lt h, costAt, List.getElem?_set_self hj]; rfl
    · rw [propose_of_lt h, predAt, List.getElem?_set_self hj]; rfl
  · push Not at h
    obtain ⟨c', hc', hle⟩ := h
    exact .inl ⟨c', hle, hc', propose_of_le hc' hle⟩

end Propose

/-! ### The invariant of the forward pass -/

/-- Of the proposals `D` made so far, that of token t from p is the one kept for its end: the stored cost there is its cost, and every proposal made before it for the same position costs strictly more (42_parser.md R177). -/
structure Kept (s : State) (D : Nat → Token → Prop) (cells : List ParseCell) (p : Nat) (t : Token) : Prop where
  proposed : D p t
  cost_eq : costAt cells (p + t.length) = some (storedCost cells p + tokenCost s p t)
  cost_lt : ∀ p' t', D p' t' → proposedBefore p' t' p t → p' + t'.length = p + t.length →
    storedCost cells p + tokenCost s p t < storedCost cells p' + tokenCost s p' t'

/-- The cells after the proposals `D`: no proposal is below the stored cost of its end, and every finite cost but cost[0] is that of a proposal kept, which the predecessor names. -/
structure CellsOk (s : State) (D : Nat → Token → Prop) (cells : List ParseCell) : Prop where
  length_eq : cells.length = s.mem.seq.length + 1
  cost_zero : costAt cells 0 = some 0
  cost_le : ∀ p t, D p t → ∃ c ≤ storedCost cells p + tokenCost s p t, costAt cells (p + t.length) = some c
  kept : ∀ j c, j ≠ 0 → costAt cells j = some c → ∃ p t, predAt cells j = some (t, p) ∧ p + t.length = j ∧ Kept s D cells p t

theorem cellsOk_parseStart (s : State) : CellsOk s (fun _ _ => False) (parseStart s.mem.seq.length) where
  length_eq := by rw [parseStart, List.length_cons, List.length_replicate]
  cost_zero := rfl
  cost_le _ _ := False.elim
  kept j c hj hc := by rw [costAt_parseStart, if_neg hj] at hc; cases hc

/-- The proposals after one more. -/
def withProposal (D : Nat → Token → Prop) (p : Nat) (t : Token) (p' : Nat) (t' : Token) : Prop := D p' t' ∨ (p' = p ∧ t' = t)

section

variable {s : State} {D : Nat → Token → Prop} {cells : List ParseCell} {p : Nat} {t : Token}

/-- A token kept stays so while its cells are untouched and the further proposal comes after it. -/
theorem Kept.withProposal {cells' : List ParseCell} {p₀ : Nat} {t₀ : Token} (h : Kept s D cells p₀ t₀)
    (hbefore : ∀ p' t', D p' t' → proposedBefore p' t' p t)
    (hstart : ∀ p' t', D p' t' → storedCost cells' p' = storedCost cells p')
    (hend : costAt cells' (p₀ + t₀.length) = costAt cells (p₀ + t₀.length)) :
    Kept s (withProposal D p t) cells' p₀ t₀ where
  proposed := .inl h.proposed
  cost_eq := by rw [hend, h.cost_eq, hstart _ _ h.proposed]
  cost_lt p' t' hD hlt heq := by
    rcases hD with hD | ⟨rfl, rfl⟩
    · rw [hstart _ _ h.proposed, hstart _ _ hD]
      exact h.cost_lt p' t' hD hlt heq
    · exact absurd hlt (hbefore _ _ h.proposed).asymm

/-- A proposal at or above the stored cost of its position may be left out. -/
theorem CellsOk.withProposal_of_le (h : CellsOk s D cells) (hbefore : ∀ p' t', D p' t' → proposedBefore p' t' p t) {c' : Nat}
    (hle : c' ≤ storedCost cells p + tokenCost s p t) (hc' : costAt cells (p + t.length) = some c') :
    CellsOk s (withProposal D p t) cells where
  length_eq := h.length_eq
  cost_zero := h.cost_zero
  cost_le p' t' hD := by
    rcases hD with hD | ⟨rfl, rfl⟩
    · exact h.cost_le p' t' hD
    · exact ⟨c', hle, hc'⟩
  kept j c hj hc := by
    obtain ⟨p₀, t₀, hp₀, hj₀, hkept⟩ := h.kept j c hj hc
    exact ⟨p₀, t₀, hp₀, hj₀, hkept.withProposal hbefore (fun _ _ _ => rfl) rfl⟩

/-- A proposal below the stored cost of its position is below all those made so far for it, and is kept. -/
theorem CellsOk.withProposal_of_lt (h : CellsOk s D cells) (hbefore : ∀ p' t', D p' t' → proposedBefore p' t' p t)
    {cells' : List ParseCell} (hlen : cells'.length = cells.length) (hpos : 1 ≤ t.length)
    (hlt : ∀ c', costAt cells (p + t.length) = some c' → storedCost cells p + tokenCost s p t < c')
    (hcost : costAt cells' (p + t.length) = some (storedCost cells p + tokenCost s p t))
    (hpred : predAt cells' (p + t.length) = some (t, p))
    (hother : ∀ k, k ≠ p + t.length → costAt cells' k = costAt cells k ∧ predAt cells' k = predAt cells k) :
    CellsOk s (withProposal D p t) cells' := by
  have hstart : ∀ p' ≤ p, storedCost cells' p' = storedCost cells p' := fun p' hp' => by
    rw [storedCost, (hother p' (by omega)).1, storedCost]
  have hstartD : ∀ p' t', D p' t' → storedCost cells' p' = storedCost cells p' := fun p' t' hD =>
    hstart p' ((hbefore p' t' hD).elim Nat.le_of_lt fun heq => heq.1.le)
  refine ⟨hlen.trans h.length_eq, (hother 0 (by omega)).1.trans h.cost_zero, fun p' t' hD => ?_, fun j c hj hc => ?_⟩
  · rcases hD with hD | ⟨rfl, rfl⟩
    · obtain ⟨c', hle, hc'⟩ := h.cost_le p' t' hD
      rw [hstartD p' t' hD]
      by_cases heq : p' + t'.length = p + t.length
      · rw [heq] at hc' ⊢
        exact ⟨_, (hlt c' hc').le.trans hle, hcost⟩
      · exact ⟨c', hle, (hother _ heq).1.trans hc'⟩
    · exact ⟨_, (congrArg (· + _) (hstart _ le_rfl)).ge, hcost⟩
  · by_cases heq : j = p + t.length
    · subst heq
      refine ⟨p, t, hpred, rfl, .inr ⟨rfl, rfl⟩, by rw [hcost, hstart p le_rfl], fun p' t' hD hb hend => ?_⟩
      rcases hD with hD | ⟨rfl, rfl⟩
      · obtain ⟨c', hle, hc'⟩ := h.cost_le p' t' hD
        rw [hstart p le_rfl, hstartD p' t' hD]
        exact (hlt c' (hend ▸ hc')).trans_le hle
      · exact absurd hb hb.asymm
    · obtain ⟨hcost₀, hpred₀⟩ := hother j heq
      obtain ⟨p₀, t₀, hp₀, rfl, hkept⟩ := h.kept j c hj (hcost₀.symm.trans hc)
      exact ⟨p₀, t₀, hpred₀.trans hp₀, rfl, hkept.withProposal hbefore hstartD hcost₀⟩

/-- A proposal keeps the invariant: it comes after those made so far, so its position is beyond the starts of all of them, whose costs are final. -/
theorem CellsOk.propose (h : CellsOk s D cells) (hbefore : ∀ p' t', D p' t' → proposedBefore p' t' p t)
    (hpos : 1 ≤ t.length) (hend : p + t.length ≤ s.mem.seq.length) :
    CellsOk s (withProposal D p t) (propose cells (p + t.length) (storedCost cells p + tokenCost s p t) t p) := by
  have hj : p + t.length < cells.length := h.length_eq ▸ Nat.lt_succ_of_le hend
  rcases propose_cases hj with ⟨c', hle, hc', hsame⟩ | ⟨hlt, hcost, hpred⟩
  · rw [hsame]
    exact h.withProposal_of_le hbefore hle hc'
  · exact h.withProposal_of_lt hbefore length_propose hpos hlt hcost hpred fun k hk =>
      ⟨costAt_propose_other hk, predAt_propose_other hk⟩

end

/-! ### The forward pass -/

/-- The edges that start before position i: the proposals made by the first i iterations. -/
def edgesBefore (s : State) (i p : Nat) (t : Token) : Prop := isEdge s p t ∧ p < i

theorem edgesBefore_length (s : State) : edgesBefore s s.mem.seq.length = isEdge s := by
  funext p t
  exact propext (and_iff_left_of_imp And.left)

/-- One iteration's proposals are the edges of its position. -/
theorem edgesBefore_succ {s : State} {i : Nat} (hi : i < s.mem.seq.length) :
    edgesBefore s (i + 1) =
      if usableMatch s i then
        withProposal (withProposal (edgesBefore s i) i (.literal (readAt s.mem.seq i).toNat)) i (.backref (clippedLen s i) (matchDist s i))
      else withProposal (edgesBefore s i) i (.literal (readAt s.mem.seq i).toNat) := by
  funext p t
  apply propext
  by_cases hp : p = i
  · subst hp
    split <;> simp_all [edgesBefore, isEdge, withProposal]
  · have hlt : p < i + 1 ↔ p < i := by omega
    split <;> simp [edgesBefore, withProposal, hp, hlt]

theorem parseStep_cellsOk {s : State} (hmin : 1 ≤ s.acfg.minlen) {cells : List ParseCell} {i : Nat} (hi : i < s.mem.seq.length)
    (h : CellsOk s (edgesBefore s i) cells) : CellsOk s (edgesBefore s (i + 1)) (parseStep s cells i) := by
  have hlit := h.propose (p := i) (t := .literal (readAt s.mem.seq i).toNat) (fun p' t' hD => .inl hD.2) le_rfl hi
  rw [edgesBefore_succ hi]
  unfold parseStep
  split
  · next hu =>
    obtain ⟨hpos, hend⟩ := isEdge_bounds hmin ⟨hi, .inr ⟨hu, rfl⟩⟩
    have hmatch := hlit.propose (p := i) (t := .backref (clippedLen s i) (matchDist s i)) (fun p' t' hD => ?_) hpos hend
    · rwa [storedCost_propose_other (by simp [Token.length])] at hmatch
    · rcases hD with hD | ⟨rfl, rfl⟩
      · exact .inl hD.2
      · exact .inr ⟨rfl, rfl, rfl⟩
  · exact hlit

/-- The forward pass, as far as iteration i - 1. -/
theorem foldl_parseStep_cellsOk {s : State} (hmin : 1 ≤ s.acfg.minlen) {i : Nat} (hi : i ≤ s.mem.seq.length) :
    CellsOk s (edgesBefore s i) ((List.range i).foldl (parseStep s) (parseStart s.mem.seq.length)) := by
  induction i with
  | zero =>
    have hnone : edgesBefore s 0 = fun _ _ => False := by
      funext p t
      exact propext (iff_false_intro fun h => Nat.not_lt_zero p h.2)
    exact hnone ▸ cellsOk_parseStart s
  | succ i ih =>
    rw [List.range_succ, List.foldl_append]
    exact parseStep_cellsOk hmin hi (ih (Nat.le_of_succ_le hi))

section Parse

variable {s : State} (hmin : 1 ≤ s.acfg.minlen)
include hmin

theorem parseCells_cellsOk : CellsOk s (isEdge s) (parseCells s) :=
  edgesBefore_length s ▸ foldl_parseStep_cellsOk hmin le_rfl

/-- Every position's cost is finite: the position before it proposed its literal (42_parser.md R177). -/
theorem costAt_parseCells {j : Nat} (hj : j ≤ s.mem.seq.length) : ∃ c, costAt (parseCells s) j = some c := by
  cases j with
  | zero => exact ⟨0, (parseCells_cellsOk hmin).cost_zero⟩
  | succ p =>
    obtain ⟨c, -, hc⟩ := (parseCells_cellsOk hmin).cost_le p _ ⟨hj, .inl rfl⟩
    exact ⟨c, hc⟩

theorem storedCost_edge_le {p : Nat} {t : Token} (h : isEdge s p t) :
    storedCost (parseCells s) (p + t.length) ≤ storedCost (parseCells s) p + tokenCost s p t := by
  obtain ⟨c, hle, hc⟩ := (parseCells_cellsOk hmin).cost_le p t h
  rwa [storedCost_eq hc]

/-- The stored cost of a position is no more than the cost of any path to it (42_parser.md R184). -/
theorem storedCost_le_add_pathCost {p q : Nat} {ts : List Token} (h : isPath s p ts q) :
    storedCost (parseCells s) q ≤ storedCost (parseCells s) p + pathCost s p ts := by
  induction ts generalizing p with
  | nil => exact h ▸ le_rfl
  | cons t ts ih =>
    have hedge := storedCost_edge_le hmin h.1
    have hrest := ih h.2
    rw [pathCost]
    omega

theorem storedCost_le_pathCost {q : Nat} {ts : List Token} (h : isPath s 0 ts q) :
    storedCost (parseCells s) q ≤ pathCost s 0 ts := by
  have hle := storedCost_le_add_pathCost hmin h
  rwa [storedCost_eq (parseCells_cellsOk hmin).cost_zero, Nat.zero_add] at hle

end Parse

/-! ### The backtrack -/

/-- A list of tokens, each kept by the forward pass for the position it ends at. -/
inductive KeptPath (s : State) : List Token → Nat → Prop
  | nil : KeptPath s [] 0
  | snoc {ts : List Token} {p : Nat} {t : Token} : KeptPath s ts p → Kept s (isEdge s) (parseCells s) p t →
      KeptPath s (ts ++ [t]) (p + t.length)

/-- The backtrack from a position puts in front a path of kept tokens to it (42_parser.md R177). -/
theorem backtrack_keptPath {s : State} (hmin : 1 ≤ s.acfg.minlen) {rounds j : Nat} (hrounds : j ≤ rounds) (hj : j ≤ s.mem.seq.length)
    (toks : List Token) : ∃ ts, KeptPath s ts j ∧ backtrack (parseCells s) rounds j toks = ts ++ toks := by
  induction rounds generalizing j toks with
  | zero =>
    obtain rfl := Nat.le_zero.mp hrounds
    exact ⟨[], .nil, rfl⟩
  | succ rounds ih =>
    by_cases h0 : j = 0
    · subst h0
      exact ⟨[], .nil, rfl⟩
    · obtain ⟨c, hc⟩ := costAt_parseCells hmin hj
      obtain ⟨p, t, hpred, rfl, hkept⟩ := (parseCells_cellsOk hmin).kept j c h0 hc
      obtain ⟨hpos, -⟩ := isEdge_bounds hmin hkept.proposed
      obtain ⟨ts, hts, hback⟩ := ih (j := p) (by omega) (by omega) (t :: toks)
      refine ⟨ts ++ [t], hts.snoc hkept, ?_⟩
      unfold predAt at hpred
      rw [backtrack, if_neg h0, hpred, List.append_assoc]
      exact hback

theorem parseTokens_keptPath {s : State} (hmin : 1 ≤ s.acfg.minlen) : KeptPath s (parseTokens s) s.mem.seq.length := by
  obtain ⟨ts, hts, hback⟩ := backtrack_keptPath hmin le_rfl le_rfl []
  rw [parseTokens, hback, List.append_nil]
  exact hts

section KeptPath

variable {s : State} {ts : List Token} {q : Nat}

theorem KeptPath.isPath (h : KeptPath s ts q) : isPath s 0 ts q := by
  induction h with
  | nil => rfl
  | @snoc ts p t _ hkept ih =>
    rw [isPath_append, ← isPath_end ih]
    exact ⟨ih, hkept.proposed, rfl⟩

theorem KeptPath.end_eq (h : KeptPath s ts q) : q = spanOf ts := (isPath_end h.isPath).trans (Nat.zero_add _)

/-- The cost of a path of kept tokens is the stored cost of its end. -/
theorem KeptPath.pathCost_eq (hmin : 1 ≤ s.acfg.minlen) (h : KeptPath s ts q) : pathCost s 0 ts = storedCost (parseCells s) q := by
  induction h with
  | nil => exact (storedCost_eq (parseCells_cellsOk hmin).cost_zero).symm
  | @snoc ts p t hts hkept ih =>
    rw [storedCost_eq hkept.cost_eq, pathCost_append, ih, Nat.zero_add, ← hts.end_eq, pathCost, pathCost, Nat.add_zero]

/-- Each token of a path of kept tokens is kept, and those before it are such a path. -/
theorem KeptPath.split {pre post : List Token} {t : Token} (h : KeptPath s (pre ++ t :: post) q) :
    KeptPath s pre (spanOf pre) ∧ Kept s (isEdge s) (parseCells s) (spanOf pre) t := by
  generalize hts : pre ++ t :: post = ts at h
  induction h generalizing post with
  | nil => simp at hts
  | @snoc ts p t' hpre hkept ih =>
    rcases List.eq_nil_or_concat' post with rfl | ⟨post, t'', rfl⟩
    · obtain ⟨rfl, ⟨⟩⟩ := List.append_inj' hts rfl
      exact ⟨hpre.end_eq ▸ hpre, hpre.end_eq ▸ hkept⟩
    · rw [← List.cons_append, ← List.append_assoc] at hts
      exact ih (List.append_inj' hts rfl).1

end KeptPath

/-! ### PSU_PARSE -/

theorem exec_psuParse {s : State} (hs : s.session = true) :
    exec .psuParse s = .next (State.complete { s with
      mem := { s.mem with tok := (parseTokens s).map Token.word }
      res0 := toWord (parseCost s), res1 := toWord (parseTokens s).length }) :=
  finish_withNeeds (o := .psuParse) hs _

/-- Settles O39: the parse is a path of kept tokens to the end of SEQ; a token kept costs strictly less than any proposal made before it for the same position. -/
theorem parseIsACoverOfLeastCost : Obligations.ParseIsACoverOfLeastCost := by
  intro s hs hmin
  have hkept := parseTokens_keptPath hmin
  have hcost := hkept.pathCost_eq hmin
  refine ⟨parseTokens s, hkept.isPath, fun ts hts => hcost.trans_le (storedCost_le_pathCost hmin hts), fun pre l d post heq => ?_,
    fun pre t post qs u heq hpath hbefore => ?_, ?_⟩
  · obtain ⟨-, hmatch⟩ := (heq ▸ hkept).split
    obtain ⟨-, hu, rfl, rfl⟩ := isEdge_backref.mp hmatch.proposed
    obtain ⟨hlo, hhi, -, hend, hpos, hwin, hle, -⟩ := usableMatch_bounds hmin hu
    exact ⟨hlo, hhi, hpos, hwin, hle, hend⟩
  · obtain ⟨hpre, ht⟩ := (heq ▸ hkept).split
    obtain ⟨hqs, hu, hend⟩ := isPath_append.mp hpath
    rw [Nat.zero_add] at hqs hu hend
    calc pathCost s 0 (pre ++ [t])
        = storedCost (parseCells s) (spanOf pre) + tokenCost s (spanOf pre) t :=
          ((hpre.snoc ht).pathCost_eq hmin).trans (storedCost_eq ht.cost_eq)
      _ < storedCost (parseCells s) (spanOf qs) + tokenCost s (spanOf qs) u := ht.cost_lt _ u hu hbefore hend
      _ ≤ pathCost s 0 qs + tokenCost s (spanOf qs) u := Nat.add_le_add_right (storedCost_le_pathCost hmin hqs) _
      _ = pathCost s 0 (qs ++ [u]) := by rw [pathCost_append, Nat.zero_add, pathCost, pathCost, Nat.add_zero]
  · rw [exec_psuParse hs, hcost, parseCost_eq_storedCost]

end Sys2Proof.Machine
end

section
/-! PROOFS. The round trip of the parse: the word of a token of the parse passes PSU_EXPAND's checks, and its expansion gives the symbols the token stands for (42_parser.md R185). -/

namespace Sys2Proof.Machine

/-- A command that completes without a fault, through its meaning. -/
theorem completes_eq_some {i : Instr} {s t : State} : completes i s = some t ↔ exec i s = .next t ∧ t.fault = none := by
  unfold completes
  cases exec i s with
  | next u =>
    rw [Option.ite_none_right_eq_some, Option.some.injEq, Host.Outcome.next.injEq]
    exact ⟨fun ⟨hnone, heq⟩ => ⟨heq, heq ▸ hnone⟩, fun ⟨heq, hnone⟩ => ⟨heq ▸ hnone, heq⟩⟩
  | fault r => exact ⟨nofun, nofun⟩
  | refused r => exact ⟨nofun, nofun⟩

/-! ### The fields of a token's word (30_encoding.md R104) -/

theorem word_literal_fields {sym : Nat} (h : sym < 2 ^ 16) :
    tokKind (Token.literal sym).word = 0 ∧ tokRsv (Token.literal sym).word = 0 ∧ tokDist (Token.literal sym).word = 0 ∧
      tokLow (Token.literal sym).word = sym := by
  simp only [tokKind, tokRsv, tokDist, tokLow, bitField, Token.word, toWord, BitVec.toNat_ofNat]
  omega

theorem word_backref_fields {l d : Nat} (hl : l < 2 ^ 16) (hd : d < 2 ^ 32) :
    tokKind (Token.backref l d).word = 1 ∧ tokRsv (Token.backref l d).word = 0 ∧ tokDist (Token.backref l d).word = d ∧
      tokLow (Token.backref l d).word = l := by
  simp only [tokKind, tokRsv, tokDist, tokLow, bitField, Token.word, toWord, BitVec.toNat_ofNat]
  omega

/-! ### The expansion of one token of the parse -/

theorem take_append_readAt {w p : Nat} {l : List (BitVec w)} (h : p < l.length) : l.take p ++ [readAt l p] = l.take (p + 1) := by
  rw [readAt, List.getD_eq_getElem _ _ h, List.take_append_getElem h]

theorem readAt_take {w p k : Nat} {l : List (BitVec w)} (h : k < p) : readAt (l.take p) k = readAt l k := by
  rw [readAt, readAt, List.getD_eq_getElem?_getD, List.getElem?_take_of_lt h, ← List.getD_eq_getElem?_getD]

/-- A copy from d back over the first symbols of a sequence goes on with the sequence, where it repeats itself at distance d (42_parser.md R185). -/
theorem expandCopy_take {seq : List Half} {d l p : Nat} (hpos : 1 ≤ d) (hd : d ≤ p) (hend : p + l ≤ seq.length)
    (hrep : ∀ k < l, readAt seq (p - d + k) = readAt seq (p + k)) : expandCopy d l (seq.take p) = seq.take (p + l) := by
  induction l generalizing p with
  | zero => rfl
  | succ l ih =>
    have hlen : (seq.take p).length = p := List.length_take_of_le (by omega)
    have hsym : readAt seq (p - d) = readAt seq p := hrep 0 (Nat.succ_pos l)
    rw [expandCopy, hlen, readAt_take (by omega), hsym, take_append_readAt (by omega), ih (by omega) (by omega),
      Nat.add_right_comm, Nat.add_assoc]
    intro k hk
    have hnext := hrep (k + 1) (by omega)
    rwa [show p - d + (k + 1) = p + 1 - d + k by omega, show p + (k + 1) = p + 1 + k by omega] at hnext

/-- The match at a position repeats the symbols from its distance back: the content law (41_matcher.md R143). -/
theorem readAt_sub_matchDist {s : State} {p k : Nat} (hmin : 1 ≤ s.acfg.minlen) (hu : usableMatch s p = true) (hk : k < clippedLen s p) :
    readAt s.mem.seq (p - matchDist s p + k) = readAt s.mem.seq (p + k) := by
  obtain ⟨-, -, hle, -, -, -, -, hsrc⟩ := usableMatch_bounds hmin hu
  rw [hsrc]
  exact readAt_matchSrc_add (hk.trans_le hle)

/-- The word of an edge at p, over the symbols before p: it can be expanded, and that appends the symbols the edge spans. -/
theorem expandToken_isEdge {s : State} (hs : s.Inv) {p : Nat} {t : Token} (h : isEdge s p t) :
    tokenExpandable s.acfg p t.word = true ∧ tokGrowth t.word = t.length ∧
      expandToken t.word (s.mem.seq.take p) = s.mem.seq.take (p + t.length) := by
  cases t with
  | literal sym =>
    obtain ⟨hp, rfl⟩ := isEdge_literal.mp h
    obtain ⟨hkind, hrsv, hdist, hlow⟩ := word_literal_fields (readAt s.mem.seq p).isLt
    have hsym : (readAt s.mem.seq p).toNat < s.acfg.alpha := hs.spaces.seq_syms _ (readAt_mem hp)
    refine ⟨tokenExpandable_iff.mpr (.inl ⟨hkind, hrsv, hdist, hlow.symm ▸ hsym⟩), tokGrowth_literal hkind, ?_⟩
    rw [expandToken_literal hkind, hlow, BitVec.ofNat_toNat, BitVec.setWidth_eq]
    exact take_append_readAt hp
  | backref l d =>
    obtain ⟨hp, hu, rfl, rfl⟩ := isEdge_backref.mp h
    have hmin := hs.config.minlen_pos
    have hmax := hs.config.maxlen_le
    have hwmax := hs.config.window_le
    obtain ⟨hlo, hhi, -, hend, hpos, hwin, hle, -⟩ := usableMatch_bounds hmin hu
    obtain ⟨hkind, hrsv, hdist, hlow⟩ := word_backref_fields (l := clippedLen s p) (d := matchDist s p) (by omega) (by omega)
    refine ⟨tokenExpandable_iff.mpr (.inr ⟨hkind, hrsv, ?_⟩), (tokGrowth_match hkind).trans hlow, ?_⟩
    · rw [hdist, hlow]
      exact ⟨hmin.trans hlo, hhi, hpos, hwin, hle⟩
    · rw [expandToken_match hkind, hdist, hlow]
      exact expandCopy_take hpos hle (by omega) fun k hk => readAt_sub_matchDist hmin hu hk

/-! ### The expansion of the parse -/

/-- A state in which the first p symbols of s are expanded, in the session of s. -/
structure Expanded (s : State) (p : Nat) (u : State) : Prop where
  session : u.session = true
  fault : u.fault = none
  inst : u.inst = s.inst
  acfg : u.acfg = s.acfg
  seq : u.mem.seq = s.mem.seq
  dseq : u.mem.dseq = s.mem.seq.take p

/-- One PSU_EXPAND of the word of an edge at p goes on to the edge's end. -/
theorem Expanded.edge {s u : State} {p : Nat} {t : Token} (hs : s.Inv) (hu : Expanded s p u) (h : isEdge s p t) :
    ∃ u', completes .psuExpand (u.withToken t.word) = some u' ∧ Expanded s (p + t.length) u' := by
  obtain ⟨-, hend⟩ := isEdge_bounds hs.config.minlen_pos h
  have hcap := hs.spaces.seq_cap
  have hlen : u.mem.dseq.length = p := by rw [hu.dseq, List.length_take_of_le (by omega)]
  obtain ⟨hok, hgrowth, hexpand⟩ := expandToken_isEdge hs h
  have hpass : tokenExpandable u.acfg u.mem.dseq.length t.word = true := by rw [hu.acfg, hlen, hok]
  have hroom : u.mem.dseq.length + tokGrowth t.word ≤ u.inst.seqCap := by
    rw [hlen, hgrowth, hu.inst]
    exact hend.trans hcap
  have hexec := exec_psuExpand_ok (s := u.withToken t.word) hu.session hpass hroom
  refine ⟨_, completes_eq_some.mpr ⟨hexec, hu.fault⟩, hu.session, hu.fault, hu.inst, hu.acfg, hu.seq, ?_⟩
  show expandToken t.word u.mem.dseq = _
  rw [hu.dseq, hexpand]

/-- PSU_EXPAND of the words of a path's tokens, in order, goes on to the path's end. -/
theorem Expanded.path {s u : State} {p q : Nat} {ts : List Token} (hs : s.Inv) (hu : Expanded s p u) (h : isPath s p ts q) :
    ∃ u', expandAll (ts.map Token.word) u = some u' ∧ Expanded s q u' := by
  induction ts generalizing p u with
  | nil => exact ⟨u, rfl, h ▸ hu⟩
  | cons t ts ih =>
    obtain ⟨v, hv, hexp⟩ := hu.edge hs h.1
    obtain ⟨u', hu', hq⟩ := ih hexp h.2
    exact ⟨u', by rw [List.map_cons, expandAll, hv, Option.bind_some, hu'], hq⟩

/-- After a parse with DSEQ empty, TOK holds the words of its tokens and nothing is expanded yet. -/
theorem expanded_zero_of_parse {s t : State} (hsession : s.session = true) (hdseq : s.mem.dseq = [])
    (hparse : completes .psuParse s = some t) : t.mem.tok = (parseTokens s).map Token.word ∧ Expanded s 0 t := by
  rw [completes_eq_some, exec_psuParse hsession] at hparse
  obtain ⟨hnext, hfault⟩ := hparse
  cases hnext
  exact ⟨rfl, hsession, hfault, rfl, rfl, rfl, hdseq.trans List.take_zero.symm⟩

/-- Settles O40: the parse is a path from 0 to the end of SEQ, and each PSU_EXPAND appends the symbols its token spans. -/
theorem parseThenExpandReproducesSeq : Obligations.ParseThenExpandReproducesSeq := by
  intro s t hs hsession hdseq hparse
  obtain ⟨htok, hstart⟩ := expanded_zero_of_parse hsession hdseq hparse
  obtain ⟨u, hu, hexp⟩ := hstart.path hs (parseTokens_keptPath hs.config.minlen_pos).isPath
  exact ⟨u, by rw [htok, hu], hexp.dseq.trans List.take_length, hexp.seq⟩

end Sys2Proof.Machine
end

section
/-! PROOFS. The encoder's steps and the nested interval: a legal triple's sub-range lies in the interval, so the carry always finds its byte, each step narrows the code value's interval, and no command raises CARRY_OVERFLOW (43_range_coder.md R201 to R210). -/

namespace Sys2Proof.Machine

/-! ### The width of a sub-range -/

/-- A legal triple's sub-range lies within the interval (43_range_coder.md R205). -/
theorem scaled_cum_add_scaled_freq_le {p : Params} {t : Triple} (ht : t.legal p) (range : Nat) :
    scaled p range t.cum t.total + scaled p range t.freq t.total ≤ range := by
  obtain ⟨htotal, -, -, hsum⟩ := ht
  exact (scaled_add_le p range t.total t.cum t.freq).trans (scaled_le_range p range hsum htotal)

/-- N_BYTES - 1 rounds bring every positive width to FLOOR (43_range_coder.md R205). -/
theorem floor_le_mul_pow_pred (p : Params) {r : Nat} (hr : 1 ≤ r) : p.floor ≤ r * 2 ^ (8 * (p.nBytes - 1)) := by
  have hfloor := p.floor_succ
  have hbits : p.bits - 8 = 8 * (p.nBytes - 1) := by rw [Params.bits, Nat.mul_sub]
  rw [hbits] at hfloor
  exact (Nat.le_of_succ_le hfloor.le).trans (Nat.le_mul_of_pos_left _ hr)

/-- Settles O43: the two scaled parts of a legal triple fit in the range, and FLOOR is below the width of N_BYTES - 1 bytes. -/
theorem widthLemma : Obligations.WidthLemma := by
  intro p range t hfloor ht _
  dsimp only
  have hr : 1 ≤ scaled p range t.freq t.total :=
    scaled_pos (s := { State.resetOf p Env.idle with rc := { Coder.reset p with range := range } }) hfloor ht
  exact ⟨hr, scaled_cum_add_scaled_freq_le ht range, p.nBytes - 1, le_refl _, floor_le_mul_pow_pred p hr⟩

/-- The least number of rounds that reaches FLOOR is the model's (43_range_coder.md R207). -/
theorem renormCount_eq_some {p : Params} {r e : Nat} (hr : 1 ≤ r) (hfloor : p.floor ≤ r * 2 ^ (8 * e))
    (hmin : ∀ e' < e, r * 2 ^ (8 * e') < p.floor) : renormCount p r = some e := by
  refine leastShift_eq_some.mpr ⟨?_, hfloor, hmin⟩
  by_contra hgt
  have hn := p.nBytes_legal.1
  exact absurd (floor_le_mul_pow_pred p hr) (hmin (p.nBytes - 1) (by omega)).not_ge

/-! ### The encoder between commands -/

theorem codeValue_of_inst {s u : State} (h : u.inst = s.inst) : codeValue u = bigEndian u.mem.obuf * s.inst.modulus + u.rc.low := by
  rw [codeValue, h]

/-- The coder's registers are in range, and the code value's interval lies within the bytes emitted (43_range_coder.md R206). -/
structure EncoderOk (s : State) : Prop where
  coder : CoderOk s
  nested : codeValue s + s.rc.range ≤ 2 ^ (8 * s.mem.obuf.length) * s.inst.modulus

theorem encoderOk_of_intervalOk {s : State} (hm : s.mode = .encode) (hc : CoderOk s) (hi : IntervalOk s) : EncoderOk s := ⟨hc, hi.nested hm⟩

theorem EncoderOk.intervalOk {s : State} (hs : EncoderOk s) (hm : s.mode = .encode) : IntervalOk s :=
  ⟨fun _ => hs.nested, fun h => absurd (hm.symm.trans h) nofun⟩

/-- A sum below the end of the interval has no carry out of OBUF: the carry finds a byte that is not 0xFF (43_range_coder.md R206). -/
theorem EncoderOk.addCarry_eq_some {s : State} (hs : EncoderOk s) {v : Nat} (hv : v < s.rc.range) :
    ∃ u, addCarry s v = some u ∧
      u = { s with mem := { s.mem with obuf := u.mem.obuf }, rc := { s.rc with low := (s.rc.low + v) % s.inst.modulus } } ∧
      u.mem.obuf.length = s.mem.obuf.length ∧ codeValue u = codeValue s + v := by
  have hspec := addCarry_spec s v hs.coder.low_lt (hv.trans hs.coder.range_lt)
  cases hc : addCarry s v with
  | some u =>
    rw [hc] at hspec
    exact ⟨u, rfl, hspec⟩
  | none =>
    rw [hc] at hspec
    have := hs.nested
    omega

/-! ### The encode step -/

/-- u is s after a step that adds a to the code value, narrows the range to r, and emits e bytes (43_range_coder.md R207). -/
structure Narrowed (s : State) (a r e : Nat) (u : State) : Prop where
  frame : u = { s with mem := { s.mem with obuf := u.mem.obuf }, rc := { s.rc with low := u.rc.low, range := r * 2 ^ (8 * e) } }
  length : u.mem.obuf.length = s.mem.obuf.length + e
  low_lt : u.rc.low < s.inst.modulus
  value : codeValue u = (codeValue s + a) * 2 ^ (8 * e)

theorem Narrowed.inst {s u : State} {a r e : Nat} (h : Narrowed s a r e u) : u.inst = s.inst := (congrArg State.inst h.frame).trans rfl

theorem Narrowed.range {s u : State} {a r e : Nat} (h : Narrowed s a r e u) : u.rc.range = r * 2 ^ (8 * e) :=
  (congrArg (·.rc.range) h.frame).trans rfl

/-- The narrowed interval lies within the old one, and renormalization scales both alike (43_range_coder.md R206). -/
theorem EncoderOk.narrowed {s u : State} {a r e : Nat} (hs : EncoderOk s) (har : a + r ≤ s.rc.range) (he : renormCount s.inst r = some e)
    (h : Narrowed s a r e u) : EncoderOk u := by
  obtain ⟨hfloor, hmod⟩ := renormCount_bounds (((Nat.le_add_left r a).trans har).trans_lt hs.coder.range_lt) he
  refine ⟨?_, ?_⟩
  · rw [h.frame]
    exact { hs.coder with low_lt := h.low_lt, range_lt := hmod, floor_le := hfloor }
  · rw [h.inst, h.length, h.value, h.range]
    calc (codeValue s + a) * 2 ^ (8 * e) + r * 2 ^ (8 * e) = (codeValue s + (a + r)) * 2 ^ (8 * e) := by ring
      _ ≤ 2 ^ (8 * s.mem.obuf.length) * s.inst.modulus * 2 ^ (8 * e) :=
        Nat.mul_le_mul_right _ ((Nat.add_le_add_left har _).trans hs.nested)
      _ = 2 ^ (8 * (s.mem.obuf.length + e)) * s.inst.modulus := by rw [Nat.mul_add, Nat.pow_add]; ring

/-- A legal triple passes its checks; with f < T only the room in OBUF is left to check (43_range_coder.md R207). -/
theorem EncoderOk.encStep_eq {s : State} (hs : EncoderOk s) {t : Triple} (ht : t.legal s.inst) (hf : t.freq ≠ t.total) {e : Nat}
    (he : renormCount s.inst (scaled s.inst s.rc.range t.freq t.total) = some e) :
    ∃ u, encStep t s = require (decide (s.mem.obuf.length + e ≤ s.inst.obufCap)) .rcOutFull s.mem.obuf.length s (.ok u) ∧
      Narrowed s (scaled s.inst s.rc.range t.cum t.total) (scaled s.inst s.rc.range t.freq t.total) e u := by
  have hsum := scaled_cum_add_scaled_freq_le ht s.rc.range
  have hpos := scaled_pos hs.coder.floor_le ht
  obtain ⟨u, hu, hframe, hlen, hvalue⟩ := hs.addCarry_eq_some (v := scaled s.inst s.rc.range t.cum t.total) (by omega)
  obtain ⟨heq, hlen', hlow', hvalue'⟩ :=
    emitBytes_spec e { u with rc := { u.rc with range := scaled s.inst s.rc.range t.freq t.total } }
      (by rw [hframe]; exact Nat.mod_lt _ s.inst.modulus_pos)
  refine ⟨_, ?_, ?_, hlen'.trans (congrArg (· + e) hlen), hlow'.trans_eq (congrArg (·.inst.modulus) hframe),
    hvalue'.trans (congrArg (· * 2 ^ (8 * e)) hvalue)⟩
  · rw [encStep, requireTriple_of_legal ht, if_neg hf]
    simp only [he, hu]
  · rw [heq, hframe]

theorem encStep_of_certain {s : State} {t : Triple} (ht : t.legal s.inst) (hf : t.freq = t.total) : encStep t s = .ok s := by
  rw [encStep, requireTriple_of_legal ht, if_pos hf]

/-! The three checks of a triple, each reached when those before it pass (43_range_coder.md R201). -/

section TripleChecks

variable {α : Type} {s : State} {t : Triple}

theorem requireTriple_of_badTotal (h : ¬ (1 ≤ t.total ∧ t.total ≤ s.inst.totalMax)) (rest : CmdResult α) :
    requireTriple t s rest = .raise .rcBadTriple 1 s := require_fail h _ _ _ _

theorem requireTriple_of_badFreq (htotal : 1 ≤ t.total ∧ t.total ≤ s.inst.totalMax) (h : ¬ 1 ≤ t.freq)
    (rest : CmdResult α) : requireTriple t s rest = .raise .rcBadTriple 2 s := by
  rw [requireTriple, require_pass htotal, require_fail h]

theorem requireTriple_of_badSum (htotal : 1 ≤ t.total ∧ t.total ≤ s.inst.totalMax) (hfreq : 1 ≤ t.freq)
    (h : ¬ t.cum + t.freq ≤ t.total) (rest : CmdResult α) : requireTriple t s rest = .raise .rcBadTriple 3 s := by
  rw [requireTriple, require_pass htotal, require_pass hfreq, require_fail h]

theorem requireTriple_of_not_legal (ht : ¬ t.legal s.inst) (rest : CmdResult α) :
    ∃ n, requireTriple t s rest = .raise .rcBadTriple n s := by
  by_cases htotal : 1 ≤ t.total ∧ t.total ≤ s.inst.totalMax
  · by_cases hfreq : 1 ≤ t.freq
    · exact ⟨3, requireTriple_of_badSum htotal hfreq (fun hsum => ht ⟨htotal.1, htotal.2, hfreq, hsum⟩) rest⟩
    · exact ⟨2, requireTriple_of_badFreq htotal hfreq rest⟩
  · exact ⟨1, requireTriple_of_badTotal htotal rest⟩

end TripleChecks

/-- Everything an encode step can do (43_range_coder.md R207, R208). -/
theorem EncoderOk.encStep_cases {s : State} (hs : EncoderOk s) (t : Triple) :
    (∃ n, encStep t s = .raise .rcBadTriple n s) ∨ encStep t s = .ok s ∨
    ∃ u, EncoderOk u ∧ ∃ e,
      encStep t s = require (decide (s.mem.obuf.length + e ≤ s.inst.obufCap)) .rcOutFull s.mem.obuf.length s (.ok u) := by
  by_cases ht : t.legal s.inst
  · by_cases hf : t.freq = t.total
    · exact .inr (.inl (encStep_of_certain ht hf))
    · obtain ⟨e, he⟩ := renormCount_isSome s.inst (scaled_pos hs.coder.floor_le ht)
      obtain ⟨u, hu, hn⟩ := hs.encStep_eq ht hf he
      exact .inr (.inr ⟨u, hs.narrowed (scaled_cum_add_scaled_freq_le ht _) he hn, e, hu⟩)
  · exact .inl (requireTriple_of_not_legal ht _)

theorem encStep_ends_encoderOk (t : Triple) {s : State} (hs : EncoderOk s) : (encStep t s).Ends EncoderOk EncoderOk := by
  rcases hs.encStep_cases t with ⟨n, h⟩ | h | ⟨u, hu, e, h⟩ <;> rw [h]
  · exact hs
  · exact hs
  · exact .require hs hu

theorem EncoderOk.of_encStep {s u : State} {t : Triple} (hs : EncoderOk s) (h : encStep t s = .ok u) : EncoderOk u := by
  have hends := encStep_ends_encoderOk t hs
  rwa [h] at hends

theorem exec_rcEncode {s : State} (hs : s.session = true) (hm : s.mode = .encode) (hfin : s.rcFinished = false) :
    exec .rcEncode s = finish (encStep s.opTriple s) := by
  refine (finish_withNeeds (o := .rcEncode) ⟨hs, hm⟩ _).trans ?_
  rw [requireNotFinished, hfin]
  rfl

/-- Settles O46: the step narrows the interval by the triple's scaled parts, and the number of bytes is the least that reaches FLOOR. -/
theorem encodeNarrowsTheInterval : Obligations.EncodeNarrowsTheInterval := by
  intro s e hs hsession hmode hfin ht hf
  dsimp only
  intro hfloor hmin
  have hok := encoderOk_of_intervalOk hmode hs.coder hs.interval
  have he := renormCount_eq_some (scaled_pos hs.coder.floor_le ht) hfloor hmin
  obtain ⟨u, hu, hn⟩ := hok.encStep_eq ht (Nat.ne_of_lt hf) he
  rw [exec_rcEncode hsession hmode hfin, hu]
  refine ⟨fun hfull => ?_, fun hroom => ⟨u.mem.obuf, u.rc.low, ?_, hn.length, hn.low_lt, ?_⟩⟩
  · rw [require_fail hfull.not_ge, finish_raise]
  · rw [require_pass hroom, finish_ok]
    exact congrArg (Host.Outcome.next ∘ State.complete) hn.frame
  · exact (codeValue_of_inst hn.inst).symm.trans hn.value

/-! ### The flush -/

theorem bigEndian_append_singleton (l : List Byte) (b : Byte) : bigEndian (l ++ [b]) = bigEndian l * 2 ^ 8 + b.toNat := by
  simp [bigEndian_append, bigEndian_cons]

/-- The first j bytes of low are its top 8 * j bits (43_range_coder.md R209). -/
theorem bigEndian_topBytes {n x j : Nat} (hx : x < 2 ^ (8 * n)) (hj : j ≤ n) :
    bigEndian ((List.range j).map fun k => BitVec.ofNat 8 (x / 2 ^ (8 * n - 8 * (k + 1)))) = x / 2 ^ (8 * n - 8 * j) := by
  induction j with
  | zero => exact (Nat.div_eq_of_lt hx).symm
  | succ j ih =>
    have hshift : 2 ^ (8 * n - 8 * j) = 2 ^ (8 * n - 8 * (j + 1)) * 2 ^ 8 := by rw [← Nat.pow_add]; congr 1; omega
    rw [List.range_succ, List.map_append, List.map_singleton, bigEndian_append_singleton, ih (by omega), hshift, ← Nat.div_div_eq_div_mul,
      BitVec.toNat_ofNat, Nat.div_add_mod']

theorem bigEndian_lowBytes (p : Params) {low : Nat} (h : low < p.modulus) : bigEndian (lowBytes p low) = low := by
  refine (bigEndian_topBytes h (le_refl p.nBytes)).trans ?_
  rw [Nat.sub_self, Nat.pow_zero, Nat.div_one]

/-- u is s after the flush (43_range_coder.md R209). -/
structure Flushed (s u : State) : Prop where
  frame : u = { s with mem := { s.mem with obuf := u.mem.obuf }, rc := { s.rc with low := (s.rc.low + s.rc.range / 2) % s.inst.modulus }
                       rcFinished := true }
  length : u.mem.obuf.length = s.mem.obuf.length + s.inst.nBytes
  value : bigEndian u.mem.obuf = codeValue s + s.rc.range / 2

/-- The flush reads as a value strictly inside the last interval, so its N_BYTES bytes more leave room for the range (43_range_coder.md R206). -/
theorem EncoderOk.flushed {s u : State} (hs : EncoderOk s) (h : Flushed s u) : EncoderOk u := by
  obtain ⟨hframe, hlen, hvalue⟩ := h
  have hinst : u.inst = s.inst := (congrArg State.inst hframe).trans rfl
  have hrange : u.rc.range = s.rc.range := (congrArg (·.rc.range) hframe).trans rfl
  have hlow : u.rc.low < s.inst.modulus := (congrArg (·.rc.low) hframe).trans_lt (Nat.mod_lt _ s.inst.modulus_pos)
  refine ⟨?_, ?_⟩
  · rw [hframe]
    exact { hs.coder with low_lt := Nat.mod_lt _ s.inst.modulus_pos }
  · have hbelow : bigEndian u.mem.obuf + 2 ≤ 2 ^ (8 * s.mem.obuf.length) * s.inst.modulus := by
      have hfour : 4 ≤ s.inst.floor + 1 := by
        rw [s.inst.floor_succ]
        exact Nat.pow_le_pow_right (n := 2) (i := 2) (by decide) (by have := s.inst.bits_ge; omega)
      have := hs.coder.floor_le
      have := hs.nested
      omega
    rw [codeValue_of_inst hinst, hinst, hrange, hlen, Nat.mul_add 8, Nat.pow_add]
    calc bigEndian u.mem.obuf * s.inst.modulus + u.rc.low + s.rc.range
        ≤ bigEndian u.mem.obuf * s.inst.modulus + s.inst.modulus + s.inst.modulus :=
          Nat.add_le_add (Nat.add_le_add_left hlow.le _) hs.coder.range_lt.le
      _ = (bigEndian u.mem.obuf + 2) * s.inst.modulus := by ring
      _ ≤ 2 ^ (8 * s.mem.obuf.length) * s.inst.modulus * s.inst.modulus := Nat.mul_le_mul_right _ hbelow

theorem encFinish_of_addCarry {s u : State} (h : addCarry s (s.rc.range / 2) = some u) :
    encFinish s = require (decide (s.mem.obuf.length + s.inst.nBytes ≤ s.inst.obufCap)) .rcOutFull s.mem.obuf.length s
      (.ok { u with mem := { u.mem with obuf := u.mem.obuf ++ lowBytes s.inst u.rc.low }, rcFinished := true }) := by
  rw [encFinish, h]

theorem EncoderOk.encFinish_eq {s : State} (hs : EncoderOk s) :
    ∃ u, encFinish s = require (decide (s.mem.obuf.length + s.inst.nBytes ≤ s.inst.obufCap)) .rcOutFull s.mem.obuf.length s (.ok u) ∧
      Flushed s u := by
  have hhalf : s.rc.range / 2 < s.rc.range := Nat.div_lt_self (s.inst.floor_pos.trans_le hs.coder.floor_le) (by decide)
  obtain ⟨u, hu, hframe, hlen, hvalue⟩ := hs.addCarry_eq_some hhalf
  have hlow : u.rc.low < s.inst.modulus := (congrArg (·.rc.low) hframe).trans_lt (Nat.mod_lt _ s.inst.modulus_pos)
  have hinst : u.inst = s.inst := (congrArg State.inst hframe).trans rfl
  refine ⟨_, encFinish_of_addCarry hu, ?_, ?_, ?_⟩
  · rw [hframe]
  · rw [List.length_append, length_lowBytes, hlen]
  · rw [bigEndian_append, length_lowBytes, bigEndian_lowBytes _ hlow, ← hvalue, codeValue_of_inst hinst]
    rfl

theorem encFinish_ends_encoderOk {s : State} (hs : EncoderOk s) : (encFinish s).Ends EncoderOk EncoderOk := by
  obtain ⟨u, hu, hflush⟩ := hs.encFinish_eq
  rw [hu]
  exact .require hs (hs.flushed hflush)

theorem exec_rcFinish {s : State} (hs : s.session = true) (hm : s.mode = .encode) (hfin : s.rcFinished = false) :
    exec .rcFinish s = finish (encFinish s) := by
  refine (finish_withNeeds (o := .rcFinish) ⟨hs, hm⟩ _).trans ?_
  rw [requireNotFinished, hfin]
  rfl

/-- Settles O47: the carry adds half the range, and the bytes of low after OBUF make up the code value. -/
theorem finishFlushesTheCodeValue : Obligations.FinishFlushesTheCodeValue := by
  intro s hs hsession hmode hfin
  dsimp only
  obtain ⟨u, hu, hframe, hlen, hvalue⟩ := (encoderOk_of_intervalOk hmode hs.coder hs.interval).encFinish_eq
  rw [exec_rcFinish hsession hmode hfin, hu]
  refine ⟨fun hfull => ?_, fun hroom => ⟨u.mem.obuf, ?_, hlen, hvalue⟩⟩
  · rw [require_fail hfull.not_ge, finish_raise]
  · rw [require_pass hroom, finish_ok]
    exact congrArg (Host.Outcome.next ∘ State.complete) hframe

end Sys2Proof.Machine
end

section
/-! PROOFS. Every step keeps the encoder's nested interval, and no command of a state in it raises CARRY_OVERFLOW; then the checks of a triple and the skip rule, which both directions share (43_range_coder.md R201, R206, R208, R213). -/

namespace Sys2Proof.Machine

/-! ### The nested interval -/

theorem IntervalOk.congr {s u : State} (hinst : u.inst = s.inst) (hmode : u.mode = s.mode) (hlow : u.rc.low = s.rc.low)
    (hrange : u.rc.range = s.rc.range) (hobuf : u.mem.obuf = s.mem.obuf) (h : IntervalOk s) : IntervalOk u := by
  obtain ⟨⟩ := h
  constructor <;> simp only [codeValue, hinst, hmode, hlow, hrange, hobuf] <;> assumption

theorem intervalOk_ofCorePart : OfCorePart IntervalOk := fun _ _ h =>
  .congr h.inst h.mode (congrArg Coder.low h.rc) (congrArg Coder.range h.rc) (congrArg Memory.obuf h.mem)

/-- A new session has no output, and its interval is [0, 2^B - 1) (43_range_coder.md R206). -/
theorem intervalOk_of_reset {s : State} (hobuf : s.mem.obuf = []) (hrc : s.rc = Coder.reset s.inst) : IntervalOk s := by
  refine ⟨fun _ => ?_, fun _ => hobuf⟩
  rw [codeValue, hobuf, hrc]
  simp [Coder.reset]

/-- In decode mode only OBUF matters (43_range_coder.md R213). -/
theorem Within.intervalOk_of_decode {o : Opcode} {s u : State} (h : Within o s u) (ho : o ≠ .init) (hout : .outLen ∉ writtenRegs o)
    (hm : s.mode = .decode) (hs : IntervalOk s) : IntervalOk u :=
  ⟨fun he => absurd (he.symm.trans ((h.mode ho).trans hm)) nofun, fun _ => (h.obuf hout).trans (hs.no_output hm)⟩

theorem Within.intervalOk {o : Opcode} {s u : State} (h : Within o s u) (ho : o ≠ .init)
    (hw : ∀ r ∈ [Reg.outLen, .rcLow, .rcRange], r ∉ writtenRegs o) (hs : IntervalOk s) : IntervalOk u := by
  simp only [List.forall_mem_cons] at hw
  obtain ⟨hout, hlow, hrange, -⟩ := hw
  exact hs.congr h.inst (h.mode ho) (h.low hlow) (h.range hrange) (h.obuf hout)

/-- The work of a command of an encode session, where it keeps the encoder. -/
theorem StaysWithin.ends_intervalOk {o : Opcode} {s : State} {x : CmdResult State} (hw : StaysWithin o s x) (ho : o ≠ .init)
    (hm : s.mode = .encode) (hx : x.Ends EncoderOk EncoderOk) : x.Ends IntervalOk IntervalOk := by
  cases x with
  | ok u => exact EncoderOk.intervalOk hx ((Within.mode hw ho).trans hm)
  | raise f n u => exact EncoderOk.intervalOk hx ((Within.mode hw ho).trans hm)
  | stuck r => trivial

theorem encoderOk_escapeOnce {s : State} (hs : EncoderOk s) : EncoderOk (escapeOnce s) := ⟨{ hs.coder with }, hs.nested⟩

theorem encodeLoop_ends_encoderOk (sym n : Nat) {s : State} (hs : EncoderOk s) : (encodeLoop sym n s).Ends EncoderOk EncoderOk :=
  encodeLoop_ends (I := fun _ => EncoderOk) (fun _ t _ => encStep_ends_encoderOk t) (fun _ _ => encoderOk_escapeOnce) (fun _ _ => id) sym hs

/-- The encode commands keep the interval in an encode session, the decode commands leave OBUF empty in a decode session, and the others bear on neither. -/
theorem workKeeps_intervalOk (i : Instr) {s : State} (hc : CoderOk s) (hs : IntervalOk s) : WorkKeeps IntervalOk i s := by
  cases i with
  | init m => exact ⟨_, rfl, .withNeeds hs (requireConfig_ends hs (.ok (intervalOk_of_reset rfl rfl)))⟩
  | rcEncode =>
    have hw : StaysWithin .rcEncode s (encStep s.opTriple s) := encStep_staysWithin (by decide) (by decide) (by decide) _ s
    exact ⟨_, rfl, .withNeeds_met hs fun hm => .require hs
      (hw.ends_intervalOk nofun hm.2 (encStep_ends_encoderOk _ (encoderOk_of_intervalOk hm.2 hc hs)))⟩
  | rcFinish =>
    exact ⟨_, rfl, .withNeeds_met hs fun hm => .require hs
      ((encFinish_staysWithin s).ends_intervalOk nofun hm.2 (encFinish_ends_encoderOk (encoderOk_of_intervalOk hm.2 hc hs)))⟩
  | ppmEncode sym =>
    have hw := encodeLoop_staysWithin sym (ordersLeft s) s
    exact ⟨_, rfl, .withNeeds_met hs fun hm => .require hs (.require hs (.require hs (.require hs (.require hs (.andThen
      (hw.ends_intervalOk nofun hm.2 (encodeLoop_ends_encoderOk sym _ (encoderOk_of_intervalOk hm.2 hc hs)))
      fun _ hu => .ok { hu with })))))⟩
  | rcDecode =>
    have hw : StaysWithin .rcDecode s (decStep s.opTriple s) := decStep_staysWithin (by decide) (by decide) (by decide) (by decide) _ s
    have hkeep {u : State} (hm : s.mode = .decode) (hu : Within .rcDecode s u) : IntervalOk u :=
      hu.intervalOk_of_decode nofun (by decide) hm hs
    exact ⟨_, rfl, .withNeeds_met hs fun hm => .require hs (hw.mono (fun _ => hkeep hm.2) fun _ => hkeep hm.2)⟩
  | ppmDecode =>
    have hkeep {u : State} (hm : s.mode = .decode) (hu : Within .ppmDecode s u) : IntervalOk u :=
      hu.intervalOk_of_decode nofun (by decide) hm hs
    exact ⟨_, rfl, .withNeeds_met hs fun hm => .require hs (.require hs (.require hs (.andThen
      ((decodeLoop_staysWithin _ s).mono (fun _ => hkeep hm.2) fun _ => hkeep hm.2)
      fun _ (hu : IntervalOk _) => .require hu (.ok { hu with }))))⟩
  | _ => exact workKeeps_of_within fun u hu => hu.intervalOk nofun (by simp [writtenRegs, Instr.opcode]) hs

/-- Settles O28: an encode command keeps the code value's interval within the bytes emitted, and no other command moves it but INIT, which opens a new one. -/
theorem stepKeepsNestedInterval : Obligations.StepKeepsNestedInterval := by
  intro s t _ hcoder hs h
  rcases step_cases_core h with hst | ⟨env, rfl⟩ | ⟨i, hx⟩
  · exact intervalOk_ofCorePart s t hst hs
  · exact intervalOk_of_reset rfl rfl
  · obtain ⟨x, hxf, hends⟩ := workKeeps_intervalOk i (s := s.takeTurn) { hcoder with } { hs with }
    rcases finish_eq_next.mp (hxf ▸ hx) with ⟨u, rfl, rfl⟩ | ⟨f, n, u, rfl, rfl⟩
    · exact intervalOk_ofCorePart u _ (sameCorePart_complete u) hends
    · exact intervalOk_ofCorePart u _ (sameCorePart_takeFault u f n) hends

/-! ### The fault codes a command does not raise -/

/-- The work does not raise code c: Q holds of the value it goes on with, and a raise is of another code, where no fault is recorded yet. -/
def CmdResult.Avoids {α : Type} (c : FaultCode) (Q : α → Prop) : CmdResult α → Prop
  | .ok a => Q a
  | .raise f _ s => f ≠ c ∧ s.fault = none
  | .stuck _ => True

namespace CmdResult.Avoids

variable {α β : Type} {c : FaultCode} {Q : α → Prop}

theorem require {b : Bool} {f : FaultCode} {n : Nat} {s : State} {rest : CmdResult α} (hs : s.fault = none) (h : rest.Avoids c Q)
    (hf : f ≠ c := by decide) : (require b f n s rest).Avoids c Q := by
  cases b with
  | true => exact h
  | false => exact ⟨hf, hs⟩

/-- After the checks of its needs, a command's needs are met. -/
theorem withNeeds {o : Opcode} {s : State} {rest : CmdResult α} (hs : s.fault = none) (h : (needsOf o).met s → rest.Avoids c Q)
    (hc : c ∉ [FaultCode.noSession, .mode] := by decide) : (withNeeds o s rest).Avoids c Q := by
  simp only [List.mem_cons, List.not_mem_nil, or_false, not_or] at hc
  rcases withNeeds_cases o s rest with ⟨hm, he⟩ | ⟨_, _, he⟩ | ⟨_, _, he⟩ <;> rw [he]
  · exact h hm
  · exact ⟨Ne.symm hc.1, hs⟩
  · exact ⟨Ne.symm hc.2, hs⟩

theorem andThen {R : β → Prop} {x : CmdResult α} {f : α → CmdResult β} (hx : x.Avoids c Q)
    (hf : ∀ a, x = .ok a → Q a → (f a).Avoids c R) : (x.andThen f).Avoids c R := by
  cases x with
  | ok a => exact hf a rfl hx
  | raise g n s => exact hx
  | stuck r => trivial

/-- From what is known of the two ways to end. -/
theorem of_cases {x : CmdResult α} (hok : ∀ a, x = .ok a → Q a) (hraise : ∀ f n s, x = .raise f n s → f ≠ c ∧ s.fault = none) :
    x.Avoids c Q := by
  cases x with
  | ok a => exact hok a rfl
  | raise f n s => exact hraise f n s rfl
  | stuck r => trivial

/-- A command whose work avoids a code does not record it (60_exceptions.md R303). -/
theorem finish_fault_ne {x : CmdResult State} {t : State} (hx : x.Avoids c (·.fault = none)) (h : finish x = .next t) : t.fault ≠ some c := by
  rcases finish_eq_next.mp h with ⟨u, rfl, rfl⟩ | ⟨f, n, u, rfl, rfl⟩
  · exact fun hc => absurd (hx.symm.trans hc) nofun
  · obtain ⟨hf, hu⟩ := hx
    rw [State.takeFault_of_none hu]
    exact fun hc => hf (Option.some.inj hc)

end CmdResult.Avoids

theorem CoderFrame.fault {s u : State} (h : CoderFrame s u) : u.fault = s.fault := (congrArg State.fault h).trans rfl

theorem LoopFrame.fault {s u : State} (h : LoopFrame s u) : u.fault = s.fault := (congrArg State.fault h).trans rfl

/-- No step of the encoder's interval raises CARRY_OVERFLOW (43_range_coder.md R206). -/
theorem EncoderOk.encStep_avoids {s : State} (hs : EncoderOk s) (hf : s.fault = none) (t : Triple) :
    (encStep t s).Avoids .carryOverflow (·.fault = none) := by
  refine .of_cases (fun u h => (encStep_frame h).fault.trans hf) fun f n u h => ?_
  obtain ⟨rfl, -⟩ := encStep_raise h
  refine ⟨?_, hf⟩
  rintro rfl
  rcases hs.encStep_cases t with ⟨m, he⟩ | he | ⟨v, -, e, he⟩ <;> rw [he] at h
  · cases h
  · cases h
  · rcases require_eq_raise.mp h with ⟨_, hcode, _⟩ | ⟨_, hok⟩
    · cases hcode
    · cases hok

theorem EncoderOk.encFinish_avoids {s : State} (hs : EncoderOk s) (hf : s.fault = none) : (encFinish s).Avoids .carryOverflow (·.fault = none) := by
  obtain ⟨u, hu, hflush⟩ := hs.encFinish_eq
  rw [hu]
  exact .require hf (((congrArg State.fault hflush.frame).trans rfl).trans hf)

/-- Every step of the encode loop leaves the next one in the interval (44_frequency_model.md R260). -/
theorem EncoderOk.encodeLoop_avoids {s : State} (hs : EncoderOk s) (hf : s.fault = none) (sym n : Nat) :
    (encodeLoop sym n s).Avoids .carryOverflow (·.fault = none) := by
  induction n generalizing s with
  | zero => exact hs.encStep_avoids hf _
  | succ k ih =>
    unfold encodeLoop
    split
    · exact .andThen (hs.encStep_avoids hf _) fun u hu hfu => ih (encoderOk_escapeOnce (hs.of_encStep hu)) hfu
    · exact hs.encStep_avoids hf _

theorem decStep_avoids {s : State} (hf : s.fault = none) (t : Triple) : (decStep t s).Avoids .carryOverflow (·.fault = none) := by
  refine .of_cases (fun u h => (decStep_coderFrame h).fault.trans hf) fun f n u h => ?_
  obtain ⟨rfl, hcode⟩ := decStep_raise h
  exact ⟨fun he => absurd (he ▸ hcode) (by decide), hf⟩

theorem decodeLoop_avoids {s : State} (hf : s.fault = none) (n : Nat) : (decodeLoop n s).Avoids .carryOverflow (·.2.fault = none) := by
  refine .of_cases (fun r h => (decodeLoop_frame h).fault.trans hf) fun f n u h => ?_
  obtain ⟨hframe, hcode⟩ := decodeLoop_raise h
  exact ⟨fun he => absurd (he ▸ hcode) (by decide), hframe.fault.trans hf⟩

theorem withCostEntry_avoids {s : State} (hf : s.fault = none) (table index : Nat) {rest : CostSel → CmdResult State}
    (h : ∀ sel, (rest sel).Avoids .carryOverflow (·.fault = none)) :
    (withCostEntry table index s rest).Avoids .carryOverflow (·.fault = none) := by
  unfold withCostEntry
  split
  · exact ⟨nofun, hf⟩
  · next sel _ => exact .require hf (h sel)

/-- No command's work raises CARRY_OVERFLOW: only the encoder's can, and in its interval a carry finds its byte. -/
theorem exec_avoids_carryOverflow (i : Instr) {s : State} (hf : s.fault = none) (hs : s.mode = .encode → EncoderOk s) :
    ∃ x, exec i s = finish x ∧ x.Avoids .carryOverflow (·.fault = none) := by
  cases i
  case nop => exact ⟨.ok s, rfl, hf⟩
  all_goals refine ⟨_, rfl, .withNeeds hf fun hm => ?_⟩
  case psuParse | ppmNumden => exact hf
  case stmQuery | stmRead | psuToken | psuDread | rcOutbyte | ppmHasesc | ppmCdf | ppmIcdf | ppmEscape => exact .require hf hf
  case stmPush | psuExpand | rcInbyte | rcDstart | rcFetch => exact .require hf (.require hf hf)
  case ppmUpdate => exact .require hf (.require hf (.require hf hf))
  case init => exact .require hf (.require hf (.require hf (.require hf (.require hf hf))))
  case psuSetcost => exact withCostEntry_avoids hf _ _ fun _ => .require hf hf
  case psuGetcost => exact withCostEntry_avoids hf _ _ fun _ => hf
  case rcEncode => exact .require hf ((hs hm.2).encStep_avoids hf _)
  case rcFinish => exact .require hf ((hs hm.2).encFinish_avoids hf)
  case rcDecode => exact .require hf (decStep_avoids hf _)
  case ppmEncode sym =>
    exact .require hf (.require hf (.require hf (.require hf (.require hf
      (.andThen ((hs hm.2).encodeLoop_avoids hf sym _) fun _ _ hu => hu)))))
  case ppmDecode =>
    exact .require hf (.require hf (.require hf (.andThen (decodeLoop_avoids hf _) fun _ _ hu => .require hu hu)))

/-- Settles O30: every encode command starts in the nested interval, where a carry finds a byte that is not 0xFF. -/
theorem carryOverflowNeverOccurs : Obligations.CarryOverflowNeverOccurs := by
  intro i s t hs hf h
  obtain ⟨x, hx, havoids⟩ := exec_avoids_carryOverflow i hf fun hm => encoderOk_of_intervalOk hm hs.coder hs.interval
  exact havoids.finish_fault_ne (hx ▸ h)

/-! ### The checks of a triple -/

theorem exec_rcDecode {s : State} (hs : s.session = true) (hm : s.mode = .decode) (hready : s.rcDecReady = true) :
    exec .rcDecode s = finish (decStep s.opTriple s) := by
  refine (finish_withNeeds (o := .rcDecode) ⟨hs, hm⟩ _).trans ?_
  rw [requireStarted, hready]
  rfl

/-- A legal triple raises no RC_BAD_TRIPLE in RC_ENCODE (43_range_coder.md R207). -/
theorem encStep_avoids_badTriple {s : State} {t : Triple} (ht : t.legal s.inst) (hf : s.fault = none) :
    (encStep t s).Avoids .rcBadTriple (·.fault = none) := by
  rw [encStep, requireTriple_of_legal ht]
  split
  · exact hf
  · simp only
    split
    · trivial
    · next e _ =>
      split
      · exact ⟨nofun, hf⟩
      · next u hu => exact .require hf ((emitBytes_frame e _).fault.trans ((addCarry_frame hu).fault.trans hf))

/-- A legal triple raises no RC_BAD_TRIPLE in RC_DECODE (43_range_coder.md R211). -/
theorem decStep_avoids_badTriple {s : State} {t : Triple} (ht : t.legal s.inst) (hf : s.fault = none) :
    (decStep t s).Avoids .rcBadTriple (·.fault = none) := by
  rw [decStep, requireTriple_of_legal ht]
  split
  · exact hf
  · refine .require hf ?_
    split
    · trivial
    · next e _ => exact .require hf (((congrArg State.fault (takeBytes_frame e _).1).trans rfl).trans hf)

/-- In both directions a step is the checks of the latched triple, and then work that avoids their code (43_range_coder.md R207, R211). -/
theorem exec_coderStep {i : Instr} {s : State} (hs : s.session = true)
    (h : (i = .rcEncode ∧ s.mode = .encode ∧ s.rcFinished = false) ∨ (i = .rcDecode ∧ s.mode = .decode ∧ s.rcDecReady = true)) :
    ∃ rest, exec i s = finish (requireTriple s.opTriple s rest) ∧
      (s.opTriple.legal s.inst → s.fault = none → (requireTriple s.opTriple s rest).Avoids .rcBadTriple (·.fault = none)) := by
  rcases h with ⟨rfl, hm, hfin⟩ | ⟨rfl, hm, hready⟩
  · exact ⟨_, exec_rcEncode hs hm hfin, encStep_avoids_badTriple⟩
  · exact ⟨_, exec_rcDecode hs hm hready, decStep_avoids_badTriple⟩

/-- Settles O44: both commands begin with the three checks of the triple, and go on to work that raises other faults only. -/
theorem illegalTriplesFaultInOrder : Obligations.IllegalTriplesFaultInOrder := by
  intro i s hs h
  dsimp only
  obtain ⟨rest, hexec, havoids⟩ := exec_coderStep hs h
  rw [hexec]
  refine ⟨fun htotal => ?_, fun htotal hfreq => ?_, fun htotal hfreq hsum => ?_, fun htotal hfreq hsum hf t ht => ?_⟩
  · rw [requireTriple_of_badTotal htotal, finish_raise]
  · rw [requireTriple_of_badFreq htotal (Nat.not_le.mpr (Nat.lt_one_iff.mpr hfreq)), finish_raise]
  · rw [requireTriple_of_badSum htotal hfreq hsum.not_ge, finish_raise]
  · exact (havoids ⟨htotal.1, htotal.2, hfreq, hsum⟩ hf).finish_fault_ne ht

/-! ### The skip rule -/

theorem decStep_of_certain {s : State} {t : Triple} (ht : t.legal s.inst) (hf : t.freq = t.total) : decStep t s = .ok s := by
  rw [decStep, requireTriple_of_legal ht, if_pos hf]

/-- Settles O45: both steps end after the checks of the triple. -/
theorem certainStepsAreSkipped : Obligations.CertainStepsAreSkipped := by
  intro s hs ht hf
  have hcertain : s.opTriple.freq = s.opTriple.total := congrArg BitVec.toNat hf
  refine ⟨fun hm hfin => ?_, fun hm hready => ?_⟩
  · rw [exec_rcEncode hs hm hfin, encStep_of_certain ht hcertain, finish_ok]
  · rw [exec_rcDecode hs hm hready, decStep_of_certain ht hcertain, finish_ok]

end Sys2Proof.Machine
end

section
/-! PROOFS. The decoder: RC_DSTART reads the first bytes big-endian, the fetch finds the largest value and with it the triple's bucket, and RC_DECODE narrows the interval and refills the window (43_range_coder.md R211, R215 to R218). -/

namespace Sys2Proof.Machine

/-! ### The start -/

theorem exec_rcDstart {s : State} (hs : s.session = true) (hm : s.mode = .decode) (hready : s.rcDecReady = false) :
    exec .rcDstart s = finish (require (decide (s.inst.nBytes ≤ s.mem.ibuf.length)) .rcInUnderrun s.rc.inPtr s <|
      .ok { s with
        rc := { s.rc with data := bigEndian (s.mem.ibuf.take s.inst.nBytes), inPtr := s.inst.nBytes }
        rcDecReady := true }) := by
  refine (finish_withNeeds (o := .rcDstart) ⟨hs, hm⟩ _).trans ?_
  rw [hready]
  rfl

/-- The big-endian value of the first j bytes, the weights of all n still ahead of them (43_range_coder.md R215). -/
theorem sumBelow_bytes {l : List Byte} {n j : Nat} (hj : j ≤ n) (hn : n ≤ l.length) :
    sumBelow (fun k => (readAt l k).toNat * 2 ^ (8 * n - 8 * (k + 1))) j = bigEndian (l.take j) * 2 ^ (8 * n - 8 * j) := by
  induction j with
  | zero => simp [sumBelow]
  | succ j ih =>
    have hshift : 2 ^ (8 * n - 8 * j) = 2 ^ 8 * 2 ^ (8 * n - 8 * (j + 1)) := by rw [← Nat.pow_add]; congr 1; omega
    rw [sumBelow, ih (by omega), ← take_append_readAt (by omega), bigEndian_append_singleton, hshift]
    ring

theorem sumBelow_bytes_all {l : List Byte} {n : Nat} (hn : n ≤ l.length) :
    sumBelow (fun k => (readAt l k).toNat * 2 ^ (8 * n - 8 * (k + 1))) n = bigEndian (l.take n) := by
  rw [sumBelow_bytes (le_refl n) hn, Nat.sub_self, Nat.pow_zero, Nat.mul_one]

/-- Settles O48: the window is the big-endian value of the first N_BYTES bytes, which is the sum of its bytes by weight. -/
theorem dstartReadsBigEndian : Obligations.DstartReadsBigEndian := by
  intro s hs hm hready
  rw [exec_rcDstart hs hm hready]
  refine ⟨fun hshort => ?_, fun hlen => ?_⟩
  · rw [require_fail hshort.not_ge, finish_raise]
  · rw [require_pass hlen, finish_ok, sumBelow_bytes_all hlen]

/-! ### The fetch -/

theorem windowPos_eq {s : State} (h : s.rc.low < s.inst.modulus) : windowPos s = (s.rc.data + s.inst.modulus - s.rc.low) % s.inst.modulus := by
  rw [windowPos, Nat.mod_eq_of_lt h, ← Nat.add_sub_assoc h.le]

/-- The fetch is the largest value below T whose scaled value is at most v (43_range_coder.md R211). -/
theorem decFetch_spec {s : State} {total : Nat} (hpos : 1 ≤ total) (hmax : total ≤ s.inst.totalMax) :
    decFetch total s < total ∧ scaled s.inst s.rc.range (decFetch total s) total ≤ windowPos s ∧
      ∀ y, decFetch total s < y → y < total → windowPos s < scaled s.inst s.rc.range y total := by
  have hmod : total ≤ s.inst.modulus := by
    rw [s.inst.modulus_eq_totalMax]
    exact hmax.trans (Nat.le_mul_of_pos_right _ (by decide))
  obtain ⟨-, hlt, hle, hmaximal⟩ :=
    fetchBits_spec s.inst s.rc.range total (windowPos s) s.inst.bits 0 hpos ((scaled_zero _ _ _).trans_le (Nat.zero_le _))
  exact ⟨hlt, hle, fun y hy hyt => hmaximal y hy (by rw [Nat.zero_add]; exact hyt.trans_le hmod) hyt⟩

theorem exec_rcFetch {s : State} (hs : s.session = true) (hm : s.mode = .decode) (hready : s.rcDecReady = true) :
    exec .rcFetch s = finish (require (decide (1 ≤ s.opArg2 ∧ s.opArg2 ≤ s.inst.totalMax)) .rcBadTriple 1 s <|
      .ok (s.setRes0 (toWord (decFetch s.opArg2 s)))) := by
  refine (finish_withNeeds (o := .rcFetch) ⟨hs, hm⟩ _).trans ?_
  rw [requireStarted, hready]
  rfl

/-- Settles O49: RC_FETCH checks the total and reports `decFetch`, the largest value at or below the window. -/
theorem fetchFindsTheLargestValue : Obligations.FetchFindsTheLargestValue := by
  intro s hs hm hready hlow
  dsimp only
  rw [exec_rcFetch hs hm hready]
  refine ⟨fun htotal => ?_, fun htotal => ?_⟩
  · exact (congrArg finish (require_fail htotal _ _ _ _)).trans (finish_raise _ _ _)
  · obtain ⟨hlt, hle, hmaximal⟩ := decFetch_spec (s := s) htotal.1 htotal.2
    rw [windowPos_eq hlow] at hle hmaximal
    exact ⟨_, hlt, hle, hmaximal, (congrArg finish (require_pass htotal _ _ _ _)).trans (finish_ok _)⟩

/-- The window lies in a triple's sub-range (43_range_coder.md R211). -/
abbrev InSubrange (t : Triple) (s : State) : Prop :=
  scaled s.inst s.rc.range t.cum t.total ≤ windowPos s ∧
    windowPos s < scaled s.inst s.rc.range t.cum t.total + scaled s.inst s.rc.range t.freq t.total

/-- A value from c on is at or above the offset, and one from c + f on past the sub-range: so the fetch lies between (43_range_coder.md R218). -/
theorem decFetch_mem_bucket {s : State} {t : Triple} (ht : t.legal s.inst) (hw : InSubrange t s) :
    t.cum ≤ decFetch t.total s ∧ decFetch t.total s < t.cum + t.freq := by
  obtain ⟨hpos, hmax, hfreq, hsum⟩ := ht
  obtain ⟨hlo, hhi⟩ := hw
  obtain ⟨-, hle, hmaximal⟩ := decFetch_spec hpos hmax
  refine ⟨Nat.not_lt.mp fun hlt => ?_, Nat.not_le.mp fun hge => ?_⟩
  · exact absurd hlo (hmaximal t.cum hlt (by omega)).not_ge
  · have hend : scaled s.inst s.rc.range t.cum t.total + scaled s.inst s.rc.range t.freq t.total ≤ windowPos s :=
      (scaled_add_le _ _ _ _ _).trans ((scaled_mono _ _ _ hge).trans hle)
    exact absurd hhi hend.not_gt

/-- Settles O51: the bucket law of one step needs the window in the sub-range only. -/
theorem fetchFindsTheBucket : Obligations.FetchFindsTheBucket := fun _ _ ht _ hlo hhi => decFetch_mem_bucket ht ⟨hlo, hhi⟩

/-! ### The decode step -/

theorem readAt_cons_take_drop {w p e : Nat} {l : List (BitVec w)} (h : p < l.length) :
    readAt l p :: (l.drop (p + 1)).take e = (l.drop p).take (e + 1) := by
  rw [List.drop_eq_getElem_cons h, List.take_succ_cons, readAt, List.getD_eq_getElem _ _ h]

theorem shiftIn_shiftIn (m x b k r : Nat) : ((x * 2 ^ 8 % m + b) * k + r) % m = (x * (2 ^ 8 * k) + (b * k + r)) % m := by
  have h : (x * 2 ^ 8 % m + b) * k + r ≡ (x * 2 ^ 8 + b) * k + r [MOD m] :=
    (((Nat.mod_modEq (x * 2 ^ 8) m).add_right b).mul_right k).add_right r
  exact h.trans (congrArg (· % m) (by ring))

/-- Everything e taken bytes do: low and the window are shifted alike, and the window takes in the next e bytes of IBUF (43_range_coder.md R211). -/
theorem takeBytes_spec (e : Nat) {s : State} (hlow : s.rc.low < s.inst.modulus) (hdata : s.rc.data < s.inst.modulus)
    (hptr : s.rc.inPtr + e ≤ s.mem.ibuf.length) :
    takeBytes e s = { s with rc :=
      { low := s.rc.low * 2 ^ (8 * e) % s.inst.modulus
        range := s.rc.range * 2 ^ (8 * e)
        data := (s.rc.data * 2 ^ (8 * e) + bigEndian ((s.mem.ibuf.drop s.rc.inPtr).take e)) % s.inst.modulus
        inPtr := s.rc.inPtr + e } } := by
  induction e generalizing s with
  | zero => simp [takeBytes, Nat.mod_eq_of_lt hlow, Nat.mod_eq_of_lt hdata]
  | succ e ih =>
    obtain ⟨hlow', hdata'⟩ := takeBytes_lt 1 hlow hdata
    have hpow : 2 ^ (8 * (e + 1)) = 2 ^ 8 * 2 ^ (8 * e) := by rw [← Nat.pow_add]; congr 1; omega
    have hbytes : ((s.mem.ibuf.drop (s.rc.inPtr + 1)).take e).length = e := by
      rw [List.length_take, List.length_drop]; omega
    rw [takeBytes, ih (s := takeByte s) hlow' hdata' (by simp only [takeByte]; omega), ← readAt_cons_take_drop (by omega), bigEndian_cons,
      hbytes, hpow, ← shiftIn_shiftIn, ← Nat.mul_assoc, ← Nat.mul_assoc, Nat.add_comm e 1, ← Nat.add_assoc,
      ← Nat.mod_mul_mod (s.rc.low * 2 ^ 8)]
    rfl

/-- The state after a decode step of offset a and width r that refills e bytes (43_range_coder.md R211). -/
def State.refilled (s : State) (a r e : Nat) : State :=
  { s with rc :=
    { low := (s.rc.low + a) * 2 ^ (8 * e) % s.inst.modulus
      range := r * 2 ^ (8 * e)
      data := (s.rc.data * 2 ^ (8 * e) + bigEndian ((s.mem.ibuf.drop s.rc.inPtr).take e)) % s.inst.modulus
      inPtr := s.rc.inPtr + e } }

theorem takeBytes_eq_refilled {s : State} (hdata : s.rc.data < s.inst.modulus) (a r : Nat) {e : Nat}
    (hptr : s.rc.inPtr + e ≤ s.mem.ibuf.length) :
    takeBytes e { s with rc := { s.rc with low := (s.rc.low + a) % s.inst.modulus, range := r } } = s.refilled a r e := by
  have h := takeBytes_spec e (s := { s with rc := { s.rc with low := (s.rc.low + a) % s.inst.modulus, range := r } })
    (Nat.mod_lt _ s.inst.modulus_pos) hdata hptr
  rw [h, Nat.mod_mul_mod, State.refilled]

section DecodeStep

variable {s : State} {t : Triple} {e : Nat}

/-- A legal triple passes its checks; with f < T the window and the bytes left are still to check (43_range_coder.md R211). -/
theorem decStep_eq (ht : t.legal s.inst) (hf : t.freq ≠ t.total) (he : renormCount s.inst (scaled s.inst s.rc.range t.freq t.total) = some e) :
    decStep t s = require (decide (InSubrange t s)) .rcDesync (windowPos s) s
      (require (decide (s.rc.inPtr + e ≤ s.mem.ibuf.length)) .rcInUnderrun s.rc.inPtr s
        (.ok (takeBytes e { s with rc := { s.rc with
          low := (s.rc.low + scaled s.inst s.rc.range t.cum t.total) % s.inst.modulus
          range := scaled s.inst s.rc.range t.freq t.total } }))) := by
  rw [decStep, requireTriple_of_legal ht, if_neg hf]
  simp only [he]

theorem decStep_of_desync (ht : t.legal s.inst) (hf : t.freq ≠ t.total)
    (he : renormCount s.inst (scaled s.inst s.rc.range t.freq t.total) = some e) (hw : ¬ InSubrange t s) :
    decStep t s = .raise .rcDesync (windowPos s) s := by
  rw [decStep_eq ht hf he, require_fail hw]

theorem decStep_of_underrun (ht : t.legal s.inst) (hf : t.freq ≠ t.total)
    (he : renormCount s.inst (scaled s.inst s.rc.range t.freq t.total) = some e) (hw : InSubrange t s)
    (hptr : s.mem.ibuf.length < s.rc.inPtr + e) : decStep t s = .raise .rcInUnderrun s.rc.inPtr s := by
  rw [decStep_eq ht hf he, require_pass hw, require_fail hptr.not_ge]

theorem decStep_of_refill (ht : t.legal s.inst) (hf : t.freq ≠ t.total)
    (he : renormCount s.inst (scaled s.inst s.rc.range t.freq t.total) = some e) (hw : InSubrange t s)
    (hdata : s.rc.data < s.inst.modulus) (hptr : s.rc.inPtr + e ≤ s.mem.ibuf.length) :
    decStep t s = .ok (s.refilled (scaled s.inst s.rc.range t.cum t.total) (scaled s.inst s.rc.range t.freq t.total) e) := by
  rw [decStep_eq ht hf he, require_pass hw, require_pass hptr, takeBytes_eq_refilled hdata _ _ hptr]

end DecodeStep

/-- Settles O50: after the checks of the triple come those of the window and of the bytes left, and then the refill. -/
theorem decodeNarrowsAndRefills : Obligations.DecodeNarrowsAndRefills := by
  intro s e hs hsession hm hready ht hf
  dsimp only
  intro hfloor hmin
  have he := renormCount_eq_some (scaled_pos hs.floor_le ht) hfloor hmin
  have hne : s.opTriple.freq ≠ s.opTriple.total := Nat.ne_of_lt hf
  have hv : windowPos s = (s.rc.data + 2 ^ (8 * s.inst.nBytes) - s.rc.low) % 2 ^ (8 * s.inst.nBytes) := windowPos_eq hs.low_lt
  rw [exec_rcDecode hsession hm hready, ← hv]
  refine ⟨fun hout => ?_, fun hlo hhi hshort => ?_, fun hlo hhi hptr => ?_⟩
  · rw [decStep_of_desync ht hne he hout, finish_raise]
  · rw [decStep_of_underrun ht hne he ⟨hlo, hhi⟩ hshort, finish_raise]
  · rw [decStep_of_refill ht hne he ⟨hlo, hhi⟩ hs.data_lt hptr, finish_ok]
    rfl

end Sys2Proof.Machine
end

section
/-! PROOFS. The exactness and consumption laws of the range coder: the bytes a finished stream emits locate its code value in every interval of the way, so a decoder that follows the encoder finds its window in each triple's sub-range and takes the bytes the encoder emitted (43_range_coder.md R218, R219). -/

namespace Sys2Proof.Machine

/-! ### Commands that complete -/

theorem completes_of_finish {i : Instr} {s t : State} {x : CmdResult State} (hx : exec i s = finish x) (h : completes i s = some t) :
    ∃ u, x = .ok u ∧ t = u.complete ∧ u.fault = none := by
  obtain ⟨hnext, hfault⟩ := completes_eq_some.mp h
  rcases finish_eq_next.mp (hx ▸ hnext) with ⟨u, hu, rfl⟩ | ⟨f, n, u, _, rfl⟩
  · exact ⟨u, hu, rfl, hfault⟩
  · have hsome := u.takeFault_fault_isSome f n
    rw [hfault] at hsome
    cases hsome

theorem completes_of_ok {i : Instr} {s u : State} (hx : exec i s = finish (.ok u)) (hu : u.fault = none) : completes i s = some u.complete :=
  completes_eq_some.mpr ⟨hx, hu⟩

theorem runTriples_append (i : Instr) (xs ys : List Triple) (s : State) :
    runTriples i (xs ++ ys) s = (runTriples i xs s).bind (runTriples i ys) := by
  induction xs generalizing s with
  | nil => rfl
  | cons x xs ih =>
    rw [List.cons_append, runTriples, runTriples, Option.bind_assoc]
    exact congrArg _ (funext ih)

/-- A legal triple's numbers fit the ARG registers (30_encoding.md R102). -/
theorem opTriple_withTriple {s : State} {t : Triple} (ht : t.legal s.inst) : (s.withTriple t).opTriple = t := by
  obtain ⟨-, hmax, -, hsum⟩ := ht
  have hbits : s.inst.bits - 16 ≤ 48 := by have := s.inst.nBytes_legal.2; rw [Params.bits]; omega
  have htotal : t.total ≤ 2 ^ 48 := hmax.trans (Nat.pow_le_pow_right (by decide) hbits)
  have hword {x : Nat} (hx : x ≤ t.total) : (toWord x).toNat = x := by
    rw [toWord, BitVec.toNat_ofNat]
    exact Nat.mod_eq_of_lt (by omega)
  simp only [State.opTriple, State.opArg0, State.opArg1, State.opArg2, State.withTriple]
  rw [hword (by omega), hword (by omega), hword (le_refl _)]

/-! ### Parameters with the same N_BYTES -/

theorem modulus_congr {p q : Params} (h : p.nBytes = q.nBytes) : p.modulus = q.modulus := by
  rw [Params.modulus, Params.modulus, Params.bits, Params.bits, h]

theorem floor_congr {p q : Params} (h : p.nBytes = q.nBytes) : p.floor = q.floor := by
  rw [Params.floor, Params.floor, Params.bits, Params.bits, h]

theorem Triple.legal_congr {p q : Params} (h : p.nBytes = q.nBytes) {t : Triple} (ht : t.legal q) : t.legal p := by
  rw [Triple.legal, Params.totalMax, Params.bits, h]
  exact ht

theorem scaled_congr {p q : Params} (h : p.nBytes = q.nBytes) (range x total : Nat) : scaled p range x total = scaled q range x total := by
  rw [scaled, scaled, mulhi, mulhi, idiv, idiv, modulus_congr h]

theorem renormCount_congr {p q : Params} (h : p.nBytes = q.nBytes) (r : Nat) : renormCount p r = renormCount q r := by
  rw [renormCount, renormCount, floor_congr h, h]

/-! ### The skip as a step of the whole range -/

/-- A certain triple's sub-range is the whole interval (43_range_coder.md R208). -/
theorem scaled_of_certain {p : Params} {t : Triple} (ht : t.legal p) (hf : t.freq = t.total) (range : Nat) :
    scaled p range t.cum t.total = 0 ∧ scaled p range t.freq t.total = range := by
  obtain ⟨hpos, -, -, hsum⟩ := ht
  have hcum : t.cum = 0 := by omega
  rw [hcum, hf]
  exact ⟨scaled_zero _ _ _, scaled_total _ _ hpos⟩

/-- A range at or above FLOOR is not renormalized. -/
theorem renormCount_of_floor_le {p : Params} {range : Nat} (h : p.floor ≤ range) : renormCount p range = some 0 :=
  renormCount_eq_some (p.floor_pos.trans_le h) (by simpa using h) nofun

/-- A step that goes on narrows the interval to the triple's sub-range; so does the skip, whose sub-range is the interval. -/
theorem EncoderOk.narrowed_of_encStep {s u : State} {t : Triple} (hs : EncoderOk s) (ht : t.legal s.inst) (h : encStep t s = .ok u) :
    ∃ e, renormCount s.inst (scaled s.inst s.rc.range t.freq t.total) = some e ∧
      Narrowed s (scaled s.inst s.rc.range t.cum t.total) (scaled s.inst s.rc.range t.freq t.total) e u := by
  by_cases hf : t.freq = t.total
  · obtain ⟨hcum, hfreq⟩ := scaled_of_certain ht hf s.rc.range
    rw [encStep_of_certain ht hf] at h
    cases h
    rw [hcum, hfreq]
    exact ⟨0, renormCount_of_floor_le hs.coder.floor_le, by simp, rfl, hs.coder.low_lt, by simp⟩
  · obtain ⟨e, he⟩ := renormCount_isSome s.inst (scaled_pos hs.coder.floor_le ht)
    obtain ⟨v, hv, hn⟩ := hs.encStep_eq ht hf he
    obtain ⟨-, hok⟩ := require_eq_ok.mp (hv.symm.trans h)
    cases hok
    exact ⟨e, he, hn⟩

/-- With the window in the sub-range and the bytes there, a step refills; so does the skip, which takes no byte. -/
theorem decStep_eq_refilled {s : State} {t : Triple} {e : Nat} (ht : t.legal s.inst) (hfloor : s.inst.floor ≤ s.rc.range)
    (hlow : s.rc.low < s.inst.modulus) (hdata : s.rc.data < s.inst.modulus)
    (he : renormCount s.inst (scaled s.inst s.rc.range t.freq t.total) = some e) (hw : InSubrange t s)
    (hptr : s.rc.inPtr + e ≤ s.mem.ibuf.length) :
    decStep t s = .ok (s.refilled (scaled s.inst s.rc.range t.cum t.total) (scaled s.inst s.rc.range t.freq t.total) e) := by
  by_cases hf : t.freq = t.total
  · obtain ⟨hcum, hfreq⟩ := scaled_of_certain ht hf s.rc.range
    rw [hfreq, renormCount_of_floor_le hfloor] at he
    cases he
    rw [decStep_of_certain ht hf, hcum, hfreq]
    simp [State.refilled, Nat.mod_eq_of_lt hlow, Nat.mod_eq_of_lt hdata]
  · exact decStep_of_refill ht hf he hw hdata hptr

/-! ### The encoder's way -/

/-- An encode session without a fault, not finished. -/
structure Encoding (s : State) : Prop where
  session : s.session = true
  mode : s.mode = .encode
  unfinished : s.rcFinished = false
  fault : s.fault = none
  ok : EncoderOk s

/-- f is e after the triple t is encoded: the code value's interval narrows to the sub-range of t, and n bytes are emitted (43_range_coder.md R207). -/
structure Encoded (t : Triple) (n : Nat) (e f : State) : Prop where
  inst : f.inst = e.inst
  renorm : renormCount e.inst (scaled e.inst e.rc.range t.freq t.total) = some n
  length : f.mem.obuf.length = e.mem.obuf.length + n
  value : codeValue f = (codeValue e + scaled e.inst e.rc.range t.cum t.total) * 2 ^ (8 * n)
  range : f.rc.range = scaled e.inst e.rc.range t.freq t.total * 2 ^ (8 * n)

theorem EncoderOk.complete {s : State} (hs : EncoderOk s) : EncoderOk s.complete := ⟨{ hs.coder with }, hs.nested⟩

theorem Encoding.withTriple {s : State} (hs : Encoding s) (t : Triple) : Encoding (s.withTriple t) :=
  { hs with ok := ⟨{ hs.ok.coder with }, hs.ok.nested⟩ }

theorem Encoding.step {e f : State} {t : Triple} (he : Encoding e) (ht : t.legal e.inst)
    (h : completes .rcEncode (e.withTriple t) = some f) : Encoding f ∧ ∃ n, Encoded t n e f := by
  have hs := he.withTriple t
  obtain ⟨u, hu, rfl, hfault⟩ := completes_of_finish (exec_rcEncode hs.session hs.mode hs.unfinished) h
  rw [opTriple_withTriple ht] at hu
  obtain ⟨n, hn, hnarrow⟩ := hs.ok.narrowed_of_encStep ht hu
  have hsession : u.session = e.session := (congrArg State.session hnarrow.frame).trans rfl
  have hmode : u.mode = e.mode := (congrArg State.mode hnarrow.frame).trans rfl
  have hfinished : u.rcFinished = e.rcFinished := (congrArg State.rcFinished hnarrow.frame).trans rfl
  exact ⟨⟨hsession.trans he.session, hmode.trans he.mode, hfinished.trans he.unfinished, hfault, (hs.ok.of_encStep hu).complete⟩,
    n, hnarrow.inst, hn, hnarrow.length, hnarrow.value, hnarrow.range⟩

/-- INIT in its direction, where it completes without a fault (40_control.md R131). -/
theorem completes_init {m : Direction} {s t : State} (h : completes (.init m) s = some t) :
    t = (s.startSession m).complete ∧ s.fault = none := by
  obtain ⟨u, hu, rfl, hfault⟩ := completes_of_finish (exec_init m s) h
  simp only [requireConfig, require_eq_ok] at hu
  obtain ⟨-, -, -, -, -, hu⟩ := hu
  cases hu
  exact ⟨rfl, hfault⟩

theorem encoding_of_init {s t : State} (h : completes (.init .encode) s = some t) : Encoding t := by
  obtain ⟨rfl, hfault⟩ := completes_init h
  exact ⟨rfl, rfl, rfl, hfault, encoderOk_of_intervalOk rfl (coderOk_of_rc_eq_reset rfl) (intervalOk_of_reset rfl rfl)⟩

/-! ### The bytes of a stream and the intervals of the encoder -/

/-- The bytes a decoder has taken in when it is where the encoder e is: N_BYTES more than e has emitted (43_range_coder.md R219). -/
def takenBytes (e : State) : Nat := e.inst.nBytes + e.mem.obuf.length

/-- The bytes of a stream, taken in that far, lie in the code value's interval of e. -/
structure Locates (out : List Byte) (e : State) : Prop where
  bytes : takenBytes e ≤ out.length
  ge : codeValue e ≤ bigEndian (out.take (takenBytes e))
  lt : bigEndian (out.take (takenBytes e)) < codeValue e + e.rc.range

/-- Taking in n bytes more scales the value by 2^(8n) and adds the bytes. -/
theorem bigEndian_take_add {l : List Byte} {i n : Nat} (h : i + n ≤ l.length) :
    bigEndian (l.take (i + n)) = bigEndian (l.take i) * 2 ^ (8 * n) + bigEndian ((l.drop i).take n) := by
  have hlen : ((l.drop i).take n).length = n := by rw [List.length_take, List.length_drop]; omega
  rw [List.take_add, bigEndian_append, hlen]

theorem bigEndian_take_drop_lt (l : List Byte) (i n : Nat) : bigEndian ((l.drop i).take n) < 2 ^ (8 * n) :=
  (bigEndian_lt _).trans_le (Nat.pow_le_pow_right (by decide) (Nat.mul_le_mul_left 8 (List.length_take_le _ _)))

/-- If x * k + b with b < k lies in the interval [y * k, (y + r) * k), then x lies in [y, y + r). -/
theorem mem_interval_of_scaled {x y r k b : Nat} (hb : b < k) (hge : y * k ≤ x * k + b) (hlt : x * k + b < (y + r) * k) :
    y ≤ x ∧ x < y + r := by
  refine ⟨Nat.lt_succ_iff.mp (Nat.lt_of_mul_lt_mul_right (a := k) ?_), Nat.lt_of_mul_lt_mul_right (a := k) (by omega)⟩
  rw [Nat.succ_mul]
  omega

theorem Encoded.takenBytes {e f : State} {t : Triple} {n : Nat} (h : Encoded t n e f) : takenBytes f = takenBytes e + n := by
  rw [Machine.takenBytes, h.inst, h.length, ← Nat.add_assoc, Machine.takenBytes]

/-- A stream located in the interval after a triple is located in the triple's sub-range before it. -/
theorem Locates.subrange {out : List Byte} {e f : State} {t : Triple} {n : Nat} (hf : Locates out f) (h : Encoded t n e f) :
    codeValue e + scaled e.inst e.rc.range t.cum t.total ≤ bigEndian (out.take (takenBytes e)) ∧
    bigEndian (out.take (takenBytes e)) < codeValue e + scaled e.inst e.rc.range t.cum t.total + scaled e.inst e.rc.range t.freq t.total := by
  obtain ⟨hbytes, hge, hlt⟩ := hf
  rw [h.takenBytes] at hbytes hge hlt
  rw [bigEndian_take_add hbytes, h.value] at hge hlt
  rw [h.range, ← Nat.add_mul] at hlt
  exact mem_interval_of_scaled (bigEndian_take_drop_lt out _ n) hge hlt

theorem Locates.before {out : List Byte} {e f : State} {t : Triple} {n : Nat} (ht : t.legal e.inst) (hf : Locates out f)
    (h : Encoded t n e f) : Locates out e := by
  obtain ⟨hge, hlt⟩ := hf.subrange h
  have hbytes := hf.bytes
  have hsum := scaled_cum_add_scaled_freq_le ht e.rc.range
  rw [h.takenBytes] at hbytes
  exact ⟨by omega, by omega, by omega⟩

/-- A run of encode steps is its first step and the run of the others. -/
theorem Encoding.run_cons {t : Triple} {ts : List Triple} {e f : State} (he : Encoding e) (hts : ∀ u ∈ t :: ts, u.legal e.inst)
    (h : runTriples .rcEncode (t :: ts) e = some f) :
    ∃ g n, Encoded t n e g ∧ Encoding g ∧ t.legal e.inst ∧ (∀ u ∈ ts, u.legal g.inst) ∧ runTriples .rcEncode ts g = some f := by
  obtain ⟨g, hg, hrun⟩ := Option.bind_eq_some_iff.mp h
  obtain ⟨ht, hts⟩ := List.forall_mem_cons.mp hts
  obtain ⟨hgok, n, hn⟩ := he.step ht hg
  exact ⟨g, n, hn, hgok, ht, hn.inst ▸ hts, hrun⟩

/-- A run of encode steps stays in its session. -/
theorem Encoding.run {ts : List Triple} {e f : State} (he : Encoding e) (hts : ∀ t ∈ ts, t.legal e.inst)
    (h : runTriples .rcEncode ts e = some f) : Encoding f ∧ f.inst = e.inst := by
  induction ts generalizing e with
  | nil => cases h; exact ⟨he, rfl⟩
  | cons t ts ih =>
    obtain ⟨g, n, hn, hgok, ht, hts, hrun⟩ := he.run_cons hts h
    obtain ⟨hf, hinst⟩ := ih hgok hts hrun
    exact ⟨hf, hinst.trans hn.inst⟩

/-- A stream located after a run of encode steps is located before it. -/
theorem Locates.before_run {out : List Byte} {ts : List Triple} {e f : State} (he : Encoding e) (hts : ∀ t ∈ ts, t.legal e.inst)
    (h : runTriples .rcEncode ts e = some f) (hf : Locates out f) : Locates out e := by
  induction ts generalizing e with
  | nil => cases h; exact hf
  | cons t ts ih =>
    obtain ⟨g, n, hn, hgok, ht, hts, hrun⟩ := he.run_cons hts h
    exact (ih hgok hts hrun).before ht hn

/-- The finished stream is located in the last interval: it reads as the code value plus half the range (43_range_coder.md R209). -/
theorem Locates.of_finish {e f : State} (he : Encoding e) (h : completes .rcFinish e = some f) :
    Locates f.mem.obuf e ∧ f.mem.obuf.length = takenBytes e := by
  obtain ⟨u, hu, rfl, -⟩ := completes_of_finish (exec_rcFinish he.session he.mode he.unfinished) h
  obtain ⟨v, hv, hflush⟩ := he.ok.encFinish_eq
  obtain ⟨-, hok⟩ := require_eq_ok.mp (hv.symm.trans hu)
  cases hok
  have hlen : u.mem.obuf.length = takenBytes e := hflush.length.trans (Nat.add_comm _ _)
  have hrange : 0 < e.rc.range := e.inst.floor_pos.trans_le he.ok.coder.floor_le
  have hvalue : bigEndian (u.mem.obuf.take (takenBytes e)) = codeValue e + e.rc.range / 2 := by rw [← hlen, List.take_length, hflush.value]
  exact ⟨⟨hlen.ge, hvalue ▸ Nat.le_add_right _ _, hvalue ▸ by omega⟩, hlen⟩

/-! ### The decoder follows the encoder -/

/-- A started decode session without a fault. -/
structure Decoding (s : State) : Prop where
  session : s.session = true
  mode : s.mode = .decode
  ready : s.rcDecReady = true
  fault : s.fault = none

/-- d decodes the stream and is where the encoder e is: low and range agree, and the window holds the bytes taken in, all modulo 2^B (43_range_coder.md R218). -/
structure Follows (out : List Byte) (e d : State) : Prop where
  decoding : Decoding d
  nBytes : d.inst.nBytes = e.inst.nBytes
  ibuf : d.mem.ibuf = out
  inPtr : d.rc.inPtr = takenBytes e
  low : d.rc.low = codeValue e % e.inst.modulus
  range : d.rc.range = e.rc.range
  data : d.rc.data = bigEndian (out.take (takenBytes e)) % e.inst.modulus

/-- The distance of two numbers less than m apart, from their remainders (43_range_coder.md R211). -/
theorem mod_sub_mod {m x y : Nat} (hle : y ≤ x) (hlt : x < y + m) : (x % m + (m - y % m % m)) % m = x - y := by
  obtain ⟨k, rfl⟩ := Nat.exists_eq_add_of_le hle
  have hy : y % m < m := Nat.mod_lt _ (by omega)
  have hsum : y + k + (m - y % m) = k + m * (y / m + 1) := by
    have := Nat.div_add_mod y m
    rw [Nat.mul_add, Nat.mul_one]
    omega
  rw [Nat.mod_mod, Nat.mod_add_mod, hsum, Nat.add_mul_mod_self_left, Nat.mod_eq_of_lt (by omega), Nat.add_sub_cancel_left]

section Follows

variable {out : List Byte} {e f d : State} {t : Triple} {n : Nat}

theorem Follows.withTriple (hd : Follows out e d) (t : Triple) : Follows out e (d.withTriple t) :=
  { hd with decoding := { hd.decoding with } }

theorem Follows.complete (hd : Follows out e d) : Follows out e d.complete := { hd with decoding := { hd.decoding with } }

theorem Follows.modulus (hd : Follows out e d) : d.inst.modulus = e.inst.modulus := modulus_congr hd.nBytes

/-- The decoder divides the interval as the encoder does (43_range_coder.md R202). -/
theorem Follows.scaled (hd : Follows out e d) (x total : Nat) :
    scaled d.inst d.rc.range x total = scaled e.inst e.rc.range x total := by rw [scaled_congr hd.nBytes, hd.range]

/-- The decoder's window position is the distance of the stream's value from the code value. -/
theorem Follows.windowPos (hd : Follows out e d) (he : EncoderOk e) (hloc : Locates out e) :
    windowPos d = bigEndian (out.take (takenBytes e)) - codeValue e := by
  rw [Machine.windowPos, hd.modulus, hd.data, hd.low]
  exact mod_sub_mod hloc.ge (hloc.lt.trans (Nat.add_lt_add_left he.coder.range_lt _))

theorem Follows.inSubrange (hd : Follows out e d) (he : EncoderOk e) (ht : t.legal e.inst) (hf : Locates out f) (h : Encoded t n e f) :
    InSubrange t d := by
  obtain ⟨hge, hlt⟩ := hf.subrange h
  rw [InSubrange, hd.windowPos he (hf.before ht h), hd.scaled, hd.scaled]
  omega

/-- The refill after t takes the decoder to where t took the encoder (43_range_coder.md R204, R211). -/
theorem Follows.refilled (hd : Follows out e d) (hf : Locates out f) (h : Encoded t n e f) :
    Follows out f (d.refilled (Machine.scaled d.inst d.rc.range t.cum t.total) (Machine.scaled d.inst d.rc.range t.freq t.total) n) := by
  have hbytes : takenBytes e + n ≤ out.length := h.takenBytes ▸ hf.bytes
  rw [hd.scaled, hd.scaled]
  refine ⟨{ hd.decoding with }, hd.nBytes.trans (congrArg Params.nBytes h.inst.symm), hd.ibuf, ?_, ?_, h.range.symm, ?_⟩
  · exact (congrArg (· + n) hd.inPtr).trans h.takenBytes.symm
  · rw [h.inst, h.value, State.refilled, hd.low, hd.modulus]
    exact ((Nat.mod_modEq _ _).add_right _).mul_right _
  · rw [h.inst, h.takenBytes, bigEndian_take_add hbytes, State.refilled, hd.data, hd.ibuf, hd.inPtr, hd.modulus]
    exact ((Nat.mod_modEq _ _).mul_right _).add_right _

theorem Follows.decStep (hd : Follows out e d) (he : EncoderOk e) (ht : t.legal e.inst) (hf : Locates out f) (h : Encoded t n e f) :
    ∃ c, decStep t d = .ok c ∧ Follows out f c := by
  have hlow : d.rc.low < d.inst.modulus := by rw [hd.low, hd.modulus]; exact Nat.mod_lt _ e.inst.modulus_pos
  have hdata : d.rc.data < d.inst.modulus := by rw [hd.data, hd.modulus]; exact Nat.mod_lt _ e.inst.modulus_pos
  have hfloor : d.inst.floor ≤ d.rc.range := by rw [floor_congr hd.nBytes, hd.range]; exact he.coder.floor_le
  have hrenorm : renormCount d.inst (Machine.scaled d.inst d.rc.range t.freq t.total) = some n := by
    rw [renormCount_congr hd.nBytes, hd.scaled, h.renorm]
  have hptr : d.rc.inPtr + n ≤ d.mem.ibuf.length := by rw [hd.inPtr, hd.ibuf]; exact h.takenBytes ▸ hf.bytes
  exact ⟨_, decStep_eq_refilled (Triple.legal_congr hd.nBytes ht) hfloor hlow hdata hrenorm (hd.inSubrange he ht hf h) hptr, hd.refilled hf h⟩

/-- Where the encoder has encoded t, RC_DECODE of t follows (43_range_coder.md R218). -/
theorem Follows.step (hd : Follows out e d) (he : EncoderOk e) (ht : t.legal e.inst) (hf : Locates out f) (h : Encoded t n e f) :
    ∃ d', completes .rcDecode (d.withTriple t) = some d' ∧ Follows out f d' := by
  have hlatched := hd.withTriple t
  obtain ⟨c, hc, hfollow⟩ := hlatched.decStep he ht hf h
  have hexec := exec_rcDecode hlatched.decoding.session hlatched.decoding.mode hlatched.decoding.ready
  rw [opTriple_withTriple (Triple.legal_congr hd.nBytes ht), hc] at hexec
  exact ⟨c.complete, completes_of_ok hexec hfollow.decoding.fault, hfollow.complete⟩

end Follows

/-- Where the encoder has run over the triples, RC_DECODE of each follows to the end. -/
theorem Follows.run {out : List Byte} {ts : List Triple} {e f d : State} (hd : Follows out e d) (he : Encoding e)
    (hts : ∀ t ∈ ts, t.legal e.inst) (h : runTriples .rcEncode ts e = some f) (hf : Locates out f) :
    ∃ d', runTriples .rcDecode ts d = some d' ∧ Follows out f d' := by
  induction ts generalizing e d with
  | nil => cases h; exact ⟨d, rfl, hd⟩
  | cons t ts ih =>
    obtain ⟨g, n, hn, hgok, ht, hts, hrun⟩ := he.run_cons hts h
    obtain ⟨c, hc, hfollow⟩ := hd.step he.ok ht (hf.before_run hgok hts hrun) hn
    obtain ⟨d', hd', hend⟩ := ih hfollow hgok hts hrun
    exact ⟨d', by rw [runTriples, hc, Option.bind_some, hd'], hend⟩

/-! ### The start of a decode session -/

/-- A decode session with the parameters of d and the bytes in IBUF, not started. -/
structure Loaded (d : State) (bytes : List Byte) (u : State) : Prop where
  session : u.session = true
  mode : u.mode = .decode
  unready : u.rcDecReady = false
  fault : u.fault = none
  inst : u.inst = d.inst
  rc : u.rc = Coder.reset d.inst
  ibuf : u.mem.ibuf = bytes

theorem loaded_of_init {d u : State} (h : completes (.init .decode) d = some u) : Loaded d [] u := by
  obtain ⟨rfl, hfault⟩ := completes_init h
  exact ⟨rfl, rfl, rfl, hfault, rfl, rfl, rfl⟩

theorem Loaded.loadBytes {d u v : State} {bytes more : List Byte} (hu : Loaded d bytes u) (h : loadBytes more u = some v) :
    Loaded d (bytes ++ more) v := by
  induction more generalizing bytes u with
  | nil => cases h; rwa [List.append_nil]
  | cons b bs ih =>
    obtain ⟨w, hw, hrest⟩ := Option.bind_eq_some_iff.mp h
    obtain ⟨x, hx, rfl, hfault⟩ := completes_of_finish (exec_rcInbyte hu.session hu.mode _) hw
    simp only [require_eq_ok] at hx
    obtain ⟨-, -, hx⟩ := hx
    cases hx
    rw [List.append_cons]
    have hbyte : u.mem.ibuf ++ [BitVec.ofNat 8 b.toNat] = bytes ++ [b] := by rw [hu.ibuf, BitVec.ofNat_toNat, BitVec.setWidth_eq]
    refine ih ?_ hrest
    exact ⟨hu.session, hu.mode, hu.unready, hfault, hu.inst, hu.rc, hbyte⟩

/-- A decoder just started follows an encoder just started (40_control.md R131, 43_range_coder.md R215). -/
theorem follows_of_openDecoder {out : List Byte} {s s0 d d0 : State} (hn : d.inst.nBytes = s.inst.nBytes)
    (hs : completes (.init .encode) s = some s0) (hd : openDecoder out d = some d0) : Follows out s0 d0 := by
  obtain ⟨rfl, -⟩ := completes_init hs
  obtain ⟨u, hu, h⟩ := Option.bind_eq_some_iff.mp hd
  obtain ⟨v, hv, h⟩ := Option.bind_eq_some_iff.mp h
  have hload : Loaded d out v := (loaded_of_init hu).loadBytes hv
  obtain ⟨w, hw, rfl, hfault⟩ := completes_of_finish (exec_rcDstart hload.session hload.mode hload.unready) h
  obtain ⟨-, hw⟩ := require_eq_ok.mp hw
  cases hw
  have hvn : v.inst.nBytes = s.inst.nBytes := (congrArg Params.nBytes hload.inst).trans hn
  have hvalue : codeValue (s.startSession .encode).complete = 0 := by simp [codeValue, Coder.reset, Memory.emptyStreams]
  have htaken : takenBytes (s.startSession .encode).complete = s.inst.nBytes := rfl
  refine ⟨⟨hload.session, hload.mode, rfl, hfault⟩, hvn, hload.ibuf, hvn, ?_, ?_, ?_⟩
  · rw [hvalue, Nat.zero_mod]
    exact congrArg Coder.low hload.rc
  · exact (congrArg Coder.range hload.rc).trans (congrArg (· - 1) (modulus_congr hn))
  · rw [htaken]
    show bigEndian (v.mem.ibuf.take v.inst.nBytes) = bigEndian (out.take s.inst.nBytes) % s.inst.modulus
    rw [hload.ibuf, hvn, Nat.mod_eq_of_lt (bigEndian_take_lt _ _)]

/-- In the middle of a run the fetch lies in the bucket of the triple that comes next (43_range_coder.md R218). -/
theorem Follows.fetch {out : List Byte} {t : Triple} {post : List Triple} {e f d : State} (hd : Follows out e d) (he : Encoding e)
    (hts : ∀ u ∈ t :: post, u.legal e.inst) (h : runTriples .rcEncode (t :: post) e = some f) (hf : Locates out f) :
    t.cum ≤ decFetch t.total d ∧ decFetch t.total d < t.cum + t.freq := by
  obtain ⟨g, n, hn, hgok, ht, hpost, hrun⟩ := he.run_cons hts h
  exact decFetch_mem_bucket (Triple.legal_congr hd.nBytes ht) (hd.inSubrange he.ok ht (hf.before_run hgok hpost hrun) hn)

/-- Settles O52: the decoder starts where the encoder does and follows it over the triples, because the finished stream is located in every interval of the way. -/
theorem rangeCoderIsExact : Obligations.RangeCoderIsExact := by
  intro ts s s0 s1 s2 d d0 hn hts hinit hrun hfinish hopen
  have hd := follows_of_openDecoder hn hinit hopen
  have he := encoding_of_init hinit
  obtain ⟨hs0, -⟩ := completes_init hinit
  have hinst : s0.inst = s.inst := (congrArg State.inst hs0).trans rfl
  rw [← hinst] at hts
  obtain ⟨hs1, hinst1⟩ := he.run hts hrun
  obtain ⟨hloc, hlen⟩ := Locates.of_finish hs1 hfinish
  obtain ⟨d1, hd1, hend⟩ := hd.run he hts hrun hloc
  have hptr : d0.rc.inPtr = s.inst.nBytes := by rw [hd.inPtr, hs0]; rfl
  refine ⟨hptr, ⟨d1, hd1, ?_, ?_⟩, ?_⟩
  · rw [hend.inPtr, takenBytes, hinst1, hinst, hptr]
  · rw [hend.inPtr, hlen]
  · rintro pre t post d' rfl hpre
    obtain ⟨hpret, hpostt⟩ := List.forall_mem_append.mp hts
    obtain ⟨e, hpree, hpost⟩ := Option.bind_eq_some_iff.mp ((runTriples_append _ _ _ _).symm.trans hrun)
    obtain ⟨hee, hinste⟩ := he.run hpret hpree
    have hte : ∀ u ∈ t :: post, u.legal e.inst := hinste ▸ hpostt
    obtain ⟨c, hc, hfollow⟩ := hd.run he hpret hpree (hloc.before_run hee hte hpost)
    obtain rfl := Option.some.inj (hpre.symm.trans hc)
    exact hfollow.fetch hee hte hpost hloc

end Sys2Proof.Machine
end

section
/-! PROOFS. The queries of the frequency model: the level and its quantities by their formulas, the inverse law of PPM_ICDF, the descent of PPM_ESCAPE, and the bounds on the totals (44_frequency_model.md R241 to R254, R258). -/

namespace Sys2Proof.Machine

/-! ### The quantities of a level by their formulas -/

/-- The current level, from ESC (44_frequency_model.md R241). -/
theorem level_eq_order {s : State} (h : s.ppm.esc ≤ kmax s) : level s = .order (kmax s - s.ppm.esc) := by
  rw [level, ordersLeft, Nat.sub_add_comm h]
  rfl

theorem level_eq_base {s : State} (h : s.ppm.esc = kmax s + 1) : level s = .base := by
  rw [level, ordersLeft, h, Nat.sub_self]
  rfl

theorem distinct_eq_length (s : State) (k : Nat) :
    distinct s k = ((List.range s.acfg.alpha).filter (fun x => 1 ≤ countAt s.ppm k x)).length :=
  sumBelow_indicator (fun x => 1 ≤ countAt s.ppm k x) s.acfg.alpha

theorem weight_order (s : State) (k x : Nat) : weight s (.order k) x = weightOf s.acfg.method (countAt s.ppm k x) := rfl

theorem weight_base (s : State) (x : Nat) : weight s .base x = if weight s (.order 0) x = 0 then 1 else 0 := rfl

/-- The escape mass by method, the case k = 0 of method A first (44_frequency_model.md R244). -/
theorem massE_order (s : State) (k : Nat) :
    massE s (.order k) = match s.acfg.method with
      | .A => if k = 0 then s.acfg.alpha - distinct s k else 1
      | .B => max (distinct s k) 1
      | .C => max (distinct s k) 1
      | .D => max (distinct s k) 1 := by
  unfold massE
  cases s.acfg.method with
  | A => cases k <;> rfl
  | _ => rfl

/-- |U| is the total at BASE (44_frequency_model.md R246). -/
theorem massS_base (s : State) : massS s .base = ((List.range s.acfg.alpha).filter (fun x => weight s (.order 0) x = 0)).length :=
  sumBelow_indicator (fun x => weight s (.order 0) x = 0) s.acfg.alpha

@[simp] theorem massE_base (s : State) : massE s .base = 0 := rfl

@[simp] theorem massD_base (s : State) : massD s .base = massS s .base := rfl

/-! ### The queries -/

theorem requireSymbol_of_lt {α : Type} {sym : Nat} {s : State} (h : sym < s.acfg.alpha) (rest : CmdResult α) : requireSymbol sym s rest = rest :=
  require_pass h _ _ _ _

theorem requireSymbol_of_le {α : Type} {sym : Nat} {s : State} (h : s.acfg.alpha ≤ sym) (rest : CmdResult α) :
    requireSymbol sym s rest = .raise .badSymbol sym s := require_fail h.not_gt _ _ _ _

theorem hasToEscape_eq (s : State) (sym : Nat) : hasToEscape s sym = decide (level s ≠ .base ∧ weight s (level s) sym = 0) := by
  unfold hasToEscape
  cases h : level s <;> simp

theorem exec_ppmNumden {s : State} (hs : s.session = true) :
    exec .ppmNumden s = finish (.ok (((s.setRes0 (toWord (massE s (level s)))).setRes1 (toWord (massD s (level s)))).setRes2
      (levelWord (level s)))) := finish_withNeeds (o := .ppmNumden) hs _

theorem exec_ppmHasesc {s : State} (hs : s.session = true) (sym : Nat) :
    exec (.ppmHasesc sym) s = finish (requireSymbol sym s (.ok (s.setRes0 (if hasToEscape s sym then 1#64 else 0#64)))) :=
  finish_withNeeds (o := .ppmHasesc) hs _

theorem exec_ppmCdf {s : State} (hs : s.session = true) (sym : Nat) :
    exec (.ppmCdf sym) s = finish (requireSymbol sym s
      (.ok ((s.setRes0 (toWord (cdf s (level s) sym))).setRes1 (toWord (pdf s (level s) sym))))) :=
  finish_withNeeds (o := .ppmCdf) hs _

theorem exec_ppmIcdf {s : State} (hs : s.session = true) :
    exec .ppmIcdf s = finish (require (decide (s.opArg0 < massS s (level s))) .rangeArg s.opArg0 s
      (.ok (s.setRes0 (toWord (icdf s (level s) s.opArg0))))) := finish_withNeeds (o := .ppmIcdf) hs _

theorem exec_ppmEscape {s : State} (hs : s.session = true) :
    exec .ppmEscape s = finish (require (decide (level s ≠ .base)) .sequence 0 s (.ok (escapeOnce s))) :=
  finish_withNeeds (o := .ppmEscape) hs _

/-- Settles O53: each query ends with a level's quantities in the RES registers, and each quantity is a sum or a count over the alphabet. -/
theorem modelQueriesReportTheLevel : Obligations.ModelQueriesReportTheLevel := by
  refine ⟨fun s hs => ⟨?_, fun sym hsym => ?_, fun sym hsym => ?_⟩, fun s => ⟨rfl, level_eq_order, level_eq_base⟩,
    fun s k => ⟨fun x => rfl, ?_⟩, fun s => ⟨fun x hx => ?_, massS_base s, rfl⟩, fun s lv => ⟨sumBelow_eq_sum _ _, fun x => ⟨sumBelow_eq_sum _ _, rfl⟩⟩⟩
  · rw [exec_ppmNumden hs, finish_ok]
    cases level s <;> rfl
  · rw [exec_ppmHasesc hs, exec_ppmCdf hs, requireSymbol_of_le hsym, requireSymbol_of_le hsym]
    exact ⟨rfl, rfl⟩
  · rw [exec_ppmHasesc hs, exec_ppmCdf hs, requireSymbol_of_lt hsym, requireSymbol_of_lt hsym, cdf, sumBelow_eq_sum, hasToEscape_eq]
    simp only [decide_eq_true_eq]
    exact ⟨rfl, rfl⟩
  · rw [massE_order, distinct_eq_length]
    rfl
  · rw [weight_base]
    simp [hx]

/-- ICDF of a value in a symbol's sub-range is the symbol (44_frequency_model.md R258). -/
theorem icdf_eq {s : State} {lv : Level} {sym t : Nat} (hsym : sym < s.acfg.alpha) (hlo : cdf s lv sym ≤ t)
    (hhi : t < cdf s lv sym + pdf s lv sym) : icdf s lv t = sym := by
  obtain ⟨-, hlo', hhi'⟩ := icdf_spec s lv t (hhi.trans_le (cdf_add_pdf_le s lv hsym))
  exact subrange_unique s lv hlo' hhi' hlo hhi

/-- Settles O54: the walk finds the one symbol whose sub-range holds t. -/
theorem icdfInvertsCdf : Obligations.IcdfInvertsCdf := by
  intro s sym hs
  rw [exec_ppmIcdf hs]
  refine ⟨fun hge => ?_, fun hsym hlo hhi => ?_⟩
  · exact congrArg finish (require_fail (p := s.opArg0 < _) hge.not_gt _ _ _ _)
  · have hlt : s.opArg0 < massS s (level s) := hhi.trans_le (cdf_add_pdf_le s _ hsym)
    rw [require_pass hlt, finish_ok]
    exact congrArg (fun x => Host.Outcome.next (s.setRes0 (toWord x)).complete) (icdf_eq hsym hlo hhi)

/-- Settles O56: with k + 1 order levels left, one escape leaves k. -/
theorem escapeDescendsOneLevel : Obligations.EscapeDescendsOneLevel := by
  intro s hs
  rw [exec_ppmEscape hs]
  refine ⟨fun hbase => ?_, fun k hk => ⟨_, ?_, rfl, ?_⟩⟩
  · rw [require_fail fun h => h hbase, finish_raise]
  · rw [require_pass (by rw [hk]; exact nofun)]
    rfl
  · have hleft : ordersLeft s = k + 1 := by
      cases hn : ordersLeft s with
      | zero => exact absurd ((level_of_ordersLeft hn).symm.trans hk) nofun
      | succ n => exact congrArg (· + 1) (Level.order.inj ((level_of_ordersLeft hn).symm.trans hk))
    have hlevel : level (escapeOnce s).complete = levelAt k := level_of_ordersLeft (ordersLeft_escapeOnce hleft)
    refine hlevel.trans ?_
    cases k <;> rfl

/-! ### The bounds on the totals -/

theorem sumBelow_eq_finset_sum (f : Nat → Nat) (n : Nat) : sumBelow f n = ∑ x ∈ Finset.range n, f x := by
  induction n with
  | zero => rfl
  | succ n ih => rw [sumBelow_succ, ih, Finset.sum_range_succ]

theorem sumBelow_add (f g : Nat → Nat) (n : Nat) : sumBelow (fun x => f x + g x) n = sumBelow f n + sumBelow g n := by
  simp only [sumBelow_eq_finset_sum, Finset.sum_add_distrib]

theorem sumBelow_mul_left (a : Nat) (f : Nat → Nat) (n : Nat) : sumBelow (fun x => a * f x) n = a * sumBelow f n := by
  simp only [sumBelow_eq_finset_sum, Finset.mul_sum]

theorem sumBelow_single (k v n : Nat) : sumBelow (fun x => if k = x then v else 0) n = if k < n then v else 0 := by
  simp only [sumBelow_eq_finset_sum, Finset.sum_ite_eq, Finset.mem_range]

/-- One term makes up the whole sum where no other term is positive. -/
theorem sumBelow_eq_term_iff {f : Nat → Nat} {i n : Nat} (hi : i < n) : sumBelow f n = f i ↔ ∀ x < n, x ≠ i → f x = 0 := by
  rw [sumBelow_eq_finset_sum, ← Finset.add_sum_erase _ f (Finset.mem_range.mpr hi), Nat.add_eq_left, Finset.sum_eq_zero_iff]
  simp only [Finset.mem_erase, Finset.mem_range, and_imp]
  exact ⟨fun h x hx hne => h x hne hx, fun h x hne hx => h x hx hne⟩

/-- The counts of the symbols below n are among the table's (10_state.md R49). -/
theorem sumBelow_at_le_total (t : Counts) (n : Nat) : sumBelow (Counts.at t) n ≤ Counts.total t := by
  induction t with
  | nil => simp [sumBelow_eq_finset_sum, Counts.at]
  | cons e t ih =>
    obtain ⟨k, v⟩ := e
    rw [Counts.total_cons]
    calc sumBelow (Counts.at ((k, v) :: t)) n ≤ sumBelow (fun x => (if k = x then v else 0) + Counts.at t x) n :=
          sumBelow_le fun x _ => by simp only [Counts.at, Store.get_cons]; split <;> omega
      _ = sumBelow (fun x => if k = x then v else 0) n + sumBelow (Counts.at t) n := sumBelow_add _ _ _
      _ ≤ v + Counts.total t := Nat.add_le_add (by rw [sumBelow_single]; split <;> omega) ih

theorem weightOf_le (m : Method) (c : Nat) : weightOf m c ≤ 2 * c := by
  cases m with
  | A | C => exact Nat.le_mul_of_pos_left c (by decide)
  | B | D => simp only [weightOf]; split <;> omega

theorem distinct_le_alpha (s : State) (k : Nat) : distinct s k ≤ s.acfg.alpha := by
  refine (sumBelow_le (g := fun _ => 1) fun x _ => ?_).trans_eq (sumBelow_ones _)
  split <;> omega

/-- S <= 2h: a weight is at most twice its count, and the counts of a context sum to at most h (44_frequency_model.md R245). -/
theorem massS_order_le {s : State} (hs : ModelOk s) (k : Nat) : massS s (.order k) ≤ 2 * s.ppm.hlen :=
  calc massS s (.order k) ≤ sumBelow (fun x => 2 * countAt s.ppm k x) s.acfg.alpha := sumBelow_le fun _ _ => weightOf_le _ _
    _ = 2 * sumBelow (Counts.at (s.ppm.table (ctxKey s.ppm k))) s.acfg.alpha := sumBelow_mul_left _ _ _
    _ ≤ 2 * s.ppm.hlen := Nat.mul_le_mul_left 2 ((sumBelow_at_le_total _ _).trans (hs.table_total_le _))

theorem massE_order_le {s : State} (hpos : 1 ≤ s.acfg.alpha) (k : Nat) : massE s (.order k) ≤ s.acfg.alpha := by
  have hd := distinct_le_alpha s k
  rw [massE_order]
  cases s.acfg.method with
  | A => dsimp only; split <;> omega
  | _ => exact max_le hd hpos

/-- In method A every symbol that a context has seen has weight there. -/
theorem distinct_le_massS {s : State} (hm : s.acfg.method = .A) (k : Nat) : distinct s k ≤ massS s (.order k) := by
  refine sumBelow_le fun x _ => ?_
  rw [weight_order, hm]
  simp only [weightOf]
  split <;> omega

/-- D >= 1: the escape mass is positive, or every symbol has weight (44_frequency_model.md R245). -/
theorem massD_order_pos {s : State} (hpos : 1 ≤ s.acfg.alpha) (k : Nat) : 1 ≤ massD s (.order k) := by
  rw [massD, massE_order]
  cases hm : s.acfg.method with
  | A =>
    have hd := distinct_le_massS hm k
    dsimp only
    split <;> omega
  | _ => exact (le_max_right _ 1).trans (Nat.le_add_left _ _)

theorem massS_base_le (s : State) : massS s .base ≤ s.acfg.alpha := by
  refine (sumBelow_le (g := fun _ => 1) fun x _ => ?_).trans_eq (sumBelow_ones _)
  rw [weight_base]
  split <;> omega

/-- A symbol with weight makes the level's sum positive. -/
theorem massS_pos_of_weight {s : State} {lv : Level} {x : Nat} (hx : x < s.acfg.alpha) (h : weight s lv x ≠ 0) : 1 ≤ massS s lv :=
  (Nat.one_le_iff_ne_zero.mpr h).trans ((Nat.le_add_left _ _).trans (cdf_add_pdf_le s lv hx))

/-- What bounds the totals of a session: the model is consistent, and the alphabet is legal (40_control.md R131). -/
structure TotalsOk (s : State) : Prop where
  model : ModelOk s
  alpha_pos : 1 ≤ s.acfg.alpha
  alpha_le : s.acfg.alpha ≤ s.inst.aMax

theorem totalsOk_of_inv {s : State} (hs : s.Inv) (hsession : s.session = true) : TotalsOk s :=
  ⟨hs.model, hs.config.alpha_pos, hs.config.alpha_max hsession⟩

theorem TotalsOk.massD_order_le {s : State} (hs : TotalsOk s) (k : Nat) : massD s (.order k) ≤ 2 * s.ppm.hlen + s.acfg.alpha :=
  Nat.add_le_add (massS_order_le hs.model k) (massE_order_le hs.alpha_pos k)

/-- Every total the model forms is within TOTAL_MAX (00_scope.md R7, 44_frequency_model.md R245). -/
theorem TotalsOk.massD_le_totalMax {s : State} (hs : TotalsOk s) (lv : Level) : massD s lv ≤ s.inst.totalMax := by
  have hbound : massD s lv ≤ 2 * s.ppm.hlen + s.acfg.alpha := by
    cases lv with
    | order k => exact hs.massD_order_le k
    | base => exact (massS_base_le s).trans (Nat.le_add_left _ _)
  have hlegal : 2 * s.inst.seqCap + s.inst.aMax ≤ s.inst.totalMax := s.inst.total_legal
  have := hs.model.hlen_le
  have := hs.alpha_le
  omega

/-- Settles O55: S is at most twice the counts and E at most A, and R7 leaves room for both; |U| is at most A. -/
theorem modelTotalsAreLegal : Obligations.ModelTotalsAreLegal := by
  intro s k hs hsession _
  have ht := totalsOk_of_inv hs hsession
  exact ⟨⟨massD_order_pos ht.alpha_pos k, ht.massD_order_le k, ht.massD_le_totalMax _⟩, massS_base_le s, ht.massD_le_totalMax .base,
    fun x hx hw => massS_pos_of_weight hx hw⟩

end Sys2Proof.Machine
end

section
/-! PROOFS. The update of the frequency model: its capacity checks, the counts it leaves in every context, and PPM_UPDATE (44_frequency_model.md R249, R255). -/

namespace Sys2Proof.Machine

/-! ### The capacity checks -/

section CapacityChecks

variable {α : Type} {s : State}

theorem requireHistRoom_of_lt (h : s.ppm.hlen < s.inst.seqCap) (rest : CmdResult α) : requireHistRoom s rest = rest := require_pass h _ _ _ _

theorem requireHistRoom_of_le (h : s.inst.seqCap ≤ s.ppm.hlen) (rest : CmdResult α) : requireHistRoom s rest = .raise .seqFull 0 s :=
  require_fail h.not_gt _ _ _ _

theorem ctxOverflows_eq_false :
    ctxOverflows s = false ↔ s.inst.ctxCap = 0 ∨ tableCount s.ppm + (newOrders s).length ≤ s.inst.ctxCap := by
  rw [ctxOverflows, decide_eq_false_iff_not]
  omega

theorem requireCtxRoom_of_room (h : s.inst.ctxCap = 0 ∨ tableCount s.ppm + (newOrders s).length ≤ s.inst.ctxCap) (rest : CmdResult α) :
    requireCtxRoom s rest = rest := by
  rw [requireCtxRoom, ctxOverflows_eq_false.mpr h]
  rfl

theorem requireCtxRoom_of_full (hcap : s.inst.ctxCap ≠ 0) (hfull : s.inst.ctxCap < tableCount s.ppm + (newOrders s).length)
    (rest : CmdResult α) : requireCtxRoom s rest = .raise .ctxFull ((newOrders s).headD 0) s := by
  rw [requireCtxRoom, ctxOverflows, decide_eq_true ⟨hcap, hfull⟩]
  rfl

/-- The orders are listed in rising order, so the first is the smallest. -/
theorem isSmallestNewOrder_headD (h : newOrders s ≠ []) : isSmallestNewOrder s ((newOrders s).headD 0) := by
  obtain ⟨k, hk⟩ := Option.isSome_iff_exists.mp (List.isSome_head?.mpr h)
  rw [List.headD_eq_head?_getD, hk, Option.getD_some]
  rw [newOrders, List.head?_filter, List.find?_range_eq_some] at hk
  obtain ⟨hempty, hmem, hmin⟩ := hk
  exact ⟨Nat.lt_succ_iff.mp (List.mem_range.mp hmem), by simpa using hempty, fun k' hk' => by simpa using hmin k' hk'⟩

/-- CTX is within its capacity, so an update it has no room for would open a new context (44_frequency_model.md R249). -/
theorem ModelOk.newOrders_ne_nil (hs : ModelOk s) (hcap : s.inst.ctxCap ≠ 0)
    (hfull : s.inst.ctxCap < tableCount s.ppm + (newOrders s).length) : newOrders s ≠ [] := fun h => by
  have := hs.ctx_cap hcap
  rw [h, List.length_nil] at hfull
  omega

end CapacityChecks

/-! ### The counts -/

/-- The context of every order up to top has its symbol counted once more (44_frequency_model.md R249). -/
theorem Model.table_bumpAll_key {m : Model} (hw : m.ctxWf = true) (sym : Nat) {k top : Nat} (htop : top ≤ m.hist.length) (hk : k ≤ top) :
    (m.bumpAll sym top).table (ctxKey m k) = Counts.inc (m.table (ctxKey m k)) sym := by
  induction top with
  | zero =>
    obtain rfl := Nat.le_zero.mp hk
    exact (Model.table_bump hw sym 0 _).trans (if_pos rfl)
  | succ n ih =>
    have hkey : ctxKey (m.bumpAll sym n) (n + 1) = ctxKey m (n + 1) := by simp only [ctxKey, Model.bumpAll_hist]
    rw [Model.bumpAll_succ, Model.table_bump (Model.ctxWf_bumpAll hw sym n), hkey]
    rcases Nat.le_succ_iff.mp hk with hle | rfl
    · have hne : ctxKey m k ≠ ctxKey m (n + 1) := fun h => by
        have := ctxKey_injective (by omega) htop h
        omega
      rw [if_neg hne, ih (by omega) hle]
    · rw [if_pos rfl]
      exact congrArg (Counts.inc · sym) ((countedBelow_bumpAll hw sym (by omega)).other _ fun j hj h => by
        have := ctxKey_injective htop (by omega) h
        omega)

theorem Model.table_bumpAll_other {m : Model} (hw : m.ctxWf = true) (sym : Nat) {top : Nat} (htop : top ≤ m.hist.length) {key : List Nat}
    (hkey : ∀ k ≤ top, key ≠ ctxKey m k) : (m.bumpAll sym top).table key = m.table key :=
  (countedBelow_bumpAll hw sym htop).other key fun k hk => hkey k (by omega)

/-- Only the counts of sym change, in the contexts of the orders up to top (44_frequency_model.md R249). -/
theorem Model.at_bumpAll_other {m : Model} (hw : m.ctxWf = true) {sym x top : Nat} (htop : top ≤ m.hist.length) {key : List Nat}
    (h : x ≠ sym ∨ ∀ k ≤ top, key ≠ ctxKey m k) : Counts.at ((m.bumpAll sym top).table key) x = Counts.at (m.table key) x := by
  by_cases hkey : ∃ k ≤ top, key = ctxKey m k
  · obtain ⟨k, hk, rfl⟩ := hkey
    rw [Model.table_bumpAll_key hw sym htop hk, Counts.at_inc (Model.wf_table hw _), if_neg (h.resolve_right fun hne => hne k hk rfl)]
  · rw [Model.table_bumpAll_other hw sym htop fun k hk he => hkey ⟨k, hk, he⟩]

/-! ### What the update depends on -/

theorem Model.bumpAll_ctx_congr {m m' : Model} (hctx : m'.ctx = m.ctx) (hhist : m'.hist = m.hist) (sym top : Nat) :
    (m'.bumpAll sym top).ctx = (m.bumpAll sym top).ctx := by
  have hbump {m m' : Model} (k : Nat) (hctx : m'.ctx = m.ctx) (hhist : m'.hist = m.hist) : (m'.bump sym k).ctx = (m.bump sym k).ctx := by
    simp only [Model.bump, ctxKey, Model.table, hctx, hhist]
  induction top with
  | zero => exact hbump 0 hctx hhist
  | succ n ih =>
    rw [Model.bumpAll_succ, Model.bumpAll_succ]
    exact hbump (n + 1) ih (by simp only [Model.bumpAll_hist, hhist])

/-- The model after the update depends on K, CTX, HIST and h, and on no other part of the state (44_frequency_model.md R249). -/
theorem updateModel_ppm_congr {s t : State} (horder : t.acfg.order = s.acfg.order) (hctx : t.ppm.ctx = s.ppm.ctx)
    (hhist : t.ppm.hist = s.ppm.hist) (hhlen : t.ppm.hlen = s.ppm.hlen) (sym : Nat) : (updateModel t sym).ppm = (updateModel s sym).ppm := by
  simp only [updateModel, kmax, horder, hhist, hhlen, Model.bumpAll_ctx_congr hctx hhist]

theorem SameModel.updateModel_ppm {s t : State} (h : SameModel s t) (sym : Nat) : (updateModel t sym).ppm = (updateModel s sym).ppm := by
  obtain ⟨hacfg, hctx, hhist, hhlen⟩ := h
  exact updateModel_ppm_congr (congrArg ActiveCfg.order hacfg) hctx hhist hhlen sym

/-! ### PPM_UPDATE -/

theorem exec_ppmUpdate {s : State} (hs : s.session = true) (sym : Nat) :
    exec (.ppmUpdate sym) s = finish (requireSymbol sym s (requireHistRoom s (requireCtxRoom s (.ok (updateModel s sym))))) :=
  finish_withNeeds (o := .ppmUpdate) hs _

/-- Settles O57: after the checks of the symbol and of the capacities, each order's own context counts the symbol. -/
theorem updateCountsEveryOrder : Obligations.UpdateCountsEveryOrder := by
  intro s sym hs hsession
  rw [exec_ppmUpdate hsession]
  refine ⟨fun hsym => ?_, fun hsym hfull => ?_, fun hsym hroom hcap hfull => ⟨_, isSmallestNewOrder_headD (hs.newOrders_ne_nil hcap hfull), ?_⟩,
    fun hsym hroom hctx => ⟨(s.ppm.bumpAll sym (kmax s)).ctx, ?_, fun k hk => ?_, fun key x h => ?_⟩⟩
  · rw [requireSymbol_of_le hsym, finish_raise]
  · rw [requireSymbol_of_lt hsym, requireHistRoom_of_le hfull, finish_raise]
  · rw [requireSymbol_of_lt hsym, requireHistRoom_of_lt hroom, requireCtxRoom_of_full hcap hfull, finish_raise]
  · rw [requireSymbol_of_lt hsym, requireHistRoom_of_lt hroom, requireCtxRoom_of_room hctx, finish_ok]
    rfl
  · have htable := Model.table_bumpAll_key hs.ctx_wf sym hs.hist_length_eq_kmax.ge hk
    rw [Model.table] at htable
    rw [htable, Counts.at_inc (Model.wf_table hs.ctx_wf _), if_pos rfl]
  · exact Model.at_bumpAll_other hs.ctx_wf hs.hist_length_eq_kmax.ge h

end Sys2Proof.Machine
end

section
/-! PROOFS. PPM_ENCODE: the triples of a symbol are legal, the encode loop takes their steps with ESC counted beside them, and the command's faults (44_frequency_model.md R256, R257, R260). -/

namespace Sys2Proof.Machine

/-! ### The triples of a symbol -/

theorem escapeTriple_freq (s : State) (k : Nat) : (escapeTriple s k).freq = massE s (.order k) := rfl
theorem codeTriple_cum (s : State) (lv : Level) (sym : Nat) : (codeTriple s lv sym).cum = cdf s lv sym := rfl
theorem codeTriple_freq (s : State) (lv : Level) (sym : Nat) : (codeTriple s lv sym).freq = weight s lv sym := rfl
theorem codeTriple_total (s : State) (lv : Level) (sym : Nat) : (codeTriple s lv sym).total = massD s lv := rfl

/-- In method A the symbols a context has seen are fewer than A where one has no weight there. -/
theorem distinct_lt_alpha {s : State} (hm : s.acfg.method = .A) {sym k : Nat} (hsym : sym < s.acfg.alpha)
    (h : weight s (.order k) sym = 0) : distinct s k < s.acfg.alpha := by
  rw [weight_order, hm] at h
  have hcount : countAt s.ppm k sym = 0 := h
  have hsum : distinct s k + sumBelow (fun x => if sym = x then 1 else 0) s.acfg.alpha ≤ s.acfg.alpha := by
    rw [distinct, ← sumBelow_add]
    refine (sumBelow_le (g := fun _ => 1) fun x _ => ?_).trans_eq (sumBelow_ones _)
    by_cases hx : sym = x
    · subst hx; simp [hcount]
    · rw [if_neg hx]; split <;> omega
  rw [sumBelow_single, if_pos hsym] at hsum
  exact hsum

/-- A symbol without weight leaves an escape mass (44_frequency_model.md R244, R245). -/
theorem massE_pos {s : State} {sym k : Nat} (hsym : sym < s.acfg.alpha) (h : weight s (.order k) sym = 0) : 1 ≤ massE s (.order k) := by
  rw [massE_order]
  cases hm : s.acfg.method with
  | A =>
    have hd := distinct_lt_alpha hm hsym h
    dsimp only
    split <;> omega
  | _ => exact le_max_right _ _

section Legal

variable {s : State} (hs : TotalsOk s)
include hs

theorem TotalsOk.escapeTriple_legal {k : Nat} (h : 1 ≤ massE s (.order k)) : (escapeTriple s k).legal s.inst :=
  ⟨massD_order_pos hs.alpha_pos k, hs.massD_le_totalMax _, h, le_refl _⟩

theorem TotalsOk.codeTriple_legal {lv : Level} {sym : Nat} (hsym : sym < s.acfg.alpha) (h : weight s lv sym ≠ 0) :
    (codeTriple s lv sym).legal s.inst :=
  ⟨(massS_pos_of_weight hsym h).trans (Nat.le_add_right _ _), hs.massD_le_totalMax _, Nat.one_le_iff_ne_zero.mpr h,
    (cdf_add_pdf_le s lv hsym).trans (Nat.le_add_right _ _)⟩

/-- A symbol that comes to BASE has weight there, because it escaped order 0 (44_frequency_model.md R260). -/
theorem TotalsOk.symbolTriples_legal {sym n : Nat} (hsym : sym < s.acfg.alpha) (hbase : n = 0 → weight s (.order 0) sym = 0) :
    ∀ t ∈ symbolTriples s sym n, t.legal s.inst := by
  induction n with
  | zero =>
    have hw : weight s .base sym ≠ 0 := by rw [weight_base, if_pos (hbase rfl)]; exact Nat.one_ne_zero
    exact List.forall_mem_singleton.mpr (hs.codeTriple_legal hsym hw)
  | succ k ih =>
    rw [symbolTriples]
    split
    · next h => exact List.forall_mem_cons.mpr ⟨hs.escapeTriple_legal (massE_pos hsym h), ih fun hk => hk ▸ h⟩
    · next h => exact List.forall_mem_singleton.mpr (hs.codeTriple_legal hsym h)

end Legal

/-- How many escapes code a symbol with n order levels left (44_frequency_model.md R260). -/
def escapeCount (s : State) (sym : Nat) : Nat → Nat
  | 0 => 0
  | k + 1 => if weight s (.order k) sym = 0 then escapeCount s sym k + 1 else 0

theorem escapeCount_of_zero {s : State} {sym k : Nat} (h : weight s (.order k) sym = 0) :
    escapeCount s sym (k + 1) = escapeCount s sym k + 1 := if_pos h

theorem escapeCount_of_ne {s : State} {sym k : Nat} (h : weight s (.order k) sym ≠ 0) : escapeCount s sym (k + 1) = 0 := if_neg h

theorem symbolTriples_of_zero {s : State} {sym k : Nat} (h : weight s (.order k) sym = 0) :
    symbolTriples s sym (k + 1) = escapeTriple s k :: symbolTriples s sym k := if_pos h

theorem symbolTriples_of_ne {s : State} {sym k : Nat} (h : weight s (.order k) sym ≠ 0) :
    symbolTriples s sym (k + 1) = [codeTriple s (.order k) sym] := if_neg h

theorem escapeCount_le (s : State) (sym n : Nat) : escapeCount s sym n ≤ n := by
  induction n with
  | zero => exact le_refl _
  | succ k ih => unfold escapeCount; split <;> omega

/-- Every triple of a symbol but the last is an escape. -/
theorem length_symbolTriples (s : State) (sym n : Nat) : (symbolTriples s sym n).length = escapeCount s sym n + 1 := by
  induction n with
  | zero => rfl
  | succ k ih =>
    unfold symbolTriples escapeCount
    split
    · rw [List.length_cons, ih]
    · rfl

/-- The symbol has no weight at the orders it escapes, and has weight at the order it is coded at (44_frequency_model.md R260). -/
theorem escapeCount_spec (s : State) (sym k : Nat) :
    (∀ m < escapeCount s sym (k + 1), weight s (.order (k - m)) sym = 0) ∧
    (escapeCount s sym (k + 1) ≤ k → weight s (.order (k - escapeCount s sym (k + 1))) sym ≠ 0) := by
  induction k with
  | zero =>
    by_cases h : weight s (.order 0) sym = 0
    · rw [escapeCount_of_zero h]
      exact ⟨fun m _ => by rw [Nat.zero_sub]; exact h, fun hle => absurd hle (by omega)⟩
    · rw [escapeCount_of_ne h]
      exact ⟨nofun, fun _ => h⟩
  | succ k ih =>
    by_cases h : weight s (.order (k + 1)) sym = 0
    · rw [escapeCount_of_zero h]
      refine ⟨fun m hm => ?_, fun hle => ?_⟩
      · cases m with
        | zero => exact h
        | succ m => rw [Nat.add_sub_add_right]; exact ih.1 m (by omega)
      · rw [Nat.add_sub_add_right]; exact ih.2 (by omega)
    · rw [escapeCount_of_ne h]
      exact ⟨nofun, fun _ => h⟩

/-! ### Coder steps and ESC -/

/-- The same work with ESC at n wherever it ends. -/
def CmdResult.withEsc (n : Nat) : CmdResult State → CmdResult State
  | .ok s => .ok (s.withEsc n)
  | .raise f i s => .raise f i (s.withEsc n)
  | .stuck r => .stuck r

@[simp] theorem CmdResult.withEsc_ok (n : Nat) (s : State) : (CmdResult.ok s).withEsc n = .ok (s.withEsc n) := rfl
@[simp] theorem CmdResult.withEsc_raise (n : Nat) (f : FaultCode) (i : Nat) (s : State) :
    (CmdResult.raise f i s : CmdResult State).withEsc n = .raise f i (s.withEsc n) := rfl

@[simp] theorem CmdResult.withEsc_stuck (n : Nat) (r : Fault) : (CmdResult.stuck r : CmdResult State).withEsc n = .stuck r := rfl

@[simp] theorem escapeOnce_withEsc (s : State) (n : Nat) : escapeOnce (s.withEsc n) = s.withEsc (n + 1) := rfl

theorem SameModel.withEsc {s u : State} (h : SameModel s u) (n : Nat) : SameModel s (u.withEsc n) := h.trans (sameModel_withEsc u n)

theorem CmdResult.withEsc_eq_ok {x : CmdResult State} {n : Nat} {u : State} : x.withEsc n = .ok u ↔ ∃ v, x = .ok v ∧ u = v.withEsc n := by
  cases x <;> simp [CmdResult.withEsc, eq_comm]

theorem require_withEsc {c : Bool} {f : FaultCode} {i n : Nat} {s : State} {x y : CmdResult State} (h : y = x.withEsc n) :
    require c f i (s.withEsc n) y = (require c f i s x).withEsc n := by
  cases c with
  | true => exact h
  | false => rfl

theorem emitBytes_withEsc (e : Nat) (s : State) (n : Nat) : emitBytes e (s.withEsc n) = (emitBytes e s).withEsc n := by
  induction e generalizing s with
  | zero => rfl
  | succ e ih => exact ih (emitByte s)

theorem addCarry_of_lt {s : State} {v : Nat} (h : s.rc.low + v < s.inst.modulus) :
    addCarry s v = some { s with rc := { s.rc with low := s.rc.low + v } } := if_pos h

theorem addCarry_of_le {s : State} {v : Nat} (h : s.inst.modulus ≤ s.rc.low + v) :
    addCarry s v = (carryInto s.mem.obuf).map fun obuf =>
      { s with rc := { s.rc with low := (s.rc.low + v) % s.inst.modulus }, mem := { s.mem with obuf := obuf } } := by
  refine (if_neg h.not_gt).trans ?_
  cases carryInto s.mem.obuf <;> rfl

theorem addCarry_withEsc (s : State) (v n : Nat) : addCarry (s.withEsc n) v = (addCarry s v).map (·.withEsc n) := by
  rcases Nat.lt_or_ge (s.rc.low + v) s.inst.modulus with h | h
  · rw [addCarry_of_lt h, addCarry_of_lt (s := s.withEsc n) h]
    rfl
  · rw [addCarry_of_le h, addCarry_of_le (s := s.withEsc n) h, Option.map_map]
    rfl

/-- An encode step does not bear on ESC, nor ESC on it (43_range_coder.md R207). -/
theorem encStep_withEsc (t : Triple) (s : State) (n : Nat) : encStep t (s.withEsc n) = (encStep t s).withEsc n := by
  refine require_withEsc (require_withEsc (require_withEsc ?_))
  split
  · rfl
  · simp only [State.withEsc_rc, State.withEsc_inst, State.withEsc_mem, addCarry_withEsc]
    cases renormCount s.inst (scaled s.inst s.rc.range t.freq t.total) with
    | none => rfl
    | some e =>
      cases addCarry s (scaled s.inst s.rc.range t.cum t.total) with
      | none => rfl
      | some u => exact require_withEsc (congrArg CmdResult.ok (emitBytes_withEsc e { u with rc := _ } n))

theorem CoderFrame.inst {s u : State} (h : CoderFrame s u) : u.inst = s.inst := (congrArg State.inst h).trans rfl

theorem encSteps_singleton (t : Triple) (s : State) : encSteps [t] s = encStep t s := by
  rw [encSteps]
  cases encStep t s <;> rfl

theorem encSteps_frame {ts : List Triple} {s u : State} (h : encSteps ts s = .ok u) : CoderFrame s u := by
  induction ts generalizing s with
  | nil => cases h; exact .refl _
  | cons t ts ih =>
    obtain ⟨v, hv, h⟩ := CmdResult.andThen_eq_ok.mp h
    exact (encStep_frame hv).trans (ih h)

/-! ### The encode loop -/

section EncodeLoop

variable {s v : State} {sym : Nat}

theorem encodeLoop_zero (hv : SameModel s v) (hbase : weight s (.order 0) sym = 0) :
    encodeLoop sym 0 v = encStep (codeTriple s .base sym) v := by
  have hone : pdf s .base sym = 1 := (weight_base s sym).trans (if_pos hbase)
  rw [encodeLoop, hv.cdf, hv.massS, codeTriple, hone, massD_base]

theorem encodeLoop_of_zero (hv : SameModel s v) {k : Nat} (h : weight s (.order k) sym = 0) :
    encodeLoop sym (k + 1) v = (encStep (escapeTriple s k) v).andThen fun u => encodeLoop sym k (escapeOnce u) := by
  rw [encodeLoop, hv.weight, if_pos h, hv.massS, hv.massE, hv.massD, escapeTriple]

theorem encodeLoop_of_ne (hv : SameModel s v) {k : Nat} (h : weight s (.order k) sym ≠ 0) :
    encodeLoop sym (k + 1) v = encStep (codeTriple s (.order k) sym) v := by
  rw [encodeLoop, hv.weight, if_neg h, hv.cdf, hv.pdf, hv.massD, codeTriple]

/-- The encode loop goes on where the steps of the symbol's triples do, with the escapes counted in ESC (44_frequency_model.md R260). -/
theorem encodeLoop_eq_ok (hv : SameModel s v) {n m : Nat} (hbase : n = 0 → weight s (.order 0) sym = 0) {u : State} :
    encodeLoop sym n (v.withEsc m) = .ok u ↔
      ∃ w, encSteps (symbolTriples s sym n) v = .ok w ∧ u = w.withEsc (m + escapeCount s sym n) := by
  induction n generalizing v m with
  | zero => rw [encodeLoop_zero (hv.withEsc m) (hbase rfl), encStep_withEsc, symbolTriples, encSteps_singleton, CmdResult.withEsc_eq_ok]; rfl
  | succ k ih =>
    by_cases h : weight s (.order k) sym = 0
    · rw [encodeLoop_of_zero (hv.withEsc m) h, symbolTriples_of_zero h, escapeCount_of_zero h, encStep_withEsc, encSteps]
      cases hstep : encStep (escapeTriple s k) v with
      | ok w =>
        have hcount : m + (escapeCount s sym k + 1) = m + 1 + escapeCount s sym k := by omega
        rw [CmdResult.withEsc_ok, CmdResult.ok_andThen, CmdResult.ok_andThen, escapeOnce_withEsc, hcount]
        exact ih (hv.trans (encStep_frame hstep).sameModel) fun hk => hk ▸ h
      | raise f i w => simp
      | stuck r => simp
    · rw [encodeLoop_of_ne (hv.withEsc m) h, symbolTriples_of_ne h, escapeCount_of_ne h, encStep_withEsc, encSteps_singleton,
        CmdResult.withEsc_eq_ok]
      rfl

/-- A split of one triple is before it. -/
theorem encStep_of_singleton {a t : Triple} {pre post : List Triple} (hts : [a] = pre ++ t :: post) (hpre : encSteps pre v = .ok s)
    {x : CmdResult State} (ht : encStep t s = x) : pre.length = 0 ∧ encStep a v = x := by
  rcases List.append_eq_singleton_iff.mp hts.symm with ⟨rfl, h⟩ | ⟨-, h⟩
  · cases h
    cases hpre
    exact ⟨rfl, ht⟩
  · cases h

/-- Where a step faults, ESC counts the steps before it (44_frequency_model.md R260). -/
theorem encodeLoop_of_raise (hv : SameModel s v) {n m : Nat} (hbase : n = 0 → weight s (.order 0) sym = 0) {pre post : List Triple}
    {t : Triple} (hts : symbolTriples s sym n = pre ++ t :: post) {w : State} {f : FaultCode} {i : Nat} (hpre : encSteps pre v = .ok w)
    (ht : encStep t w = .raise f i w) : encodeLoop sym n (v.withEsc m) = .raise f i (w.withEsc (m + pre.length)) := by
  induction n generalizing v m pre with
  | zero =>
    obtain ⟨hlen, hstep⟩ := encStep_of_singleton hts hpre ht
    rw [encodeLoop_zero (hv.withEsc m) (hbase rfl), encStep_withEsc, hstep, hlen]
    rfl
  | succ k ih =>
    by_cases h : weight s (.order k) sym = 0
    · rw [encodeLoop_of_zero (hv.withEsc m) h, encStep_withEsc]
      rw [symbolTriples_of_zero h] at hts
      cases pre with
      | nil =>
        cases hpre
        rw [(List.cons.inj hts).1, ht]
        rfl
      | cons p pre =>
        obtain ⟨rfl, htail⟩ := List.cons.inj hts
        obtain ⟨u, hu, hpre⟩ := CmdResult.andThen_eq_ok.mp hpre
        rw [hu, CmdResult.withEsc_ok, CmdResult.ok_andThen, escapeOnce_withEsc, List.length_cons, Nat.add_comm pre.length, ← Nat.add_assoc]
        exact ih (hv.trans (encStep_frame hu).sameModel) (fun hk => hk ▸ h) htail hpre
    · obtain ⟨hlen, hstep⟩ := encStep_of_singleton (symbolTriples_of_ne h ▸ hts) hpre ht
      rw [encodeLoop_of_ne (hv.withEsc m) h, encStep_withEsc, hstep, hlen]
      rfl

end EncodeLoop

/-! ### Steps of the encoder's interval -/

/-- A legal triple's step raises RC_OUT_FULL with OUT_LEN, and nothing else (43_range_coder.md R207). -/
theorem EncoderOk.encStep_raise_outFull {s : State} (hs : EncoderOk s) {t : Triple} (ht : t.legal s.inst) {u : State} {f : FaultCode} {i : Nat}
    (h : encStep t s = .raise f i u) : f = .rcOutFull ∧ i = s.mem.obuf.length := by
  by_cases hf : t.freq = t.total
  · rw [encStep_of_certain ht hf] at h
    cases h
  · obtain ⟨e, he⟩ := renormCount_isSome s.inst (scaled_pos hs.coder.floor_le ht)
    obtain ⟨v, hv, -⟩ := hs.encStep_eq ht hf he
    rcases require_eq_raise.mp (hv.symm.trans h) with ⟨-, hcode, hinfo, -⟩ | ⟨-, hok⟩
    · exact ⟨hcode.symm, hinfo.symm⟩
    · cases hok

/-- A step emits at most N_BYTES bytes, so with room for them it goes on (43_range_coder.md R205, R207). -/
theorem EncoderOk.encStep_of_room {s : State} (hs : EncoderOk s) {t : Triple} (ht : t.legal s.inst)
    (hroom : s.mem.obuf.length + s.inst.nBytes ≤ s.inst.obufCap) :
    ∃ u, encStep t s = .ok u ∧ u.mem.obuf.length ≤ s.mem.obuf.length + s.inst.nBytes := by
  by_cases hf : t.freq = t.total
  · exact ⟨s, encStep_of_certain ht hf, Nat.le_add_right _ _⟩
  · obtain ⟨e, he⟩ := renormCount_isSome s.inst (scaled_pos hs.coder.floor_le ht)
    obtain ⟨u, hu, hnarrow⟩ := hs.encStep_eq ht hf he
    have hbytes : e ≤ s.inst.nBytes := (leastShift_eq_some.mp he).1
    exact ⟨u, hu.trans (require_pass (by omega) _ _ _ _), hnarrow.length.trans_le (Nat.add_le_add_left hbytes _)⟩

theorem EncoderOk.of_encSteps {s u : State} {ts : List Triple} (hs : EncoderOk s) (h : encSteps ts s = .ok u) : EncoderOk u := by
  induction ts generalizing s with
  | nil => cases h; exact hs
  | cons t ts ih =>
    obtain ⟨v, hv, h⟩ := CmdResult.andThen_eq_ok.mp h
    exact ih (hs.of_encStep hv) h

theorem EncoderOk.encSteps_of_room {s : State} {ts : List Triple} (hs : EncoderOk s) (hts : ∀ t ∈ ts, t.legal s.inst)
    (hroom : s.mem.obuf.length + ts.length * s.inst.nBytes ≤ s.inst.obufCap) : ∃ u, encSteps ts s = .ok u := by
  induction ts generalizing s with
  | nil => exact ⟨s, rfl⟩
  | cons t ts ih =>
    obtain ⟨ht, hts⟩ := List.forall_mem_cons.mp hts
    rw [List.length_cons, Nat.succ_mul] at hroom
    obtain ⟨u, hu, hlen⟩ := hs.encStep_of_room ht (by omega)
    have hinst : u.inst = s.inst := (encStep_frame hu).inst
    obtain ⟨v, hv⟩ := ih (hs.of_encStep hu) (hinst ▸ hts) (by rw [hinst]; omega)
    exact ⟨v, by rw [encSteps, hu]; exact hv⟩

/-! ### PPM_ENCODE -/

theorem State.withEsc_self {s : State} {n : Nat} (h : s.ppm.esc = n) : s.withEsc n = s := by
  rw [State.withEsc, ← h]

theorem exec_ppmEncode {s : State} (hs : s.session = true) (hm : s.mode = .encode) (hfin : s.rcFinished = false) (hesc : s.ppm.esc = 0)
    (sym : Nat) : exec (.ppmEncode sym) s = finish (requireSymbol sym s (requireHistRoom s (requireCtxRoom s
      ((encodeLoop sym (kmax s + 1) (s.withEsc 0)).andThen fun u => .ok ((updateModel u sym).setRes0 (toWord u.ppm.esc)))))) := by
  refine (finish_withNeeds (o := .ppmEncode) ⟨hs, hm⟩ _).trans ?_
  rw [requireNotFinished, hfin, Bool.not_false, require_true, requireNoEscape, require_pass hesc, ordersLeft_of_esc_zero hesc,
    State.withEsc_self hesc]

/-- With the checks passed, PPM_ENCODE does what its loop does, and then updates the model (44_frequency_model.md R260). -/
theorem exec_ppmEncode_of_room {s : State} (hs : s.session = true) (hm : s.mode = .encode) (hfin : s.rcFinished = false)
    (hesc : s.ppm.esc = 0) {sym : Nat} (hsym : sym < s.acfg.alpha) (hroom : s.ppm.hlen < s.inst.seqCap)
    (hctx : s.inst.ctxCap = 0 ∨ tableCount s.ppm + (newOrders s).length ≤ s.inst.ctxCap) :
    exec (.ppmEncode sym) s = finish ((encodeLoop sym (kmax s + 1) (s.withEsc 0)).andThen fun u =>
      .ok ((updateModel u sym).setRes0 (toWord u.ppm.esc))) := by
  rw [exec_ppmEncode hs hm hfin hesc, requireSymbol_of_lt hsym, requireHistRoom_of_lt hroom, requireCtxRoom_of_room hctx]

/-- The update after the coder's steps and n escapes is that of the state before them. -/
theorem SameModel.updateModel_withEsc {s u : State} (h : SameModel s u) (n sym : Nat) :
    updateModel (u.withEsc n) sym = { u with ppm := (updateModel s sym).ppm } := by
  rw [← (h.withEsc n).updateModel_ppm]
  rfl

/-- Settles O58: the triples of the symbol are legal, so a step raises RC_OUT_FULL or goes on, and N_BYTES bytes for each are room enough. -/
theorem ppmEncodeCodesItsTriples : Obligations.PpmEncodeCodesItsTriples := by
  intro s sym hs hsession hmode hfin hesc
  have hok := encoderOk_of_intervalOk hmode hs.coder hs.interval
  refine ⟨fun hsym => ?_, fun hsym hfull => ?_, fun hsym hroom hcap hfull =>
    ⟨_, isSmallestNewOrder_headD (hs.model.newOrders_ne_nil hcap hfull), ?_⟩, fun hsym hroom hctx => ?_⟩
  · rw [exec_ppmEncode hsession hmode hfin hesc, requireSymbol_of_le hsym, finish_raise]
  · rw [exec_ppmEncode hsession hmode hfin hesc, requireSymbol_of_lt hsym, requireHistRoom_of_le hfull, finish_raise]
  · rw [exec_ppmEncode hsession hmode hfin hesc, requireSymbol_of_lt hsym, requireHistRoom_of_lt hroom, requireCtxRoom_of_full hcap hfull,
      finish_raise]
  · rw [exec_ppmEncode_of_room hsession hmode hfin hesc hsym hroom hctx]
    have hlegal := (totalsOk_of_inv hs hsession).symbolTriples_legal hsym (n := kmax s + 1) nofun
    refine ⟨fun pre t post s1 f i hts hpre ht => ?_, fun hout => ?_⟩
    · have hinst : s1.inst = s.inst := (encSteps_frame hpre).inst
      obtain ⟨rfl, rfl⟩ := (hok.of_encSteps hpre).encStep_raise_outFull (hinst ▸ hlegal t (by simp [hts])) ht
      rw [encodeLoop_of_raise (n := kmax s + 1) (.refl s) nofun hts hpre ht, Nat.zero_add, CmdResult.raise_andThen, finish_raise]
      exact ⟨rfl, rfl, rfl⟩
    · have hcount := escapeCount_le s sym (kmax s + 1)
      have hbytes : (symbolTriples s sym (kmax s + 1)).length * s.inst.nBytes ≤ (kmax s + 2) * s.inst.nBytes :=
        Nat.mul_le_mul_right _ (by rw [length_symbolTriples]; omega)
      obtain ⟨s1, hs1⟩ := hok.encSteps_of_room hlegal (by omega)
      obtain ⟨hzero, hne⟩ := escapeCount_spec s sym (kmax s)
      refine ⟨_, s1, hcount, hzero, hne, hs1, encSteps_frame hs1, ?_⟩
      rw [(encodeLoop_eq_ok (n := kmax s + 1) (.refl s) nofun).mpr ⟨s1, hs1, rfl⟩, CmdResult.ok_andThen, finish_ok, Nat.zero_add,
        (encSteps_frame hs1).sameModel.updateModel_withEsc]
      rfl

end Sys2Proof.Machine
end

section
/-! PROOFS. PPM_DECODE: where the decode steps of a symbol's triples succeed, each fetch falls in the bucket of the next triple, so the decode loop takes the same steps and finds the symbol; and the command's faults (44_frequency_model.md R258, R261). -/

namespace Sys2Proof.Machine

/-! ### Levels with one admitted symbol -/

theorem admitted_eq_length (s : State) (lv : Level) :
    admitted s lv = ((List.range s.acfg.alpha).filter (fun x => 0 < weight s lv x)).length :=
  sumBelow_indicator (fun x => 0 < weight s lv x) s.acfg.alpha

/-- A symbol with weight is the only one admitted where its weight is the whole sum (44_frequency_model.md R261). -/
theorem admitted_eq_one_iff {s : State} {lv : Level} {sym : Nat} (hsym : sym < s.acfg.alpha) (h : weight s lv sym ≠ 0) :
    admitted s lv = 1 ↔ massS s lv = weight s lv sym := by
  have hone : (if 0 < weight s lv sym then 1 else 0) = 1 := if_pos (Nat.pos_of_ne_zero h)
  rw [massS, sumBelow_eq_term_iff hsym, admitted]
  nth_rw 2 [← hone]
  rw [sumBelow_eq_term_iff (f := fun x => if 0 < weight s lv x then 1 else 0) hsym]
  simp

theorem admitted_base (s : State) : admitted s .base = massS s .base := by
  refine sumBelow_congr fun x _ => ?_
  rw [weight_base]
  split <;> rfl

/-- A symbol whose weight is the whole sum is the symbol of value 0. -/
theorem icdf_zero_eq {s : State} {lv : Level} {sym : Nat} (hsym : sym < s.acfg.alpha) (h : weight s lv sym ≠ 0)
    (hall : massS s lv = weight s lv sym) : icdf s lv 0 = sym := by
  have hfit := cdf_add_pdf_le s lv hsym
  have hpdf : pdf s lv sym = weight s lv sym := rfl
  exact icdf_eq hsym (by omega) (by omega)

/-! ### Decode steps and ESC -/

@[simp] theorem decFetch_withEsc (total : Nat) (s : State) (n : Nat) : decFetch total (s.withEsc n) = decFetch total s := rfl

theorem takeBytes_withEsc (e : Nat) (s : State) (n : Nat) : takeBytes e (s.withEsc n) = (takeBytes e s).withEsc n := by
  induction e generalizing s with
  | zero => rfl
  | succ e ih => exact ih (takeByte s)

/-- A decode step does not bear on ESC, nor ESC on it (43_range_coder.md R211). -/
theorem decStep_withEsc (t : Triple) (s : State) (n : Nat) : decStep t (s.withEsc n) = (decStep t s).withEsc n := by
  refine require_withEsc (require_withEsc (require_withEsc ?_))
  split
  · rfl
  · refine require_withEsc ?_
    simp only [State.withEsc_rc, State.withEsc_inst, State.withEsc_mem]
    cases renormCount s.inst (scaled s.inst s.rc.range t.freq t.total) with
    | none => rfl
    | some e => exact require_withEsc (congrArg CmdResult.ok (takeBytes_withEsc e { s with rc := { s.rc with
        low := (s.rc.low + scaled s.inst s.rc.range t.cum t.total) % s.inst.modulus, range := scaled s.inst s.rc.range t.freq t.total } } n))

theorem decSteps_singleton (t : Triple) (s : State) : decSteps [t] s = decStep t s := by
  rw [decSteps]
  cases decStep t s <;> rfl

theorem decSteps_frame {ts : List Triple} {s u : State} (h : decSteps ts s = .ok u) : u = { s with rc := u.rc } := by
  induction ts generalizing s with
  | nil => cases h; rfl
  | cons t ts ih =>
    obtain ⟨v, hv, h⟩ := CmdResult.andThen_eq_ok.mp h
    rw [ih h, decStep_frame hv]

theorem sameModel_of_coderOnly {s u : State} (h : u = { s with rc := u.rc }) : SameModel s u := by
  rw [h]
  exact ⟨rfl, rfl, rfl, rfl⟩

theorem inst_of_coderOnly {s u : State} (h : u = { s with rc := u.rc }) : u.inst = s.inst := by rw [h]

theorem decSteps_floorReached {ts : List Triple} {s u : State} (hs : FloorReached s) (h : decSteps ts s = .ok u) : FloorReached u := by
  induction ts generalizing s with
  | nil => cases h; exact hs
  | cons t ts ih =>
    obtain ⟨v, hv, h⟩ := CmdResult.andThen_eq_ok.mp h
    exact ih (decStep_floorReached hs hv) h

/-- Where a step of a triple that is not certain goes on, the fetch is in the triple's bucket (43_range_coder.md R218). -/
theorem decFetch_of_decStep {t : Triple} {v w : State} (h : decStep t v = .ok w) (hf : t.freq ≠ t.total) :
    t.cum ≤ decFetch t.total v ∧ decFetch t.total v < t.cum + t.freq := by
  obtain ⟨ht, ⟨hcertain, -⟩ | ⟨-, hlo, hhi, -⟩⟩ := decStep_eq_ok h
  · exact absurd hcertain hf
  · exact decFetch_mem_bucket ht ⟨hlo, hhi⟩

/-- A certain step that goes on does nothing (43_range_coder.md R208). -/
theorem decStep_certain_eq {t : Triple} {v w : State} (h : decStep t v = .ok w) (hf : t.freq = t.total) : w = v := by
  rw [decStep_of_certain (decStep_eq_ok h).1 hf] at h
  cases h
  rfl

/-- A legal triple's step raises RC_DESYNC or RC_IN_UNDERRUN, and nothing else (43_range_coder.md R211). -/
theorem decStep_raise_of_legal {t : Triple} {s u : State} {f : FaultCode} {i : Nat} (ht : t.legal s.inst) (hs : FloorReached s)
    (h : decStep t s = .raise f i u) : f ∈ [FaultCode.rcDesync, .rcInUnderrun] := by
  by_cases hf : t.freq = t.total
  · rw [decStep_of_certain ht hf] at h
    cases h
  · obtain ⟨e, he⟩ := renormCount_isSome s.inst (scaled_pos hs ht)
    rw [decStep_eq ht hf he, require_eq_raise, require_eq_raise] at h
    rcases h with ⟨-, rfl, -⟩ | ⟨-, ⟨-, rfl, -⟩ | ⟨-, hok⟩⟩
    · exact List.mem_cons_self
    · exact List.mem_cons_of_mem _ List.mem_cons_self
    · cases hok

/-! ### The branches of the decode loop -/

section Branches

variable {s v : State} (hv : SameModel s v)
include hv

theorem decodeLoop_base_of_empty (h : massS s .base = 0) : decodeLoop 0 v = .raise .rcDesync (windowPos v) v := by
  rw [decodeLoop, hv.massS]
  exact if_pos h

theorem decodeLoop_base_of_single (h : massS s .base = 1) : decodeLoop 0 v = .ok (icdf s .base 0, v) := by
  rw [decodeLoop, hv.massS, hv.icdf]
  simp only [h, if_neg Nat.one_ne_zero, if_true]

/-- At BASE the fetched value is the rank of a symbol of U, and its triple is the symbol's (44_frequency_model.md R246, R261). -/
theorem decodeLoop_base_of_fetch (h0 : massS s .base ≠ 0) (h1 : massS s .base ≠ 1) {sym : Nat} (hsym : sym < s.acfg.alpha)
    (hweight : weight s .base sym = 1) (ht : decFetch (massS s .base) v = cdf s .base sym) :
    decodeLoop 0 v = (decStep (codeTriple s .base sym) v).andThen fun w => .ok (sym, w) := by
  have hpdf : pdf s .base sym = 1 := hweight
  rw [decodeLoop, hv.massS, hv.icdf]
  simp only [if_neg h0, if_neg h1, ht]
  rw [icdf_eq hsym (le_refl _) (by omega), codeTriple, hpdf, massD_base]

section Order

variable {k : Nat}

theorem decodeLoop_of_certain (h : massE s (.order k) = massD s (.order k)) : decodeLoop (k + 1) v = decodeLoop k (escapeOnce v) := by
  rw [decodeLoop, hv.massE, hv.massD]
  exact if_pos h

variable (hne : massE s (.order k) ≠ massD s (.order k))
include hne

theorem decodeLoop_of_single (h : massE s (.order k) = 0 ∧ admitted s (.order k) = 1) :
    decodeLoop (k + 1) v = .ok (icdf s (.order k) 0, v) := by
  rw [decodeLoop, hv.massE, hv.massD, hv.admitted, hv.icdf]
  exact (if_neg hne).trans (if_pos h)

variable (hmany : ¬ (massE s (.order k) = 0 ∧ admitted s (.order k) = 1))
include hmany

theorem decodeLoop_of_escapeZone (h : massS s (.order k) ≤ decFetch (massD s (.order k)) v) :
    decodeLoop (k + 1) v = (decStep (escapeTriple s k) v).andThen fun w => decodeLoop k (escapeOnce w) := by
  rw [decodeLoop, hv.massE, hv.massD, hv.massS, hv.admitted]
  exact (if_neg hne).trans ((if_neg hmany).trans (if_pos h))

theorem decodeLoop_of_fetch {sym : Nat} (h : decFetch (massD s (.order k)) v < massS s (.order k))
    (hsym : icdf s (.order k) (decFetch (massD s (.order k)) v) = sym) :
    decodeLoop (k + 1) v = (decStep (codeTriple s (.order k) sym) v).andThen fun w => .ok (sym, w) := by
  rw [decodeLoop, hv.massE, hv.massD, hv.massS, hv.admitted, hv.icdf, hv.cdf, hv.pdf]
  subst hsym
  exact (if_neg hne).trans ((if_neg hmany).trans (if_neg h.not_ge))

end Order

end Branches

/-! ### The decode loop follows the triples -/

section Follow

variable {s v w : State}

/-- Where the step of an order's escape triple goes on, the loop escapes: with no step where the escape is certain, after a fetch in the escape zone otherwise (44_frequency_model.md R261). -/
theorem decodeLoop_of_escape (hv : SameModel s v) {k m : Nat} (h : decStep (escapeTriple s k) v = .ok w) :
    decodeLoop (k + 1) (v.withEsc m) = decodeLoop k (w.withEsc (m + 1)) := by
  obtain ⟨-, -, hfreq, -⟩ := (decStep_eq_ok h).1
  rw [escapeTriple_freq] at hfreq
  by_cases hcertain : massE s (.order k) = massD s (.order k)
  · obtain rfl := decStep_certain_eq h hcertain
    rw [decodeLoop_of_certain (hv.withEsc m) hcertain, escapeOnce_withEsc]
  · obtain ⟨hzone, -⟩ := decFetch_of_decStep h hcertain
    rw [decodeLoop_of_escapeZone (hv.withEsc m) hcertain (fun hsingle => by omega) hzone, decStep_withEsc, h, CmdResult.withEsc_ok,
      CmdResult.ok_andThen, escapeOnce_withEsc]

/-- Where the step of a symbol's triple at an order goes on, the loop gives the symbol (44_frequency_model.md R261). -/
theorem decodeLoop_of_code (hv : SameModel s v) {k m sym : Nat} (hsym : sym < s.acfg.alpha)
    (h : decStep (codeTriple s (.order k) sym) v = .ok w) : decodeLoop (k + 1) (v.withEsc m) = .ok (sym, w.withEsc m) := by
  obtain ⟨-, -, hfreq, -⟩ := (decStep_eq_ok h).1
  rw [codeTriple_freq] at hfreq
  have hweight : weight s (.order k) sym ≠ 0 := Nat.one_le_iff_ne_zero.mp hfreq
  have hfit : cdf s (.order k) sym + weight s (.order k) sym ≤ massS s (.order k) := cdf_add_pdf_le s _ hsym
  have hsum : massD s (.order k) = massS s (.order k) + massE s (.order k) := rfl
  have honly := admitted_eq_one_iff hsym hweight
  by_cases hsingle : massE s (.order k) = 0 ∧ admitted s (.order k) = 1
  · have hall := honly.mp hsingle.2
    obtain rfl := decStep_certain_eq h (by rw [codeTriple_freq, codeTriple_total]; omega)
    rw [decodeLoop_of_single (hv.withEsc m) (by omega) hsingle, icdf_zero_eq hsym hweight hall]
  · have hne : weight s (.order k) sym ≠ massD s (.order k) := fun hall => hsingle ⟨by omega, honly.mpr (by omega)⟩
    obtain ⟨hlo, hhi⟩ := decFetch_of_decStep h hne
    rw [decodeLoop_of_fetch (hv.withEsc m) (by omega) hsingle (hhi.trans_le hfit) (icdf_eq hsym hlo hhi), decStep_withEsc, h,
      CmdResult.withEsc_ok, CmdResult.ok_andThen]

theorem weight_base_le (s : State) (x : Nat) : weight s .base x ≤ 1 := by
  rw [weight_base]
  split <;> omega

/-- Where the step of a symbol's triple at BASE goes on, the loop gives the symbol (44_frequency_model.md R261). -/
theorem decodeLoop_of_baseCode (hv : SameModel s v) {m sym : Nat} (hsym : sym < s.acfg.alpha)
    (h : decStep (codeTriple s .base sym) v = .ok w) : decodeLoop 0 (v.withEsc m) = .ok (sym, w.withEsc m) := by
  obtain ⟨-, -, hfreq, -⟩ := (decStep_eq_ok h).1
  rw [codeTriple_freq] at hfreq
  have hweight : weight s .base sym = 1 := le_antisymm (weight_base_le s sym) hfreq
  have hpos := massS_pos_of_weight hsym (Nat.one_le_iff_ne_zero.mp hfreq)
  by_cases hsingle : massS s .base = 1
  · obtain rfl := decStep_certain_eq h (by rw [codeTriple_freq, codeTriple_total, massD_base, hweight, hsingle])
    rw [decodeLoop_base_of_single (hv.withEsc m) hsingle, icdf_zero_eq hsym (by omega) (by omega)]
  · have hne : weight s .base sym ≠ massD s .base := by rw [massD_base]; omega
    obtain ⟨hlo, hhi⟩ := decFetch_of_decStep h hne
    rw [codeTriple_cum, codeTriple_total, massD_base] at hlo
    rw [codeTriple_cum, codeTriple_freq, codeTriple_total, massD_base] at hhi
    rw [decodeLoop_base_of_fetch (hv.withEsc m) (by omega) hsingle hsym hweight (by rw [decFetch_withEsc]; omega), decStep_withEsc, h,
      CmdResult.withEsc_ok, CmdResult.ok_andThen]

/-- Where the steps of a symbol's triples go on, the loop takes them, counts the escapes in ESC and gives the symbol (44_frequency_model.md R261). -/
theorem decodeLoop_of_decSteps (hv : SameModel s v) {n m sym : Nat} (hsym : sym < s.acfg.alpha)
    (h : decSteps (symbolTriples s sym n) v = .ok w) : decodeLoop n (v.withEsc m) = .ok (sym, w.withEsc (m + escapeCount s sym n)) := by
  induction n generalizing v m with
  | zero => exact decodeLoop_of_baseCode hv hsym (decSteps_singleton _ v ▸ h)
  | succ k ih =>
    by_cases hzero : weight s (.order k) sym = 0
    · rw [symbolTriples_of_zero hzero] at h
      obtain ⟨u, hu, h⟩ := CmdResult.andThen_eq_ok.mp h
      rw [decodeLoop_of_escape hv hu, escapeCount_of_zero hzero, Nat.add_comm (escapeCount s sym k), ← Nat.add_assoc]
      exact ih (hv.trans (decStep_coderFrame hu).sameModel) h
    · rw [symbolTriples_of_ne hzero, decSteps_singleton] at h
      rw [decodeLoop_of_code hv hsym h, escapeCount_of_ne hzero]
      rfl

/-- Where the steps of the first j escape triples go on, the loop takes them and comes to the next level (44_frequency_model.md R261). -/
theorem decodeLoop_of_escapesFromTop {j : Nat} (hj : j ≤ kmax s + 1) (h : decSteps (escapesFromTop s j) s = .ok w) :
    decodeLoop (kmax s + 1) (s.withEsc 0) = decodeLoop (kmax s + 1 - j) (w.withEsc j) := by
  induction j generalizing w with
  | zero => cases h; rfl
  | succ j ih =>
    rw [escapesFromTop_succ, decSteps_append] at h
    obtain ⟨u, hu, h⟩ := CmdResult.andThen_eq_ok.mp h
    rw [decSteps_singleton] at h
    rw [ih (by omega) hu, Nat.sub_add_comm (by omega), decodeLoop_of_escape (sameModel_of_coderOnly (decSteps_frame hu)) h,
      Nat.add_sub_add_right]

end Follow

/-! ### Fetched values whose step faults -/

/-- A level's total is 0 at BASE alone, where the escape mass is 0 too (44_frequency_model.md R245, R246). -/
theorem TotalsOk.massD_pos_of_ne {s : State} (hs : TotalsOk s) {lv : Level} (h : massE s lv ≠ massD s lv) : 1 ≤ massD s lv := by
  cases lv with
  | order k => exact massD_order_pos hs.alpha_pos k
  | base => exact Nat.pos_of_ne_zero fun h0 => h (h0 ▸ massE_base s)

theorem TotalsOk.fetchedTriple_legal {s : State} (hs : TotalsOk s) {lv : Level} {t : Nat} (ht : t < massD s lv) :
    (fetchedTriple s lv t).legal s.inst := by
  have hcode {lv : Level} (hlt : t < massS s lv) : (codeTriple s lv (icdf s lv t)).legal s.inst := by
    obtain ⟨hsym, hlo, hhi⟩ := icdf_spec s lv t hlt
    have hpdf : pdf s lv (icdf s lv t) = weight s lv (icdf s lv t) := rfl
    exact hs.codeTriple_legal hsym (by omega)
  cases lv with
  | base => exact hcode ht
  | order k =>
    rw [fetchedTriple]
    split
    · next hge =>
      have hsum : massD s (.order k) = massS s (.order k) + massE s (.order k) := rfl
      exact hs.escapeTriple_legal (by omega)
    · next hlt => exact hcode (Nat.not_le.mp hlt)

/-- At an order the loop takes the step of the fetched triple, and ends where it faults (44_frequency_model.md R261). -/
theorem decodeLoop_of_fetch_raise {s v : State} (hv : SameModel s v) {k m : Nat} (hne : massE s (.order k) ≠ massD s (.order k))
    (hmany : ¬ (massE s (.order k) = 0 ∧ admitted s (.order k) = 1)) {f : FaultCode} {i : Nat}
    (h : decStep (fetchedTriple s (.order k) (decFetch (massD s (.order k)) v)) v = .raise f i v) :
    decodeLoop (k + 1) (v.withEsc m) = .raise f i (v.withEsc m) := by
  rw [fetchedTriple] at h
  split at h
  · next hge => rw [decodeLoop_of_escapeZone (hv.withEsc m) hne hmany hge, decStep_withEsc, h]; rfl
  · next hlt => rw [decodeLoop_of_fetch (hv.withEsc m) hne hmany (Nat.not_le.mp hlt) rfl, decFetch_withEsc, decStep_withEsc, h]; rfl

/-- At BASE the loop takes the step of the fetched triple, and ends where it faults (44_frequency_model.md R261). -/
theorem decodeLoop_base_of_fetch_raise {s v : State} (hv : SameModel s v) {m : Nat} (hne : massE s .base ≠ massD s .base)
    (hmany : ¬ (massE s .base = 0 ∧ admitted s .base = 1)) (ht : decFetch (massD s .base) v < massD s .base) {f : FaultCode} {i : Nat}
    (h : decStep (fetchedTriple s .base (decFetch (massD s .base) v)) v = .raise f i v) :
    decodeLoop 0 (v.withEsc m) = .raise f i (v.withEsc m) := by
  rw [massE_base, massD_base] at hne
  rw [admitted_base] at hmany
  rw [massD_base] at ht h
  obtain ⟨hsym, hlo, hhi⟩ := icdf_spec s .base _ ht
  have hpdf : pdf s .base (icdf s .base (decFetch (massS s .base) v)) ≤ 1 := weight_base_le s _
  have hweight : weight s .base (icdf s .base (decFetch (massS s .base) v)) = 1 := le_antisymm hpdf (by rw [pdf] at hhi; omega)
  rw [decodeLoop_base_of_fetch (hv.withEsc m) hne.symm (fun h1 => hmany ⟨rfl, h1⟩) hsym hweight (by rw [decFetch_withEsc]; omega),
    decStep_withEsc]
  rw [fetchedTriple] at h
  rw [h]
  rfl

/-! ### PPM_DECODE -/

theorem exec_ppmDecode {s : State} (hs : s.session = true) (hm : s.mode = .decode) (hready : s.rcDecReady = true) (hesc : s.ppm.esc = 0) :
    exec .ppmDecode s = finish (requireHistRoom s ((decodeLoop (kmax s + 1) (s.withEsc 0)).andThen fun r =>
      requireCtxRoom r.2 (.ok (((updateModel r.2 r.1).setRes0 (toWord r.1)).setRes1 (toWord r.2.ppm.esc))))) := by
  refine (finish_withNeeds (o := .ppmDecode) ⟨hs, hm⟩ _).trans ?_
  rw [requireStarted, hready, require_true, requireNoEscape, require_pass hesc, ordersLeft_of_esc_zero hesc, State.withEsc_self hesc]

/-- The coder's steps and ESC bear on none of what the check of CTX compares. -/
theorem ctxLoad_withEsc {s u : State} (h : u = { s with rc := u.rc }) (n : Nat) :
    (u.withEsc n).inst = s.inst ∧ tableCount (u.withEsc n).ppm = tableCount s.ppm ∧ newOrders (u.withEsc n) = newOrders s :=
  have hm := (sameModel_of_coderOnly h).withEsc n
  ⟨(inst_of_coderOnly h :), congrArg List.length hm.2.1, hm.newOrders⟩

section AfterSteps

variable {s u : State} {sym n : Nat} (hs : s.session = true) (hm : s.mode = .decode) (hready : s.rcDecReady = true) (hesc : s.ppm.esc = 0)
  (hroom : s.ppm.hlen < s.inst.seqCap)
include hs hm hready hesc hroom

/-- A loop that faults ends the command (44_frequency_model.md R261). -/
theorem exec_ppmDecode_of_raise {f : FaultCode} {i : Nat} (h : decodeLoop (kmax s + 1) (s.withEsc 0) = .raise f i u) :
    exec .ppmDecode s = .next (u.takeFault f i) := by
  rw [exec_ppmDecode hs hm hready hesc, requireHistRoom_of_lt hroom, h, CmdResult.raise_andThen, finish_raise]

variable (hsym : sym < s.acfg.alpha) (h : decSteps (symbolTriples s sym (kmax s + 1)) s = .ok u)
include hsym h

/-- After the steps of a symbol's triples only the room in CTX is left to check (44_frequency_model.md R261). -/
theorem exec_ppmDecode_of_decSteps :
    exec .ppmDecode s = finish (requireCtxRoom (u.withEsc (escapeCount s sym (kmax s + 1)))
      (.ok { u with ppm := (updateModel s sym).ppm, res0 := toWord sym, res1 := toWord (escapeCount s sym (kmax s + 1)) })) := by
  rw [exec_ppmDecode hs hm hready hesc, requireHistRoom_of_lt hroom, decodeLoop_of_decSteps (.refl s) hsym h, CmdResult.ok_andThen,
    Nat.zero_add, (sameModel_of_coderOnly (decSteps_frame h)).updateModel_withEsc]
  rfl

theorem exec_ppmDecode_of_ctxRoom (hctx : s.inst.ctxCap = 0 ∨ tableCount s.ppm + (newOrders s).length ≤ s.inst.ctxCap) :
    exec .ppmDecode s = .next (State.complete { u with
      ppm := (updateModel s sym).ppm, res0 := toWord sym, res1 := toWord (escapeCount s sym (kmax s + 1)) }) := by
  obtain ⟨hinst, hcount, horders⟩ := ctxLoad_withEsc (decSteps_frame h) (escapeCount s sym (kmax s + 1))
  rw [exec_ppmDecode_of_decSteps hs hm hready hesc hroom hsym h, requireCtxRoom_of_room, finish_ok]
  rwa [hinst, hcount, horders]

theorem exec_ppmDecode_of_ctxFull (hcap : s.inst.ctxCap ≠ 0) (hfull : s.inst.ctxCap < tableCount s.ppm + (newOrders s).length) :
    exec .ppmDecode s = .next ((u.withEsc (escapeCount s sym (kmax s + 1))).takeFault .ctxFull ((newOrders s).headD 0)) := by
  obtain ⟨hinst, hcount, horders⟩ := ctxLoad_withEsc (decSteps_frame h) (escapeCount s sym (kmax s + 1))
  rw [← hinst, ← hcount, ← horders] at hfull
  rw [exec_ppmDecode_of_decSteps hs hm hready hesc hroom hsym h, requireCtxRoom_of_full (hinst ▸ hcap) hfull, finish_raise, horders]

end AfterSteps

/-- Settles O59: the loop takes the steps of the symbol's triples, and each fault is the one its next check or step raises. -/
theorem ppmDecodeReturnsTheCodedSymbol : Obligations.PpmDecodeReturnsTheCodedSymbol := by
  intro s hs hsession hmode hready hesc
  have htotals := totalsOk_of_inv hs hsession
  refine ⟨fun hfull => ?_, fun hroom => ⟨fun s1 h hempty => ?_, fun j s1 f i hj h => ?_, fun sym s1 hsym h => ?_⟩⟩
  · rw [exec_ppmDecode hsession hmode hready hesc, requireHistRoom_of_le hfull, finish_raise]
  · refine exec_ppmDecode_of_raise hsession hmode hready hesc hroom ?_
    rw [decodeLoop_of_escapesFromTop (le_refl _) h, Nat.sub_self]
    exact decodeLoop_base_of_empty ((sameModel_of_coderOnly (decSteps_frame h)).withEsc _) hempty
  · intro lv hne hmany hstep
    have hlv : lv = if j = kmax s + 1 then Level.base else Level.order (kmax s - j) := rfl
    clear_value lv
    rw [← admitted_eq_length] at hmany
    have hmodel := sameModel_of_coderOnly (decSteps_frame h)
    have hinst : s1.inst = s.inst := inst_of_coderOnly (decSteps_frame h)
    have hfetch : decFetch (massD s lv) s1 < massD s lv :=
      (decFetch_spec (htotals.massD_pos_of_ne hne) (hinst ▸ htotals.massD_le_totalMax lv)).1
    refine ⟨decStep_raise_of_legal (hinst ▸ htotals.fetchedTriple_legal hfetch) (decSteps_floorReached hs.coder.floor_le h) hstep,
      exec_ppmDecode_of_raise hsession hmode hready hesc hroom ?_⟩
    rw [decodeLoop_of_escapesFromTop hj h]
    rcases Nat.eq_or_lt_of_le hj with rfl | hlt
    · obtain rfl := hlv.trans (if_pos rfl)
      rw [Nat.sub_self]
      exact decodeLoop_base_of_fetch_raise hmodel hne hmany hfetch hstep
    · obtain rfl := hlv.trans (if_neg hlt.ne)
      rw [Nat.sub_add_comm (Nat.lt_succ_iff.mp hlt)]
      exact decodeLoop_of_fetch_raise hmodel hne hmany hstep
  · obtain ⟨hzero, hne⟩ := escapeCount_spec s sym (kmax s)
    exact ⟨_, escapeCount_le s sym _, hzero, hne, decSteps_frame h,
      fun hcap hfull => ⟨_, isSmallestNewOrder_headD (hs.model.newOrders_ne_nil hcap hfull),
        exec_ppmDecode_of_ctxFull hsession hmode hready hesc hroom hsym h hcap hfull⟩,
      exec_ppmDecode_of_ctxRoom hsession hmode hready hesc hroom hsym h⟩

end Sys2Proof.Machine
end

section
/-! PROOFS. The round trip of the entropy path: a decoder whose model agrees with the encoder's takes the steps of the triples the encoder has coded, so the models agree before every symbol (44_frequency_model.md R262). -/

namespace Sys2Proof.Machine

/-! ### Sessions with the same model -/

/-- The two sessions agree on all that the model's quantities are computed from (44_frequency_model.md R241 to R248). -/
structure ModelsAgree (s t : State) : Prop where
  alpha : t.acfg.alpha = s.acfg.alpha
  order : t.acfg.order = s.acfg.order
  method : t.acfg.method = s.acfg.method
  ppm : t.ppm = s.ppm

section Agree

variable {s t : State} (h : ModelsAgree s t)
include h

theorem ModelsAgree.kmax : kmax t = kmax s := by rw [Machine.kmax, h.order, h.ppm, Machine.kmax]

theorem ModelsAgree.weight : weight t = weight s := by
  funext lv sym
  cases lv <;> simp only [Machine.weight, h.method, h.ppm]

theorem ModelsAgree.massS : massS t = massS s := by funext lv; rw [Machine.massS, h.weight, h.alpha, Machine.massS]

theorem ModelsAgree.massE : massE t = massE s := by
  funext lv
  cases lv <;> simp only [Machine.massE, Machine.distinct, h.alpha, h.method, h.ppm]

theorem ModelsAgree.massD : massD t = massD s := by funext lv; rw [Machine.massD, h.massS, h.massE, Machine.massD]

theorem ModelsAgree.escapeTriple (k : Nat) : escapeTriple t k = escapeTriple s k := by
  rw [Machine.escapeTriple, h.massS, h.massE, h.massD, Machine.escapeTriple]

theorem ModelsAgree.codeTriple (lv : Level) (sym : Nat) : codeTriple t lv sym = codeTriple s lv sym := by
  simp only [Machine.codeTriple, cdf, pdf, h.weight, h.massD]

theorem ModelsAgree.symbolTriples (sym n : Nat) : symbolTriples t sym n = symbolTriples s sym n := by
  induction n with
  | zero => rw [Machine.symbolTriples, h.codeTriple, Machine.symbolTriples]
  | succ k ih => simp only [Machine.symbolTriples, h.weight, h.escapeTriple, h.codeTriple, ih]

theorem ModelsAgree.newOrders : newOrders t = newOrders s := by rw [Machine.newOrders, h.kmax, h.ppm, Machine.newOrders]

theorem ModelsAgree.updateModel_ppm (sym : Nat) : (updateModel t sym).ppm = (updateModel s sym).ppm :=
  updateModel_ppm_congr h.order (congrArg Model.ctx h.ppm) (congrArg Model.hist h.ppm) (congrArg Model.hlen h.ppm) sym

end Agree

/-! ### The encoder's steps, and the decoder's after them -/

section Steps

variable {out : List Byte} {t : Triple} {ts : List Triple} {e f d : State}

/-- Encode steps of legal triples that go on are the first step and the others. -/
theorem EncoderOk.encSteps_cons (he : EncoderOk e) (hts : ∀ u ∈ t :: ts, u.legal e.inst) (h : encSteps (t :: ts) e = .ok f) :
    ∃ g n, Encoded t n e g ∧ EncoderOk g ∧ t.legal e.inst ∧ (∀ u ∈ ts, u.legal g.inst) ∧ encSteps ts g = .ok f := by
  obtain ⟨g, hg, hrest⟩ := CmdResult.andThen_eq_ok.mp h
  obtain ⟨ht, hts⟩ := List.forall_mem_cons.mp hts
  obtain ⟨n, hn, hnarrow⟩ := he.narrowed_of_encStep ht hg
  exact ⟨g, n, ⟨hnarrow.inst, hn, hnarrow.length, hnarrow.value, hnarrow.range⟩, he.of_encStep hg, ht, hnarrow.inst ▸ hts, hrest⟩

/-- A stream located after encode steps is located before them. -/
theorem Locates.before_encSteps (he : EncoderOk e) (hts : ∀ t ∈ ts, t.legal e.inst) (h : encSteps ts e = .ok f) (hf : Locates out f) :
    Locates out e := by
  induction ts generalizing e with
  | nil => cases h; exact hf
  | cons t ts ih =>
    obtain ⟨g, n, hn, hg, ht, hts, hrest⟩ := he.encSteps_cons hts h
    exact (ih hg hts hrest).before ht hn

/-- Where the encoder has taken the steps of triples, the decoder's steps follow to the end (43_range_coder.md R218). -/
theorem Follows.decSteps (hd : Follows out e d) (he : EncoderOk e) (hts : ∀ t ∈ ts, t.legal e.inst) (h : encSteps ts e = .ok f)
    (hf : Locates out f) : ∃ c, decSteps ts d = .ok c ∧ Follows out f c := by
  induction ts generalizing e d with
  | nil => cases h; exact ⟨d, rfl, hd⟩
  | cons t ts ih =>
    obtain ⟨g, n, hn, hg, ht, hts, hrest⟩ := he.encSteps_cons hts h
    obtain ⟨c, hc, hfollow⟩ := hd.decStep he ht (hf.before_encSteps hg hts hrest) hn
    obtain ⟨c', hc', hend⟩ := ih hfollow hg hts hrest
    exact ⟨c', by rw [Machine.decSteps, hc, CmdResult.ok_andThen, hc'], hend⟩

end Steps

/-! ### PPM_ENCODE of the symbols -/

/-- An encode session at the top level of a consistent model. -/
structure PpmEncoding (s : State) : Prop extends Encoding s, TotalsOk s where
  esc : s.ppm.esc = 0

/-- f is e after PPM_ENCODE of x, with v after its steps (44_frequency_model.md R260). -/
structure SymbolEncoded (x : Nat) (e v f : State) : Prop where
  symbol : x < e.acfg.alpha
  histRoom : e.ppm.hlen < e.inst.seqCap
  ctxRoom : e.inst.ctxCap = 0 ∨ tableCount e.ppm + (newOrders e).length ≤ e.inst.ctxCap
  steps : encSteps (symbolTriples e x (kmax e + 1)) e = .ok v
  result : f = State.complete { v with ppm := (updateModel e x).ppm, res0 := toWord (escapeCount e x (kmax e + 1)) }

theorem ppmEncoding_of_init {s t : State} (h : completes (.init .encode) s = some t) : PpmEncoding t := by
  have hencoding := encoding_of_init h
  obtain ⟨u, hu, -⟩ := completes_of_finish (exec_init .encode s) h
  obtain ⟨halpha, -⟩ := require_eq_ok.mp hu
  obtain ⟨rfl, -⟩ := completes_init h
  obtain ⟨hpos, hle⟩ := of_decide_eq_true halpha
  exact ⟨hencoding, ⟨modelOk_of_ppm_eq_reset rfl, hpos, hle⟩, rfl⟩

section Encode

variable {out : List Byte} {x : Nat} {xs : List Nat} {e v f : State}

theorem PpmEncoding.triples_legal (he : PpmEncoding e) (hx : x < e.acfg.alpha) : ∀ t ∈ symbolTriples e x (kmax e + 1), t.legal e.inst :=
  he.symbolTriples_legal hx nofun

theorem PpmEncoding.symbolEncoded (he : PpmEncoding e) (h : completes (.ppmEncode x) e = some f) : ∃ v, SymbolEncoded x e v f := by
  obtain ⟨u, hu, rfl, -⟩ := completes_of_finish (exec_ppmEncode he.session he.mode he.unfinished he.esc x) h
  rw [requireSymbol, require_eq_ok, requireHistRoom, require_eq_ok, requireCtxRoom, require_eq_ok] at hu
  obtain ⟨hsym, hroom, hctx, hu⟩ := hu
  obtain ⟨w, hw, hu⟩ := CmdResult.andThen_eq_ok.mp hu
  obtain ⟨v, hv, rfl⟩ := (encodeLoop_eq_ok (n := kmax e + 1) (.refl e) nofun).mp hw
  cases hu
  refine ⟨v, of_decide_eq_true hsym, of_decide_eq_true hroom, ctxOverflows_eq_false.mp (by simpa using hctx), hv, ?_⟩
  rw [Nat.zero_add, (encSteps_frame hv).sameModel.updateModel_withEsc]
  rfl

/-- After a symbol the session goes on, at the top level of the updated model (44_frequency_model.md R249, R260). -/
theorem SymbolEncoded.ppmEncoding (h : SymbolEncoded x e v f) (he : PpmEncoding e) : PpmEncoding f := by
  obtain ⟨hsym, hroom, hctx, hv, rfl⟩ := h
  have hok := he.ok.of_encSteps hv
  have hmodel := he.model.updateModel hsym hroom (ctxOverflows_eq_false.mpr hctx)
  obtain ⟨obuf, rc, rfl⟩ : ∃ obuf rc, v = { e with mem := { e.mem with obuf := obuf }, rc := rc } := ⟨_, _, encSteps_frame hv⟩
  have hencoding := he.toEncoding
  exact ⟨{ hencoding with ok := ⟨{ hok.coder with }, hok.nested⟩ }, ⟨{ hmodel with }, he.alpha_pos, he.alpha_le⟩, rfl⟩

theorem SymbolEncoded.inst (h : SymbolEncoded x e v f) : f.inst = e.inst := by
  rw [h.result]
  exact (encSteps_frame h.steps).inst

theorem SymbolEncoded.acfg (h : SymbolEncoded x e v f) : f.acfg = e.acfg := by
  rw [h.result]
  exact (encSteps_frame h.steps).sameModel.1

theorem SymbolEncoded.ppm (h : SymbolEncoded x e v f) : f.ppm = (updateModel e x).ppm := by
  rw [h.result]
  rfl

/-- The model's update does not move the coder. -/
theorem SymbolEncoded.locates (h : SymbolEncoded x e v f) (hf : Locates out f) : Locates out v := by
  obtain ⟨-, -, -, -, rfl⟩ := h
  exact { hf with }

theorem SymbolEncoded.before (h : SymbolEncoded x e v f) (he : PpmEncoding e) (hf : Locates out f) : Locates out e :=
  (h.locates hf).before_encSteps he.ok (he.triples_legal h.symbol) h.steps

theorem PpmEncoding.encodeSymbols_cons (he : PpmEncoding e) (h : encodeSymbols (x :: xs) e = some f) :
    ∃ g v, SymbolEncoded x e v g ∧ PpmEncoding g ∧ encodeSymbols xs g = some f := by
  obtain ⟨g, hg, hrest⟩ := Option.bind_eq_some_iff.mp h
  obtain ⟨v, hv⟩ := he.symbolEncoded hg
  exact ⟨g, v, hv, hv.ppmEncoding he, hrest⟩

/-- After the symbols the session goes on. -/
theorem PpmEncoding.run (he : PpmEncoding e) (h : encodeSymbols xs e = some f) : PpmEncoding f := by
  induction xs generalizing e with
  | nil => cases h; exact he
  | cons x xs ih =>
    obtain ⟨g, v, -, hg, hrest⟩ := he.encodeSymbols_cons h
    exact ih hg hrest

/-- A stream located after the symbols is located before them. -/
theorem Locates.before_symbols (he : PpmEncoding e) (h : encodeSymbols xs e = some f) (hf : Locates out f) : Locates out e := by
  induction xs generalizing e with
  | nil => cases h; exact hf
  | cons x xs ih =>
    obtain ⟨g, v, hv, hg, hrest⟩ := he.encodeSymbols_cons h
    exact hv.before he (ih hg hrest)

end Encode

theorem encodeSymbols_append (xs ys : List Nat) (s : State) :
    encodeSymbols (xs ++ ys) s = (encodeSymbols xs s).bind (encodeSymbols ys) := by
  induction xs generalizing s with
  | nil => rfl
  | cons x xs ih =>
    rw [List.cons_append, encodeSymbols, encodeSymbols, Option.bind_assoc]
    exact congrArg _ (funext ih)

/-! ### PPM_DECODE of the symbols -/

/-- d decodes the stream, is where the encoder e is, with the same model and with at least its room (44_frequency_model.md R262). -/
structure Mirrors (out : List Byte) (e d : State) : Prop where
  follows : Follows out e d
  agree : ModelsAgree e d
  seqCap : e.inst.seqCap ≤ d.inst.seqCap
  ctxCap : d.inst.ctxCap = 0 ∨ (e.inst.ctxCap ≠ 0 ∧ e.inst.ctxCap ≤ d.inst.ctxCap)

section Decode

variable {out : List Byte} {x : Nat} {xs : List Nat} {e f d v : State}

theorem Mirrors.histRoom (hd : Mirrors out e d) (h : SymbolEncoded x e v f) : d.ppm.hlen < d.inst.seqCap := by
  rw [hd.agree.ppm]
  exact h.histRoom.trans_le hd.seqCap

theorem Mirrors.ctxRoom (hd : Mirrors out e d) (h : SymbolEncoded x e v f) :
    d.inst.ctxCap = 0 ∨ tableCount d.ppm + (newOrders d).length ≤ d.inst.ctxCap := by
  have hroom := h.ctxRoom
  have hcap := hd.ctxCap
  rw [hd.agree.ppm, hd.agree.newOrders]
  omega

/-- Where the encoder has encoded a symbol, PPM_DECODE gives it and mirrors the encoder again (44_frequency_model.md R262). -/
theorem Mirrors.decode (hd : Mirrors out e d) (he : PpmEncoding e) (h : SymbolEncoded x e v f) (hf : Locates out f) :
    ∃ d', completes .ppmDecode d = some d' ∧ d'.res0 = toWord x ∧ Mirrors out f d' := by
  have ⟨hfollows, hagree, hseq, hctx⟩ := hd
  obtain ⟨hsession, hmode, hready, -⟩ := hfollows.decoding
  obtain ⟨c, hc, hfollow⟩ := hfollows.decSteps he.ok (he.triples_legal h.symbol) h.steps (h.locates hf)
  rw [← hagree.symbolTriples, ← hagree.kmax] at hc
  have hexec := exec_ppmDecode_of_ctxRoom hsession hmode hready (hagree.ppm ▸ he.esc) (hd.histRoom h) (hagree.alpha ▸ h.symbol) hc
    (hd.ctxRoom h)
  refine ⟨_, completes_eq_some.mpr ⟨hexec, hfollow.decoding.fault⟩, rfl, ?_, ⟨?_, ?_, ?_, ?_⟩, ?_, ?_⟩
  · rw [h.result]
    exact { hfollow with decoding := { hfollow.decoding with } }
  all_goals obtain ⟨rc, rfl⟩ : ∃ rc, c = { d with rc := rc } := ⟨_, decSteps_frame hc⟩
  · exact h.acfg ▸ hagree.alpha
  · exact h.acfg ▸ hagree.order
  · exact h.acfg ▸ hagree.method
  · exact (hagree.updateModel_ppm x).trans h.ppm.symm
  · exact h.inst ▸ hseq
  · exact h.inst ▸ hctx

/-- Where the encoder has encoded the symbols, the decoder gives them in order (44_frequency_model.md R262). -/
theorem Mirrors.run (hd : Mirrors out e d) (he : PpmEncoding e) (h : encodeSymbols xs e = some f) (hf : Locates out f) :
    ∃ d', decodeSymbols xs.length d = some (xs.map toWord, d') ∧ Mirrors out f d' := by
  induction xs generalizing e d with
  | nil => cases h; exact ⟨d, rfl, hd⟩
  | cons x xs ih =>
    obtain ⟨g, v, hv, hg, hrest⟩ := he.encodeSymbols_cons h
    obtain ⟨c, hc, hres, hmirror⟩ := hd.decode he hv (hf.before_symbols hg hrest)
    obtain ⟨d', hd', hend⟩ := ih hmirror hg hrest
    refine ⟨d', ?_, hend⟩
    rw [List.length_cons, decodeSymbols, hc, Option.bind_some, hd', Option.bind_some, hres, List.map_cons]

end Decode

/-! ### The start of a decode session -/

/-- A command that writes neither the history nor ESC leaves the model. -/
theorem Within.ppm {o : Opcode} {s u : State} (h : Within o s u) (hlen : .ppmHlen ∉ writtenRegs o) (hesc : writesEsc o = false) :
    u.ppm = s.ppm :=
  (congrArg State.ppm h).trans (by simp [footprint, hlen, hesc])

theorem inst_ppm_of_completes {i : Instr} {s t : State} (hlen : .ppmHlen ∉ writtenRegs i.opcode) (hesc : writesEsc i.opcode = false)
    (h : completes i s = some t) : t.inst = s.inst ∧ t.ppm = s.ppm := by
  obtain ⟨u, hu, rfl | ⟨f, n, rfl⟩⟩ := exec_cases (completes_eq_some.mp h).1
  · exact ⟨hu.inst, hu.ppm hlen hesc⟩
  · exact ⟨(u.takeFault_inst f n).trans hu.inst, (u.takeFault_ppm f n).trans (hu.ppm hlen hesc)⟩

theorem inst_ppm_of_loadBytes {bytes : List Byte} {s t : State} (h : loadBytes bytes s = some t) : t.inst = s.inst ∧ t.ppm = s.ppm := by
  induction bytes generalizing s with
  | nil => cases h; exact ⟨rfl, rfl⟩
  | cons b bs ih =>
    obtain ⟨u, hu, hrest⟩ := Option.bind_eq_some_iff.mp h
    obtain ⟨hinst, hppm⟩ := inst_ppm_of_completes (by simp [writtenRegs, Instr.opcode]) rfl hu
    exact ⟨(ih hrest).1.trans hinst, (ih hrest).2.trans hppm⟩

/-- A decoder just started has its parameters and an empty model (40_control.md R131). -/
theorem inst_ppm_of_openDecoder {out : List Byte} {d d0 : State} (h : openDecoder out d = some d0) :
    d0.inst = d.inst ∧ d0.ppm = Model.reset := by
  obtain ⟨u, hu, h⟩ := Option.bind_eq_some_iff.mp h
  obtain ⟨v, hv, h⟩ := Option.bind_eq_some_iff.mp h
  obtain ⟨hvinst, hvppm⟩ := inst_ppm_of_loadBytes hv
  obtain ⟨hinst, hppm⟩ := inst_ppm_of_completes (by decide) rfl h
  rw [hinst, hvinst, hppm, hvppm, (completes_init hu).1]
  exact ⟨rfl, rfl⟩

/-- Settles O60: the models start equal, each symbol's triples take the two coders the same way, and the finished stream is located in every interval of it. -/
theorem ppmRoundTrip : Obligations.PpmRoundTrip := by
  intro xs s s0 s1 s2 d d0 hn hseq hctx hinit hrun hfinish hopen halpha horder hmethod
  have he := ppmEncoding_of_init hinit
  obtain ⟨hs0, -⟩ := completes_init hinit
  have hinst : s0.inst = s.inst := (congrArg State.inst hs0).trans rfl
  have hppm : s0.ppm = Model.reset := (congrArg State.ppm hs0).trans rfl
  obtain ⟨hd0, hd0ppm⟩ := inst_ppm_of_openDecoder hopen
  obtain ⟨hloc, hlen⟩ := Locates.of_finish (he.run hrun).toEncoding hfinish
  have hmirror : Mirrors s2.mem.obuf s0 d0 := ⟨follows_of_openDecoder hn hinit hopen,
    ⟨halpha, horder, hmethod, hd0ppm.trans hppm.symm⟩, by rwa [hinst, hd0], by rwa [hinst, hd0]⟩
  refine ⟨fun k hk => ?_, ?_⟩
  · rw [← List.take_append_drop k xs, encodeSymbols_append] at hrun
    obtain ⟨e, hpre, hpost⟩ := Option.bind_eq_some_iff.mp hrun
    obtain ⟨d', hd', hend⟩ := hmirror.run he hpre (hloc.before_symbols (he.run hpre) hpost)
    rw [List.length_take_of_le hk] at hd'
    exact ⟨e, d', hpre, hd', hend.agree.ppm⟩
  · obtain ⟨d1, hd1, hend⟩ := hmirror.run he hrun hloc
    exact ⟨d1, hd1, hend.follows.inPtr.trans hlen.symm, hend.agree.ppm⟩

end Sys2Proof.Machine
end

section
/-! PROOFS. irq follows STATUS and INTEN, and faults are precise: what a command that faults leaves as it was (60_exceptions.md R303, R305, R310). -/

namespace Sys2Proof.Machine

/-! ### irq -/

/-- A field of one bit is that bit. -/
theorem bitField_self (v : Word) (k : Nat) : bitField v k k = (v.getLsbD k).toNat := by
  rw [bitField, Nat.add_sub_cancel_left, Nat.pow_one, BitVec.getLsbD, Nat.toNat_testBit]

theorem getLsbD_of_bitField {v : Word} {k : Nat} {b : Bool} (h : bitField v k k = b.toNat) : v.getLsbD k = b :=
  Function.LeftInverse.injective Bool.ofNat_toNat ((bitField_self v k).symm.trans h)

/-- The two bits of INTEN (10_state.md R31). -/
theorem bitField_intenWord (s : State) : bitField s.intenWord 0 0 = s.doneIE.toNat ∧ bitField s.intenWord 1 1 = s.faultIE.toNat := by
  have := s.doneIE.toNat_lt
  have := s.faultIE.toNat_lt
  simp only [bitField, State.intenWord, toWord, BitVec.toNat_ofNat]
  omega

/-- Settles O14: bits 1 and 2 of STATUS are DONE and FAULT, and bits 0 and 1 of INTEN their enables. -/
theorem irqFollowsStatusAndInten : Obligations.IrqFollowsStatusAndInten := by
  refine ⟨fun s => ?_, fun _ _ => rfl⟩
  obtain ⟨-, hdone, hfault, -⟩ := bitField_statusWord s
  obtain ⟨hdoneIE, hfaultIE⟩ := bitField_intenWord s
  rw [regValue, regValue, getLsbD_of_bitField hdone, getLsbD_of_bitField hfault, getLsbD_of_bitField hdoneIE, getLsbD_of_bitField hfaultIE,
    State.irq]

/-! ### What a fault leaves -/

/-- The faults that come before any effect: every fault of a command that is no coding loop, and those of the preconditions of the two that are (60_exceptions.md R305). -/
def BeforeEffects (o : Opcode) (f : FaultCode) : Prop :=
  o ∉ [Opcode.ppmEncode, .ppmDecode] ∨ f ∈ [FaultCode.noSession, .mode, .sequence, .badSymbol, .seqFull] ∨ (o = .ppmEncode ∧ f = .ctxFull)

/-- u is what fault f of opcode o may leave of s: the coder and ESC may have moved, where the fault does not come before any effect. -/
structure FaultLeaves (o : Opcode) (s : State) (f : FaultCode) (u : State) : Prop where
  frame : LoopFrame s u
  before : BeforeEffects o f → u = s

theorem LoopFrame.latch {s u : State} (h : LoopFrame s u) : u.latch = s.latch := (congrArg State.latch h).trans rfl

theorem FaultLeaves.refl (o : Opcode) (s : State) (f : FaultCode) : FaultLeaves o s f s := ⟨.refl s, fun _ => rfl⟩

/-- The work of opcode o on s is precise: where it faults it leaves what `FaultLeaves` says, and Q holds of the value it goes on with. -/
def CmdResult.Precise {α : Type} (o : Opcode) (s : State) (Q : α → Prop) : CmdResult α → Prop
  | .ok a => Q a
  | .raise f _ u => FaultLeaves o s f u
  | .stuck _ => True

namespace CmdResult.Precise

variable {α β : Type} {o : Opcode} {s : State} {Q : α → Prop}

theorem of_cases {x : CmdResult α} (hok : ∀ a, x = .ok a → Q a) (hraise : ∀ f n u, x = .raise f n u → FaultLeaves o s f u) :
    x.Precise o s Q := by
  cases x with
  | ok a => exact hok a rfl
  | raise f n u => exact hraise f n u rfl
  | stuck r => trivial

/-- A check in a state that its fault may leave. -/
theorem require_of_leaves {c : Bool} {f : FaultCode} {n : Nat} {u : State} {rest : CmdResult α} (hu : FaultLeaves o s f u)
    (h : rest.Precise o s Q) : (require c f n u rest).Precise o s Q := by
  cases c with
  | true => exact h
  | false => exact hu

/-- A check before any effect. -/
theorem require {c : Bool} {f : FaultCode} {n : Nat} {rest : CmdResult α} (h : rest.Precise o s Q) :
    (require c f n s rest).Precise o s Q := require_of_leaves (.refl o s f) h

theorem withNeeds {p : Opcode} {rest : CmdResult α} (h : rest.Precise o s Q) : (withNeeds p s rest).Precise o s Q := by
  rcases withNeeds_cases p s rest with ⟨_, he⟩ | ⟨_, _, he⟩ | ⟨_, _, he⟩ <;> rw [he]
  · exact h
  · exact .refl o s _
  · exact .refl o s _

theorem withCostEntry {table index : Nat} {rest : CostSel → CmdResult α} (h : ∀ sel, (rest sel).Precise o s Q) :
    (withCostEntry table index s rest).Precise o s Q := by
  unfold Machine.withCostEntry
  split
  · exact .refl o s _
  · next sel _ => exact .require (h sel)

theorem andThen {R : β → Prop} {x : CmdResult α} {f : α → CmdResult β} (hx : x.Precise o s Q) (hf : ∀ a, Q a → (f a).Precise o s R) :
    (x.andThen f).Precise o s R := by
  cases x with
  | ok a => exact hf a hx
  | raise c n u => exact hx
  | stuck r => trivial

end CmdResult.Precise

theorem encStep_precise (o : Opcode) (t : Triple) (s : State) : (encStep t s).Precise o s (·.fault = s.fault) :=
  .of_cases (fun _ h => (encStep_frame h).fault) (fun f _ _ h => (encStep_raise h).1 ▸ .refl o s f)

theorem decStep_precise (o : Opcode) (t : Triple) (s : State) : (decStep t s).Precise o s (·.fault = s.fault) :=
  .of_cases (fun _ h => (decStep_coderFrame h).fault) (fun f _ _ h => (decStep_raise h).1 ▸ .refl o s f)

theorem encFinish_precise (o : Opcode) (s : State) : (encFinish s).Precise o s (·.fault = s.fault) := by
  unfold encFinish
  split
  · exact .refl o s _
  · next u hu => exact .require (addCarry_frame hu).fault

/-- The faults of a step of the encode loop are none of the preconditions' (44_frequency_model.md R260). -/
theorem encodeLoop_precise (sym n : Nat) (s : State) : (encodeLoop sym n s).Precise .ppmEncode s (·.fault = s.fault) := by
  refine .of_cases (fun _ h => (encodeLoop_frame h).fault) fun f m u h => ?_
  obtain ⟨hframe, hcode⟩ := encodeLoop_raise h
  refine ⟨hframe, fun hb => ?_⟩
  fin_cases hcode <;> simp [BeforeEffects] at hb

/-- The faults of a step of the decode loop are none of the preconditions' (44_frequency_model.md R261). -/
theorem decodeLoop_precise (n : Nat) (s : State) : (decodeLoop n s).Precise .ppmDecode s (LoopFrame s ·.2) := by
  refine .of_cases (fun _ h => decodeLoop_frame h) fun f m u h => ?_
  obtain ⟨hframe, hcode⟩ := decodeLoop_raise h
  refine ⟨hframe, fun hb => ?_⟩
  fin_cases hcode <;> simp [BeforeEffects] at hb

/-- CTX_FULL of PPM_DECODE comes after its loop (60_exceptions.md R305). -/
theorem LoopFrame.faultLeaves_ctxFull {s u : State} (h : LoopFrame s u) : FaultLeaves .ppmDecode s .ctxFull u :=
  ⟨h, fun hb => by simp [BeforeEffects] at hb⟩

/-- Every command's work is precise, since every check comes before the change it guards (60_exceptions.md R305). -/
theorem exec_precise (i : Instr) (s : State) : ∃ x, exec i s = finish x ∧ x.Precise i.opcode s (·.fault = s.fault) := by
  cases i
  case nop => exact ⟨.ok s, rfl, rfl⟩
  all_goals refine ⟨_, rfl, .withNeeds ?_⟩
  case psuParse | ppmNumden => exact rfl
  case stmQuery | stmRead | psuToken | psuDread | rcOutbyte | ppmHasesc | ppmCdf | ppmIcdf | ppmEscape => exact .require rfl
  case stmPush | psuExpand | rcInbyte | rcDstart | rcFetch => exact .require (.require rfl)
  case ppmUpdate => exact .require (.require (.require rfl))
  case init => exact .require (.require (.require (.require (.require rfl))))
  case psuSetcost => exact .withCostEntry fun _ => .require rfl
  case psuGetcost => exact .withCostEntry fun _ => rfl
  case rcEncode => exact .require (encStep_precise _ _ s)
  case rcFinish => exact .require (encFinish_precise _ s)
  case rcDecode => exact .require (decStep_precise _ _ s)
  case ppmEncode sym =>
    exact .require (.require (.require (.require (.require (.andThen (encodeLoop_precise sym _ s) fun _ hu => hu)))))
  case ppmDecode =>
    exact .require (.require (.require (.andThen (decodeLoop_precise _ s) fun _ hu => .require_of_leaves hu.faultLeaves_ctxFull hu.fault)))

/-- A command that records a fault takes it in a state its work may leave (60_exceptions.md R303, R305). -/
theorem exec_takes_fault {i : Instr} {s t : State} {f : FaultCode} (hs : s.fault = none) (h : exec i s = .next t) (hf : t.fault = some f) :
    ∃ n u, FaultLeaves i.opcode s f u ∧ t = { u with busy := false, fault := some f, faultCmd := s.latch.word, faultInfo := toWord n } := by
  obtain ⟨x, hx, hprecise⟩ := exec_precise i s
  rcases finish_eq_next.mp (hx ▸ h) with ⟨u, rfl, rfl⟩ | ⟨g, n, u, rfl, rfl⟩
  · have hnone : u.fault = none := Eq.trans hprecise hs
    exact absurd (hnone.symm.trans hf) nofun
  · have hleaves : FaultLeaves i.opcode s g u := hprecise
    have htake := State.takeFault_of_none (hleaves.frame.fault.trans hs) g n
    obtain rfl : g = f := Option.some.inj ((congrArg State.fault htake).symm.trans hf)
    exact ⟨n, u, hleaves, hleaves.frame.latch ▸ htake⟩

/-- Settles O19: a fault is taken in the state the command's work left, and only the coding loops have moved anything by then. -/
theorem faultsArePrecise : Obligations.FaultsArePrecise := by
  intro i s t f hs h hf
  obtain ⟨n, u, ⟨hframe, hbefore⟩, rfl⟩ := exec_takes_fault hs h hf
  refine ⟨fun hb => ?_, ?_⟩
  · rw [hbefore hb]
  · unfold LoopFrame at hframe
    rw [hframe]

end Sys2Proof.Machine
end

section
/-! PROOFS. An overrun leaves the command in flight its own rule: the work goes on beside the recorded fault as it would without it (60_exceptions.md R306). -/

namespace Sys2Proof.Machine

/-! ### Work beside an overrun -/

/-- s with CMD_OVERRUN recorded, of the written word w while the word v is in flight (60_exceptions.md R306). -/
def State.overrun (w v : Word) (s : State) : State := { s with fault := some .cmdOverrun, faultCmd := w, faultInfo := v }

@[simp] theorem State.overrun_inst (w v : Word) (s : State) : (s.overrun w v).inst = s.inst := rfl
@[simp] theorem State.overrun_mem (w v : Word) (s : State) : (s.overrun w v).mem = s.mem := rfl
@[simp] theorem State.overrun_rc (w v : Word) (s : State) : (s.overrun w v).rc = s.rc := rfl

/-- The same work in other states: g moves the states its faults are raised in, h the values it goes on with. -/
def CmdResult.map {α β : Type} (h : α → β) (g : State → State) : CmdResult α → CmdResult β
  | .ok a => .ok (h a)
  | .raise f n s => .raise f n (g s)
  | .stuck r => .stuck r

/-- Work y is work x done with the overrun of w and v recorded, h moving the values it goes on with. -/
def Overrun {α : Type} (h : α → α) (w v : Word) (x y : CmdResult α) : Prop := y = x.map h (State.overrun w v)

namespace Overrun

variable {α β : Type} {h : α → α} {k : β → β} {w v : Word}

theorem require {c : Bool} {f : FaultCode} {n : Nat} {s : State} {x y : CmdResult α} (hxy : Overrun h w v x y) :
    Overrun h w v (require c f n s x) (require c f n (s.overrun w v) y) := by
  cases c with
  | true => exact hxy
  | false => rfl

theorem withNeeds {o : Opcode} {s : State} {x y : CmdResult α} (hxy : Overrun h w v x y) :
    Overrun h w v (withNeeds o s x) (withNeeds o (s.overrun w v) y) := by
  unfold Machine.withNeeds
  cases needsOf o with
  | nothing => exact hxy
  | session => exact .require hxy
  | encode => exact .require (.require hxy)
  | decode => exact .require (.require hxy)

theorem withCostEntry {table index : Nat} {s : State} {x y : CostSel → CmdResult α} (hxy : ∀ sel, Overrun h w v (x sel) (y sel)) :
    Overrun h w v (withCostEntry table index s x) (withCostEntry table index (s.overrun w v) y) := by
  unfold Machine.withCostEntry
  cases costSel table with
  | none => rfl
  | some sel => exact .require (hxy sel)

theorem andThen {x y : CmdResult α} {f g : α → CmdResult β} (hxy : Overrun h w v x y) (hfg : ∀ a, Overrun k w v (f a) (g (h a))) :
    Overrun k w v (x.andThen f) (y.andThen g) := by
  rw [hxy]
  cases x with
  | ok a => exact hfg a
  | raise f n s => rfl
  | stuck r => rfl

end Overrun

/-- Work y on states is work x with the overrun recorded beside it, which neither bears on the work nor is moved by it. -/
def RunsBeside (w v : Word) (x y : CmdResult State) : Prop := Overrun (State.overrun w v) w v x y

/-! ### The coder's steps and the coding loops -/

theorem emitBytes_overrun (w v : Word) (e : Nat) (s : State) : emitBytes e (s.overrun w v) = (emitBytes e s).overrun w v := by
  induction e generalizing s with
  | zero => rfl
  | succ e ih => exact ih (emitByte s)

theorem takeBytes_overrun (w v : Word) (e : Nat) (s : State) : takeBytes e (s.overrun w v) = (takeBytes e s).overrun w v := by
  induction e generalizing s with
  | zero => rfl
  | succ e ih => exact ih (takeByte s)

theorem addCarry_overrun (w v : Word) (s : State) (n : Nat) : addCarry (s.overrun w v) n = (addCarry s n).map (State.overrun w v) := by
  rcases Nat.lt_or_ge (s.rc.low + n) s.inst.modulus with h | h
  · rw [addCarry_of_lt h, addCarry_of_lt (s := s.overrun w v) h]
    rfl
  · rw [addCarry_of_le h, addCarry_of_le (s := s.overrun w v) h, Option.map_map]
    rfl

theorem encStep_overrun (w v : Word) (t : Triple) (s : State) : RunsBeside w v (encStep t s) (encStep t (s.overrun w v)) := by
  refine .require (.require (.require ?_))
  by_cases hcertain : t.freq = t.total
  · rw [if_pos hcertain, if_pos hcertain]
    rfl
  · simp only [if_neg hcertain, State.overrun_inst, State.overrun_mem, State.overrun_rc, addCarry_overrun]
    cases renormCount s.inst (scaled s.inst s.rc.range t.freq t.total) with
    | none => rfl
    | some e =>
      cases addCarry s (scaled s.inst s.rc.range t.cum t.total) with
      | none => rfl
      | some u => exact .require (congrArg CmdResult.ok (emitBytes_overrun w v e { u with rc := _ }))

theorem encFinish_overrun (w v : Word) (s : State) : RunsBeside w v (encFinish s) (encFinish (s.overrun w v)) := by
  unfold encFinish
  simp only [State.overrun_rc, addCarry_overrun]
  cases addCarry s (s.rc.range / 2) with
  | none => rfl
  | some u => exact .require rfl

theorem decStep_overrun (w v : Word) (t : Triple) (s : State) : RunsBeside w v (decStep t s) (decStep t (s.overrun w v)) := by
  refine .require (.require (.require ?_))
  by_cases hcertain : t.freq = t.total
  · rw [if_pos hcertain, if_pos hcertain]
    rfl
  · simp only [if_neg hcertain, State.overrun_inst, State.overrun_rc]
    refine .require ?_
    cases renormCount s.inst (scaled s.inst s.rc.range t.freq t.total) with
    | none => rfl
    | some e => exact .require (congrArg CmdResult.ok (takeBytes_overrun w v e { s with rc := { s.rc with
        low := (s.rc.low + scaled s.inst s.rc.range t.cum t.total) % s.inst.modulus, range := scaled s.inst s.rc.range t.freq t.total } }))

theorem sameModel_overrun (w v : Word) (s : State) : SameModel s (s.overrun w v) := ⟨rfl, rfl, rfl, rfl⟩

theorem encodeLoop_overrun (w v : Word) (sym n : Nat) (s : State) :
    RunsBeside w v (encodeLoop sym n s) (encodeLoop sym n (s.overrun w v)) := by
  have hm := sameModel_overrun w v s
  induction n generalizing s with
  | zero =>
    rw [encodeLoop, encodeLoop, hm.cdf, hm.massS]
    exact encStep_overrun w v _ s
  | succ k ih =>
    rw [encodeLoop, encodeLoop, hm.weight, hm.massS, hm.massE, hm.massD, hm.cdf, hm.pdf]
    split
    · exact .andThen (encStep_overrun w v _ s) fun u => ih (escapeOnce u) (sameModel_overrun w v _)
    · exact encStep_overrun w v _ s

@[simp] theorem decFetch_overrun (w v : Word) (total : Nat) (s : State) : decFetch total (s.overrun w v) = decFetch total s := rfl

/-- What the decode loop gives, with the overrun recorded. -/
def overrunSnd (w v : Word) (r : Nat × State) : Nat × State := (r.1, r.2.overrun w v)

theorem decodeLoop_overrun (w v : Word) (n : Nat) (s : State) :
    Overrun (overrunSnd w v) w v (decodeLoop n s) (decodeLoop n (s.overrun w v)) := by
  induction n generalizing s with
  | zero =>
    have hm := sameModel_overrun w v s
    unfold decodeLoop
    simp only [hm.massS, hm.icdf, decFetch_overrun]
    split
    · rfl
    · split
      · rfl
      · exact .andThen (decStep_overrun w v _ s) fun _ => rfl
  | succ k ih =>
    have hm := sameModel_overrun w v s
    unfold decodeLoop
    simp only [hm.massS, hm.massE, hm.massD, hm.icdf, hm.cdf, hm.pdf, hm.admitted, decFetch_overrun]
    split
    · exact ih (escapeOnce s)
    · split
      · rfl
      · split
        · exact .andThen (decStep_overrun w v _ s) fun u => ih (escapeOnce u)
        · exact .andThen (decStep_overrun w v _ s) fun _ => rfl

/-! ### Every command -/

/-- No command's work bears on the overrun recorded beside it, nor the overrun on the work. -/
theorem exec_overrun (i : Instr) (s : State) (w v : Word) :
    ∃ x y, exec i s = finish x ∧ exec i (s.overrun w v) = finish y ∧ RunsBeside w v x y := by
  cases i
  case nop => exact ⟨.ok s, _, rfl, rfl, rfl⟩
  all_goals refine ⟨_, _, rfl, rfl, .withNeeds ?_⟩
  case psuParse | ppmNumden => exact rfl
  case stmQuery | stmRead | psuToken | psuDread | rcOutbyte | ppmHasesc | ppmCdf | ppmIcdf | ppmEscape => exact .require rfl
  case stmPush | psuExpand | rcInbyte | rcDstart | rcFetch => exact .require (.require rfl)
  case ppmUpdate => exact .require (.require (.require rfl))
  case init => exact .require (.require (.require (.require (.require rfl))))
  case psuSetcost => exact .withCostEntry fun _ => .require rfl
  case psuGetcost => exact .withCostEntry fun _ => rfl
  case rcEncode => exact .require (encStep_overrun w v _ s)
  case rcFinish => exact .require (encFinish_overrun w v s)
  case rcDecode => exact .require (decStep_overrun w v _ s)
  case ppmEncode sym =>
    exact .require (.require (.require (.require (.require (.andThen (encodeLoop_overrun w v sym _ s) fun _ => rfl)))))
  case ppmDecode =>
    exact .require (.require (.require (.andThen (decodeLoop_overrun w v _ s) fun _ => .require rfl)))

/-- Beside an overrun a command's own fault is not recorded, and BUSY is cleared all the same (60_exceptions.md R306). -/
theorem takeFault_overrun (w v : Word) (s : State) (f : FaultCode) (n : Nat) :
    (s.overrun w v).takeFault f n = (s.takeFault f n).overrun w v := by
  rw [State.takeFault_of_some (s := s.overrun w v) rfl]
  cases hs : s.fault with
  | none => rw [State.takeFault_of_none hs]; rfl
  | some g => rw [State.takeFault_of_some hs]; rfl

/-- The end of work beside an overrun is that of the work alone, but for DONE and the fault registers. -/
theorem RunsBeside.finish {w v : Word} {x y : CmdResult State} (hxy : RunsBeside w v x y) {t : State} (h : finish x = .next t) :
    ∃ d, finish y = .next { t.overrun w v with busy := false, done := d } := by
  rw [hxy]
  rcases finish_eq_next.mp h with ⟨u, rfl, rfl⟩ | ⟨f, n, u, rfl, rfl⟩
  · exact ⟨u.done, rfl⟩
  · exact ⟨_, congrArg _ (takeFault_overrun w v u f n)⟩

/-- Settles O7: the command's work runs beside the recorded overrun as it would alone, and its end, with a fault recorded, leaves DONE at 0. -/
theorem overrunDoesNotAbortTheCommand : Obligations.OverrunDoesNotAbortTheCommand := by
  intro s w i t hf hb hd h
  rw [writeCmd_of_busy hf hb]
  obtain ⟨x, y, hx, hy, hxy⟩ := exec_overrun i s w s.latch.word
  obtain ⟨d, hend⟩ := hxy.finish (hx ▸ h)
  obtain ⟨-, -, hdone, -⟩ := exec_busy_done_faultCmd (hy.trans hend)
  obtain rfl : d = false := (hdone rfl).trans hd
  exact hy.trans hend

end Sys2Proof.Machine
end

section
/-! PROOFS. Reset, the phases of a session, and what a register reads while a command is in flight (10_state.md R23, 43_range_coder.md R210 to R217, 60_exceptions.md R301, 70_reset_and_hazards.md R330, R342, R348). -/

namespace Sys2Proof.Machine

/-! ### Reads while a command is in flight -/

theorem inFlight_of_command {s : State} {i : Instr} (h : decode s.latch.word = .command i) : inFlight s = some i.opcode := by
  rw [inFlight, h]

/-- No command's rule names STATUS or a fault register among the registers it writes. -/
theorem not_status_or_fault_of_written {o : Opcode} {r : Reg} (h : r ∈ writtenRegs o) : r ∉ [Reg.status, .faultCmd, .faultInfo] := by
  have hnone : ∀ q ∈ [Reg.status, .faultCmd, .faultInfo], q ∉ writtenRegs o := by cases o <;> decide
  exact fun hr => hnone r hr h

/-- Of every register but STATUS and the fault registers, the rule of the command in flight opens all bits or none. -/
theorem openBits_of_command {s : State} {i : Instr} (h : decode s.latch.word = .command i) {r : Reg}
    (hr : r ∉ [Reg.status, .faultCmd, .faultInfo]) : openBits s r = if r ∈ writtenRegs i.opcode then BitVec.allOnes 64 else 0#64 := by
  cases r with
  | status | faultCmd | faultInfo => simp at hr
  | _ => simp only [openBits, inFlight_of_command h]

theorem drawnBits_of_busy {s : State} (h : s.busy = true) (r : Reg) : drawnBits s r = openBits s r := if_pos h

/-- A bit that is not drawn reads exactly. -/
theorem getLsbD_regRead {s : State} {r : Reg} {k : Nat} (hk : k < 64) (h : (drawnBits s r).getLsbD k = false) :
    (regRead s r).getLsbD k = (regValue s r).getLsbD k := by
  rw [regRead, BitVec.getLsbD_or, BitVec.getLsbD_and, BitVec.getLsbD_and, BitVec.getLsbD_not, h, Bool.and_false, Bool.or_false,
    decide_eq_true hk, Bool.true_and, Bool.not_false, Bool.and_true]

theorem regRead_of_noneDrawn {s : State} {r : Reg} (h : drawnBits s r = 0#64) : regRead s r = regValue s r :=
  BitVec.eq_of_getLsbD_eq fun _ hk => getLsbD_regRead hk (by rw [h, BitVec.getLsbD_zero])

theorem regRead_of_allDrawn {s : State} {r : Reg} (h : drawnBits s r = BitVec.allOnes 64) : regRead s r = Config.freeRead s.env.draws := by
  rw [regRead, h, BitVec.not_allOnes, BitVec.and_zero, BitVec.and_allOnes, BitVec.zero_or]

/-- A mask that is laid on or not opens no bit outside it. -/
theorem getLsbD_mask {m : Word} {k : Nat} (h : m.getLsbD k = false) (c : Prop) [Decidable c] : (if c then m else 0#64).getLsbD k = false := by
  split
  · exact h
  · exact BitVec.getLsbD_zero

/-- BUSY is in neither of the fields of STATUS that a command in flight opens. -/
theorem drawnBits_status_busy (s : State) : (drawnBits s .status).getLsbD 0 = false := by
  refine getLsbD_mask ?_ _
  rw [openBits, BitVec.getLsbD_or, getLsbD_mask (by decide : statusFaultMask.getLsbD 0 = false), Bool.false_or]
  split
  · exact getLsbD_mask (by decide : statusEscMask.getLsbD 0 = false) _
  · exact BitVec.getLsbD_zero

theorem regRead_status_busy (s : State) : (regRead s .status).getLsbD 0 = s.busy := by
  obtain ⟨hbusy, -⟩ := bitField_statusWord s
  exact (getLsbD_regRead (by decide) (drawnBits_status_busy s)).trans (getLsbD_of_bitField hbusy)

/-- Settles O12: the bits drawn are all or none of a register, but for STATUS and the fault registers, and BUSY is never drawn. -/
theorem readsWhileBusyAreExactOrFree : Obligations.ReadsWhileBusyAreExactOrFree := by
  refine fun s r => ⟨fun hidle => regRead_of_idle hidle r, fun i hb hd => ⟨fun hw => ?_, fun hw hr => ?_⟩, regRead_status_busy s⟩
  · exact regRead_of_allDrawn (by rw [drawnBits_of_busy hb, openBits_of_command hd (not_status_or_fault_of_written hw), if_pos hw])
  · exact regRead_of_noneDrawn (by rw [drawnBits_of_busy hb, openBits_of_command hd hr, if_neg hw])

/-! ### Reset -/

theorem writeCtrl_of_clear {s : State} {v : Word} (h : v.getLsbD 0 = false) : writeCtrl s v = s := if_neg (Bool.eq_false_iff.mp h)

theorem writeCtrl_of_set {s : State} {v : Word} (h : v.getLsbD 0 = true) : writeCtrl s v = State.resetOf s.inst s.env := if_pos h

/-- CTRL is at offset 0x008 (10_state.md R23). -/
theorem performAccess_write_ctrl (s : State) (v : Word) :
    performAccess s (.write (s.inst.regBase + 0x008) 8 v) = .next (writeCtrl s v) :=
  performAccess_write_row s (e := (0x008, .ctrl)) (by decide) v

/-- The reset column of the register map (10_state.md, section 2). -/
theorem regValue_resetOf (p : Params) (env : Env) : ∀ e ∈ resetValues, regValue (State.resetOf p env) e.1 = e.2 := by
  intro e he
  fin_cases he <;> rfl

/-- The PARAM registers show the parameters alone (10_state.md R45). -/
theorem regValue_param {s t : State} (h : t.inst = s.inst) :
    ∀ q ∈ [Reg.paramN, .paramSeqCap, .paramObufCap, .paramIbufCap, .paramAMax, .paramWMax, .paramMaxlenMax, .paramKMax, .paramCtxCap],
      regValue t q = regValue s q := by
  intro q hq
  fin_cases hq <;> simp only [regValue, h]

/-- Every entry of the cost tables is 0 after reset (20_memory.md R76). -/
theorem costTable_resetOf (p : Params) (env : Env) (sel : CostSel) (j : Nat) :
    CostTable.at ((State.resetOf p env).mem.costTable sel) j = 0#16 := by
  cases sel <;> rfl

/-- Settles O8: `rst` and the write of CTRL both lead to `State.resetOf` with the same parameters, which holds the listed values. -/
theorem resetGivesTheListedValues : Obligations.ResetGivesTheListedValues := by
  refine fun s v => ⟨fun hv => ?_, fun hv => ⟨State.resetOf s.inst s.env, rfl, ?_, regValue_resetOf _ _, rfl, regValue_param rfl, rfl, rfl,
    costTable_resetOf _ _, rfl, rfl, rfl, rfl⟩⟩
  · rw [performAccess_write_ctrl, writeCtrl_of_clear hv]
  · rw [performAccess_write_ctrl, writeCtrl_of_set hv]

/-- Settles O23: each part of the invariant holds at reset. -/
theorem resetMeetsTheInvariant : Obligations.ResetMeetsTheInvariant := fun p env =>
  { config := configOk_resetOf p env
    spaces := spacesOk_resetOf p env
    status := statusOk_resetOf p env
    coder := coderOk_of_rc_eq_reset rfl
    interval := intervalOk_of_reset rfl rfl
    model := modelOk_of_ppm_eq_reset rfl }

/-! ### The phases of a session -/

theorem met_of_encode {o : Opcode} {s : State} (ho : o ∈ [Opcode.rcEncode, .rcFinish, .ppmEncode]) (hs : s.session = true)
    (hm : s.mode = .encode) : (needsOf o).met s := by
  rw [(needsOf_eq_encode o).mpr ho]
  exact ⟨hs, hm⟩

theorem met_of_decode {o : Opcode} {s : State} (ho : o ∈ [Opcode.rcInbyte, .rcDstart, .rcFetch, .rcDecode, .ppmDecode])
    (hs : s.session = true) (hm : s.mode = .decode) : (needsOf o).met s := by
  rw [(needsOf_eq_decode o).mpr ho]
  exact ⟨hs, hm⟩

/-- A command whose needs are met takes the fault its work raises. -/
theorem exec_of_raise {i : Instr} {s u : State} {x : CmdResult State} {f : FaultCode} {n : Nat}
    (hx : exec i s = finish (withNeeds i.opcode s x)) (hmet : (needsOf i.opcode).met s) (hraise : x = .raise f n u) :
    exec i s = .next (u.takeFault f n) := by
  rw [hx, finish_withNeeds hmet, hraise, finish_raise]

section
variable {α : Type} {s : State} (rest : CmdResult α)

theorem requireNotFinished_raise (h : s.rcFinished = true) : requireNotFinished s rest = .raise .sequence 0 s := by
  rw [requireNotFinished, h, Bool.not_true, require_false]

theorem requireNotFinished_pass (h : s.rcFinished = false) : requireNotFinished s rest = rest := by
  rw [requireNotFinished, h, Bool.not_false, require_true]

theorem requireStarted_raise (h : s.rcDecReady = false) : requireStarted s rest = .raise .sequence 0 s := by
  rw [requireStarted, h, require_false]

theorem requireStarted_pass (h : s.rcDecReady = true) : requireStarted s rest = rest := by
  rw [requireStarted, h, require_true]

theorem requireNoEscape_raise (h : s.ppm.esc ≠ 0) : requireNoEscape s rest = .raise .sequence 0 s := require_fail h ..

end

/-- The encoder's commands check RC_FINISHED right after their needs (43_range_coder.md R210, R212, 44_frequency_model.md R260). -/
theorem exec_eq_requireNotFinished {i : Instr} (hi : i.opcode ∈ [Opcode.rcEncode, .rcFinish, .ppmEncode]) (s : State) :
    ∃ x, exec i s = finish (withNeeds i.opcode s (requireNotFinished s x)) := by
  cases i with
  | rcEncode | rcFinish | ppmEncode => exact ⟨_, rfl⟩
  | _ => simp [Instr.opcode] at hi

/-- The decoder's commands check RC_DEC_READY right after their needs (43_range_coder.md R216, R217, 44_frequency_model.md R261). -/
theorem exec_eq_requireStarted {i : Instr} (hi : i.opcode ∈ [Opcode.rcFetch, .rcDecode, .ppmDecode]) (s : State) :
    ∃ x, exec i s = finish (withNeeds i.opcode s (requireStarted s x)) := by
  cases i with
  | rcFetch | rcDecode | ppmDecode => exact ⟨_, rfl⟩
  | _ => simp [Instr.opcode] at hi

/-- Settles O18: each command's phase check follows its needs, and that of ESC the check of the coder's phase. -/
theorem phaseOrderIsEnforced : Obligations.PhaseOrderIsEnforced := by
  refine fun i s hs => ⟨fun hi hm hfin => ?_, fun hi hm hready => ?_, fun hi hm hready => ?_, fun hi hm hfin hesc => ?_,
    fun hi hm hready hesc => ?_⟩
  · obtain ⟨x, hx⟩ := exec_eq_requireNotFinished hi s
    exact exec_of_raise hx (met_of_encode hi hs hm) (requireNotFinished_raise x hfin)
  · obtain ⟨x, hx⟩ := exec_eq_requireStarted hi s
    exact exec_of_raise hx (met_of_decode (List.mem_cons_of_mem _ (List.mem_cons_of_mem _ hi)) hs hm) (requireStarted_raise x hready)
  · cases i with
    | rcDstart => exact exec_of_raise rfl (met_of_decode (o := .rcDstart) (by decide) hs hm) (by rw [hready]; rfl)
    | _ => nomatch hi
  · cases i with
    | ppmEncode sym =>
      exact exec_of_raise rfl (met_of_encode (o := .ppmEncode) (by decide) hs hm)
        ((requireNotFinished_pass _ hfin).trans (requireNoEscape_raise _ hesc))
    | _ => nomatch hi
  · cases i with
    | ppmDecode =>
      exact exec_of_raise rfl (met_of_decode (o := .ppmDecode) (by decide) hs hm)
        ((requireStarted_pass _ hready).trans (requireNoEscape_raise _ hesc))
    | _ => nomatch hi

end Sys2Proof.Machine
end
